-- ==== Sys2Proof/Word.lean ====
section
/-! DEFINITION. Word.lean: the widths HUFFCORE's values come in. Every value is unsigned
(`00_scope.md` R14); bit 0 is the least significant bit (R15). -/

namespace Sys2Proof

/-- A 32-bit register or command word (`10_state.md` R32). -/
abbrev Word := BitVec 32

/-- One byte of BUF and one byte value of the alphabet (`00_scope.md` R9). -/
abbrev Byte := BitVec 8

/-- A node index, or NULL = 0x1FF (`10_state.md` R43). -/
abbrev NodeIdx := BitVec 9

/-- A node frequency and TOTAL (`00_scope.md` R11: NODE_FREQ_W = TOTAL_W = 40). -/
abbrev Freq40 := BitVec 40

/-- A stored code, right-aligned (`10_state.md` R49, `00_scope.md` R16). -/
abbrev CodeBits := BitVec 255

end Sys2Proof
end

