-- ==== Sys2Proof/Config.lean ====
section
/-! DEFINITION. Config.lean: the fixed parameters of HUFFCORE (`00_scope.md` R11 to R13), the open
parameter MEM_SIZE, and the free values ("any value", R19). A free value is opaque: no proof can see
what it is, so a claim that mentions one holds for every draw. -/

namespace Sys2Proof.Config

/-- NSYM: the number of symbols (`00_scope.md` R9, R11). -/
abbrev nsym : Nat := 256

/-- NNODE: the number of arena entries (`00_scope.md` R11, `10_state.md` R45). -/
abbrev nnode : Nat := 511

/-- QCAP: the capacity of the priority queue (`00_scope.md` R11, `10_state.md` R47). -/
abbrev qcap : Nat := 256

/-- MAXCODE: the longest code, in bits (`00_scope.md` R11, `10_state.md` R50). -/
abbrev maxcode : Nat := 255

/-- NULL: the absent node index (`00_scope.md` R11). -/
abbrev null : NodeIdx := 0x1FF

/-- The constant the ID register reads (`00_scope.md` R13). -/
abbrev idValue : Word := 0x48554646

/-- The smallest MEM_SIZE (`00_scope.md` R12). -/
abbrev minMemSize : Nat := 8

/-- The largest MEM_SIZE (`00_scope.md` R12). -/
abbrev maxMemSize : Nat := 2 ^ 32

/-- MEM_SIZE of `State.reset`: the value the spec's vectors use (`95_test_vectors.md`, conventions).
DESIGN CHOICE (log 1): `00_scope.md` R12 leaves MEM_SIZE to the model's user, who builds a machine of
another size with `State.resetWith`. -/
abbrev defaultMemSize : Nat := 256

/-- The free draw number `k` for the BUF byte at an address: BUF after hardware reset (`10_state.md`
R58), output bytes after an error or a cancellation (`60_exceptions.md` R336), a busy read of an
output byte (`70_reset_and_hazards.md` R381). Logs 2, 3 and 5. -/
opaque freeByte : Nat → Nat → Byte

/-- The free draw number `k` for a register read that returns any value (`70_reset_and_hazards.md`
R381). Log 4. -/
opaque freeWord : Nat → Word

/-- The free draw number `k` for the outcome of a command with a cancellation request
(`45_control.md` R306): true is outcome (b), cancellation. Log 6. -/
opaque cancelDraw : Nat → Bool

end Sys2Proof.Config
end

