-- ==== Sys2Proof/Syntax.lean ====
section
/-! DEFINITION. Syntax.lean: the commands of HUFFCORE-CMD version 1 (`00_scope.md` R3), one constructor
per row of the opcode map (`30_encoding.md` R114), and the three fields of the one command format CMD32
(R110). -/

namespace Sys2Proof

/-- The thirteen commands. FTADD alone carries an operand: IMM8, the byte value `v` (`30_encoding.md`
R112). Every other operand is a register the command reads by name. -/
inductive Instr where
  | nop
  | reset
  | ftclr
  | ftadd (v : Byte)
  | count
  | parsehdr
  | build
  | gencode
  | wrhdr
  | encode
  | decode
  | compress
  | decompress
  deriving DecidableEq, Repr

/-- The fields of a command word in the format CMD32 (`30_encoding.md` R110). -/
structure CmdFields where
  /-- OP, bits [7:0]: the opcode. -/
  op   : BitVec 8
  /-- IMM8, bits [15:8]: the byte operand of FTADD. -/
  imm8 : BitVec 8
  /-- RSVD, bits [31:16]: reserved. -/
  rsvd : BitVec 16
  deriving DecidableEq, Repr

/-- Why a command word is no command (`30_encoding.md` R115), in the order R111 checks. -/
inductive IllFormed where
  /-- OP is one of the reserved opcodes 0x0D..0xFF. -/
  | reservedOpcode
  /-- RSVD is not 0. -/
  | nonzeroReserved
  /-- IMM8 is not 0 and the opcode is not FTADD's. -/
  | nonzeroImmediate
  deriving DecidableEq, Repr

end Sys2Proof
end

