-- ==== Sys2Proof/WellFormed.lean ====
section
/-! DEFINITION. WellFormed.lean: which command fields name a command (`30_encoding.md` R111, R115), and
which terms of `Instr` are well formed. -/

namespace Sys2Proof

/-- The first check of `30_encoding.md` R111 that the fields of a word fail; `none` when the word
names a command. -/
def CmdFields.illFormed (f : CmdFields) : Option IllFormed :=
  if 0x0C < f.op then some .reservedOpcode
  else if f.rsvd ≠ 0 then some .nonzeroReserved
  else if f.op ≠ 0x03 ∧ f.imm8 ≠ 0 then some .nonzeroImmediate
  else none

/-- The fields name a command. -/
def CmdFields.wf (f : CmdFields) : Bool := f.illFormed == none

/-- A term of `Instr` is well formed when its operand fits its field. FTADD's operand is a u8 "used as
it stands" (`30_encoding.md` R112) and has the type of one, and no other command has an operand, so every
term is. -/
def Instr.wf : Instr → Bool
  | .nop => true
  | .reset => true
  | .ftclr => true
  | .ftadd v => decide (v.toNat < Config.nsym)
  | .count => true
  | .parsehdr => true
  | .build => true
  | .gencode => true
  | .wrhdr => true
  | .encode => true
  | .decode => true
  | .compress => true
  | .decompress => true

end Sys2Proof
end

