-- ==== Sys2Proof/Decode.lean ====
section
/-! DEFINITION. Decode.lean: command decode (`30_encoding.md` R111, R114), total on every 32-bit word and
rejecting by name, and the encoder written from the same opcode map. -/

namespace Sys2Proof

/-- The fields of a command word (`30_encoding.md` R110). -/
def fieldsOf (w : Word) : CmdFields :=
  { op := w.extractLsb' 0 8, imm8 := w.extractLsb' 8 8, rsvd := w.extractLsb' 16 16 }

/-- The word with the given fields (`30_encoding.md` R110). -/
def wordOf (f : CmdFields) : Word := f.rsvd ++ f.imm8 ++ f.op

/-- The command of an opcode, `v` being IMM8 (`30_encoding.md` R114). -/
def commandOf (op : BitVec 8) (v : Byte) : Option Instr :=
  match op.toNat with
  | 0x00 => some .nop
  | 0x01 => some .reset
  | 0x02 => some .ftclr
  | 0x03 => some (.ftadd v)
  | 0x04 => some .count
  | 0x05 => some .parsehdr
  | 0x06 => some .build
  | 0x07 => some .gencode
  | 0x08 => some .wrhdr
  | 0x09 => some .encode
  | 0x0A => some .decode
  | 0x0B => some .compress
  | 0x0C => some .decompress
  | _ => none

/-- Command decode (`30_encoding.md` R111): the command a word encodes, or the name of the check it
fails. -/
def decode (w : Word) : Except IllFormed Instr :=
  let f := fieldsOf w
  match f.illFormed with
  | some e => .error e
  | none =>
    match commandOf f.op f.imm8 with
    | some i => .ok i
    | none => .error .reservedOpcode

/-- The opcode of a command (`30_encoding.md` R114). -/
def Instr.opcode : Instr → BitVec 8
  | .nop => 0x00
  | .reset => 0x01
  | .ftclr => 0x02
  | .ftadd _ => 0x03
  | .count => 0x04
  | .parsehdr => 0x05
  | .build => 0x06
  | .gencode => 0x07
  | .wrhdr => 0x08
  | .encode => 0x09
  | .decode => 0x0A
  | .compress => 0x0B
  | .decompress => 0x0C

/-- The IMM8 field of a command: FTADD's byte value, and 0 for every other command (`30_encoding.md`
R110). -/
def Instr.imm8 : Instr → Byte
  | .nop => 0
  | .reset => 0
  | .ftclr => 0
  | .ftadd v => v
  | .count => 0
  | .parsehdr => 0
  | .build => 0
  | .gencode => 0
  | .wrhdr => 0
  | .encode => 0
  | .decode => 0
  | .compress => 0
  | .decompress => 0

/-- The command word of a command (`30_encoding.md` R114). -/
def encode (i : Instr) : Word := wordOf { op := i.opcode, imm8 := i.imm8, rsvd := 0 }

/-- The instruction the decoder reads from a table word of `nbits` bits; the bits above are 0. A command
is always one 32-bit word (`30_encoding.md` R116), so a longer row reads as none. -/
def decodeTableWord (nbits w : Nat) : Option Instr :=
  if nbits ≤ 32 then (decode (BitVec.ofNat 32 (w % 2 ^ nbits))).toOption else none

end Sys2Proof
end

