-- ==== Sys2Proof/Machine/State.lean ====
section
/-! DEFINITION. Machine/State.lean: every piece of state the spec gives HUFFCORE (`10_state.md`, listed in
INVENTORY.md), the host's pending operations, the outcomes of a step, and the machine after a hardware
reset. -/

namespace Sys2Proof.Machine

/-- BUF (`20_memory.md` R80): the bytes that hold a known value, by address, strictly rising. An
unlisted address holds a byte never written since hardware reset, which is "any value" (`10_state.md` R58,
log 2): it has no value of its own that an entry could repeat. -/
abbrev Memory := List Host.Cell

/-- The kind of an arena entry (`10_state.md` R43). -/
inductive NodeKind where
  | empty
  | leaf
  | internal
  | unary
  deriving DecidableEq, Repr

/-- One arena entry NODE[i] (`10_state.md` R43). There is no parent field (R48). -/
structure Node where
  kind  : NodeKind
  value : Byte
  left  : NodeIdx
  right : NodeIdx
  freq  : Freq40
  deriving DecidableEq, Repr

/-- An EMPTY entry (`10_state.md` R44). -/
def Node.empty : Node :=
  { kind := .empty, value := 0, left := Config.null, right := Config.null, freq := 0 }

/-- The frequency table FT (`10_state.md` R40). -/
structure FreqTable where
  /-- FREQ[v]; 0 means v is absent. -/
  freq    : Vector Word 256
  /-- ORDER[k]: the k-th byte value in table order. -/
  order   : Vector Byte 256
  /-- LEAFCNT, 0..256. -/
  leafCnt : BitVec 9
  /-- TOTAL, the sum of the frequencies. -/
  total   : Freq40
  deriving DecidableEq, Repr

/-- The empty table (`10_state.md` R57). -/
def FreqTable.empty : FreqTable :=
  { freq := Vector.replicate _ 0, order := Vector.replicate _ 0, leafCnt := 0, total := 0 }

/-- The node arena with ROOT and NODECNT (`10_state.md` R43, R46). -/
structure Arena where
  node    : Vector Node 511
  root    : NodeIdx
  nodeCnt : BitVec 10
  deriving DecidableEq, Repr

/-- The arena with every entry EMPTY (`10_state.md` R57). -/
def Arena.empty : Arena :=
  { node := Vector.replicate _ Node.empty, root := Config.null, nodeCnt := 0 }

/-- The codebook (`10_state.md` R49). -/
structure Codebook where
  codeLen  : Vector Byte 256
  codeBits : Vector CodeBits 256
  maxLen   : Byte
  deriving DecidableEq, Repr

/-- The codebook with no code (`10_state.md` R57). -/
def Codebook.empty : Codebook :=
  { codeLen := Vector.replicate _ 0, codeBits := Vector.replicate _ 0, maxLen := 0 }

/-- The STATUS bits (`10_state.md` R35). -/
structure Status where
  busy      : Bool
  done      : Bool
  err       : Bool
  hostErr   : Bool
  treeValid : Bool
  cbValid   : Bool
  hdrValid  : Bool
  deriving DecidableEq, Repr

/-- Every STATUS bit 0 (`10_state.md` R35, R57). -/
def Status.reset : Status :=
  { busy := false, done := false, err := false, hostErr := false, treeValid := false, cbValid := false,
    hdrValid := false }

/-- The sub-commands PHASE ranges over (`10_state.md` R55, `45_control.md` R303, R304). -/
inductive Phase where
  | count
  | build
  | gencode
  | wrhdr
  | encode
  | parsehdr
  | decode
  deriving DecidableEq, Repr

/-- The CORE's state that exists only while a command runs (`10_state.md` R55, with Q of R47). -/
structure Work where
  /-- PHASE: the current sub-command of COMPRESS or DECOMPRESS. -/
  phase    : Option Phase
  /-- Q: the priority queue, a set of node indices. -/
  q        : List NodeIdx
  /-- ACC: the bit packer's accumulator. -/
  acc      : Byte
  /-- NA: the bit packer's bit count, 0..8 (`90_conflicts.md` C13). -/
  na       : BitVec 4
  /-- CUR: the decoder's cursor node. -/
  cur      : NodeIdx
  /-- CNT: the count of symbols decoded. -/
  cnt      : BitVec 40
  /-- KBIT: the index of the bit being deserialized. -/
  kbit     : BitVec 35
  /-- ABORT_REQ: a cancellation request is pending (`45_control.md` R306). -/
  abortReq : Bool
  /-- OUT_START: OUT_LEN when the command began writing output. -/
  outStart : Word
  deriving DecidableEq, Repr

/-- The busy-only state while no command runs. Q is empty and ABORT_REQ is 0 by `10_state.md` R57; the
others do not exist while idle (R56), and the values here are DESIGN CHOICE (log 7). -/
def Work.idle : Work :=
  { phase := none, q := [], acc := 0, na := 0, cur := Config.null, cnt := 0, kbit := 0, abortReq := false,
    outStart := 0 }

/-- The two agents (`00_scope.md` R22). -/
inductive Agent where
  | host
  | core
  deriving DecidableEq, Repr

/-- One operation of the HOST (`30_encoding.md` R125, R126; `60_exceptions.md` R349). -/
inductive HostOp where
  /-- A REG write at a byte offset of the 4096-byte space, `width` bits wide (`20_memory.md` R85). -/
  | regWrite (off : BitVec 12) (width : Nat) (v : Word)
  /-- A REG read (`20_memory.md` R85). -/
  | regRead (off : BitVec 12) (width : Nat)
  /-- A BUF byte write (`20_memory.md` R86). -/
  | bufWrite (a : Nat) (b : Byte)
  /-- A BUF byte read (`20_memory.md` R86). -/
  | bufRead (a : Nat)
  /-- `wait` (`30_encoding.md` R126): read STATUS, again and again until BUSY reads 0. -/
  | wait
  /-- Assert hardware reset (`70_reset_and_hazards.md` R370). -/
  | hardReset
  deriving DecidableEq, Repr

/-- The state of HUFFCORE and of its surroundings: plain data. -/
structure State where
  /-- MEM_SIZE (`00_scope.md` R12), an implementation parameter: no step changes it (log 1). -/
  memSize  : Nat
  /-- BUF (`20_memory.md` R80). -/
  buf      : Memory
  /-- CTRL.IE (`10_state.md` R34). -/
  ie       : Bool
  /-- STATUS (`10_state.md` R35). -/
  status   : Status
  /-- CMD (`10_state.md` R36). -/
  cmd      : Word
  /-- ARG (`10_state.md` R37). -/
  arg      : Word
  /-- ERRCODE (`10_state.md` R38). -/
  errCode  : BitVec 8
  /-- ERRPOS (`10_state.md` R38). -/
  errPos   : Word
  /-- IN_BASE (`10_state.md` R39). -/
  inBase   : Word
  /-- IN_LEN (`10_state.md` R39). -/
  inLen    : Word
  /-- OUT_BASE (`10_state.md` R39). -/
  outBase  : Word
  /-- OUT_CAP (`10_state.md` R39). -/
  outCap   : Word
  /-- OUT_LEN (`10_state.md` R39). -/
  outLen   : Word
  /-- FREQ, ORDER, LEAFCNT and TOTAL (`10_state.md` R40). -/
  ft       : FreqTable
  /-- BODY_OFF (`10_state.md` R42). -/
  bodyOff  : Word
  /-- NODE, ROOT and NODECNT (`10_state.md` R43, R46). -/
  arena    : Arena
  /-- CODE_LEN, CODE_BITS and MAXLEN (`10_state.md` R49). -/
  cb       : Codebook
  /-- TBL_SEL (`10_state.md` R51). -/
  tblSel   : BitVec 8
  /-- NODE_SEL (`10_state.md` R52). -/
  nodeSel  : BitVec 9
  /-- The busy-only state (`10_state.md` R55) and Q (R47). -/
  work     : Work
  /-- The HOST's pending operations, in program order (the model's own, log 9). -/
  host     : List HostOp
  /-- Which agent moves at the coming steps of the busy window (the model's own, log 8). -/
  turns    : List Agent
  /-- What the HOST's last read returned (the model's own, log 9). -/
  hostData : Word
  /-- The number of free draws made so far (the model's own, log 3). -/
  draws    : Nat
  /-- The draw that never-written bytes of BUF come from (the model's own, log 2). -/
  bufEpoch : Nat
  deriving DecidableEq, Repr

/-- The error codes of `60_exceptions.md` R331. -/
inductive ErrCode where
  | none
  | truncatedHeader
  | invalidTreeWalk
  | zeroFrequency
  | truncatedBody
  | badTrailer
  | lengthMismatch
  | badLeafCount
  | duplicateValue
  | noCode
  | outOverflow
  | badRegion
  | sequence
  | badCommand
  | cancelled
  deriving DecidableEq, Repr

/-- How the pseudocode of a command, or a part of it, ends: it runs on, or it reaches `raise E(pos)`
(`60_exceptions.md` R336). Either way the state carries the effects up to that point. -/
inductive Run where
  | ok (s : State)
  | raised (e : ErrCode) (pos : Word) (s : State)
  deriving DecidableEq, Repr

/-- The parts of the state a command's cancellation resets (`45_control.md` R302). -/
structure WriteSet where
  table    : Bool
  arena    : Bool
  codebook : Bool
  out      : Bool
  deriving DecidableEq, Repr

/-- The reasons a step stops the machine. There are none: "No item of HUFFCORE is treated `stuck` or
`refuse`: every host access and every command word has a defined effect" (`93_implementation_defined.md`,
log 14). Every error of `60_exceptions.md` is a next state. -/
inductive Fault where
  deriving DecidableEq, Repr

/-- The reasons the model gives a step no meaning. -/
inductive Refusal where
  /-- The instruction has no meaning in this model yet. Raised by `exec`'s arm of that instruction alone;
  no arm raises it now. Safe: no claim about the instruction can be proved from it. -/
  | notModelled (mnemonic : String)
  deriving DecidableEq, Repr

/-- The machine of a given MEM_SIZE right after hardware reset (`10_state.md` R57, R58;
`70_reset_and_hazards.md` R371). BUF lists nothing: every byte is any value, its draw
being number 0, so one draw is made. The model's own fields are DESIGN CHOICE (logs 2, 3, 8 and 9). -/
def State.resetWith (memSize : Nat) : State :=
  { memSize := memSize, buf := [], ie := false, status := Status.reset, cmd := 0, arg := 0, errCode := 0,
    errPos := 0, inBase := 0, inLen := 0, outBase := 0, outCap := 0, outLen := 0, ft := FreqTable.empty,
    bodyOff := 0, arena := Arena.empty, cb := Codebook.empty, tblSel := 0, nodeSel := 0, work := Work.idle,
    host := [], turns := [], hostData := 0, draws := 1, bufEpoch := 0 }

/-- The machine right after hardware reset, with the MEM_SIZE of the spec's vectors (log 1). -/
def State.reset : State := State.resetWith Config.defaultMemSize

end Sys2Proof.Machine
end

