-- ==== Sys2Proof/Machine/Flags.lean ====
section
/-! DEFINITION. Machine/Flags.lean: the STATUS bits and everything computed from or about them: the word
STATUS reads as, the W1C write, the validity flags (`10_state.md` R35, R54) and the interrupt line
(`60_exceptions.md` R340). -/

namespace Sys2Proof.Machine

/-- The word STATUS reads as (`10_state.md` R35): BUSY in bit 0, DONE 1, ERR 2, HOSTERR 3, TREE_VALID 4,
CB_VALID 5, HDR_VALID 6, reserved bits 0. -/
def Status.word (f : Status) : Word :=
  BitVec.zeroExtend 32
    (BitVec.ofBool f.hdrValid ++ BitVec.ofBool f.cbValid ++ BitVec.ofBool f.treeValid
      ++ BitVec.ofBool f.hostErr ++ BitVec.ofBool f.err ++ BitVec.ofBool f.done ++ BitVec.ofBool f.busy)

/-- A host write to STATUS (`10_state.md` R35): a 1 clears DONE, ERR or HOSTERR; the other bits are
read-only. -/
def Status.writeOneToClear (f : Status) (v : Word) : Status :=
  { f with
    done := f.done && !v.getLsbD 1
    err := f.err && !v.getLsbD 2
    hostErr := f.hostErr && !v.getLsbD 3 }

/-- The frequency table changed (`10_state.md` R54, "flags cleared" of `40_frequency_tree.md`): TREE_VALID,
CB_VALID and HDR_VALID <- 0, BODY_OFF <- 0. -/
def State.clearFlags (s : State) : State :=
  { s with
    status := { s.status with treeValid := false, cbValid := false, hdrValid := false }
    bodyOff := 0 }

/-- The flags a completed BUILD writes (`40_frequency_tree.md` R161): TREE_VALID <- 1, CB_VALID <- 0. -/
def State.markTree (s : State) : State :=
  { s with status := { s.status with treeValid := true, cbValid := false } }

/-- The flag a completed GENCODE writes (`41_codebook.md` R191): CB_VALID <- 1. -/
def State.markCodebook (s : State) : State :=
  { s with status := { s.status with cbValid := true } }

/-- The last action of a successful PARSEHDR (`42_header.md` R213): BODY_OFF <- off, HDR_VALID <- 1. -/
def State.markHeader (off : Word) (s : State) : State :=
  { s with status := { s.status with hdrValid := true }, bodyOff := off }

/-- An idle host write to IN_BASE or IN_LEN (`10_state.md` R54): HDR_VALID <- 0, BODY_OFF <- 0. -/
def State.dropHeader (s : State) : State :=
  { s with status := { s.status with hdrValid := false }, bodyOff := 0 }

/-- An ignored busy write (`70_reset_and_hazards.md` R380): STATUS.HOSTERR <- 1. -/
def State.markHostErr (s : State) : State :=
  { s with status := { s.status with hostErr := true } }

/-- The interrupt line (`60_exceptions.md` R340): IRQ = CTRL.IE and (STATUS.DONE or STATUS.ERR). -/
def State.irq (s : State) : Bool := s.ie && (s.status.done || s.status.err)

end Sys2Proof.Machine
end

