-- ==== Sys2Proof/Machine/Ops.lean ====
section
/-! DEFINITION. Machine/Ops.lean: the operations every command shares: BUF bytes, the output primitive,
command acceptance, success completion, error completion (the block's one exception mechanism,
`60_exceptions.md` R336, with no return from it, R343), and cancellation (`45_control.md` R306). -/

namespace Sys2Proof.Machine

/-! ## BUF -/

/-- The value an address is listed with, if it is. -/
def Memory.get? (m : Memory) (a : Nat) : Option Byte :=
  match m with
  | [] => none
  | (k, b) :: rest => if k = a then some b else Memory.get? rest a

/-- The memory with one byte stored; the addresses stay strictly rising. -/
def Memory.set (m : Memory) (a : Nat) (b : Byte) : Memory :=
  match m with
  | [] => [(a, b)]
  | (k, c) :: rest =>
    if a < k then (a, b) :: (k, c) :: rest
    else if a = k then (a, b) :: rest
    else (k, c) :: Memory.set rest a b

/-- The memory with the `n` bytes from `lo` stored, each with the value `f` gives its address. -/
def Memory.fill (m : Memory) (lo : Nat) (f : Nat → Byte) : Nat → Memory
  | 0 => m
  | n + 1 => (Memory.fill m lo f n).set (lo + n) (f (lo + n))

/-- The canonical form of BUF: addresses strictly rising. An unlisted byte is any value and repeats no
entry (log 2). -/
abbrev Memory.wf (m : Memory) : Prop := (m.map Prod.fst).Pairwise (· < ·)

/-- MemRead(a, 1) (`00_scope.md` R17): byte `a` of BUF. A byte never written since hardware reset is a
free draw, the same at every read (`10_state.md` R58, `20_memory.md` R91). -/
def State.readBuf (s : State) (a : Nat) : Byte :=
  (s.buf.get? a).getD (Config.freeByte s.bufEpoch a)

/-- MemWrite(a, 1, b) (`00_scope.md` R17). -/
def State.writeBuf (a : Nat) (b : Byte) (s : State) : State :=
  { s with buf := s.buf.set a b }

/-! ## Sequencing -/

/-- Go on with `f` unless the pseudocode has reached a `raise`. -/
def Run.andThen (r : Run) (f : State → Run) : Run :=
  match r with
  | .ok s => f s
  | .raised e pos s => .raised e pos s

/-- Do `f` `n` times, stopping at the first `raise`. -/
def Run.repeat (f : State → Run) : Nat → State → Run
  | 0, s => .ok s
  | n + 1, s => (f s).andThen (Run.repeat f n)

/-! ## Output -/

/-- The output primitive `out(b)` (`20_memory.md` R87). -/
def out (b : Byte) (s : State) : Run :=
  if s.outLen = s.outCap then .raised .outOverflow s.outCap s
  else .ok { s.writeBuf (s.outBase.toNat + s.outLen.toNat) b with outLen := s.outLen + 1 }

/-- `out` of each byte of a list, in order. -/
def outAll : List Byte → State → Run
  | [], s => .ok s
  | b :: rest, s => (out b s).andThen (outAll rest)

/-- "R.OUT_LEN <- 0; output offsets OUT_START .. OUT_CAP-1 <- any value" (`60_exceptions.md` R336,
`45_control.md` R306): each byte a free draw, bytes that are not in BUF left out (logs 3 and 6). -/
def State.discardOutput (s : State) : State :=
  let lo := s.outBase.toNat + s.work.outStart.toNat
  let hi := min (s.outBase.toNat + s.outCap.toNat) s.memSize
  { s with
    buf := s.buf.fill lo (Config.freeByte s.draws) (hi - lo)
    outLen := 0
    draws := s.draws + 1 }

/-! ## Acceptance and completion -/

/-- The words of COMPRESS and DECOMPRESS, which start their output at OUT_LEN = 0 (`45_control.md` R303,
R304). -/
def startsAtZero (w : Word) : Bool := w == 0x0000000B || w == 0x0000000C

/-- Command acceptance (`10_state.md` R36): CMD takes the word, BUSY <- 1, DONE, ERR, ERRCODE and ERRPOS
<- 0. The busy-only state begins anew (R56), with OUT_START where the command will begin to write
(log 5). -/
def State.accept (w : Word) (s : State) : State :=
  { s with
    cmd := w
    status := { s.status with busy := true, done := false, err := false }
    errCode := 0
    errPos := 0
    work := { Work.idle with outStart := if startsAtZero w then 0 else s.outLen } }

/-- The code ERRCODE holds for an error (`60_exceptions.md` R331). -/
def ErrCode.code : ErrCode → BitVec 8
  | .none => 0x00
  | .truncatedHeader => 0x01
  | .invalidTreeWalk => 0x02
  | .zeroFrequency => 0x03
  | .truncatedBody => 0x04
  | .badTrailer => 0x05
  | .lengthMismatch => 0x06
  | .badLeafCount => 0x07
  | .duplicateValue => 0x08
  | .noCode => 0x09
  | .outOverflow => 0x0A
  | .badRegion => 0x0B
  | .sequence => 0x0C
  | .badCommand => 0x0D
  | .cancelled => 0x0E

/-- The errors whose completion discards the output of a command that writes output: all but BAD_COMMAND,
SEQUENCE, BAD_REGION and CANCELLED (`60_exceptions.md` R336). -/
def ErrCode.discards : ErrCode → Bool
  | .none => false
  | .truncatedHeader => true
  | .invalidTreeWalk => true
  | .zeroFrequency => true
  | .truncatedBody => true
  | .badTrailer => true
  | .lengthMismatch => true
  | .badLeafCount => true
  | .duplicateValue => true
  | .noCode => true
  | .outOverflow => true
  | .badRegion => false
  | .sequence => false
  | .badCommand => false
  | .cancelled => false

/-- Success completion (`60_exceptions.md` R335): BUSY <- 0, DONE <- 1, ABORT_REQ <- 0, and the busy-only
state is discarded (`10_state.md` R56). -/
def State.complete (s : State) : State :=
  { s with status := { s.status with busy := false, done := true }, work := Work.idle }

/-- The error report of error completion (`60_exceptions.md` R336): ERRCODE, ERRPOS, ERR <- 1, BUSY <- 0,
ABORT_REQ <- 0, and the busy-only state is discarded (`10_state.md` R56). -/
def State.report (e : ErrCode) (pos : Word) (s : State) : State :=
  { s with
    errCode := e.code
    errPos := pos
    status := { s.status with busy := false, err := true }
    work := Work.idle }

/-- The completion of a command whose pseudocode ended as `r`, `writesOut` telling whether it is one of
WRHDR, ENCODE, DECODE, COMPRESS and DECOMPRESS (`60_exceptions.md` R335, R336). -/
def Run.settle (writesOut : Bool) (r : Run) : State :=
  match r with
  | .ok s => s.complete
  | .raised e pos s =>
    (if writesOut && e.discards then s.discardOutput else s).report e pos

/-! ## Cancellation -/

/-- The write set of each command (`45_control.md` R302). NOP and RESET are not cancellable. -/
def writeSet : Instr → WriteSet
  | .nop => { table := false, arena := false, codebook := false, out := false }
  | .reset => { table := false, arena := false, codebook := false, out := false }
  | .ftclr => { table := true, arena := false, codebook := false, out := false }
  | .ftadd _ => { table := true, arena := false, codebook := false, out := false }
  | .count => { table := true, arena := false, codebook := false, out := false }
  | .parsehdr => { table := true, arena := false, codebook := false, out := false }
  | .build => { table := false, arena := true, codebook := false, out := false }
  | .gencode => { table := false, arena := false, codebook := true, out := false }
  | .wrhdr => { table := false, arena := false, codebook := false, out := true }
  | .encode => { table := false, arena := false, codebook := false, out := true }
  | .decode => { table := false, arena := false, codebook := false, out := true }
  | .compress => { table := true, arena := true, codebook := true, out := true }
  | .decompress => { table := true, arena := true, codebook := false, out := true }

/-- The write set of a word that names no command: nothing. -/
def noWrites : WriteSet := { table := false, arena := false, codebook := false, out := false }

/-- FREQ, ORDER, LEAFCNT and TOTAL <- 0 (`40_frequency_tree.md` R151, `45_control.md` R306), with the flags
that every change of the table clears (`10_state.md` R54). -/
def State.clearTable (s : State) : State := { s.clearFlags with ft := FreqTable.empty }

/-- NODE[*] <- EMPTY, ROOT <- NULL, NODECNT <- 0, TREE_VALID and CB_VALID <- 0 (`45_control.md` R306). -/
def State.clearArena (s : State) : State :=
  { s with arena := Arena.empty, status := { s.status with treeValid := false, cbValid := false } }

/-- CODE_LEN[*], CODE_BITS[*] and MAXLEN <- 0, CB_VALID <- 0 (`45_control.md` R306). -/
def State.clearCodebook (s : State) : State :=
  { s with cb := Codebook.empty, status := { s.status with cbValid := false } }

/-- The resets of outcome (b) of `45_control.md` R306, part by part. -/
def State.clearWriteSet (ws : WriteSet) (s : State) : State :=
  let s := if ws.table then s.clearTable else s
  let s := if ws.arena then s.clearArena else s
  let s := if ws.codebook then s.clearCodebook else s
  if ws.out then s.discardOutput else s

/-- Outcome (b): cancellation (`45_control.md` R306), which ends in `raise CANCELLED(0)`. -/
def State.cancel (ws : WriteSet) (s : State) : State := (s.clearWriteSet ws).report .cancelled 0

/-- The CORE's step for a cancellable command with the given write set and pseudocode: with no request
pending, ordinary completion; with one, either outcome of `45_control.md` R306, by a free draw (log 6). -/
def runCommand (ws : WriteSet) (body : State → Run) (s : State) : State :=
  if s.work.abortReq then
    let s' := { s with draws := s.draws + 1 }
    if Config.cancelDraw s.draws then s'.cancel ws else (body s').settle ws.out
  else (body s).settle ws.out

/-- A word that names no command: `raise BAD_COMMAND(0)` (`30_encoding.md` R111). A cancellation can
pre-empt it (`60_exceptions.md` R338, log 6). -/
def rejectWord (s : State) : State := runCommand noWrites (Run.raised .badCommand 0) s

end Sys2Proof.Machine
end

