-- ==== Sys2Proof/Machine/Operands.lean ====
section
/-! DEFINITION. Machine/Operands.lean: where a command's operands come from: the region check
(`20_memory.md` R89), the input bytes (R88), big-endian fields (R83), the bits of a code (`00_scope.md`
R16) and of a container body (`44_decoder.md` R272), and the entries of the register files. -/

namespace Sys2Proof.Machine

/-! ## Regions -/

/-- in_ok (`20_memory.md` R89). -/
def State.inOk (s : State) : Bool := decide (s.inBase.toNat + s.inLen.toNat ≤ s.memSize)

/-- OUT_BASE + OUT_CAP <= MEM_SIZE: out_ok with OUT_LEN taken as 0 (`20_memory.md` R89, `45_control.md`
R303). -/
def State.outFits (s : State) : Bool := decide (s.outBase.toNat + s.outCap.toNat ≤ s.memSize)

/-- out_ok (`20_memory.md` R89). -/
def State.outOk (s : State) : Bool := s.outFits && decide (s.outLen.toNat ≤ s.outCap.toNat)

/-- disjoint (`20_memory.md` R89): an empty region is disjoint from every region. -/
def State.disjoint (s : State) : Bool :=
  decide (s.inLen = 0) || decide (s.outCap = 0)
    || decide (s.inBase.toNat + s.inLen.toNat ≤ s.outBase.toNat)
    || decide (s.outBase.toNat + s.outCap.toNat ≤ s.inBase.toNat)

/-! ## Input bytes -/

/-- IN[i] (`00_scope.md` R18, `20_memory.md` R88). -/
def State.input (s : State) (i : Nat) : Byte := s.readBuf (s.inBase.toNat + i)

/-- IN[0], ..., IN[n-1]. -/
def State.inputs (s : State) (n : Nat) : List Byte := (List.range n).map s.input

/-- The whole input region, in order. -/
def State.inputBytes (s : State) : List Byte := s.inputs s.inLen.toNat

/-- The big-endian u32 of four bytes (`20_memory.md` R83). -/
def be32 (b0 b1 b2 b3 : Byte) : Word := b0 ++ b1 ++ b2 ++ b3

/-- The u32 at four consecutive input offsets, big-endian (`42_header.md` R213). -/
def State.input32 (s : State) (p : Nat) : Word :=
  be32 (s.input p) (s.input (p + 1)) (s.input (p + 2)) (s.input (p + 3))

/-- The four bytes of a u32, most significant first (`42_header.md` R211). -/
def be32Bytes (w : Word) : List Byte :=
  [w.extractLsb' 24 8, w.extractLsb' 16 8, w.extractLsb' 8 8, w.extractLsb' 0 8]

/-! ## Bits -/

/-- bit(c, L, j) = c[L-1-j]: the j-th bit of the code string (`00_scope.md` R16). -/
def codeBit (c : CodeBits) (len j : Nat) : Bool := c.getLsbD (len - 1 - j)

/-- The code string of length `len`, first bit first (`00_scope.md` R16). -/
def codeString (c : CodeBits) (len : Nat) : List Bool := (List.range len).map (codeBit c len)

/-- bitAt(k) (`44_decoder.md` R272), with R the number of bytes after the header: the bit and the input
offset of its byte. -/
def State.bitAt (s : State) (r k : Nat) : Bool × Nat :=
  if k < 8 * (r - 2) then
    let p := s.bodyOff.toNat + k / 8
    ((s.input p).getLsbD (7 - k % 8), p)
  else
    let p := s.inLen.toNat - 1
    ((s.input p).getLsbD (7 - (k - 8 * (r - 2))), p)

/-! ## Entries of the register files -/

/-- FREQ[v] (`10_state.md` R40). -/
def FreqTable.freqOf (t : FreqTable) (v : Byte) : Word := t.freq[v.toNat]

/-- ORDER[k] (`10_state.md` R40). -/
def FreqTable.orderAt (t : FreqTable) (k : Nat) : Byte := t.order[k]?.getD 0

/-- FREQ[v] <- f. -/
def FreqTable.setFreq (t : FreqTable) (v : Byte) (f : Word) : FreqTable :=
  { t with freq := t.freq.set v.toNat f }

/-- ORDER[k] <- v. -/
def FreqTable.setOrder (t : FreqTable) (k : Nat) (v : Byte) : FreqTable :=
  { t with order := t.order.setIfInBounds k v }

/-- NODE[i] (`10_state.md` R43). The index 0x1FF is never a node (R45); it reads as an EMPTY entry, as on
the node read port (R52, log 13). -/
def Arena.nodeAt (a : Arena) (i : NodeIdx) : Node := a.node[i.toNat]?.getD Node.empty

/-- NODE[i] <- n. -/
def Arena.setNode (a : Arena) (i : Nat) (n : Node) : Arena :=
  { a with node := a.node.setIfInBounds i n }

/-- CODE_LEN[v] (`10_state.md` R49). -/
def Codebook.lenOf (c : Codebook) (v : Byte) : Byte := c.codeLen[v.toNat]

/-- CODE_BITS[v] (`10_state.md` R49). -/
def Codebook.bitsOf (c : Codebook) (v : Byte) : CodeBits := c.codeBits[v.toNat]

/-- The code string of a byte value: code lookup (`43_encoder.md` R242). -/
def Codebook.codeOf (c : Codebook) (v : Byte) : List Bool :=
  codeString (c.bitsOf v) (c.lenOf v).toNat

end Sys2Proof.Machine
end

