-- ==== Sys2Proof/Machine/Codebook.lean ====
section
/-! DEFINITION. Machine/Codebook.lean: the code table generator (`41_codebook.md` R191, R192): the tree
walker and the bit-length encoder, with the GENCODE command. -/

namespace Sys2Proof.Machine

/-- The bit-length encoder (`41_codebook.md` R192): the leaf of value `v`, reached at depth `len` by the
path `c`. -/
def Codebook.record (cb : Codebook) (v : Byte) (len : Nat) (c : CodeBits) : Codebook :=
  { codeLen := cb.codeLen.set v.toNat (BitVec.ofNat 8 len)
    codeBits := cb.codeBits.set v.toNat c
    maxLen := if cb.maxLen.toNat < len then BitVec.ofNat 8 len else cb.maxLen }

/-- The path of a left edge: `(c << 1) | 0` (`41_codebook.md` R191). -/
def leftPath (c : CodeBits) : CodeBits := c <<< 1

/-- The path of a right edge: `(c << 1) | 1` (`41_codebook.md` R191). -/
def rightPath (c : CodeBits) : CodeBits := (c <<< 1) ||| 1

/-- The tree walker (`41_codebook.md` R191): pre-order from node `i`, whose path so far is `c`, `len` bits
long. The first argument bounds the depth; NNODE is more than any tree needs (log 13). -/
def Arena.walk (a : Arena) : Nat → NodeIdx → CodeBits → Nat → Codebook → Codebook
  | 0, _, _, _, cb => cb
  | fuel + 1, i, c, len, cb =>
    match (a.nodeAt i).kind with
    | .empty => cb
    | .leaf => cb.record (a.nodeAt i).value len c
    | .internal =>
      Arena.walk a fuel (a.nodeAt i).right (rightPath c) (len + 1)
        (Arena.walk a fuel (a.nodeAt i).left (leftPath c) (len + 1) cb)
    | .unary => Arena.walk a fuel (a.nodeAt i).left (leftPath c) (len + 1) cb

/-- The codebook of a tree (`41_codebook.md` R191). -/
def Arena.codebook (a : Arena) : Codebook :=
  if a.root = Config.null then Codebook.empty
  else a.walk Config.nnode a.root 0 0 Codebook.empty

/-- GENCODE after its SEQUENCE check (`41_codebook.md` R191). -/
def gencodePhase (s : State) : Run := .ok { s.markCodebook with cb := s.arena.codebook }

/-- GENCODE (`41_codebook.md` R191). -/
def gencodeBody (s : State) : Run :=
  if s.status.treeValid then gencodePhase s else .raised .sequence 0 s

/-- The GENCODE command. -/
def execGencode (s : State) : Host.Outcome State Fault Refusal :=
  .next (runCommand (writeSet .gencode) gencodeBody s)

end Sys2Proof.Machine
end

