-- ==== Sys2Proof/Machine/Table.lean ====
section
/-! DEFINITION. Machine/Table.lean: loading the frequency table, FTCLR, FTADD and COUNT
(`40_frequency_tree.md` R151 to R153). -/

namespace Sys2Proof.Machine

/-- A value enters the table at position LEAFCNT: ORDER[LEAFCNT] <- v, LEAFCNT <- LEAFCNT + 1. -/
def FreqTable.enter (t : FreqTable) (v : Byte) : FreqTable :=
  { t.setOrder t.leafCnt.toNat v with leafCnt := t.leafCnt + 1 }

/-- Append the pair (v, f) (`40_frequency_tree.md` R152, `42_header.md` R213): ORDER, FREQ, LEAFCNT and
TOTAL <- TOTAL + zext_40(f). -/
def FreqTable.append (t : FreqTable) (v : Byte) (f : Word) : FreqTable :=
  { (t.enter v).setFreq v f with total := t.total + f.zeroExtend 40 }

/-- Count one input byte (`40_frequency_tree.md` R153): a value not seen before enters the table, and
FREQ[b] <- FREQ[b] + 1. -/
def FreqTable.countByte (t : FreqTable) (b : Byte) : FreqTable :=
  let t' := if t.freqOf b = 0 then t.enter b else t
  t'.setFreq b (t'.freqOf b + 1)

/-- The table COUNT makes of an input (`40_frequency_tree.md` R153); TOTAL is the input's length. -/
def FreqTable.ofBytes (bs : List Byte) : FreqTable :=
  { bs.foldl FreqTable.countByte FreqTable.empty with total := BitVec.ofNat 40 bs.length }

/-- FTCLR (`40_frequency_tree.md` R151). -/
def ftclrBody (s : State) : Run := .ok s.clearTable

/-- FTADD v with f = ARG (`40_frequency_tree.md` R152): ZERO_FREQUENCY is checked first, then
DUPLICATE_VALUE. -/
def ftaddBody (v : Byte) (s : State) : Run :=
  if s.arg = 0 then .raised .zeroFrequency 0 s
  else if s.ft.freqOf v ≠ 0 then .raised .duplicateValue 0 s
  else .ok { s.clearFlags with ft := s.ft.append v s.arg }

/-- COUNT after its region check (`40_frequency_tree.md` R153). -/
def countPhase (s : State) : Run := .ok { s.clearFlags with ft := FreqTable.ofBytes s.inputBytes }

/-- COUNT (`40_frequency_tree.md` R153). -/
def countBody (s : State) : Run := if s.inOk then countPhase s else .raised .badRegion 0 s

/-- The FTCLR command. -/
def execFtclr (s : State) : Host.Outcome State Fault Refusal :=
  .next (runCommand (writeSet .ftclr) ftclrBody s)

/-- The FTADD command. -/
def execFtadd (v : Byte) (s : State) : Host.Outcome State Fault Refusal :=
  .next (runCommand (writeSet (.ftadd v)) (ftaddBody v) s)

/-- The COUNT command. -/
def execCount (s : State) : Host.Outcome State Fault Refusal :=
  .next (runCommand (writeSet .count) countBody s)

end Sys2Proof.Machine
end

