-- ==== Sys2Proof/Machine/Header.lean ====
section
/-! DEFINITION. Machine/Header.lean: the container header (`30_encoding.md` R117, R118): WRHDR writes it
(`42_header.md` R211) and PARSEHDR reads it (R213 to R215). -/

namespace Sys2Proof.Machine

/-! ## WRHDR -/

/-- The five bytes of the record at table position `k` (`30_encoding.md` R118). -/
def FreqTable.recordBytes (t : FreqTable) (k : Nat) : List Byte :=
  t.orderAt k :: be32Bytes (t.freqOf (t.orderAt k))

/-- The header of a table (`42_header.md` R211): the leaf count, then the records in table order. -/
def FreqTable.headerBytes (t : FreqTable) : List Byte :=
  be32Bytes (t.leafCnt.zeroExtend 32) ++ (List.range t.leafCnt.toNat).flatMap t.recordBytes

/-- OUT_START <- OUT_LEN (`42_header.md` R211, `43_encoder.md` R241, `44_decoder.md` R271). -/
def State.startOutput (s : State) : State := { s with work := { s.work with outStart := s.outLen } }

/-- WRHDR after its region check (`42_header.md` R211). -/
def wrhdrPhase (s : State) : Run := outAll s.ft.headerBytes s

/-- WRHDR (`42_header.md` R211). -/
def wrhdrBody (s : State) : Run :=
  if s.outOk then wrhdrPhase s.startOutput else .raised .badRegion 0 s

/-- The WRHDR command. -/
def execWrhdr (s : State) : Host.Outcome State Fault Refusal :=
  .next (runCommand (writeSet .wrhdr) wrhdrBody s)

/-! ## PARSEHDR -/

/-- `fail E(pos)` (`42_header.md` R213, R215): the partly parsed table is not kept. -/
def failHeader (e : ErrCode) (pos : Word) (s : State) : Run :=
  .raised e pos { s with ft := FreqTable.empty }

/-- The input offset of record `k` (`42_header.md` R213). -/
def recordOffset (k : Nat) : Nat := 4 + 5 * k

/-- Record `k` (`42_header.md` R213): the zero-frequency check, then the duplicate check, then the pair
enters the table at position `k`. -/
def parseRecord (k : Nat) (s : State) : Run :=
  let p := recordOffset k
  let v := s.input p
  let f := s.input32 (p + 1)
  if f = 0 then failHeader .zeroFrequency (BitVec.ofNat 32 p) s
  else if s.ft.freqOf v ≠ 0 then failHeader .duplicateValue (BitVec.ofNat 32 p) s
  else .ok { s with ft := s.ft.append v f }

/-- Records 0 .. n-1, in increasing order (`42_header.md` R214). -/
def parseRecords : Nat → State → Run
  | 0, s => .ok s
  | n + 1, s => (parseRecords n s).andThen (parseRecord n)

/-- The checks of `42_header.md` R214 before the records, and the records, over the cleared table. -/
def parseLeaves (s : State) : Run :=
  if s.inLen.toNat < 4 then failHeader .truncatedHeader s.inLen s
  else
    let n := (s.input32 0).toNat
    if 256 < n then failHeader .badLeafCount 0 s
    else if s.inLen.toNat < 4 + 5 * n then failHeader .truncatedHeader s.inLen s
    else (parseRecords n s).andThen fun t => .ok (t.markHeader (BitVec.ofNat 32 (4 + 5 * n)))

/-- PARSEHDR after its region check (`42_header.md` R213). -/
def parsehdrPhase (s : State) : Run := parseLeaves s.clearTable

/-- PARSEHDR (`42_header.md` R213). -/
def parsehdrBody (s : State) : Run :=
  if s.inOk then parsehdrPhase s else .raised .badRegion 0 s

/-- The PARSEHDR command. -/
def execParsehdr (s : State) : Host.Outcome State Fault Refusal :=
  .next (runCommand (writeSet .parsehdr) parsehdrBody s)

end Sys2Proof.Machine
end

