-- ==== Sys2Proof/Machine/Decoder.lean ====
section
/-! DEFINITION. Machine/Decoder.lean: the bitstream decoder (`44_decoder.md` R271 to R279): bit
deserializer, tree walker, leaf detector and trailer checks, with the DECODE command. -/

namespace Sys2Proof.Machine

/-- NODE[CUR]. -/
def State.cursor (s : State) : Node := s.arena.nodeAt s.work.cur

/-- CUR <- i. -/
def State.setCursor (i : NodeIdx) (s : State) : State := { s with work := { s.work with cur := i } }

/-- KBIT <- KBIT + 1. -/
def State.nextBit (s : State) : State := { s with work := { s.work with kbit := s.work.kbit + 1 } }

/-- CUR <- ROOT, CNT <- 0, KBIT <- 0 (`44_decoder.md` R271). -/
def State.startDecode (s : State) : State :=
  { s with work := { s.work with cur := s.arena.root, cnt := 0, kbit := 0 } }

/-- emit(v, p) (`44_decoder.md` R276): the count check, then the output primitive, then the count. -/
def emit (v : Byte) (p : Word) (s : State) : Run :=
  if s.work.cnt = s.ft.total then .raised .lengthMismatch p s
  else (out v s).andThen fun t => .ok { t with work := { t.work with cnt := t.work.cnt + 1 } }

/-- The leaf detector (`44_decoder.md` R275): with the cursor on a leaf, its value is emitted and the
cursor returns to the root. -/
def detectLeaf (p : Word) (s : State) : Run :=
  if s.cursor.kind = .leaf then
    (emit s.cursor.value p s).andThen fun t => .ok (t.setCursor t.arena.root)
  else .ok s

/-- The tree walker (`44_decoder.md` R274): left on bit 0, right on bit 1; a missing child raises
INVALID_TREE_WALK. -/
def descend (b : Bool) (p : Word) (s : State) : Run :=
  let nxt := if b then s.cursor.right else s.cursor.left
  if nxt = Config.null then .raised .invalidTreeWalk p s else .ok (s.setCursor nxt)

/-- One bit of the body (`44_decoder.md` R271), `r` being the number of bytes after the header. -/
def decodeBit (r : Nat) (s : State) : Run :=
  let bp := s.bitAt r s.work.kbit.toNat
  let p := BitVec.ofNat 32 bp.2
  (detectLeaf p s).andThen fun s =>
    (descend bp.1 p s).andThen fun s => .ok s.nextBit

/-- The end checks (`44_decoder.md` R277). -/
def endDecode (s : State) : Run :=
  if s.cursor.kind = .leaf then
    (emit s.cursor.value s.inLen s).andThen fun t =>
      if t.work.cnt = t.ft.total then .ok t else .raised .lengthMismatch t.inLen t
  else .raised .invalidTreeWalk s.inLen s

/-- The number of bytes after the header (`44_decoder.md` R271, log 13). -/
def State.bodyBytes (s : State) : Nat := s.inLen.toNat - s.bodyOff.toNat

/-- The marker byte (`44_decoder.md` R271). -/
def State.marker (s : State) : Nat := (s.input (s.inLen.toNat - 2)).toNat

/-- DECODE after its checks (`44_decoder.md` R271, R273). -/
def decodePhase (s : State) : Run :=
  let r := s.bodyBytes
  if s.ft.leafCnt = 0 then
    if r = 0 then .ok s else .raised .badTrailer s.bodyOff s
  else if r < 2 then .raised .truncatedBody s.inLen s
  else if 8 < s.marker then .raised .badTrailer (s.inLen - 2) s
  else (Run.repeat (decodeBit r) (8 * (r - 2) + s.marker) s.startDecode).andThen endDecode

/-- DECODE (`44_decoder.md` R271). -/
def decodeBody (s : State) : Run :=
  if s.status.treeValid && s.status.hdrValid then
    if s.inOk && s.outOk && s.disjoint then decodePhase s.startOutput else .raised .badRegion 0 s
  else .raised .sequence 0 s

/-- The DECODE command. -/
def execDecode (s : State) : Host.Outcome State Fault Refusal :=
  .next (runCommand (writeSet .decode) decodeBody s)

end Sys2Proof.Machine
end

