-- ==== Sys2Proof/Machine/Encoder.lean ====
section
/-! DEFINITION. Machine/Encoder.lean: the bitstream encoder (`43_encoder.md` R241 to R246): code lookup,
bit packer, output buffer and trailer, with the ENCODE command. -/

namespace Sys2Proof.Machine

/-- ACC <- a, NA <- n. -/
def State.setPacker (a : Byte) (n : BitVec 4) (s : State) : State :=
  { s with work := { s.work with acc := a, na := n } }

/-- One step of the bit packer (`43_encoder.md` R241, R243): the bit enters ACC from the right, and a
full byte is written and ACC emptied. -/
def packBit (b : Bool) (s : State) : Run :=
  let s := s.setPacker ((s.work.acc <<< 1) ||| BitVec.zeroExtend 8 (BitVec.ofBool b)) (s.work.na + 1)
  if s.work.na = 8 then (out s.work.acc s).andThen fun t => .ok (t.setPacker 0 0) else .ok s

/-- The bit packer over a bit string, first bit first. -/
def packBits : List Bool → State → Run
  | [], s => .ok s
  | b :: rest, s => (packBit b s).andThen (packBits rest)

/-- Input byte number `i` (`43_encoder.md` R241, R242): NO_CODE, or its code's bits packed. -/
def encodeByte (i : Nat) (b : Byte) (s : State) : Run :=
  if s.cb.lenOf b = 0 then .raised .noCode (BitVec.ofNat 32 i) s else packBits (s.cb.codeOf b) s

/-- The input bytes from number `i` on, in input order. -/
def encodeBytes : Nat → List Byte → State → Run
  | _, [], s => .ok s
  | i, b :: rest, s => (encodeByte i b s).andThen (encodeBytes (i + 1) rest)

/-- The trailer (`43_encoder.md` R244): the marker NA, then the leftover bits right-padded with 0; none
for an empty table. -/
def writeTrailer (s : State) : Run :=
  if s.ft.leafCnt = 0 then .ok s
  else
    (out (s.work.na.zeroExtend 8) s).andThen fun t =>
      out (t.work.acc <<< (8 - t.work.na.toNat)) t

/-- ENCODE after its checks (`43_encoder.md` R241). -/
def encodePhase (s : State) : Run :=
  (encodeBytes 0 s.inputBytes (s.setPacker 0 0)).andThen writeTrailer

/-- ENCODE (`43_encoder.md` R241). -/
def encodeBody (s : State) : Run :=
  if s.status.cbValid then
    if s.inOk && s.outOk && s.disjoint then encodePhase s.startOutput else .raised .badRegion 0 s
  else .raised .sequence 0 s

/-- The ENCODE command. -/
def execEncode (s : State) : Host.Outcome State Fault Refusal :=
  .next (runCommand (writeSet .encode) encodeBody s)

end Sys2Proof.Machine
end

