-- ==== Sys2Proof/Machine/Tree.lean ====
section
/-! DEFINITION. Machine/Tree.lean: the tree builder (`40_frequency_tree.md` R160 to R165): the node
comparator, the priority queue, the merger, and BUILD, which strings them together. -/

namespace Sys2Proof.Machine

/-- The node comparator (`40_frequency_tree.md` R160): the keys (freq, index), compared
lexicographically and unsigned. -/
def Arena.less (a : Arena) (i j : NodeIdx) : Bool :=
  decide ((a.nodeAt i).freq < (a.nodeAt j).freq)
    || (decide ((a.nodeAt i).freq = (a.nodeAt j).freq) && decide (i < j))

/-- The index of the smallest key among `m` and the indices of a list. -/
def Arena.smallest (a : Arena) (m : NodeIdx) : List NodeIdx → NodeIdx
  | [] => m
  | i :: rest => Arena.smallest a (if a.less i m then i else m) rest

/-- Q.extractMin() (`40_frequency_tree.md` R162): the index with the smallest key, and the queue without
it; `none` for an empty queue, to which BUILD never applies it. -/
def Arena.extractMin (a : Arena) (q : List NodeIdx) : Option (NodeIdx × List NodeIdx) :=
  match q with
  | [] => none
  | i :: rest => let m := a.smallest i rest; some (m, q.erase m)

/-- LEAF(value, freq) (`10_state.md` R44). -/
def Node.mkLeaf (v : Byte) (f : Freq40) : Node :=
  { kind := .leaf, value := v, left := Config.null, right := Config.null, freq := f }

/-- INTERNAL(left, right, freq) (`10_state.md` R44). -/
def Node.mkInternal (l r : NodeIdx) (f : Freq40) : Node :=
  { kind := .internal, value := 0, left := l, right := r, freq := f }

/-- UNARY(left, freq) (`10_state.md` R44). -/
def Node.mkUnary (l : NodeIdx) (f : Freq40) : Node :=
  { kind := .unary, value := 0, left := l, right := Config.null, freq := f }

/-- BUILD's working state: the arena under construction, the queue, and the index of the next internal
node. -/
structure Builder where
  arena : Arena
  q     : List NodeIdx
  next  : Nat
  deriving DecidableEq, Repr

/-- The merger (`40_frequency_tree.md` R163): NODE[next] becomes the parent of `l`, the first node
extracted, and `r`, the second. -/
def Builder.merge (b : Builder) (l r : NodeIdx) : Arena :=
  b.arena.setNode b.next
    (Node.mkInternal l r ((b.arena.nodeAt l).freq + (b.arena.nodeAt r).freq))

/-- One turn of BUILD's loop (`40_frequency_tree.md` R161): while |Q| >= 2, extract two nodes, merge them
and insert the new one. With fewer than two nodes nothing changes. -/
def Builder.mergeOnce (b : Builder) : Builder :=
  match b.arena.extractMin b.q with
  | none => b
  | some (l, q1) =>
    match b.arena.extractMin q1 with
    | none => b
    | some (r, q2) =>
      { arena := b.merge l r, q := BitVec.ofNat 9 b.next :: q2, next := b.next + 1 }

/-- `n` turns of BUILD's loop. -/
def Builder.mergeLoop : Nat → Builder → Builder
  | 0, b => b
  | n + 1, b => Builder.mergeLoop n b.mergeOnce

/-- The leaf of table position `k` (`40_frequency_tree.md` R161). -/
def FreqTable.leafAt (t : FreqTable) (k : Nat) : Node :=
  Node.mkLeaf (t.orderAt k) ((t.freqOf (t.orderAt k)).zeroExtend 40)

/-- The first `n` leaves written into the arena, at indices 0..n-1. -/
def FreqTable.placeLeaves (t : FreqTable) : Nat → Arena → Arena
  | 0, a => a
  | n + 1, a => (FreqTable.placeLeaves t n a).setNode n (t.leafAt n)

/-- BUILD's working state before the first merge: `n` leaves placed and queued. -/
def FreqTable.startBuild (t : FreqTable) (n : Nat) : Builder :=
  { arena := t.placeLeaves n Arena.empty
    q := (List.range n).map (BitVec.ofNat 9)
    next := n }

/-- BUILD's arena and queue for `n >= 2` leaves (`40_frequency_tree.md` R161): the loop needs n-1 turns;
then ROOT is the one node left in the queue. -/
def Builder.finish (b : Builder) : Arena × List NodeIdx :=
  match b.arena.extractMin b.q with
  | none => (b.arena, b.q)
  | some (root, q) => ({ b.arena with root := root, nodeCnt := BitVec.ofNat 10 b.next }, q)

/-- The arena BUILD makes of a frequency table, and the queue it leaves (`40_frequency_tree.md` R161; the
cases n = 0 and n = 1 are R164 and R165). -/
def FreqTable.buildTree (t : FreqTable) : Arena × List NodeIdx :=
  match t.leafCnt.toNat with
  | 0 => (Arena.empty, [])
  | 1 =>
    let leaf := t.leafAt 0
    ({ (Arena.empty.setNode 0 leaf).setNode 1 (Node.mkUnary 0 leaf.freq) with root := 1, nodeCnt := 2 }, [])
  | n + 2 => (Builder.mergeLoop (n + 1) (t.startBuild (n + 2))).finish

/-- BUILD (`40_frequency_tree.md` R161): the arena and Q, then TREE_VALID <- 1 and CB_VALID <- 0. -/
def buildPhase (s : State) : Run :=
  let r := s.ft.buildTree
  .ok { s.markTree with arena := r.1, work := { s.work with q := r.2 } }

/-- The BUILD command. -/
def execBuild (s : State) : Host.Outcome State Fault Refusal :=
  .next (runCommand (writeSet .build) buildPhase s)

end Sys2Proof.Machine
end

