-- ==== Sys2Proof/Machine/Control.lean ====
section
/-! DEFINITION. Machine/Control.lean: NOP, RESET, and the two pipelines COMPRESS and DECOMPRESS
(`45_control.md` R300, R301, R303 to R305). -/

namespace Sys2Proof.Machine

/-- The NOP command (`45_control.md` R300): `complete`. It ignores a cancellation request. -/
def execNop (s : State) : Host.Outcome State Fault Refusal := .next s.complete

/-- The state RESET clears (`45_control.md` R301): table, arena, codebook, the validity flags, BODY_OFF and
HOSTERR, and Q. -/
def State.softReset (s : State) : State :=
  { s with
    ft := FreqTable.empty
    arena := Arena.empty
    cb := Codebook.empty
    bodyOff := 0
    status := { s.status with hostErr := false, treeValid := false, cbValid := false, hdrValid := false }
    work := { s.work with q := [] } }

/-- The RESET command (`45_control.md` R301). It ignores a cancellation request. -/
def execReset (s : State) : Host.Outcome State Fault Refusal := .next s.softReset.complete

/-- PHASE <- p (`10_state.md` R55). -/
def State.enterPhase (p : Phase) (s : State) : State := { s with work := { s.work with phase := some p } }

/-- R.OUT_LEN <- 0; OUT_START <- 0 (`45_control.md` R303, R304). -/
def State.restartOutput (s : State) : State :=
  { s with outLen := 0, work := { s.work with outStart := 0 } }

/-- The phases of COMPRESS (`45_control.md` R303). -/
def compressPhases (s : State) : Run :=
  (countPhase (s.enterPhase .count)).andThen fun s =>
  (buildPhase (s.enterPhase .build)).andThen fun s =>
  (gencodePhase (s.enterPhase .gencode)).andThen fun s =>
  (wrhdrPhase (s.enterPhase .wrhdr)).andThen fun s =>
  encodePhase (s.enterPhase .encode)

/-- COMPRESS (`45_control.md` R303). -/
def compressBody (s : State) : Run :=
  if s.inOk && s.outFits && s.disjoint then compressPhases s.restartOutput else .raised .badRegion 0 s

/-- The COMPRESS command. -/
def execCompress (s : State) : Host.Outcome State Fault Refusal :=
  .next (runCommand (writeSet .compress) compressBody s)

/-- The phases of DECOMPRESS (`45_control.md` R304). -/
def decompressPhases (s : State) : Run :=
  (parsehdrPhase (s.enterPhase .parsehdr)).andThen fun s =>
  (buildPhase (s.enterPhase .build)).andThen fun s =>
  decodePhase (s.enterPhase .decode)

/-- DECOMPRESS (`45_control.md` R304). -/
def decompressBody (s : State) : Run :=
  if s.inOk && s.outFits && s.disjoint then decompressPhases s.restartOutput else .raised .badRegion 0 s

/-- The DECOMPRESS command. -/
def execDecompress (s : State) : Host.Outcome State Fault Refusal :=
  .next (runCommand (writeSet .decompress) decompressBody s)

end Sys2Proof.Machine
end

