-- ==== Sys2Proof/Machine/Dispatch.lean ====
section
/-! DEFINITION. Machine/Dispatch.lean: one arm per command, each one call of its meaning. -/

namespace Sys2Proof.Machine

def exec (i : Instr) (s : State) : Host.Outcome State Fault Refusal :=
  match i with
  -- control (45_control.md)
  | .nop => Sys2Proof.Machine.execNop s
  | .reset => Sys2Proof.Machine.execReset s
  -- frequency table (40_frequency_tree.md)
  | .ftclr => Sys2Proof.Machine.execFtclr s
  | .ftadd v => Sys2Proof.Machine.execFtadd v s
  | .count => Sys2Proof.Machine.execCount s
  -- container header, read (42_header.md)
  | .parsehdr => Sys2Proof.Machine.execParsehdr s
  -- tree builder (40_frequency_tree.md)
  | .build => Sys2Proof.Machine.execBuild s
  -- code table generator (41_codebook.md)
  | .gencode => Sys2Proof.Machine.execGencode s
  -- container header, write (42_header.md)
  | .wrhdr => Sys2Proof.Machine.execWrhdr s
  -- bitstream encoder and decoder (43_encoder.md, 44_decoder.md)
  | .encode => Sys2Proof.Machine.execEncode s
  | .decode => Sys2Proof.Machine.execDecode s
  -- pipelines (45_control.md)
  | .compress => Sys2Proof.Machine.execCompress s
  | .decompress => Sys2Proof.Machine.execDecompress s

end Sys2Proof.Machine
end

