-- ==== Sys2Proof/Machine/HostPort.lean ====
section
/-! DEFINITION. Machine/HostPort.lean: the register map (`10_state.md` R32) and every access of the HOST:
REG reads and writes, BUF reads and writes, `wait`, and hardware reset (`20_memory.md` R85, R86;
`70_reset_and_hazards.md` R370, R379 to R381). -/

namespace Sys2Proof.Machine

/-- The registers of the map (`10_state.md` R32). -/
inductive Reg where
  | id
  | ctrl
  | status
  | cmd
  | arg
  | errCode
  | errPos
  | inBase
  | inLen
  | outBase
  | outCap
  | outLen
  | leafCnt
  | totalLo
  | totalHi
  | bodyOff
  | root
  | nodeCnt
  | maxLen
  | tblSel
  | tblFreq
  | tblOrder
  | tblClen
  | tblCode (k : Fin 8)
  | nodeSel
  | nodeInfo
  | nodeLink
  | nodeFreqLo
  | nodeFreqHi
  deriving DecidableEq, Repr

/-- The register at an offset (`10_state.md` R32); `none` at a reserved offset and at one that is not a
multiple of 4. -/
def regAt (off : BitVec 12) : Option Reg :=
  match off.toNat with
  | 0x000 => some .id
  | 0x004 => some .ctrl
  | 0x008 => some .status
  | 0x00C => some .cmd
  | 0x010 => some .arg
  | 0x014 => some .errCode
  | 0x018 => some .errPos
  | 0x01C => some .inBase
  | 0x020 => some .inLen
  | 0x024 => some .outBase
  | 0x028 => some .outCap
  | 0x02C => some .outLen
  | 0x030 => some .leafCnt
  | 0x034 => some .totalLo
  | 0x038 => some .totalHi
  | 0x03C => some .bodyOff
  | 0x040 => some .root
  | 0x044 => some .nodeCnt
  | 0x048 => some .maxLen
  | 0x04C => some .tblSel
  | 0x050 => some .tblFreq
  | 0x054 => some .tblOrder
  | 0x058 => some .tblClen
  | 0x05C => some (.tblCode 0)
  | 0x060 => some (.tblCode 1)
  | 0x064 => some (.tblCode 2)
  | 0x068 => some (.tblCode 3)
  | 0x06C => some (.tblCode 4)
  | 0x070 => some (.tblCode 5)
  | 0x074 => some (.tblCode 6)
  | 0x078 => some (.tblCode 7)
  | 0x07C => some .nodeSel
  | 0x080 => some .nodeInfo
  | 0x084 => some .nodeLink
  | 0x088 => some .nodeFreqLo
  | 0x08C => some .nodeFreqHi
  | _ => none

/-- The register a host REG access reaches: 32 bits wide at a defined offset (`20_memory.md` R85,
`10_state.md` R53). Any other access reaches none. -/
def accessed (off : BitVec 12) (width : Nat) : Option Reg := if width = 32 then regAt off else none

/-- The kind code of a node (`10_state.md` R43). -/
def NodeKind.code : NodeKind → BitVec 2
  | .empty => 0
  | .leaf => 1
  | .internal => 2
  | .unary => 3

/-! ## Register reads -/

/-- The entry the node read port shows (`10_state.md` R52). -/
def State.portNode (s : State) : Node := s.arena.nodeAt s.nodeSel

/-- The stored value of a register: what a read returns while idle (`10_state.md` R33 to R52). -/
def State.regValue (s : State) : Reg → Word
  | .id => Config.idValue
  | .ctrl => (BitVec.ofBool s.ie).zeroExtend 32
  | .status => s.status.word
  | .cmd => s.cmd
  | .arg => s.arg
  | .errCode => s.errCode.zeroExtend 32
  | .errPos => s.errPos
  | .inBase => s.inBase
  | .inLen => s.inLen
  | .outBase => s.outBase
  | .outCap => s.outCap
  | .outLen => s.outLen
  | .leafCnt => s.ft.leafCnt.zeroExtend 32
  | .totalLo => s.ft.total.extractLsb' 0 32
  | .totalHi => (s.ft.total.extractLsb' 32 8).zeroExtend 32
  | .bodyOff => s.bodyOff
  | .root => s.arena.root.zeroExtend 32
  | .nodeCnt => s.arena.nodeCnt.zeroExtend 32
  | .maxLen => s.cb.maxLen.zeroExtend 32
  | .tblSel => s.tblSel.zeroExtend 32
  | .tblFreq => s.ft.freqOf s.tblSel
  | .tblOrder => (s.ft.orderAt s.tblSel.toNat).zeroExtend 32
  | .tblClen => (s.cb.lenOf s.tblSel).zeroExtend 32
  | .tblCode k => ((s.cb.bitsOf s.tblSel).zeroExtend 256).extractLsb' (32 * k.val) 32
  | .nodeSel => s.nodeSel.zeroExtend 32
  | .nodeInfo => (s.portNode.value ++ (0 : BitVec 6) ++ s.portNode.kind.code).zeroExtend 32
  | .nodeLink => (s.portNode.right.zeroExtend 32 <<< 16) ||| s.portNode.left.zeroExtend 32
  | .nodeFreqLo => s.portNode.freq.extractLsb' 0 32
  | .nodeFreqHi => (s.portNode.freq.extractLsb' 32 8).zeroExtend 32

/-- The registers whose read while busy returns any value (`70_reset_and_hazards.md` R381). -/
def Reg.anyWhileBusy : Reg → Bool
  | .id => false
  | .ctrl => false
  | .status => false
  | .cmd => false
  | .arg => false
  | .errCode => false
  | .errPos => false
  | .inBase => false
  | .inLen => false
  | .outBase => false
  | .outCap => false
  | .outLen => true
  | .leafCnt => true
  | .totalLo => true
  | .totalHi => true
  | .bodyOff => true
  | .root => true
  | .nodeCnt => true
  | .maxLen => true
  | .tblSel => false
  | .tblFreq => true
  | .tblOrder => true
  | .tblClen => true
  | .tblCode _ => true
  | .nodeSel => false
  | .nodeInfo => true
  | .nodeLink => true
  | .nodeFreqLo => true
  | .nodeFreqHi => true

/-- The HOST's read returns a value. -/
def State.returnData (v : Word) (s : State) : State := { s with hostData := v }

/-- The HOST's read returns a free draw `v`, which is used up. -/
def State.returnDraw (v : Word) (s : State) : State := { s with hostData := v, draws := s.draws + 1 }

/-- A host REG read (`20_memory.md` R85, `70_reset_and_hazards.md` R381). -/
def hostRegRead (off : BitVec 12) (width : Nat) (s : State) : State :=
  match accessed off width with
  | none => s.returnData 0
  | some r =>
    if s.status.busy && r.anyWhileBusy then s.returnDraw (Config.freeWord s.draws)
    else s.returnData (s.regValue r)

/-! ## Register writes -/

/-- A write that is ignored while busy, setting HOSTERR (`70_reset_and_hazards.md` R380). -/
def State.whileIdle (s s' : State) : State := if s.status.busy then s.markHostErr else s'

/-- A host write to CTRL (`10_state.md` R34): IE takes bit 0, and a 1 in bit 1 while busy requests
cancellation. -/
def State.writeCtrl (v : Word) (s : State) : State :=
  { s with
    ie := v.getLsbD 0
    work := { s.work with abortReq := s.work.abortReq || (s.status.busy && v.getLsbD 1) } }

/-- The write of a word to a register (`10_state.md` R33 to R54, `70_reset_and_hazards.md` R380). -/
def State.writeReg (r : Reg) (v : Word) (s : State) : State :=
  match r with
  | .id => s
  | .ctrl => s.writeCtrl v
  | .status => { s with status := s.status.writeOneToClear v }
  | .cmd => s.whileIdle (s.accept v)
  | .arg => s.whileIdle { s with arg := v }
  | .errCode => s
  | .errPos => s
  | .inBase => s.whileIdle { s.dropHeader with inBase := v }
  | .inLen => s.whileIdle { s.dropHeader with inLen := v }
  | .outBase => s.whileIdle { s with outBase := v }
  | .outCap => s.whileIdle { s with outCap := v }
  | .outLen => s.whileIdle { s with outLen := v }
  | .leafCnt => s
  | .totalLo => s
  | .totalHi => s
  | .bodyOff => s
  | .root => s
  | .nodeCnt => s
  | .maxLen => s
  | .tblSel => { s with tblSel := v.extractLsb' 0 8 }
  | .tblFreq => s
  | .tblOrder => s
  | .tblClen => s
  | .tblCode _ => s
  | .nodeSel => { s with nodeSel := v.extractLsb' 0 9 }
  | .nodeInfo => s
  | .nodeLink => s
  | .nodeFreqLo => s
  | .nodeFreqHi => s

/-- A host REG write (`20_memory.md` R85): an access that reaches no register is ignored and has no side
effect, not even HOSTERR (log 12). -/
def hostRegWrite (off : BitVec 12) (width : Nat) (v : Word) (s : State) : State :=
  match accessed off width with
  | none => s
  | some r => s.writeReg r v

/-! ## BUF accesses -/

/-- Byte `a` is in the output region at offset OUT_START or above (`70_reset_and_hazards.md` R381, log
5). -/
def State.inOutput (s : State) (a : Nat) : Bool :=
  decide (s.outBase.toNat + s.work.outStart.toNat ≤ a) && decide (a < s.outBase.toNat + s.outCap.toNat)

/-- A host BUF byte read (`20_memory.md` R86, `70_reset_and_hazards.md` R381). -/
def hostBufRead (a : Nat) (s : State) : State :=
  if a < s.memSize then
    if s.status.busy && s.inOutput a then s.returnDraw ((Config.freeByte s.draws a).zeroExtend 32)
    else s.returnData ((s.readBuf a).zeroExtend 32)
  else s.returnData 0

/-- A host BUF byte write (`20_memory.md` R86, `70_reset_and_hazards.md` R380, log 12). -/
def hostBufWrite (a : Nat) (b : Byte) (s : State) : State :=
  s.whileIdle (if a < s.memSize then s.writeBuf a b else s)

/-! ## Waiting and hardware reset -/

/-- `wait` (`30_encoding.md` R126): one read of STATUS; the operation stays first in line until BUSY reads
0. -/
def hostWait (s : State) : State :=
  let t := s.returnData s.status.word
  if s.status.busy then { t with host := .wait :: t.host } else t

/-- Hardware reset (`70_reset_and_hazards.md` R370): every piece of the block's state takes its reset
value, any running command is abandoned, and BUF becomes any value, from a new draw. MEM_SIZE and what is
outside the block stay (log 11). -/
def hardReset (s : State) : State :=
  { State.resetWith s.memSize with
    host := s.host
    turns := s.turns
    hostData := s.hostData
    draws := s.draws + 1
    bufEpoch := s.draws }

/-- One operation of the HOST: a single atomic step (`20_memory.md` R91). -/
def hostOp (op : HostOp) (s : State) : State :=
  match op with
  | .regWrite off width v => hostRegWrite off width v s
  | .regRead off width => hostRegRead off width s
  | .bufWrite a b => hostBufWrite a b s
  | .bufRead a => hostBufRead a s
  | .wait => hostWait s
  | .hardReset => hardReset s

end Sys2Proof.Machine
end

