-- ==== Sys2Proof/Machine/Agents.lean ====
section
/-! DEFINITION. Machine/Agents.lean: the two agents (`00_scope.md` R22) and which of them moves
(`20_memory.md` R96, `70_reset_and_hazards.md` R385). -/

namespace Sys2Proof.Machine

/-- The CORE's step (`00_scope.md` R22): it decodes CMD and runs the command, or raises BAD_COMMAND
(`30_encoding.md` R111). -/
def coreStep (s : State) : Host.Outcome State Fault Refusal :=
  match decode s.cmd with
  | .ok i => exec i s
  | .error _ => .next (rejectWord s)

/-- The HOST's step: its first pending operation. With none pending nothing happens: "Idle (BUSY = 0) is
the only resting state, and all state survives it unchanged" (`60_exceptions.md` R351, log 10). -/
def hostStep (s : State) : State :=
  match s.host with
  | [] => s
  | op :: rest => hostOp op { s with host := rest }

/-- Who moves: the HOST while idle, for the CORE is enabled only while BUSY = 1 (`00_scope.md` R22); while
busy, the CORE, unless `turns` names the HOST and an operation is pending (log 8). -/
def State.mover (s : State) : Agent :=
  if s.status.busy then
    match s.turns, s.host with
    | .host :: _, _ :: _ => .host
    | _, _ => .core
  else .host

/-- A step of the busy window uses up one entry of `turns` (log 8). -/
def State.takeTurn (s : State) : State := if s.status.busy then { s with turns := s.turns.tail } else s

/-- Put a command word where the CORE takes its next command, and give the CORE the next turn (log 9). -/
def State.present (w : Word) (s : State) : State := { s.accept w with turns := .core :: s.turns }

end Sys2Proof.Machine
end

