-- ==== Sys2Proof/Machine/Step.lean ====
section
/-! DEFINITION. Machine/Step.lean: one step of the machine, and the placing of a command word for it. -/

namespace Sys2Proof.Machine

/-- One atomic step of one agent (`70_reset_and_hazards.md` R385): a HOST operation, or the CORE's whole
command. -/
def step (s : State) : Host.Outcome State Fault Refusal :=
  match s.mover with
  | .host => .next (hostStep s.takeTurn)
  | .core => coreStep s.takeTurn

/-- `s` with the command word `w` accepted, so that the very next step is the CORE's step of it.
HUFFCORE has no program counter and fetches nothing (`10_state.md` R31): a command arrives by a host
write to CMD, whose acceptance (R36) this is (log 9). -/
def State.withFetchWord (s : State) (nbits w : Nat) : State :=
  s.present (BitVec.ofNat 32 (w % 2 ^ nbits))

end Sys2Proof.Machine
end

