-- ==== Sys2Proof/Machine/HostProgram.lean ====
section
/-! DEFINITION. Machine/HostProgram.lean: the host program syntax (`30_encoding.md` R125, R126): the
primitive operations by register name, and the expansion of each pseudo-operation. -/

namespace Sys2Proof.Machine

/-- The offset of a register (`10_state.md` R32). -/
def Reg.offset : Reg → BitVec 12
  | .id => 0x000
  | .ctrl => 0x004
  | .status => 0x008
  | .cmd => 0x00C
  | .arg => 0x010
  | .errCode => 0x014
  | .errPos => 0x018
  | .inBase => 0x01C
  | .inLen => 0x020
  | .outBase => 0x024
  | .outCap => 0x028
  | .outLen => 0x02C
  | .leafCnt => 0x030
  | .totalLo => 0x034
  | .totalHi => 0x038
  | .bodyOff => 0x03C
  | .root => 0x040
  | .nodeCnt => 0x044
  | .maxLen => 0x048
  | .tblSel => 0x04C
  | .tblFreq => 0x050
  | .tblOrder => 0x054
  | .tblClen => 0x058
  | .tblCode k => 0x05C + BitVec.ofNat 12 (4 * k.val)
  | .nodeSel => 0x07C
  | .nodeInfo => 0x080
  | .nodeLink => 0x084
  | .nodeFreqLo => 0x088
  | .nodeFreqHi => 0x08C

/-- `wr NAME, imm32` (`30_encoding.md` R125). -/
def wr (r : Reg) (v : Word) : HostOp := .regWrite r.offset 32 v

/-- `rd NAME` (`30_encoding.md` R125). -/
def rd (r : Reg) : HostOp := .regRead r.offset 32

/-- `sb addr, imm8` (`30_encoding.md` R125). -/
def sb (a : Nat) (b : Byte) : HostOp := .bufWrite a b

/-- `lb addr` (`30_encoding.md` R125). -/
def lb (a : Nat) : HostOp := .bufRead a

/-- `cmd MNEMONIC`: `wr CMD, OP` (`30_encoding.md` R126). -/
def cmdOps (i : Instr) : List HostOp := [wr .cmd (encode i)]

/-- `cmd FTADD v, f`: `wr ARG, f`, then `wr CMD, (v << 8) | 0x03` (`30_encoding.md` R126). -/
def cmdFtaddOps (v : Byte) (f : Word) : List HostOp := [wr .arg f, wr .cmd (encode (.ftadd v))]

/-- `wait` (`30_encoding.md` R126). -/
def waitOps : List HostOp := [.wait]

/-- `data addr, b0 b1 ... bk`: `sb addr, b0`; `sb addr+1, b1`; ... (`30_encoding.md` R126). -/
def dataOps : Nat → List Byte → List HostOp
  | _, [] => []
  | a, b :: rest => sb a b :: dataOps (a + 1) rest

/-- The ASCII byte of a character; `none` for a character that ASCII lacks (log 9). -/
def asciiByte (c : Char) : Option Byte := if c.toNat < 128 then some (BitVec.ofNat 8 c.toNat) else none

/-- `data addr, "text"`: `data addr` with the ASCII bytes of the text (`30_encoding.md` R126). A text with a
character that ASCII lacks is no line of a host program (log 9). -/
def dataTextOps (a : Nat) (text : String) : Option (List HostOp) :=
  (text.toList.mapM asciiByte).map (dataOps a)

/-- `ack`: `wr STATUS, 0x6` (`30_encoding.md` R126). -/
def ackOps : List HostOp := [wr .status 0x6]

/-- `region ib, il, ob, oc` (`30_encoding.md` R126). -/
def regionOps (ib il ob oc : Word) : List HostOp :=
  [wr .inBase ib, wr .inLen il, wr .outBase ob, wr .outCap oc, wr .outLen 0]

end Sys2Proof.Machine
end

