-- ==== Sys2Proof/Safety.lean ====
section
/-! DEFINITION. Safety.lean: what claims about HUFFCORE are stated in: the invariants of its state
(`10_state.md` R41, R44, R46, R54; `60_exceptions.md` R331, R334, R336), the two parts of a container in a
byte space (`30_encoding.md` R117 to R119), and paths in the tree (`41_codebook.md` R190). -/

namespace Sys2Proof.Machine

/-! ## Invariants -/

/-- |{v : FREQ[v] /= 0}|: the number of byte values present (`10_state.md` R41). -/
def FreqTable.present (t : FreqTable) : Nat := t.freq.toList.countP (fun f => f != 0)

/-- The sum over v of FREQ[v], as an unbounded number (`10_state.md` R41). -/
def FreqTable.sum (t : FreqTable) : Nat := (t.freq.toList.map BitVec.toNat).sum

/-- The frequency-table invariant (`10_state.md` R41). -/
structure FreqTable.Wf (t : FreqTable) : Prop where
  leafCnt  : t.leafCnt.toNat = t.present
  distinct : ∀ j k, j < k → k < t.leafCnt.toNat → t.orderAt j ≠ t.orderAt k
  listed   : ∀ k, k < t.leafCnt.toNat → t.freqOf (t.orderAt k) ≠ 0
  unused   : ∀ k, t.leafCnt.toNat ≤ k → k < 256 → t.orderAt k = 0
  total    : t.total.toNat = t.sum

/-- BUF keeps its canonical form inside MEM_SIZE, and MEM_SIZE stays in its range (`20_memory.md` R80,
`00_scope.md` R12). -/
structure State.BufWf (s : State) : Prop where
  canonical : s.buf.wf
  inRange   : ∀ c ∈ s.buf, c.1 < s.memSize
  sizeLow   : 8 ≤ s.memSize
  sizeHigh  : s.memSize ≤ 2 ^ 32

/-- The completion bits, the error report and the busy-only state fit together (`10_state.md` R35, R36,
R38, R47, R56; `60_exceptions.md` R331). -/
structure State.ReportWf (s : State) : Prop where
  /-- While busy nothing is reported: acceptance cleared it. -/
  busy     : s.status.busy = true →
    s.status.done = false ∧ s.status.err = false ∧ s.errCode = 0 ∧ s.errPos = 0
  /-- While idle no busy-only state exists: Q is empty and no request is pending. -/
  idle     : s.status.busy = false → s.work = Work.idle
  /-- DONE and ERR are never both 1. -/
  notBoth  : ¬ (s.status.done = true ∧ s.status.err = true)
  /-- ERR goes with an error code. -/
  coded    : s.status.err = true → s.errCode ≠ 0
  /-- The reserved codes are never written. -/
  reserved : s.errCode ≤ 0x0E

/-- What the validity flags promise (`10_state.md` R42, R54). -/
structure State.FlagsWf (s : State) : Prop where
  tree     : s.status.treeValid = true → s.arena = s.ft.buildTree.1
  codebook : s.status.cbValid = true → s.status.treeValid = true ∧ s.cb = s.arena.codebook
  header   : s.status.hdrValid = true →
    s.bodyOff.toNat = 4 + 5 * s.ft.leafCnt.toNat ∧ s.bodyOff.toNat ≤ s.inLen.toNat
  noHeader : s.status.hdrValid = false → s.bodyOff = 0

/-- The index of a node, one of NODE[0..NODECNT-1] (`10_state.md` R46). -/
def Arena.IsNode (a : Arena) (i : NodeIdx) : Prop := i.toNat < a.nodeCnt.toNat

/-- The field constraints of an entry's kind (`10_state.md` R44), but for a LEAF's frequency, which is a fact
about the table (`State.ArenaWf`). -/
def Arena.FieldsOk (a : Arena) (n : Node) : Prop :=
  match n.kind with
  | .empty => n = Node.empty
  | .leaf => n.left = Config.null ∧ n.right = Config.null
  | .internal =>
    n.value = 0 ∧ a.IsNode n.left ∧ a.IsNode n.right ∧ n.left ≠ n.right ∧
      n.freq.toNat = (a.nodeAt n.left).freq.toNat + (a.nodeAt n.right).freq.toNat
  | .unary =>
    n.value = 0 ∧ (a.nodeAt n.left).kind = .leaf ∧ n.right = Config.null ∧
      n.freq = (a.nodeAt n.left).freq

/-- The arena (`10_state.md` R44, R46): each entry keeps its kind's constraints, the non-EMPTY ones are exactly
NODE[0..NODECNT-1], a UNARY node is the root of a one-leaf tree, and ROOT is a node, or NULL when there is none. -/
structure Arena.Shape (a : Arena) : Prop where
  fields    : ∀ i : NodeIdx, a.FieldsOk (a.nodeAt i)
  nonEmpty  : ∀ i : NodeIdx, a.IsNode i ↔ (a.nodeAt i).kind ≠ .empty
  unaryRoot : ∀ i : NodeIdx, (a.nodeAt i).kind = .unary → i = a.root ∧ a.nodeCnt = 2
  root      : a.IsNode a.root ∨ (a.root = Config.null ∧ a.nodeCnt = 0)

/-- The arena has its shape, and while TREE_VALID = 1, which ties it to the current table (`10_state.md` R54), a
LEAF's frequency is FREQ[value] (R44). -/
structure State.ArenaWf (s : State) : Prop where
  shape    : s.arena.Shape
  leafFreq : s.status.treeValid = true → ∀ i : NodeIdx, (s.arena.nodeAt i).kind = .leaf →
    (s.arena.nodeAt i).freq = (s.ft.freqOf (s.arena.nodeAt i).value).zeroExtend 40

/-! ## Containers -/

/-- From address `a` on lies the header of table `t` (`30_encoding.md` R117, R118): the leaf count and the
records in table order, big-endian. -/
structure HoldsHeader (read : Nat → Byte) (a : Nat) (t : FreqTable) : Prop where
  leafCount : be32 (read a) (read (a + 1)) (read (a + 2)) (read (a + 3)) = t.leafCnt.zeroExtend 32
  value     : ∀ k, k < t.leafCnt.toNat → read (a + 4 + 5 * k) = t.orderAt k
  frequency : ∀ k, k < t.leafCnt.toNat →
    be32 (read (a + 5 + 5 * k)) (read (a + 6 + 5 * k)) (read (a + 7 + 5 * k)) (read (a + 8 + 5 * k))
      = t.freqOf (t.orderAt k)

/-- From address `a` on lie the packed body, the marker and the final byte of the bit string `bits`
(`30_encoding.md` R119, the form the encoder writes). -/
structure HoldsBody (read : Nat → Byte) (a : Nat) (bits : List Bool) : Prop where
  packed : ∀ j, j < bits.length / 8 → ∀ i, i < 8 →
    (read (a + j)).getLsbD (7 - i) = bits.getD (8 * j + i) false
  marker : read (a + bits.length / 8) = BitVec.ofNat 8 (bits.length % 8)
  final  : ∀ i, i < 8 →
    (read (a + bits.length / 8 + 1)).getLsbD (7 - i)
      = (decide (i < bits.length % 8) && bits.getD (8 * (bits.length / 8) + i) false)

/-- The length of the header of a table (`30_encoding.md` R118). -/
def FreqTable.headerLen (t : FreqTable) : Nat := 4 + 5 * t.leafCnt.toNat

/-- The length of the container of a bit string (`30_encoding.md` R121, R122): the 4 bytes of an empty
table, and otherwise 6 + 5n + (B div 8). -/
def FreqTable.containerLen (t : FreqTable) (bits : List Bool) : Nat :=
  if t.leafCnt = 0 then 4 else 6 + 5 * t.leafCnt.toNat + bits.length / 8

/-- From address `a` on lies the container of table `t` and bit string `bits` (`30_encoding.md` R117,
R121). -/
def HoldsContainer (read : Nat → Byte) (a : Nat) (t : FreqTable) (bits : List Bool) : Prop :=
  HoldsHeader read a t ∧ (t.leafCnt ≠ 0 → HoldsBody read (a + t.headerLen) bits)

/-- The codebook of the tree of a table (`40_frequency_tree.md` R161, `41_codebook.md` R191). -/
def FreqTable.codebook (t : FreqTable) : Codebook := t.buildTree.1.codebook

/-- S: the codes of the bytes of a message, in order, with no padding between them (`30_encoding.md`
R119). -/
def Codebook.bitString (c : Codebook) (msg : List Byte) : List Bool := msg.flatMap c.codeOf

/-! ## Paths in the tree -/

/-- One edge down from a node: left on bit 0, right on bit 1 (`41_codebook.md` R190). -/
def Arena.child (a : Arena) (i : NodeIdx) (b : Bool) : NodeIdx :=
  if b then (a.nodeAt i).right else (a.nodeAt i).left

/-- The node a bit string leads to from a node. -/
def Arena.follow (a : Arena) (i : NodeIdx) (bits : List Bool) : NodeIdx := bits.foldl a.child i

/-- The bit string leads from the root to the leaf of `v`, over no other leaf (`41_codebook.md` R190,
`44_decoder.md` R270). -/
structure Arena.IsCode (a : Arena) (bits : List Bool) (v : Byte) : Prop where
  nonempty : bits ≠ []
  leaf     : (a.nodeAt (a.follow a.root bits)).kind = .leaf
  value    : (a.nodeAt (a.follow a.root bits)).value = v
  onlyLeaf : ∀ k, k < bits.length → (a.nodeAt (a.follow a.root (bits.take k))).kind ≠ .leaf

/-- The bits of the body of the container in the input region (`44_decoder.md` R271, R272). -/
def State.bodyBits (s : State) : List Bool :=
  (List.range (8 * (s.bodyBytes - 2) + s.marker)).map fun k => (s.bitAt s.bodyBytes k).1

/-! ## The busy window -/

/-- OUT_START of a command: 0 for the two pipelines, OUT_LEN for the others (`10_state.md` R55,
`45_control.md` R303, R304). -/
def outStartOf (i : Instr) (s : State) : Word :=
  match i with
  | .nop => s.outLen
  | .reset => s.outLen
  | .ftclr => s.outLen
  | .ftadd _ => s.outLen
  | .count => s.outLen
  | .parsehdr => s.outLen
  | .build => s.outLen
  | .gencode => s.outLen
  | .wrhdr => s.outLen
  | .encode => s.outLen
  | .decode => s.outLen
  | .compress => 0
  | .decompress => 0

/-- The busy-only state is gone: Q is empty and ABORT_REQ is 0 (`10_state.md` R47, R55). The other busy-only
values do not exist while idle (R56), so no statement says what they are (log 7). -/
structure Work.Gone (w : Work) : Prop where
  q        : w.q = []
  abortReq : w.abortReq = false

/-- A state in which command `i` has just been accepted (`10_state.md` R36, R55), as far as the command's
own step depends on it. -/
structure State.Accepted (i : Instr) (s : State) : Prop where
  done     : s.status.done = false
  err      : s.status.err = false
  outStart : s.work.outStart = outStartOf i s

/-- The STATUS of a success completion (`60_exceptions.md` R335). -/
def Status.completed (f : Status) : Status := { f with busy := false, done := true }

/-- The STATUS of an error completion (`60_exceptions.md` R336). -/
def Status.failed (f : Status) : Status := { f with busy := false, err := true }

/-- The three validity flags 0 (`10_state.md` R54). -/
def Status.invalidated (f : Status) : Status :=
  { f with treeValid := false, cbValid := false, hdrValid := false }

end Sys2Proof.Machine
end

