-- ==== Sys2Proof/Certificates/Slice0/Obligations.lean ====
section
/-! DEFINITION. Certificates/Slice0/Obligations.lean: the statements about the model, for the provers. Each
docstring names the rules of `spec/` it formalises. -/

open Sys2Proof Sys2Proof.Machine

/-! ## Encoding and steps -/

/-- One word of every command, written out from `30_encoding.md` R110 and R114, decodes to it. -/
def Obligations.CommandWordsDecodeToTheirCommands : Prop :=
  decode 0b00000000000000000000000000000000 = .ok .nop ∧
  decode 0b00000000000000000000000000000001 = .ok .reset ∧
  decode 0b00000000000000000000000000000010 = .ok .ftclr ∧
  decode 0b00000000000000000110000100000011 = .ok (.ftadd 0x61) ∧
  decode 0b00000000000000000000000000000100 = .ok .count ∧
  decode 0b00000000000000000000000000000101 = .ok .parsehdr ∧
  decode 0b00000000000000000000000000000110 = .ok .build ∧
  decode 0b00000000000000000000000000000111 = .ok .gencode ∧
  decode 0b00000000000000000000000000001000 = .ok .wrhdr ∧
  decode 0b00000000000000000000000000001001 = .ok .encode ∧
  decode 0b00000000000000000000000000001010 = .ok .decode ∧
  decode 0b00000000000000000000000000001011 = .ok .compress ∧
  decode 0b00000000000000000000000000001100 = .ok .decompress

/-- Decode and encode agree, both ways: a word decodes to a command exactly when the command is well formed
and the word is its encoding (`30_encoding.md` R111, R114). -/
def Obligations.DecodeAndEncodeAgree : Prop :=
  ∀ (w : Word) (i : Instr), decode w = .ok i ↔ (i.wf = true ∧ encode i = w)

/-- Command decode (`30_encoding.md` R111, R115) is total and makes its checks in order: a reserved opcode, a
non-zero RSVD, a non-zero IMM8 outside FTADD. A word that fails one raises BAD_COMMAND(0) and changes nothing
but the error report; any other word runs the command of its opcode and IMM8. With a cancellation request
pending a word that fails one may report CANCELLED(0) instead, and which it reports is a free draw (the model's
reading of `60_exceptions.md` R338, log 6). -/
def Obligations.DecodeChecksThenRunsOrRaisesBadCommand : Prop :=
  (∀ w : Word,
    (decode w = .error .reservedOpcode ↔ 0x0C < w.extractLsb' 0 8) ∧
    (decode w = .error .nonzeroReserved ↔ w.extractLsb' 0 8 ≤ 0x0C ∧ w.extractLsb' 16 16 ≠ 0) ∧
    (decode w = .error .nonzeroImmediate ↔
      w.extractLsb' 0 8 ≤ 0x0C ∧ w.extractLsb' 16 16 = 0 ∧ w.extractLsb' 0 8 ≠ 0x03 ∧
        w.extractLsb' 8 8 ≠ 0) ∧
    ((∃ e, decode w = .error e) ∨
      ∃ i, decode w = .ok i ∧ i.opcode = w.extractLsb' 0 8 ∧ i.imm8 = w.extractLsb' 8 8)) ∧
  (∀ (s : State) (e : IllFormed), decode s.cmd = .error e → s.work.abortReq = false →
    ∃ w : Work, w.Gone ∧ coreStep s = .next { s with
      errCode := 0x0D, errPos := 0, status := s.status.failed, work := w }) ∧
  (∀ (s : State) (e : IllFormed), decode s.cmd = .error e → s.work.abortReq = true →
    ∃ (code : BitVec 8) (w : Work), (code = 0x0D ∨ code = 0x0E) ∧ w.Gone ∧ coreStep s = .next { s with
      errCode := code, errPos := 0, status := s.status.failed, draws := s.draws + 1, work := w }) ∧
  (∀ (s : State) (i : Instr), decode s.cmd = .ok i → coreStep s = exec i s)

/-- A step of the CORE runs the command that CMD decodes to, using up one entry of the model's `turns`. The
CORE moves only while BUSY = 1 (`00_scope.md` R22), and then unless `turns` names the HOST and the HOST has an
operation pending (log 8). A command word placed for the CORE is the next thing that runs (log 9). -/
def Obligations.StepRunsTheDecodedCommand : Prop :=
  (∀ (s : State) (i : Instr), s.mover = .core → decode s.cmd = .ok i →
    step s = exec i { s with turns := s.turns.tail }) ∧
  (∀ s : State, s.mover = .core ↔
    (s.status.busy = true ∧ ¬ (s.turns.head? = some .host ∧ s.host ≠ []))) ∧
  (∀ (s : State) (i : Instr),
    step (s.withFetchWord 32 (encode i).toNat) = exec i (s.accept (encode i)))

/-- A host operation is one step (`20_memory.md` R91): the first of the pending list, whenever the HOST moves.
That the HOST is a list of pending operations is the model's choice (log 9), and so is that in the busy window it
moves when `turns` names it, whose entry is then used up (log 8). With none pending an idle block rests and all
its state survives unchanged (`60_exceptions.md` R351, log 10). -/
def Obligations.HostMovesOneOperationAStep : Prop :=
  (∀ (s : State) (op : HostOp) (rest : List HostOp), s.status.busy = false → s.host = op :: rest →
    step s = .next (hostOp op { s with host := rest })) ∧
  (∀ (s : State) (op : HostOp) (rest : List HostOp) (ts : List Agent), s.status.busy = true →
    s.host = op :: rest → s.turns = .host :: ts →
    step s = .next (hostOp op { s with host := rest, turns := ts })) ∧
  (∀ s : State, s.status.busy = false → s.host = [] → step s = .next s)

/-- No step stops the machine (`93_implementation_defined.md`), and every accepted command completes after
finitely many steps (`70_reset_and_hazards.md` R385): from any busy state the block is idle after at most one
step more than the model's `turns` has entries (log 8). -/
def Obligations.AcceptedCommandCompletes : Prop :=
  (∀ s : State, ∃ t, step s = .next t) ∧
  ∀ s : State, s.status.busy = true →
    ∃ k, k ≤ s.turns.length + 1 ∧ ∃ t : State,
      Host.Core.run Sys2Proof.core k s = .next t ∧ t.status.busy = false

/-! ## The host port -/

/-- `10_state.md` R36: a write to CMD while idle is an acceptance, after which the CORE decodes and runs the
word; while busy it is ignored and sets HOSTERR; a read returns the last accepted word; the reset value is 0.
No cancellation request is pending after the acceptance (`45_control.md` R306), and Q is empty. OUT_START is then
0 for the two pipelines and OUT_LEN for any other word (the model's reading, log 5), so the state is one in which
the command has just been accepted. -/
def Obligations.WriteToCmdIsAcceptance : Prop :=
  (∀ (s : State) (w : Word), s.status.busy = false →
    ∃ work : Work, work.Gone ∧ work.outStart = (if w = 0x0B ∨ w = 0x0C then 0 else s.outLen) ∧
      hostOp (.regWrite 0x00C 32 w) s = { s with
        cmd := w, status := { s.status with busy := true, done := false, err := false }
        errCode := 0, errPos := 0, work := work }) ∧
  (∀ (s : State) (i : Instr), s.status.busy = false →
    (hostOp (.regWrite 0x00C 32 (encode i)) s).Accepted i) ∧
  (∀ (s : State) (w : Word), s.status.busy = false → s.host = [] →
    ∃ ts, step (hostOp (.regWrite 0x00C 32 w) s)
      = coreStep { hostOp (.regWrite 0x00C 32 w) s with turns := ts }) ∧
  (∀ (s : State) (w : Word), s.status.busy = true →
    hostOp (.regWrite 0x00C 32 w) s = { s with status := { s.status with hostErr := true } }) ∧
  (∀ s : State, (hostOp (.regRead 0x00C 32) s).hostData = s.cmd) ∧
  ∀ n, (State.resetWith n).cmd = 0

/-- `70_reset_and_hazards.md` R380: while busy, writes to CMD, ARG, IN_BASE, IN_LEN, OUT_BASE, OUT_CAP,
OUT_LEN and every BUF byte are ignored and set HOSTERR; writes to CTRL, STATUS, TBL_SEL and NODE_SEL take
effect and do not set it; writes elsewhere are ignored at all times. That a write at an offset that is not a
multiple of 4 is among the last, and does not set HOSTERR while busy, is the model's reading (log 12). -/
def Obligations.BusyWritesAreIgnoredOrTakeEffect : Prop :=
  (∀ (s : State) (off : BitVec 12) (v : Word), s.status.busy = true →
    off ∈ [0x00C, 0x010, 0x01C, 0x020, 0x024, 0x028, 0x02C] →
    hostOp (.regWrite off 32 v) s = { s with status := { s.status with hostErr := true } }) ∧
  (∀ (s : State) (a : Nat) (b : Byte), s.status.busy = true → a < s.memSize →
    hostOp (.bufWrite a b) s = { s with status := { s.status with hostErr := true } }) ∧
  (∀ (s : State) (v : Word), s.status.busy = true →
    hostOp (.regWrite 0x004 32 v) s = { s with
      ie := v.getLsbD 0, work := { s.work with abortReq := s.work.abortReq || v.getLsbD 1 } }) ∧
  (∀ (s : State) (v : Word), s.status.busy = true →
    hostOp (.regWrite 0x008 32 v) s = { s with status := { s.status with
      done := s.status.done && !v.getLsbD 1, err := s.status.err && !v.getLsbD 2
      hostErr := s.status.hostErr && !v.getLsbD 3 } }) ∧
  (∀ (s : State) (v : Word), s.status.busy = true →
    hostOp (.regWrite 0x04C 32 v) s = { s with tblSel := v.extractLsb' 0 8 } ∧
    hostOp (.regWrite 0x07C 32 v) s = { s with nodeSel := v.extractLsb' 0 9 }) ∧
  (∀ (s : State) (off : BitVec 12) (v : Word),
    off ∉ [0x004, 0x008, 0x00C, 0x010, 0x01C, 0x020, 0x024, 0x028, 0x02C, 0x04C, 0x07C] →
    hostOp (.regWrite off 32 v) s = s)

/-- The effect of idle writes (`10_state.md` R34, R35, R37, R39, R51, R52, R54): an operand register takes the
word, and a write to IN_BASE or IN_LEN also clears HDR_VALID and BODY_OFF; IE takes bit 0 of a write to CTRL,
whose ABORT has no effect while idle (`45_control.md` R306); STATUS is write 1 to clear; the selectors take
their low bits. And while idle each register reads its stored value, with reserved bits 0. -/
def Obligations.IdleWritesTakeEffect : Prop :=
  (∀ (s : State) (v : Word), s.status.busy = false →
    hostOp (.regWrite 0x010 32 v) s = { s with arg := v } ∧
    hostOp (.regWrite 0x01C 32 v) s
      = { s with inBase := v, bodyOff := 0, status := { s.status with hdrValid := false } } ∧
    hostOp (.regWrite 0x020 32 v) s
      = { s with inLen := v, bodyOff := 0, status := { s.status with hdrValid := false } } ∧
    hostOp (.regWrite 0x024 32 v) s = { s with outBase := v } ∧
    hostOp (.regWrite 0x028 32 v) s = { s with outCap := v } ∧
    hostOp (.regWrite 0x02C 32 v) s = { s with outLen := v } ∧
    hostOp (.regWrite 0x004 32 v) s = { s with ie := v.getLsbD 0 } ∧
    hostOp (.regWrite 0x008 32 v) s = { s with status := { s.status with
      done := s.status.done && !v.getLsbD 1, err := s.status.err && !v.getLsbD 2
      hostErr := s.status.hostErr && !v.getLsbD 3 } } ∧
    hostOp (.regWrite 0x04C 32 v) s = { s with tblSel := v.extractLsb' 0 8 } ∧
    hostOp (.regWrite 0x07C 32 v) s = { s with nodeSel := v.extractLsb' 0 9 }) ∧
  (∀ s : State, s.status.busy = false →
    let rd := fun (off : BitVec 12) => (hostOp (.regRead off 32) s).hostData
    rd 0x000 = 0x48554646 ∧ rd 0x004 = (if s.ie then 1 else 0) ∧ rd 0x010 = s.arg ∧
    (rd 0x014).toNat = s.errCode.toNat ∧ rd 0x018 = s.errPos ∧ rd 0x01C = s.inBase ∧ rd 0x020 = s.inLen ∧
    rd 0x024 = s.outBase ∧ rd 0x028 = s.outCap ∧ rd 0x02C = s.outLen ∧
    (rd 0x030).toNat = s.ft.leafCnt.toNat ∧ (rd 0x034).toNat = s.ft.total.toNat % 2 ^ 32 ∧
    (rd 0x038).toNat = s.ft.total.toNat / 2 ^ 32 ∧ rd 0x03C = s.bodyOff ∧
    (rd 0x040).toNat = s.arena.root.toNat ∧ (rd 0x044).toNat = s.arena.nodeCnt.toNat ∧
    (rd 0x048).toNat = s.cb.maxLen.toNat ∧ (rd 0x04C).toNat = s.tblSel.toNat ∧
    (rd 0x07C).toNat = s.nodeSel.toNat)

/-- STATUS (`10_state.md` R35) reads each bit at its place and 0 in the reserved bits, busy or idle; and no
register read has a side effect (`20_memory.md` R92): it changes only what the model keeps for the HOST, the
value read and the count of draws. -/
def Obligations.ReadsShowStatusAndHaveNoSideEffect : Prop :=
  (∀ s : State, let w := (hostOp (.regRead 0x008 32) s).hostData
    w.getLsbD 0 = s.status.busy ∧ w.getLsbD 1 = s.status.done ∧ w.getLsbD 2 = s.status.err ∧
    w.getLsbD 3 = s.status.hostErr ∧ w.getLsbD 4 = s.status.treeValid ∧ w.getLsbD 5 = s.status.cbValid ∧
    w.getLsbD 6 = s.status.hdrValid ∧ ∀ n, 7 ≤ n → w.getLsbD n = false) ∧
  (∀ (s : State) (off : BitVec 12) (width : Nat), ∃ v d,
    hostOp (.regRead off width) s = { s with hostData := v, draws := d })

/-- The read ports while idle (`10_state.md` R51, R52): the entry chosen by TBL_SEL and by NODE_SEL, and an
EMPTY entry for NODE_SEL = 0x1FF. -/
def Obligations.ReadPortsShowTheSelectedEntry : Prop :=
  ∀ s : State, s.status.busy = false →
    let rd := fun (off : BitVec 12) => (hostOp (.regRead off 32) s).hostData
    rd 0x050 = s.ft.freqOf s.tblSel ∧
    (rd 0x054).toNat = (s.ft.orderAt s.tblSel.toNat).toNat ∧
    (rd 0x058).toNat = (s.cb.lenOf s.tblSel).toNat ∧
    (∀ k, k < 8 → ∀ j, j < 32 →
      (rd (0x05C + BitVec.ofNat 12 (4 * k))).getLsbD j = (s.cb.bitsOf s.tblSel).getLsbD (32 * k + j)) ∧
    (s.nodeSel ≠ 0x1FF →
      let n := s.arena.nodeAt s.nodeSel
      (rd 0x080).toNat = 256 * n.value.toNat + n.kind.code.toNat ∧
      (rd 0x084).toNat = 65536 * n.right.toNat + n.left.toNat ∧
      (rd 0x088).toNat = n.freq.toNat % 2 ^ 32 ∧ (rd 0x08C).toNat = n.freq.toNat / 2 ^ 32) ∧
    (s.nodeSel = 0x1FF →
      rd 0x080 = 0 ∧ rd 0x084 = 0x01FF01FF ∧ rd 0x088 = 0 ∧ rd 0x08C = 0)

/-- Reserved space and malformed accesses (`10_state.md` R53, `20_memory.md` R85): a read returns 0, a write
is ignored, and neither has a side effect, busy or idle: not even HOSTERR while busy, which is the model's reading
of a malformed write (log 12). -/
def Obligations.ReservedSpaceReadsZeroAndIgnoresWrites : Prop :=
  ∀ (s : State) (off : BitVec 12) (width : Nat) (v : Word),
    (0x090 ≤ off.toNat ∨ off.toNat % 4 ≠ 0 ∨ width ≠ 32) →
    hostOp (.regRead off width) s = { s with hostData := 0 } ∧ hostOp (.regWrite off width v) s = s

/-- Host BUF accesses (`20_memory.md` R86): idle, a write at a < MEM_SIZE stores the byte and touches no
other, and a read returns the byte; at a >= MEM_SIZE a write is ignored and a read returns 0. -/
def Obligations.HostBufAccessesReachOneByte : Prop :=
  (∀ (s : State) (a : Nat) (b : Byte), s.status.busy = false → a < s.memSize →
    let t := hostOp (.bufWrite a b) s
    t = { s with buf := t.buf } ∧ t.readBuf a = b ∧ ∀ c, c ≠ a → t.readBuf c = s.readBuf c) ∧
  (∀ (s : State) (a : Nat), s.status.busy = false → a < s.memSize →
    hostOp (.bufRead a) s = { s with hostData := (s.readBuf a).zeroExtend 32 }) ∧
  (∀ (s : State) (a : Nat) (b : Byte), s.memSize ≤ a →
    hostOp (.bufRead a) s = { s with hostData := 0 } ∧
    (s.status.busy = false → hostOp (.bufWrite a b) s = s))

/-- Busy reads (`70_reset_and_hazards.md` R381): the listed registers and the output-region bytes from
OUT_START on return any value, a draw, which a proof cannot know; every other register and BUF byte reads
its stored value. (The value is any value of 32 bits, log 4; OUT_START before the CORE's step, log 5.) -/
def Obligations.BusyReadsReturnDrawsOrStoredValues : Prop :=
  (∀ (s : State) (off : BitVec 12), s.status.busy = true →
    off ∈ [0x02C, 0x030, 0x034, 0x038, 0x03C, 0x040, 0x044, 0x048, 0x050, 0x054, 0x058, 0x05C, 0x060, 0x064,
      0x068, 0x06C, 0x070, 0x074, 0x078, 0x080, 0x084, 0x088, 0x08C] →
    hostOp (.regRead off 32) s
      = { s with hostData := Config.freeWord s.draws, draws := s.draws + 1 }) ∧
  (∀ s : State, s.status.busy = true →
    let rd := fun (off : BitVec 12) => hostOp (.regRead off 32) s
    rd 0x000 = { s with hostData := 0x48554646 } ∧ rd 0x004 = { s with hostData := if s.ie then 1 else 0 } ∧
    rd 0x008 = { s with hostData := s.status.word } ∧ rd 0x00C = { s with hostData := s.cmd } ∧
    rd 0x010 = { s with hostData := s.arg } ∧ rd 0x018 = { s with hostData := s.errPos } ∧
    rd 0x014 = { s with hostData := s.errCode.zeroExtend 32 } ∧
    rd 0x01C = { s with hostData := s.inBase } ∧ rd 0x020 = { s with hostData := s.inLen } ∧
    rd 0x024 = { s with hostData := s.outBase } ∧ rd 0x028 = { s with hostData := s.outCap } ∧
    rd 0x04C = { s with hostData := s.tblSel.zeroExtend 32 } ∧
    rd 0x07C = { s with hostData := s.nodeSel.zeroExtend 32 }) ∧
  (∀ (s : State) (a : Nat), s.status.busy = true → a < s.memSize →
    s.outBase.toNat + s.work.outStart.toNat ≤ a → a < s.outBase.toNat + s.outCap.toNat →
    hostOp (.bufRead a) s
      = { s with hostData := (Config.freeByte s.draws a).zeroExtend 32, draws := s.draws + 1 }) ∧
  (∀ (s : State) (a : Nat), s.status.busy = true → a < s.memSize →
    (a < s.outBase.toNat + s.work.outStart.toNat ∨ s.outBase.toNat + s.outCap.toNat ≤ a) →
    hostOp (.bufRead a) s = { s with hostData := (s.readBuf a).zeroExtend 32 })

/-- The inputs of a running command are stable (`70_reset_and_hazards.md` R380, R381, `20_memory.md` R96):
no host operation in the busy window but hardware reset changes BUF, CMD, ARG, a region register or an
internal file, and BUSY stays 1. A busy byte write past the end of BUF sets HOSTERR like any other (the model's
reading, log 12). -/
def Obligations.BusyWindowKeepsTheInputs : Prop :=
  (∀ (s : State) (a : Nat) (b : Byte), s.status.busy = true → s.memSize ≤ a →
    hostOp (.bufWrite a b) s = { s with status := { s.status with hostErr := true } }) ∧
  ∀ (s : State) (op : HostOp), s.status.busy = true → op ≠ .hardReset →
    let t := hostOp op s
    t.status.busy = true ∧ t.memSize = s.memSize ∧ t.buf = s.buf ∧ t.bufEpoch = s.bufEpoch ∧
    t.cmd = s.cmd ∧ t.arg = s.arg ∧ t.inBase = s.inBase ∧ t.inLen = s.inLen ∧ t.outBase = s.outBase ∧
    t.outCap = s.outCap ∧ t.outLen = s.outLen ∧ t.ft = s.ft ∧ t.bodyOff = s.bodyOff ∧
    t.arena = s.arena ∧ t.cb = s.cb ∧ t.status.treeValid = s.status.treeValid ∧
    t.status.cbValid = s.status.cbValid ∧ t.status.hdrValid = s.status.hdrValid

/-- The interrupt line (`60_exceptions.md` R340, R342): a completed command raises it exactly when IE = 1;
acceptance, writing 1 to whichever of DONE and ERR is set, and clearing IE drop it; a read of STATUS clears
nothing. -/
def Obligations.InterruptFollowsCompletionAndAcknowledge : Prop :=
  (∀ (s t : State) (i : Instr), exec i s = .next t → t.irq = t.ie) ∧
  (∀ (s : State) (w : Word), s.status.busy = false →
    (hostOp (.regWrite 0x00C 32 w) s).irq = false) ∧
  (∀ (s : State) (v : Word), (s.status.done = true → v.getLsbD 1 = true) →
    (s.status.err = true → v.getLsbD 2 = true) → (hostOp (.regWrite 0x008 32 v) s).irq = false) ∧
  (∀ (s : State) (v : Word), v.getLsbD 0 = false → (hostOp (.regWrite 0x004 32 v) s).irq = false) ∧
  (∀ s : State, (hostOp (.regRead 0x008 32) s).status = s.status ∧
    (hostOp (.regRead 0x008 32) s).irq = s.irq)

/-- Hardware reset (`10_state.md` R57, R58; `70_reset_and_hazards.md` R370), busy or idle: every register and
file takes its reset value, no completion is reported, and BUF is any value. That every byte of BUF then reads a
new free draw, the one numbered `draws`, is how the model says so (logs 2 and 3), and that MEM_SIZE, a parameter,
stays is its reading (log 11). -/
def Obligations.HardwareResetValues : Prop :=
  ∀ s : State, let t := hostOp .hardReset s
    t.memSize = s.memSize ∧ (∀ a, t.readBuf a = Config.freeByte s.draws a) ∧ t.ie = false ∧
    t.status = { busy := false, done := false, err := false, hostErr := false, treeValid := false
                 cbValid := false, hdrValid := false } ∧
    t.regValue .id = 0x48554646 ∧ t.cmd = 0 ∧ t.arg = 0 ∧ t.errCode = 0 ∧ t.errPos = 0 ∧ t.inBase = 0 ∧
    t.inLen = 0 ∧ t.outBase = 0 ∧ t.outCap = 0 ∧ t.outLen = 0 ∧ (∀ v, t.ft.freqOf v = 0) ∧
    (∀ k, t.ft.orderAt k = 0) ∧ t.ft.leafCnt = 0 ∧ t.ft.total = 0 ∧ t.bodyOff = 0 ∧
    (∀ i, t.arena.nodeAt i =
      { kind := .empty, value := 0, left := 0x1FF, right := 0x1FF, freq := 0 }) ∧
    t.arena.root = 0x1FF ∧ t.arena.nodeCnt = 0 ∧ (∀ v, t.cb.lenOf v = 0 ∧ t.cb.bitsOf v = 0) ∧
    t.cb.maxLen = 0 ∧ t.tblSel = 0 ∧ t.nodeSel = 0 ∧ t.work.q = [] ∧ t.work.abortReq = false ∧
    t.irq = false

/-! ## Every command -/

/-- Every accepted command ends in exactly one completion, after which BUSY = 0 and exactly one of DONE and
ERR is 1 (`60_exceptions.md` R334), whatever word CMD holds; the busy-only state is gone (`10_state.md`
R47, R55). -/
def Obligations.EveryCommandEndsInOneCompletion : Prop :=
  ∀ s : State, s.status.done = false → s.status.err = false →
    ∃ t, coreStep s = .next t ∧ t.status.busy = false ∧ t.status.done = !t.status.err ∧
      t.work.Gone

/-- The frame of every command (`10_state.md` R59): none writes MEM_SIZE, CTRL, CMD, ARG, a region register
but OUT_LEN, a selector, or anything of the HOST's; HOSTERR is cleared by RESET alone; OUT_LEN, the table, the
arena and the codebook are each written by their own commands alone. -/
def Obligations.CommandsKeepWhatTheyDoNotWrite : Prop :=
  ∀ (i : Instr) (s t : State), exec i s = .next t →
    (t.memSize = s.memSize ∧ t.ie = s.ie ∧ t.cmd = s.cmd ∧ t.arg = s.arg ∧ t.inBase = s.inBase ∧
      t.inLen = s.inLen ∧ t.outBase = s.outBase ∧ t.outCap = s.outCap ∧ t.tblSel = s.tblSel ∧
      t.nodeSel = s.nodeSel ∧ t.host = s.host ∧ t.turns = s.turns ∧ t.hostData = s.hostData ∧
      t.bufEpoch = s.bufEpoch) ∧
    (i ≠ .reset → t.status.hostErr = s.status.hostErr) ∧
    (i ∉ [.wrhdr, .encode, .decode, .compress, .decompress] → t.outLen = s.outLen) ∧
    (i ∈ [.nop, .build, .gencode, .wrhdr, .encode, .decode] → t.ft = s.ft) ∧
    (i ∉ [.reset, .build, .compress, .decompress] → t.arena = s.arena) ∧
    (i ∉ [.reset, .gencode, .compress] → t.cb = s.cb)

/-- The CORE writes BUF only inside the output region, from OUT_START on (`20_memory.md` R93): on success
exactly up to the final OUT_LEN, and a command that writes no output leaves BUF alone. -/
def Obligations.OutputStaysInItsRegion : Prop :=
  ∀ (i : Instr) (s t : State), s.Accepted i → exec i s = .next t →
    (∀ a, (a < s.outBase.toNat + (outStartOf i s).toNat ∨ s.outBase.toNat + s.outCap.toNat ≤ a) →
      t.readBuf a = s.readBuf a) ∧
    (t.status.err = false → ∀ a,
      (a < s.outBase.toNat + (outStartOf i s).toNat ∨ s.outBase.toNat + t.outLen.toNat ≤ a) →
      t.readBuf a = s.readBuf a) ∧
    ((writeSet i).out = false → t.buf = s.buf)

/-- A command's result is a function of the input region's bytes (`20_memory.md` R93, R94): two states that
differ only in bytes of BUF outside it end in states that differ only in BUF, and there each byte is either left
alone in both or the same in both. -/
def Obligations.OnlyTheInputRegionMatters : Prop :=
  ∀ (i : Instr) (s t : State) (m : Memory), exec i s = .next t →
    (∀ k, k < s.inLen.toNat → ({ s with buf := m } : State).input k = s.input k) →
    ∃ m', exec i { s with buf := m } = .next { t with buf := m' } ∧
      ∀ a, ({ t with buf := m' } : State).readBuf a = t.readBuf a ∨
        (({ t with buf := m' } : State).readBuf a = ({ s with buf := m } : State).readBuf a ∧
          t.readBuf a = s.readBuf a)

/-- A command's result depends on no busy-only value left behind (`10_state.md` R56), but the pending request
and OUT_START of its own acceptance. -/
def Obligations.LeftoverBusyStateDoesNotMatter : Prop :=
  ∀ (i : Instr) (s : State) (w : Work), w.abortReq = s.work.abortReq → w.outStart = s.work.outStart →
    exec i { s with work := w } = exec i s

/-- Cancellation (`45_control.md` R306): with a request pending, every command but NOP and RESET ends either
as it would without the request (a), or cancelled (b), with its write set (R302), which the statement names
command by command, reset and CANCELLED(0) reported; which one is a free draw (log 6). -/
def Obligations.CancellationHasTwoOutcomes : Prop :=
  ∀ (i : Instr) (s : State), s.work.abortReq = true → i ≠ .nop → i ≠ .reset →
    let table := decide (i ∉ [.build, .gencode, .wrhdr, .encode, .decode])
    let arena := decide (i ∈ [.build, .compress, .decompress])
    let codebook := decide (i ∈ [.gencode, .compress])
    let output := decide (i ∈ [.wrhdr, .encode, .decode, .compress, .decompress])
    ∃ t, exec i s = .next t ∧
      (exec i { s with draws := s.draws + 1, work := { s.work with abortReq := false } } = .next t ∨
        (t.errCode = 0x0E ∧ t.errPos = 0 ∧ t.status.err = true ∧ t.status.busy = false ∧
          t.status.done = s.status.done ∧ t.work.Gone ∧
          t.ft = (if table then FreqTable.empty else s.ft) ∧
          t.arena = (if arena then Arena.empty else s.arena) ∧
          t.cb = (if codebook then Codebook.empty else s.cb) ∧
          t.outLen = (if output then 0 else s.outLen) ∧
          t.bodyOff = (if table then 0 else s.bodyOff) ∧
          t.status.treeValid = (s.status.treeValid && !table && !arena) ∧
          t.status.cbValid = (s.status.cbValid && !table && !arena && !codebook) ∧
          t.status.hdrValid = (s.status.hdrValid && !table) ∧
          (output = false → t.buf = s.buf) ∧
          (∀ a, (a < s.outBase.toNat + s.work.outStart.toNat ∨ s.outBase.toNat + s.outCap.toNat ≤ a) →
            t.readBuf a = s.readBuf a)))

/-- The region check (`20_memory.md` R89): a command whose check fails raises BAD_REGION(0) and changes
nothing but the error report. The sums do not wrap, and an empty region is disjoint from every region. -/
def Obligations.FailedRegionCheckRaisesBadRegion : Prop :=
  ∀ s : State, s.work.abortReq = false →
    let fails (i : Instr) : Prop := ∃ w : Work, w.Gone ∧
      exec i s = .next { s with errCode := 0x0B, errPos := 0, status := s.status.failed, work := w }
    let inBad := s.memSize < s.inBase.toNat + s.inLen.toNat
    let outBad := s.memSize < s.outBase.toNat + s.outCap.toNat
    let overlap := s.inLen ≠ 0 ∧ s.outCap ≠ 0 ∧ s.outBase.toNat < s.inBase.toNat + s.inLen.toNat ∧
      s.inBase.toNat < s.outBase.toNat + s.outCap.toNat
    let full := s.outCap.toNat < s.outLen.toNat
    (inBad → fails .count ∧ fails .parsehdr) ∧
    (outBad ∨ full → fails .wrhdr) ∧
    (s.status.cbValid = true → inBad ∨ outBad ∨ full ∨ overlap → fails .encode) ∧
    (s.status.treeValid = true → s.status.hdrValid = true → inBad ∨ outBad ∨ full ∨ overlap →
      fails .decode) ∧
    (inBad ∨ outBad ∨ overlap →
      fails .compress ∧ fails .decompress)

/-- A missing prerequisite raises SEQUENCE(0), before the region check, and changes nothing but the error
report (`70_reset_and_hazards.md` R376, `60_exceptions.md` R338). -/
def Obligations.MissingPrerequisiteRaisesSequence : Prop :=
  ∀ s : State, s.work.abortReq = false →
    let fails (i : Instr) : Prop := ∃ w : Work, w.Gone ∧
      exec i s = .next { s with errCode := 0x0C, errPos := 0, status := s.status.failed, work := w }
    (s.status.treeValid = false → fails .gencode) ∧
    (s.status.cbValid = false → fails .encode) ∧
    (s.status.treeValid = false ∨ s.status.hdrValid = false → fails .decode)

/-! ## NOP, RESET and the frequency table -/

/-- NOP (`45_control.md` R300) completes, with DONE set and everything else unchanged. RESET (R301) clears the
table, the arena, the codebook, the validity flags, BODY_OFF and HOSTERR, and preserves everything else. Both do
so even with a cancellation request pending. -/
def Obligations.NopAndResetComplete : Prop :=
  ∀ s : State,
    (∃ w : Work, w.Gone ∧ exec .nop s = .next { s with status := s.status.completed, work := w }) ∧
    (∃ w : Work, w.Gone ∧ exec .reset s = .next { s with
      ft := FreqTable.empty, arena := Arena.empty, cb := Codebook.empty, bodyOff := 0
      status := Status.completed { s.status.invalidated with hostErr := false }, work := w })

/-- FTCLR (`40_frequency_tree.md` R151) empties the table, clears the flags and BODY_OFF, and keeps the arena
and the codebook. -/
def Obligations.FtclrEmptiesTheTable : Prop :=
  ∀ s : State, s.work.abortReq = false → ∃ t, exec .ftclr s = .next t ∧
    t.work.Gone ∧ t = { s with
      ft := t.ft, bodyOff := 0, status := s.status.invalidated.completed, work := t.work } ∧
    (∀ v, t.ft.freqOf v = 0) ∧ (∀ k, t.ft.orderAt k = 0) ∧ t.ft.leafCnt = 0 ∧ t.ft.total = 0

/-- FTADD (`40_frequency_tree.md` R152) appends the pair (v, ARG) to the table; a zero ARG raises
ZERO_FREQUENCY(0), checked first, and a value already present DUPLICATE_VALUE(0), and then nothing but the
error report changes. -/
def Obligations.FtaddAppendsThePair : Prop :=
  ∀ (s : State) (v : Byte), s.work.abortReq = false → s.ft.Wf →
    (s.arg ≠ 0 → s.ft.freqOf v = 0 → ∃ t, exec (.ftadd v) s = .next t ∧
      t.work.Gone ∧ t = { s with
      ft := t.ft, bodyOff := 0, status := s.status.invalidated.completed, work := t.work } ∧
      t.ft.freqOf v = s.arg ∧ (∀ u, u ≠ v → t.ft.freqOf u = s.ft.freqOf u) ∧
      t.ft.orderAt s.ft.leafCnt.toNat = v ∧
      (∀ k, k ≠ s.ft.leafCnt.toNat → t.ft.orderAt k = s.ft.orderAt k) ∧
      t.ft.leafCnt.toNat = s.ft.leafCnt.toNat + 1 ∧
      t.ft.total.toNat = s.ft.total.toNat + s.arg.toNat) ∧
    (s.arg = 0 → ∃ w : Work, w.Gone ∧ exec (.ftadd v) s = .next
      { s with errCode := 0x03, errPos := 0, status := s.status.failed, work := w }) ∧
    (s.arg ≠ 0 → s.ft.freqOf v ≠ 0 → ∃ w : Work, w.Gone ∧ exec (.ftadd v) s = .next
      { s with errCode := 0x08, errPos := 0, status := s.status.failed, work := w })

/-- COUNT (`40_frequency_tree.md` R150, R153, R154): each value's frequency is its number of occurrences in
the input, ORDER is the order of first occurrence, TOTAL is IN_LEN; the flags and BODY_OFF are cleared and
nothing else changes. -/
def Obligations.CountCountsTheInput : Prop :=
  ∀ s : State, s.work.abortReq = false → s.inBase.toNat + s.inLen.toNat ≤ s.memSize →
    ∃ t, exec .count s = .next t ∧
      t.work.Gone ∧ t = { s with
      ft := t.ft, bodyOff := 0, status := s.status.invalidated.completed, work := t.work } ∧
      (∀ v, (t.ft.freqOf v).toNat = s.inputBytes.count v) ∧
      t.ft.leafCnt.toNat = s.inputBytes.eraseDups.length ∧
      (∀ k, k < 256 → t.ft.orderAt k = s.inputBytes.eraseDups.getD k 0) ∧
      t.ft.total.toNat = s.inLen.toNat

/-! ## The tree builder -/

/-- The node comparator is a strict total order on node indices, and Q.extractMin() removes the one node that
precedes all others (`40_frequency_tree.md` R160, R162). -/
def Obligations.ExtractMinTakesTheSmallestKey : Prop :=
  (∀ (a : Arena) (i j k : NodeIdx),
    (a.less i j = true ↔ (a.nodeAt i).freq.toNat < (a.nodeAt j).freq.toNat ∨
      ((a.nodeAt i).freq = (a.nodeAt j).freq ∧ i.toNat < j.toNat)) ∧
    (i = j ∨ a.less i j = true ∨ a.less j i = true) ∧ ¬ (a.less i j = true ∧ a.less j i = true) ∧
    (a.less i j = true → a.less j k = true → a.less i k = true)) ∧
  (∀ (a : Arena) (q : List NodeIdx), q ≠ [] → q.Nodup →
    ∃ m q', a.extractMin q = some (m, q') ∧ m ∈ q ∧ (∀ j ∈ q, j ≠ m → a.less m j = true) ∧
      ∀ j, j ∈ q' ↔ (j ∈ q ∧ j ≠ m))

/-- The merger (`40_frequency_tree.md` R161, R163): with two or more nodes queued, a turn of BUILD's loop
extracts the two smallest, writes NODE[next] as their INTERNAL parent, the first extracted on the left, with
the sum of their frequencies, and queues it in their place. -/
def Obligations.MergeJoinsTheTwoSmallest : Prop :=
  ∀ (b : Builder), b.q.Nodup → 2 ≤ b.q.length → b.next < 511 →
    ∃ l r, l ∈ b.q ∧ r ∈ b.q ∧ l ≠ r ∧ b.arena.less l r = true ∧
      (∀ j ∈ b.q, j ≠ l → j ≠ r → b.arena.less r j = true) ∧
      b.mergeOnce.next = b.next + 1 ∧
      b.mergeOnce.arena.nodeAt (BitVec.ofNat 9 b.next) =
        { kind := .internal, value := 0, left := l, right := r
          freq := (b.arena.nodeAt l).freq + (b.arena.nodeAt r).freq } ∧
      (∀ i : NodeIdx, i ≠ BitVec.ofNat 9 b.next → b.mergeOnce.arena.nodeAt i = b.arena.nodeAt i) ∧
      ∀ j, j ∈ b.mergeOnce.q ↔ (j = BitVec.ofNat 9 b.next ∨ (j ∈ b.q ∧ j ≠ l ∧ j ≠ r))

/-- BUILD of no leaf and of one leaf (`40_frequency_tree.md` R161, R164, R165): no node and ROOT = NULL; or
the leaf at index 0 and a UNARY root at index 1 with the leaf on its left. -/
def Obligations.BuildOfEmptyAndSingleLeafTables : Prop :=
  ∀ s : State, s.work.abortReq = false →
    ∃ t, exec .build s = .next t ∧
      t.work.Gone ∧ t = { s with
        arena := t.arena, status := Status.completed { s.status with treeValid := true, cbValid := false }
        work := t.work } ∧
      (s.ft.leafCnt = 0 → t.arena.root = 0x1FF ∧ t.arena.nodeCnt = 0 ∧
        ∀ i, t.arena.nodeAt i = Node.empty) ∧
      (s.ft.leafCnt = 1 → t.arena.root = 1 ∧ t.arena.nodeCnt = 2 ∧
        t.arena.nodeAt 0 =
          { kind := .leaf, value := s.ft.orderAt 0, left := 0x1FF, right := 0x1FF
            freq := (s.ft.freqOf (s.ft.orderAt 0)).zeroExtend 40 } ∧
        t.arena.nodeAt 1 =
          { kind := .unary, value := 0, left := 0, right := 0x1FF, freq := (t.arena.nodeAt 0).freq } ∧
        ∀ i : NodeIdx, 2 ≤ i.toNat → t.arena.nodeAt i = Node.empty)

/-- BUILD of n >= 2 leaves (`40_frequency_tree.md` R161, R166): n-1 merges, NODECNT = 2n-1, ROOT = 2n-2, the
root's frequency is TOTAL, the leaves stand in table order, every INTERNAL node has two children with
smaller indices, and every node but the root is the child of exactly one. For n = 1, NODECNT = 2, ROOT = 1 and
the root's frequency is TOTAL. -/
def Obligations.BuildMakesTheTree : Prop :=
  ∀ s : State, s.work.abortReq = false → s.ft.Wf →
    let n := s.ft.leafCnt.toNat
    ∃ t, exec .build s = .next t ∧
      t.work.Gone ∧ t = { s with
        arena := t.arena, status := Status.completed { s.status with treeValid := true, cbValid := false }
        work := t.work } ∧
      (n = 1 → t.arena.nodeCnt = 2 ∧ t.arena.root = 1 ∧ (t.arena.nodeAt 1).freq = s.ft.total) ∧
      (2 ≤ n →
        t.arena.nodeCnt.toNat = 2 * n - 1 ∧ t.arena.root.toNat = 2 * n - 2 ∧
        (t.arena.nodeAt t.arena.root).freq = s.ft.total ∧
        (∀ i : NodeIdx, i.toNat < n → t.arena.nodeAt i =
          { kind := .leaf, value := s.ft.orderAt i.toNat, left := 0x1FF, right := 0x1FF
            freq := (s.ft.freqOf (s.ft.orderAt i.toNat)).zeroExtend 40 }) ∧
        (∀ i : NodeIdx, n ≤ i.toNat → i.toNat < 2 * n - 1 →
          let m := t.arena.nodeAt i
          m.kind = .internal ∧ m.value = 0 ∧ m.left.toNat < i.toNat ∧ m.right.toNat < i.toNat ∧
          m.left ≠ m.right ∧
          m.freq.toNat = (t.arena.nodeAt m.left).freq.toNat + (t.arena.nodeAt m.right).freq.toNat) ∧
        (∀ i : NodeIdx, 2 * n - 1 ≤ i.toNat → t.arena.nodeAt i = Node.empty) ∧
        (∀ j : NodeIdx, j.toNat < 2 * n - 2 → ∃ i : NodeIdx,
          (t.arena.nodeAt i).kind = .internal ∧
          ((t.arena.nodeAt i).left = j ∨ (t.arena.nodeAt i).right = j) ∧
          ∀ i' : NodeIdx, (t.arena.nodeAt i').kind = .internal →
            ((t.arena.nodeAt i').left = j ∨ (t.arena.nodeAt i').right = j) → i' = i))

/-- The tree depends only on LEAFCNT and the pairs in table order (`40_frequency_tree.md` R168). -/
def Obligations.BuildDependsOnlyOnThePairs : Prop :=
  ∀ (s s' t t' : State), s.work.abortReq = false → s'.work.abortReq = false →
    s.ft.leafCnt = s'.ft.leafCnt →
    (∀ k, k < s.ft.leafCnt.toNat → s.ft.orderAt k = s'.ft.orderAt k ∧
      s.ft.freqOf (s.ft.orderAt k) = s'.ft.freqOf (s'.ft.orderAt k)) →
    exec .build s = .next t → exec .build s' = .next t' → t.arena = t'.arena

/-! ## The code table generator -/

/-- GENCODE over a tree BUILD made (`41_codebook.md` R190 to R193; `10_state.md` R49, R50): exactly the
present values have a code, and a value's code is the path from the root to its leaf; MAXLEN is the longest
length; CB_VALID is set and nothing else changes. -/
def Obligations.GencodeRecordsThePaths : Prop :=
  ∀ s : State, s.work.abortReq = false → s.ft.Wf → s.status.treeValid = true →
    s.arena = s.ft.buildTree.1 →
    ∃ t, exec .gencode s = .next t ∧
      t.work.Gone ∧ t = { s with
        cb := t.cb, status := Status.completed { s.status with cbValid := true }, work := t.work } ∧
      t.cb = s.ft.codebook ∧ (∀ v, s.ft.freqOf v ≠ 0 ↔ t.cb.lenOf v ≠ 0) ∧
      (∀ v, s.ft.freqOf v ≠ 0 → s.arena.IsCode (t.cb.codeOf v) v) ∧
      (∀ v, (t.cb.bitsOf v).toNat < 2 ^ (t.cb.lenOf v).toNat) ∧
      (∀ v, (t.cb.lenOf v).toNat ≤ t.cb.maxLen.toNat) ∧
      (t.cb.maxLen = 0 ∨ ∃ v, t.cb.lenOf v = t.cb.maxLen)

/-- The codes of a tree BUILD made are prefix-free (`41_codebook.md` R194). -/
def Obligations.CodesArePrefixFree : Prop :=
  ∀ t : FreqTable, t.Wf → ∀ u v, t.freqOf u ≠ 0 → t.freqOf v ≠ 0 → u ≠ v →
    ¬ (t.codebook.codeOf u <+: t.codebook.codeOf v)

/-- The Kraft equality (`41_codebook.md` R195): for n >= 2 leaves the sum over the present values of
2^(-CODE_LEN) is 1, and for n = 1 it is 1/2; here times 2^255. -/
def Obligations.CodeLengthsMeetTheKraftEquality : Prop :=
  ∀ t : FreqTable, t.Wf →
    let kraft := ((List.range 256).map fun v =>
      let len := (t.codebook.lenOf (BitVec.ofNat 8 v)).toNat
      if len = 0 then 0 else 2 ^ (255 - len)).sum
    (2 ≤ t.leafCnt.toNat → kraft = 2 ^ 255) ∧ (t.leafCnt.toNat = 1 → kraft = 2 ^ 254)

/-! ## The header -/

/-- WRHDR (`42_header.md` R211): with room for it, the header of the table is appended at OUT_LEN, exactly
4 + 5n bytes; nothing else changes. -/
def Obligations.WrhdrAppendsTheHeader : Prop :=
  ∀ s : State, s.work.abortReq = false → s.outBase.toNat + s.outCap.toNat ≤ s.memSize →
    s.ft.leafCnt.toNat ≤ 256 → s.outLen.toNat + s.ft.headerLen ≤ s.outCap.toNat →
    ∃ t, exec .wrhdr s = .next t ∧
      t.work.Gone ∧ t = { s with
        buf := t.buf, outLen := t.outLen, status := s.status.completed, work := t.work } ∧
      t.outLen.toNat = s.outLen.toNat + s.ft.headerLen ∧
      HoldsHeader t.readBuf (s.outBase.toNat + s.outLen.toNat) s.ft ∧
      ∀ a, (a < s.outBase.toNat + s.outLen.toNat ∨ s.outBase.toNat + t.outLen.toNat ≤ a) →
        t.readBuf a = s.readBuf a

/-- WRHDR, ENCODE and COMPRESS with an output region too small for what they write raise OUT_OVERFLOW with
OUT_CAP as position (`20_memory.md` R87, `60_exceptions.md` R331, R336): OUT_LEN <- 0, the table, the arena
and the codebook as the phases left them (`45_control.md` R305). ENCODE does so as soon as the codes of some first
input bytes do not fit, whatever follows them, a byte without a code too (`43_encoder.md` R241), or when the
trailer does not fit. -/
def Obligations.OutputOverflowDiscardsTheOutput : Prop :=
  ∀ s : State, s.work.abortReq = false → s.outBase.toNat + s.outCap.toNat ≤ s.memSize →
    let overflows (s t : State) : Prop :=
      t.work.Gone ∧ t = { s with
        buf := t.buf, outLen := 0, draws := s.draws + 1, errCode := 0x0A, errPos := s.outCap
        status := s.status.failed, work := t.work }
    let regions := s.inBase.toNat + s.inLen.toNat ≤ s.memSize ∧
      (s.inLen = 0 ∨ s.outCap = 0 ∨ s.inBase.toNat + s.inLen.toNat ≤ s.outBase.toNat ∨
        s.outBase.toNat + s.outCap.toNat ≤ s.inBase.toNat)
    let bits := s.cb.bitString s.inputBytes
    let ft := FreqTable.ofBytes s.inputBytes
    (s.ft.leafCnt.toNat ≤ 256 → s.outLen.toNat ≤ s.outCap.toNat →
      s.outCap.toNat < s.outLen.toNat + s.ft.headerLen →
      ∃ t, exec .wrhdr s = .next t ∧ overflows s t) ∧
    (s.status.cbValid = true → regions → s.outLen.toNat ≤ s.outCap.toNat → s.ft.leafCnt ≠ 0 →
      (∀ b ∈ s.inputBytes, s.cb.lenOf b ≠ 0) →
      s.outCap.toNat < s.outLen.toNat + bits.length / 8 + 2 →
      ∃ t, exec .encode s = .next t ∧ overflows s t) ∧
    (s.status.cbValid = true → regions → s.outLen.toNat ≤ s.outCap.toNat →
      ∀ i, i ≤ s.inLen.toNat → (∀ j, j < i → s.cb.lenOf (s.input j) ≠ 0) →
        s.outCap.toNat < s.outLen.toNat + (s.cb.bitString (s.inputs i)).length / 8 →
        ∃ t, exec .encode s = .next t ∧ overflows s t) ∧
    (regions → s.outCap.toNat < ft.containerLen (ft.codebook.bitString s.inputBytes) →
      ∃ t, exec .compress s = .next t ∧
        overflows { s with
          ft := ft, bodyOff := 0, arena := ft.buildTree.1, cb := ft.codebook
          status := { s.status with treeValid := true, cbValid := true, hdrValid := false } } t)

/-- PARSEHDR of a header that passes every check (`42_header.md` R213): the records enter the table in
order, BODY_OFF = 4 + 5L, HDR_VALID is set, TREE_VALID and CB_VALID are cleared; nothing else changes. -/
def Obligations.ParsehdrReadsTheHeader : Prop :=
  ∀ s : State, s.work.abortReq = false → s.inBase.toNat + s.inLen.toNat ≤ s.memSize →
    let n := (s.input32 0).toNat
    let val := fun k => s.input (4 + 5 * k)
    let freq := fun k => s.input32 (5 + 5 * k)
    n ≤ 256 → 4 + 5 * n ≤ s.inLen.toNat → (∀ k, k < n → freq k ≠ 0) →
    (∀ j k, j < k → k < n → val j ≠ val k) →
    ∃ t, exec .parsehdr s = .next t ∧
      t.work.Gone ∧ t = { s with
        ft := t.ft, bodyOff := t.bodyOff
        status := Status.completed { s.status.invalidated with hdrValid := true }, work := t.work } ∧
      t.bodyOff.toNat = 4 + 5 * n ∧ t.ft.leafCnt.toNat = n ∧
      (∀ k, k < n → t.ft.orderAt k = val k ∧ t.ft.freqOf (val k) = freq k) ∧
      (∀ k, n ≤ k → t.ft.orderAt k = 0) ∧ (∀ v, (∀ k, k < n → val k ≠ v) → t.ft.freqOf v = 0) ∧
      t.ft.total.toNat = ((List.range n).map fun k => (freq k).toNat).sum

/-- PARSEHDR's checks in their order (`42_header.md` R213, R214), and what a failure leaves (R215): an empty
table, the validity flags and BODY_OFF 0, the arena, the codebook and BUF as they were. -/
def Obligations.ParsehdrRejectsInOrder : Prop :=
  ∀ s : State, s.work.abortReq = false → s.inBase.toNat + s.inLen.toNat ≤ s.memSize →
    let n := (s.input32 0).toNat
    let val := fun k => s.input (4 + 5 * k)
    let freq := fun k => s.input32 (5 + 5 * k)
    let rejects (code : BitVec 8) (pos : Nat) : Prop :=
      ∃ w : Work, w.Gone ∧ exec .parsehdr s = .next { s with
        ft := FreqTable.empty, bodyOff := 0, errCode := code, errPos := BitVec.ofNat 32 pos
        status := s.status.invalidated.failed, work := w }
    (s.inLen.toNat < 4 → rejects 0x01 s.inLen.toNat) ∧
    (4 ≤ s.inLen.toNat → 256 < n → rejects 0x07 0) ∧
    (4 ≤ s.inLen.toNat → n ≤ 256 → s.inLen.toNat < 4 + 5 * n → rejects 0x01 s.inLen.toNat) ∧
    (n ≤ 256 → 4 + 5 * n ≤ s.inLen.toNat → ∀ k, k < n → (∀ j, j < k → freq j ≠ 0) →
      (∀ i j, i < j → j < k → val i ≠ val j) →
      (freq k = 0 → rejects 0x03 (4 + 5 * k)) ∧
      (freq k ≠ 0 → (∃ j, j < k ∧ val j = val k) → rejects 0x08 (4 + 5 * k)))

/-- The header round trip (`42_header.md` R216): PARSEHDR of the bytes WRHDR writes for a table succeeds and
gives that table, and a following BUILD gives the arena of that table. -/
def Obligations.HeaderRoundTrip : Prop :=
  ∀ (s : State) (table : FreqTable), s.work.abortReq = false → table.Wf →
    s.inBase.toNat + s.inLen.toNat ≤ s.memSize → table.headerLen ≤ s.inLen.toNat →
    HoldsHeader s.readBuf s.inBase.toNat table →
    ∃ t u, exec .parsehdr s = .next t ∧ t.ft = table ∧ t.status.hdrValid = true ∧
      t.bodyOff.toNat = table.headerLen ∧ exec .build t = .next u ∧ u.arena = table.buildTree.1

/-! ## The encoder -/

/-- ENCODE (`43_encoder.md` R241, R243 to R245; `30_encoding.md` R119): with a valid codebook, good regions, a
code for every input byte and room for the output, the packed body and the trailer are appended at OUT_LEN,
and nothing at all for an empty table; nothing else changes. -/
def Obligations.EncodeAppendsBodyAndTrailer : Prop :=
  ∀ s : State, s.work.abortReq = false → s.status.cbValid = true →
    s.inBase.toNat + s.inLen.toNat ≤ s.memSize → s.outBase.toNat + s.outCap.toNat ≤ s.memSize →
    (s.inLen = 0 ∨ s.outCap = 0 ∨ s.inBase.toNat + s.inLen.toNat ≤ s.outBase.toNat ∨
      s.outBase.toNat + s.outCap.toNat ≤ s.inBase.toNat) →
    (∀ b ∈ s.inputBytes, s.cb.lenOf b ≠ 0) →
    let bits := s.cb.bitString s.inputBytes
    let size := bits.length / 8 + (if s.ft.leafCnt = 0 then 0 else 2)
    s.outLen.toNat + size ≤ s.outCap.toNat →
    ∃ t, exec .encode s = .next t ∧
      t.work.Gone ∧ t = { s with
        buf := t.buf, outLen := t.outLen, status := s.status.completed, work := t.work } ∧
      t.outLen.toNat = s.outLen.toNat + size ∧
      (s.ft.leafCnt ≠ 0 → HoldsBody t.readBuf (s.outBase.toNat + s.outLen.toNat) bits) ∧
      ∀ a, (a < s.outBase.toNat + s.outLen.toNat ∨ s.outBase.toNat + t.outLen.toNat ≤ a) →
        t.readBuf a = s.readBuf a

/-- The first input byte with no code raises NO_CODE with its offset (`43_encoder.md` R242, R246), if the
bytes before it fit; the output is discarded. -/
def Obligations.EncodeRejectsTheFirstUncodedByte : Prop :=
  ∀ (s : State) (i : Nat), s.work.abortReq = false → s.status.cbValid = true →
    s.inBase.toNat + s.inLen.toNat ≤ s.memSize → s.outBase.toNat + s.outCap.toNat ≤ s.memSize →
    (s.outCap = 0 ∨ s.inBase.toNat + s.inLen.toNat ≤ s.outBase.toNat ∨
      s.outBase.toNat + s.outCap.toNat ≤ s.inBase.toNat) →
    i < s.inLen.toNat → s.cb.lenOf (s.input i) = 0 → (∀ j, j < i → s.cb.lenOf (s.input j) ≠ 0) →
    s.outLen.toNat + (s.cb.bitString (s.inputs i)).length / 8 ≤ s.outCap.toNat →
    ∃ t, exec .encode s = .next t ∧
      t.work.Gone ∧ t = { s with
        buf := t.buf, outLen := 0, draws := s.draws + 1, errCode := 0x09, errPos := BitVec.ofNat 32 i
        status := s.status.failed, work := t.work } ∧
      ∀ a, (a < s.outBase.toNat + s.outLen.toNat ∨ s.outBase.toNat + s.outCap.toNat ≤ a) →
        t.readBuf a = s.readBuf a

/-! ## The decoder -/

/-- The trailer at every size (`44_decoder.md` R273): an empty table with bytes after the header raises
BAD_TRAILER(BODY_OFF), and with none completes; otherwise fewer than 2 bytes raise TRUNCATED_BODY(IN_LEN), a
marker above 8 raises BAD_TRAILER(IN_LEN-2), and no meaningful bit at all raises INVALID_TREE_WALK(IN_LEN)
when the root is no leaf (R271). -/
def Obligations.DecodeChecksTheTrailer : Prop :=
  ∀ s : State, s.work.abortReq = false → s.status.treeValid = true → s.status.hdrValid = true →
    s.inBase.toNat + s.inLen.toNat ≤ s.memSize → s.outBase.toNat + s.outCap.toNat ≤ s.memSize →
    s.outLen.toNat ≤ s.outCap.toNat →
    (s.inLen = 0 ∨ s.outCap = 0 ∨ s.inBase.toNat + s.inLen.toNat ≤ s.outBase.toNat ∨
      s.outBase.toNat + s.outCap.toNat ≤ s.inBase.toNat) →
    s.bodyOff.toNat ≤ s.inLen.toNat →
    let rejects (code : BitVec 8) (pos : Nat) : Prop := ∃ t, exec .decode s = .next t ∧
      t.work.Gone ∧ t = { s with
        buf := t.buf, outLen := 0, draws := s.draws + 1, errCode := code, errPos := BitVec.ofNat 32 pos
        status := s.status.failed, work := t.work }
    (s.ft.leafCnt = 0 → s.bodyOff = s.inLen →
      ∃ w : Work, w.Gone ∧
        exec .decode s = .next { s with status := s.status.completed, work := w }) ∧
    (s.ft.leafCnt = 0 → s.bodyOff ≠ s.inLen → rejects 0x05 s.bodyOff.toNat) ∧
    (s.ft.leafCnt ≠ 0 → s.inLen.toNat < s.bodyOff.toNat + 2 → rejects 0x04 s.inLen.toNat) ∧
    (s.ft.leafCnt ≠ 0 → s.bodyOff.toNat + 2 ≤ s.inLen.toNat →
      8 < (s.input (s.inLen.toNat - 2)).toNat → rejects 0x05 (s.inLen.toNat - 2)) ∧
    (s.ft.leafCnt ≠ 0 → s.bodyOff.toNat + 2 = s.inLen.toNat → s.input (s.inLen.toNat - 2) = 0 →
      (s.arena.nodeAt s.arena.root).kind ≠ .leaf → rejects 0x02 s.inLen.toNat)

/-- DECODE (`44_decoder.md` R270, R271, R274 to R277): when the meaningful body bits are the codes of a
message of TOTAL bytes, each a path from the root to a leaf, and the message fits, exactly the message is
appended at OUT_LEN and the command completes; nothing else changes. -/
def Obligations.DecodeFollowsTheTree : Prop :=
  ∀ (s : State) (msg : List Byte) (code : Byte → List Bool), s.work.abortReq = false →
    s.status.treeValid = true → s.status.hdrValid = true →
    s.inBase.toNat + s.inLen.toNat ≤ s.memSize → s.outBase.toNat + s.outCap.toNat ≤ s.memSize →
    (s.inLen = 0 ∨ s.outCap = 0 ∨ s.inBase.toNat + s.inLen.toNat ≤ s.outBase.toNat ∨
      s.outBase.toNat + s.outCap.toNat ≤ s.inBase.toNat) →
    s.ft.leafCnt ≠ 0 → s.bodyOff.toNat + 2 ≤ s.inLen.toNat → s.marker ≤ 8 →
    msg ≠ [] → (∀ v ∈ msg, s.arena.IsCode (code v) v) → s.bodyBits = msg.flatMap code →
    msg.length = s.ft.total.toNat → s.outLen.toNat + msg.length ≤ s.outCap.toNat →
    ∃ t, exec .decode s = .next t ∧
      t.work.Gone ∧ t = { s with
        buf := t.buf, outLen := t.outLen, status := s.status.completed, work := t.work } ∧
      t.outLen.toNat = s.outLen.toNat + msg.length ∧
      (∀ i, i < msg.length →
        t.readBuf (s.outBase.toNat + s.outLen.toNat + i) = msg.getD i 0) ∧
      ∀ a, (a < s.outBase.toNat + s.outLen.toNat ∨ s.outBase.toNat + t.outLen.toNat ≤ a) →
        t.readBuf a = s.readBuf a

/-- The count and end checks (`44_decoder.md` R271, R276, R277), on body bits that are the codes of a message
and then any bits `rest`: with none, fewer symbols than TOTAL raise LENGTH_MISMATCH(IN_LEN); a symbol past TOTAL,
if TOTAL symbols fit, raises LENGTH_MISMATCH with the offset of the next bit's byte, or IN_LEN at the end, and one
within TOTAL that does not fit raises OUT_OVERFLOW(OUT_CAP), both whatever follows; an unfinished code raises
INVALID_TREE_WALK(IN_LEN). -/
def Obligations.DecodeChecksTheCountAndTheEnd : Prop :=
  ∀ (s : State) (msg : List Byte) (code : Byte → List Bool) (rest : List Bool), s.work.abortReq = false →
    s.status.treeValid = true → s.status.hdrValid = true →
    s.inBase.toNat + s.inLen.toNat ≤ s.memSize → s.outBase.toNat + s.outCap.toNat ≤ s.memSize →
    (s.inLen = 0 ∨ s.outCap = 0 ∨ s.inBase.toNat + s.inLen.toNat ≤ s.outBase.toNat ∨
      s.outBase.toNat + s.outCap.toNat ≤ s.inBase.toNat) →
    s.ft.leafCnt ≠ 0 → s.bodyOff.toNat + 2 ≤ s.inLen.toNat → s.marker ≤ 8 →
    (∀ v ∈ msg, s.arena.IsCode (code v) v) → s.bodyBits = msg.flatMap code ++ rest →
    s.outLen.toNat ≤ s.outCap.toNat →
    let rejects (code : BitVec 8) (pos : Nat) : Prop := ∃ t, exec .decode s = .next t ∧
      t.work.Gone ∧ t = { s with
        buf := t.buf, outLen := 0, draws := s.draws + 1, errCode := code, errPos := BitVec.ofNat 32 pos
        status := s.status.failed, work := t.work }
    let total := s.ft.total.toNat
    let next := ((msg.take (total + 1)).flatMap code).length
    (msg ≠ [] → rest = [] → msg.length < total → s.outLen.toNat + msg.length ≤ s.outCap.toNat →
      rejects 0x06 s.inLen.toNat) ∧
    (total < msg.length → s.outLen.toNat + total ≤ s.outCap.toNat →
      rejects 0x06 (if next < s.bodyBits.length then (s.bitAt s.bodyBytes next).2 else s.inLen.toNat)) ∧
    (s.outCap.toNat < s.outLen.toNat + msg.length → s.outCap.toNat < s.outLen.toNat + total →
      rejects 0x0A s.outCap.toNat) ∧
    (rest ≠ [] → msg.length ≤ total → s.outLen.toNat + msg.length ≤ s.outCap.toNat →
      (∀ k, k ≤ rest.length → (s.arena.nodeAt (s.arena.follow s.arena.root (rest.take k))).kind ≠ .leaf ∧
        s.arena.follow s.arena.root (rest.take k) ≠ Config.null) →
      rejects 0x02 s.inLen.toNat)

/-- Single-leaf decoding (`44_decoder.md` R278): a bit 1 at the UNARY root raises INVALID_TREE_WALK with the
offset of its byte, here the first 1 bit of the body, if the symbols before it are no more than TOTAL and
fit. -/
def Obligations.OneBitAtTheUnaryRootIsRejected : Prop :=
  ∀ (s : State) (k : Nat), s.work.abortReq = false → s.status.treeValid = true →
    s.status.hdrValid = true → s.ft.leafCnt = 1 → s.arena = s.ft.buildTree.1 →
    s.inBase.toNat + s.inLen.toNat ≤ s.memSize → s.outBase.toNat + s.outCap.toNat ≤ s.memSize →
    (s.inLen = 0 ∨ s.outCap = 0 ∨ s.inBase.toNat + s.inLen.toNat ≤ s.outBase.toNat ∨
      s.outBase.toNat + s.outCap.toNat ≤ s.inBase.toNat) →
    s.bodyOff.toNat + 2 ≤ s.inLen.toNat → s.marker ≤ 8 →
    k < s.bodyBits.length → s.bodyBits.getD k false = true →
    (∀ j, j < k → s.bodyBits.getD j false = false) →
    k ≤ s.ft.total.toNat → s.outLen.toNat + k ≤ s.outCap.toNat →
    ∃ t, exec .decode s = .next t ∧
      t.work.Gone ∧ t = { s with
        buf := t.buf, outLen := 0, draws := s.draws + 1, errCode := 0x02
        errPos := BitVec.ofNat 32 (s.bitAt s.bodyBytes k).2, status := s.status.failed, work := t.work }

/-- The padding bits of the final byte are never read (`44_decoder.md` R279): two containers that differ only
there decode alike. -/
def Obligations.PaddingBitsAreNotRead : Prop :=
  ∀ (s t : State) (b : Byte), s.bodyOff.toNat + 2 ≤ s.inLen.toNat →
    (∀ i, i < s.marker → i < 8 → b.getLsbD (7 - i) = (s.input (s.inLen.toNat - 1)).getLsbD (7 - i)) →
    exec .decode s = .next t →
    ∃ m, exec .decode (s.writeBuf (s.inBase.toNat + (s.inLen.toNat - 1)) b) = .next { t with buf := m } ∧
      ∀ a, a ≠ s.inBase.toNat + (s.inLen.toNat - 1) →
        ({ t with buf := m } : State).readBuf a = t.readBuf a

/-! ## The pipelines -/

/-- COMPRESS (`45_control.md` R303): with good regions and room for it, the container of the input is written
from OUT_BASE on, `containerLen` bytes (`30_encoding.md` R122), the table, the tree and the codebook are the
input's, and the flags say so; nothing else changes. -/
def Obligations.CompressWritesTheContainer : Prop :=
  ∀ s : State, s.work.abortReq = false →
    s.inBase.toNat + s.inLen.toNat ≤ s.memSize → s.outBase.toNat + s.outCap.toNat ≤ s.memSize →
    (s.inLen = 0 ∨ s.outCap = 0 ∨ s.inBase.toNat + s.inLen.toNat ≤ s.outBase.toNat ∨
      s.outBase.toNat + s.outCap.toNat ≤ s.inBase.toNat) →
    let ft := FreqTable.ofBytes s.inputBytes
    let bits := ft.codebook.bitString s.inputBytes
    ft.containerLen bits ≤ s.outCap.toNat →
    ∃ t, exec .compress s = .next t ∧
      t.work.Gone ∧ t = { s with
        buf := t.buf, outLen := t.outLen, ft := ft, bodyOff := 0, arena := ft.buildTree.1, cb := ft.codebook
        status := Status.completed
          { s.status with treeValid := true, cbValid := true, hdrValid := false }
        work := t.work } ∧
      t.outLen.toNat = ft.containerLen bits ∧ HoldsContainer t.readBuf s.outBase.toNat ft bits ∧
      ∀ a, (a < s.outBase.toNat ∨ s.outBase.toNat + t.outLen.toNat ≤ a) → t.readBuf a = s.readBuf a

/-- COMPRESS ends in success, BAD_REGION or OUT_OVERFLOW, and never in NO_CODE or SEQUENCE (`45_control.md`
R303). -/
def Obligations.CompressFailsOnlyWithBadRegionOrOverflow : Prop :=
  ∀ s t : State, s.work.abortReq = false → s.status.err = false → exec .compress s = .next t →
    t.status.err = false ∨ t.errCode = 0x0B ∨ t.errCode = 0x0A

/-- The pipelines are their commands in sequence (`45_control.md` R303, R304): when each command of the
sequence succeeds, COMPRESS and DECOMPRESS end in the very state the sequence ends in, from OUT_LEN = 0. When,
with good regions, PARSEHDR or, after it, DECODE fails, DECOMPRESS reports that error and position (R305): OUT_LEN
is 0, the bytes outside the output region are as before, and the table, the arena, the codebook and the validity
flags are as the failing phase and those before it left them. (Draws: log 3.) -/
def Obligations.PipelinesEqualTheirCommands : Prop :=
  (∀ s t1 t2 t3 t4 t5 : State, s.work.abortReq = false →
    exec .count { s with outLen := 0 } = .next t1 → exec .build t1 = .next t2 →
    exec .gencode t2 = .next t3 → exec .wrhdr t3 = .next t4 → exec .encode t4 = .next t5 →
    t5.status.err = false → exec .compress s = .next t5) ∧
  (∀ s t1 t2 t3 : State, s.work.abortReq = false →
    exec .parsehdr { s with outLen := 0 } = .next t1 → exec .build t1 = .next t2 →
    exec .decode t2 = .next t3 → t3.status.err = false → exec .decompress s = .next t3) ∧
  (∀ s t1 : State, s.work.abortReq = false → s.status.err = false →
    s.inBase.toNat + s.inLen.toNat ≤ s.memSize → s.outBase.toNat + s.outCap.toNat ≤ s.memSize →
    (s.inLen = 0 ∨ s.outCap = 0 ∨ s.inBase.toNat + s.inLen.toNat ≤ s.outBase.toNat ∨
      s.outBase.toNat + s.outCap.toNat ≤ s.inBase.toNat) →
    exec .parsehdr { s with outLen := 0 } = .next t1 →
    (t1.status.err = true → ∃ t, exec .decompress s = .next t ∧
      t.work.Gone ∧ t = { t1 with buf := t.buf, outLen := 0, draws := s.draws + 1, work := t.work } ∧
      ∀ a, (a < s.outBase.toNat ∨ s.outBase.toNat + s.outCap.toNat ≤ a) → t.readBuf a = s.readBuf a) ∧
    (t1.status.err = false → ∀ t2 t3 : State, exec .build t1 = .next t2 → exec .decode t2 = .next t3 →
      t3.status.err = true → ∃ t, exec .decompress s = .next t ∧
        t.work.Gone ∧ t = { t3 with
          outLen := 0, status := { t3.status with done := s.status.done }, work := t.work } ∧
        ∀ a, (a < s.outBase.toNat ∨ s.outBase.toNat + s.outCap.toNat ≤ a) → t.readBuf a = s.readBuf a))

/-- DECOMPRESS (`45_control.md` R304): of the container of a table and of the codes of a message of TOTAL
bytes whose values the table has, it writes the message from OUT_BASE on and leaves the parsed table and its
tree, with HDR_VALID and TREE_VALID set; nothing else changes. -/
def Obligations.DecompressWritesTheMessage : Prop :=
  ∀ (s : State) (table : FreqTable) (msg : List Byte), s.work.abortReq = false → table.Wf →
    s.inBase.toNat + s.inLen.toNat ≤ s.memSize → s.outBase.toNat + s.outCap.toNat ≤ s.memSize →
    (s.inLen = 0 ∨ s.outCap = 0 ∨ s.inBase.toNat + s.inLen.toNat ≤ s.outBase.toNat ∨
      s.outBase.toNat + s.outCap.toNat ≤ s.inBase.toNat) →
    (∀ v ∈ msg, table.freqOf v ≠ 0) → msg.length = table.total.toNat →
    let bits := table.codebook.bitString msg
    s.inLen.toNat = table.containerLen bits →
    HoldsContainer s.readBuf s.inBase.toNat table bits → msg.length ≤ s.outCap.toNat →
    ∃ t, exec .decompress s = .next t ∧
      t.work.Gone ∧ t = { s with
        buf := t.buf, outLen := t.outLen, ft := table, bodyOff := t.bodyOff, arena := table.buildTree.1
        status := Status.completed
          { s.status with treeValid := true, cbValid := false, hdrValid := true }
        work := t.work } ∧
      t.bodyOff.toNat = table.headerLen ∧ t.outLen.toNat = msg.length ∧
      (∀ i, i < msg.length → t.readBuf (s.outBase.toNat + i) = msg.getD i 0) ∧
      ∀ a, (a < s.outBase.toNat ∨ s.outBase.toNat + t.outLen.toNat ≤ a) → t.readBuf a = s.readBuf a

/-- The round trip (`44_decoder.md` R281): COMPRESS of any input, into an output region large enough for the
container, succeeds, and if the container is then the input region of another state with room for the original,
DECOMPRESS there succeeds and writes exactly the original bytes. -/
def Obligations.CodecRoundTrip : Prop :=
  ∀ s : State, s.work.abortReq = false → s.status.err = false →
    s.inBase.toNat + s.inLen.toNat ≤ s.memSize → s.outBase.toNat + s.outCap.toNat ≤ s.memSize →
    (s.inLen = 0 ∨ s.outCap = 0 ∨ s.inBase.toNat + s.inLen.toNat ≤ s.outBase.toNat ∨
      s.outBase.toNat + s.outCap.toNat ≤ s.inBase.toNat) →
    let ft := FreqTable.ofBytes s.inputBytes
    ft.containerLen (ft.codebook.bitString s.inputBytes) ≤ s.outCap.toNat →
    ∃ t, exec .compress s = .next t ∧ t.status.done = true ∧ t.status.err = false ∧
      ∀ s' : State, s'.work.abortReq = false → s'.status.err = false → s'.inLen = t.outLen →
        (∀ i, i < t.outLen.toNat → s'.input i = t.readBuf (t.outBase.toNat + i)) →
        s'.inBase.toNat + s'.inLen.toNat ≤ s'.memSize → s'.outBase.toNat + s'.outCap.toNat ≤ s'.memSize →
        (s'.outCap = 0 ∨ s'.inBase.toNat + s'.inLen.toNat ≤ s'.outBase.toNat ∨
          s'.outBase.toNat + s'.outCap.toNat ≤ s'.inBase.toNat) →
        s.inLen.toNat ≤ s'.outCap.toNat →
        ∃ u, exec .decompress s' = .next u ∧ u.status.done = true ∧ u.status.err = false ∧
          u.outLen = s.inLen ∧
          ∀ i, i < s.inLen.toNat → u.readBuf (u.outBase.toNat + i) = s.input i

/-! ## Invariants -/

/-- The frequency-table invariant (`10_state.md` R41) is kept by every step. -/
def Obligations.EveryStepKeepsTheTableInvariant : Prop :=
  ∀ s t : State, s.ft.Wf → step s = .next t → t.ft.Wf

/-- BUF keeps its canonical form inside MEM_SIZE over every step, and MEM_SIZE does not change
(`20_memory.md` R80, R89). -/
def Obligations.EveryStepKeepsBufInRange : Prop :=
  ∀ s t : State, s.BufWf → step s = .next t → t.BufWf ∧ t.memSize = s.memSize

/-- The completion bits, the error report and the busy-only state stay consistent over every step
(`10_state.md` R35, R36, R47, R56; `60_exceptions.md` R331). -/
def Obligations.EveryStepKeepsTheReport : Prop :=
  ∀ s t : State, s.ReportWf → step s = .next t → t.ReportWf

/-- The validity flags keep their promise over every step (`10_state.md` R42, R54): TREE_VALID = 1 implies the
arena was built from the current table, CB_VALID = 1 implies TREE_VALID = 1 and a codebook derived from the
current arena, HDR_VALID = 1 implies BODY_OFF = 4 + 5n within the input region. -/
def Obligations.EveryStepKeepsTheFlags : Prop :=
  ∀ s t : State, s.FlagsWf → step s = .next t → t.FlagsWf

/-- The arena's entries keep the constraints of their kinds over every step (`10_state.md` R44, R46), given
the frequency-table invariant: an INTERNAL node's children are two distinct nodes whose frequencies sum to its
own, a UNARY node's child is a leaf of its own frequency and it is the root of a one-leaf tree, and, while
TREE_VALID = 1, a LEAF's frequency is that of its value. -/
def Obligations.EveryStepKeepsTheArenaShape : Prop :=
  ∀ s t : State, s.ft.Wf → s.ArenaWf → step s = .next t → t.ArenaWf

/-- The machine after hardware reset, of any MEM_SIZE in range, meets every invariant. -/
def Obligations.ResetMeetsTheInvariants : Prop :=
  ∀ n, 8 ≤ n → n ≤ 2 ^ 32 →
    (State.resetWith n).ft.Wf ∧ (State.resetWith n).BufWf ∧ (State.resetWith n).ReportWf ∧
    (State.resetWith n).FlagsWf ∧ (State.resetWith n).ArenaWf
end

