-- ==== Sys2Proof/Laws/State.lean ====
section
/-! SUPPORT. Laws/State.lean: what each named update of the state leaves in each field, one lemma per field
per update, so that no later proof unfolds a record update. -/

namespace Sys2Proof.Machine

variable (s : State)

/-! ## clearFlags -/

@[simp] theorem State.clearFlags_memSize : (s.clearFlags).memSize = s.memSize := rfl
@[simp] theorem State.clearFlags_buf : (s.clearFlags).buf = s.buf := rfl
@[simp] theorem State.clearFlags_ie : (s.clearFlags).ie = s.ie := rfl
@[simp] theorem State.clearFlags_status :
    (s.clearFlags).status = { s.status with treeValid := false, cbValid := false, hdrValid := false } := rfl
@[simp] theorem State.clearFlags_cmd : (s.clearFlags).cmd = s.cmd := rfl
@[simp] theorem State.clearFlags_arg : (s.clearFlags).arg = s.arg := rfl
@[simp] theorem State.clearFlags_errCode : (s.clearFlags).errCode = s.errCode := rfl
@[simp] theorem State.clearFlags_errPos : (s.clearFlags).errPos = s.errPos := rfl
@[simp] theorem State.clearFlags_inBase : (s.clearFlags).inBase = s.inBase := rfl
@[simp] theorem State.clearFlags_inLen : (s.clearFlags).inLen = s.inLen := rfl
@[simp] theorem State.clearFlags_outBase : (s.clearFlags).outBase = s.outBase := rfl
@[simp] theorem State.clearFlags_outCap : (s.clearFlags).outCap = s.outCap := rfl
@[simp] theorem State.clearFlags_outLen : (s.clearFlags).outLen = s.outLen := rfl
@[simp] theorem State.clearFlags_ft : (s.clearFlags).ft = s.ft := rfl
@[simp] theorem State.clearFlags_bodyOff : (s.clearFlags).bodyOff = 0 := rfl
@[simp] theorem State.clearFlags_arena : (s.clearFlags).arena = s.arena := rfl
@[simp] theorem State.clearFlags_cb : (s.clearFlags).cb = s.cb := rfl
@[simp] theorem State.clearFlags_tblSel : (s.clearFlags).tblSel = s.tblSel := rfl
@[simp] theorem State.clearFlags_nodeSel : (s.clearFlags).nodeSel = s.nodeSel := rfl
@[simp] theorem State.clearFlags_work : (s.clearFlags).work = s.work := rfl
@[simp] theorem State.clearFlags_host : (s.clearFlags).host = s.host := rfl
@[simp] theorem State.clearFlags_turns : (s.clearFlags).turns = s.turns := rfl
@[simp] theorem State.clearFlags_hostData : (s.clearFlags).hostData = s.hostData := rfl
@[simp] theorem State.clearFlags_draws : (s.clearFlags).draws = s.draws := rfl
@[simp] theorem State.clearFlags_bufEpoch : (s.clearFlags).bufEpoch = s.bufEpoch := rfl

/-! ## markTree -/

@[simp] theorem State.markTree_memSize : (s.markTree).memSize = s.memSize := rfl
@[simp] theorem State.markTree_buf : (s.markTree).buf = s.buf := rfl
@[simp] theorem State.markTree_ie : (s.markTree).ie = s.ie := rfl
@[simp] theorem State.markTree_status :
    (s.markTree).status = { s.status with treeValid := true, cbValid := false } := rfl
@[simp] theorem State.markTree_cmd : (s.markTree).cmd = s.cmd := rfl
@[simp] theorem State.markTree_arg : (s.markTree).arg = s.arg := rfl
@[simp] theorem State.markTree_errCode : (s.markTree).errCode = s.errCode := rfl
@[simp] theorem State.markTree_errPos : (s.markTree).errPos = s.errPos := rfl
@[simp] theorem State.markTree_inBase : (s.markTree).inBase = s.inBase := rfl
@[simp] theorem State.markTree_inLen : (s.markTree).inLen = s.inLen := rfl
@[simp] theorem State.markTree_outBase : (s.markTree).outBase = s.outBase := rfl
@[simp] theorem State.markTree_outCap : (s.markTree).outCap = s.outCap := rfl
@[simp] theorem State.markTree_outLen : (s.markTree).outLen = s.outLen := rfl
@[simp] theorem State.markTree_ft : (s.markTree).ft = s.ft := rfl
@[simp] theorem State.markTree_bodyOff : (s.markTree).bodyOff = s.bodyOff := rfl
@[simp] theorem State.markTree_arena : (s.markTree).arena = s.arena := rfl
@[simp] theorem State.markTree_cb : (s.markTree).cb = s.cb := rfl
@[simp] theorem State.markTree_tblSel : (s.markTree).tblSel = s.tblSel := rfl
@[simp] theorem State.markTree_nodeSel : (s.markTree).nodeSel = s.nodeSel := rfl
@[simp] theorem State.markTree_work : (s.markTree).work = s.work := rfl
@[simp] theorem State.markTree_host : (s.markTree).host = s.host := rfl
@[simp] theorem State.markTree_turns : (s.markTree).turns = s.turns := rfl
@[simp] theorem State.markTree_hostData : (s.markTree).hostData = s.hostData := rfl
@[simp] theorem State.markTree_draws : (s.markTree).draws = s.draws := rfl
@[simp] theorem State.markTree_bufEpoch : (s.markTree).bufEpoch = s.bufEpoch := rfl

/-! ## markCodebook -/

@[simp] theorem State.markCodebook_memSize : (s.markCodebook).memSize = s.memSize := rfl
@[simp] theorem State.markCodebook_buf : (s.markCodebook).buf = s.buf := rfl
@[simp] theorem State.markCodebook_ie : (s.markCodebook).ie = s.ie := rfl
@[simp] theorem State.markCodebook_status : (s.markCodebook).status = { s.status with cbValid := true } := rfl
@[simp] theorem State.markCodebook_cmd : (s.markCodebook).cmd = s.cmd := rfl
@[simp] theorem State.markCodebook_arg : (s.markCodebook).arg = s.arg := rfl
@[simp] theorem State.markCodebook_errCode : (s.markCodebook).errCode = s.errCode := rfl
@[simp] theorem State.markCodebook_errPos : (s.markCodebook).errPos = s.errPos := rfl
@[simp] theorem State.markCodebook_inBase : (s.markCodebook).inBase = s.inBase := rfl
@[simp] theorem State.markCodebook_inLen : (s.markCodebook).inLen = s.inLen := rfl
@[simp] theorem State.markCodebook_outBase : (s.markCodebook).outBase = s.outBase := rfl
@[simp] theorem State.markCodebook_outCap : (s.markCodebook).outCap = s.outCap := rfl
@[simp] theorem State.markCodebook_outLen : (s.markCodebook).outLen = s.outLen := rfl
@[simp] theorem State.markCodebook_ft : (s.markCodebook).ft = s.ft := rfl
@[simp] theorem State.markCodebook_bodyOff : (s.markCodebook).bodyOff = s.bodyOff := rfl
@[simp] theorem State.markCodebook_arena : (s.markCodebook).arena = s.arena := rfl
@[simp] theorem State.markCodebook_cb : (s.markCodebook).cb = s.cb := rfl
@[simp] theorem State.markCodebook_tblSel : (s.markCodebook).tblSel = s.tblSel := rfl
@[simp] theorem State.markCodebook_nodeSel : (s.markCodebook).nodeSel = s.nodeSel := rfl
@[simp] theorem State.markCodebook_work : (s.markCodebook).work = s.work := rfl
@[simp] theorem State.markCodebook_host : (s.markCodebook).host = s.host := rfl
@[simp] theorem State.markCodebook_turns : (s.markCodebook).turns = s.turns := rfl
@[simp] theorem State.markCodebook_hostData : (s.markCodebook).hostData = s.hostData := rfl
@[simp] theorem State.markCodebook_draws : (s.markCodebook).draws = s.draws := rfl
@[simp] theorem State.markCodebook_bufEpoch : (s.markCodebook).bufEpoch = s.bufEpoch := rfl

/-! ## markHeader -/

@[simp] theorem State.markHeader_memSize (off : Word) : (s.markHeader off).memSize = s.memSize := rfl
@[simp] theorem State.markHeader_buf (off : Word) : (s.markHeader off).buf = s.buf := rfl
@[simp] theorem State.markHeader_ie (off : Word) : (s.markHeader off).ie = s.ie := rfl
@[simp] theorem State.markHeader_status (off : Word) :
    (s.markHeader off).status = { s.status with hdrValid := true } := rfl
@[simp] theorem State.markHeader_cmd (off : Word) : (s.markHeader off).cmd = s.cmd := rfl
@[simp] theorem State.markHeader_arg (off : Word) : (s.markHeader off).arg = s.arg := rfl
@[simp] theorem State.markHeader_errCode (off : Word) : (s.markHeader off).errCode = s.errCode := rfl
@[simp] theorem State.markHeader_errPos (off : Word) : (s.markHeader off).errPos = s.errPos := rfl
@[simp] theorem State.markHeader_inBase (off : Word) : (s.markHeader off).inBase = s.inBase := rfl
@[simp] theorem State.markHeader_inLen (off : Word) : (s.markHeader off).inLen = s.inLen := rfl
@[simp] theorem State.markHeader_outBase (off : Word) : (s.markHeader off).outBase = s.outBase := rfl
@[simp] theorem State.markHeader_outCap (off : Word) : (s.markHeader off).outCap = s.outCap := rfl
@[simp] theorem State.markHeader_outLen (off : Word) : (s.markHeader off).outLen = s.outLen := rfl
@[simp] theorem State.markHeader_ft (off : Word) : (s.markHeader off).ft = s.ft := rfl
@[simp] theorem State.markHeader_bodyOff (off : Word) : (s.markHeader off).bodyOff = off := rfl
@[simp] theorem State.markHeader_arena (off : Word) : (s.markHeader off).arena = s.arena := rfl
@[simp] theorem State.markHeader_cb (off : Word) : (s.markHeader off).cb = s.cb := rfl
@[simp] theorem State.markHeader_tblSel (off : Word) : (s.markHeader off).tblSel = s.tblSel := rfl
@[simp] theorem State.markHeader_nodeSel (off : Word) : (s.markHeader off).nodeSel = s.nodeSel := rfl
@[simp] theorem State.markHeader_work (off : Word) : (s.markHeader off).work = s.work := rfl
@[simp] theorem State.markHeader_host (off : Word) : (s.markHeader off).host = s.host := rfl
@[simp] theorem State.markHeader_turns (off : Word) : (s.markHeader off).turns = s.turns := rfl
@[simp] theorem State.markHeader_hostData (off : Word) : (s.markHeader off).hostData = s.hostData := rfl
@[simp] theorem State.markHeader_draws (off : Word) : (s.markHeader off).draws = s.draws := rfl
@[simp] theorem State.markHeader_bufEpoch (off : Word) : (s.markHeader off).bufEpoch = s.bufEpoch := rfl

/-! ## dropHeader -/

@[simp] theorem State.dropHeader_memSize : (s.dropHeader).memSize = s.memSize := rfl
@[simp] theorem State.dropHeader_buf : (s.dropHeader).buf = s.buf := rfl
@[simp] theorem State.dropHeader_ie : (s.dropHeader).ie = s.ie := rfl
@[simp] theorem State.dropHeader_status : (s.dropHeader).status = { s.status with hdrValid := false } := rfl
@[simp] theorem State.dropHeader_cmd : (s.dropHeader).cmd = s.cmd := rfl
@[simp] theorem State.dropHeader_arg : (s.dropHeader).arg = s.arg := rfl
@[simp] theorem State.dropHeader_errCode : (s.dropHeader).errCode = s.errCode := rfl
@[simp] theorem State.dropHeader_errPos : (s.dropHeader).errPos = s.errPos := rfl
@[simp] theorem State.dropHeader_inBase : (s.dropHeader).inBase = s.inBase := rfl
@[simp] theorem State.dropHeader_inLen : (s.dropHeader).inLen = s.inLen := rfl
@[simp] theorem State.dropHeader_outBase : (s.dropHeader).outBase = s.outBase := rfl
@[simp] theorem State.dropHeader_outCap : (s.dropHeader).outCap = s.outCap := rfl
@[simp] theorem State.dropHeader_outLen : (s.dropHeader).outLen = s.outLen := rfl
@[simp] theorem State.dropHeader_ft : (s.dropHeader).ft = s.ft := rfl
@[simp] theorem State.dropHeader_bodyOff : (s.dropHeader).bodyOff = 0 := rfl
@[simp] theorem State.dropHeader_arena : (s.dropHeader).arena = s.arena := rfl
@[simp] theorem State.dropHeader_cb : (s.dropHeader).cb = s.cb := rfl
@[simp] theorem State.dropHeader_tblSel : (s.dropHeader).tblSel = s.tblSel := rfl
@[simp] theorem State.dropHeader_nodeSel : (s.dropHeader).nodeSel = s.nodeSel := rfl
@[simp] theorem State.dropHeader_work : (s.dropHeader).work = s.work := rfl
@[simp] theorem State.dropHeader_host : (s.dropHeader).host = s.host := rfl
@[simp] theorem State.dropHeader_turns : (s.dropHeader).turns = s.turns := rfl
@[simp] theorem State.dropHeader_hostData : (s.dropHeader).hostData = s.hostData := rfl
@[simp] theorem State.dropHeader_draws : (s.dropHeader).draws = s.draws := rfl
@[simp] theorem State.dropHeader_bufEpoch : (s.dropHeader).bufEpoch = s.bufEpoch := rfl

/-! ## markHostErr -/

@[simp] theorem State.markHostErr_memSize : (s.markHostErr).memSize = s.memSize := rfl
@[simp] theorem State.markHostErr_buf : (s.markHostErr).buf = s.buf := rfl
@[simp] theorem State.markHostErr_ie : (s.markHostErr).ie = s.ie := rfl
@[simp] theorem State.markHostErr_status : (s.markHostErr).status = { s.status with hostErr := true } := rfl
@[simp] theorem State.markHostErr_cmd : (s.markHostErr).cmd = s.cmd := rfl
@[simp] theorem State.markHostErr_arg : (s.markHostErr).arg = s.arg := rfl
@[simp] theorem State.markHostErr_errCode : (s.markHostErr).errCode = s.errCode := rfl
@[simp] theorem State.markHostErr_errPos : (s.markHostErr).errPos = s.errPos := rfl
@[simp] theorem State.markHostErr_inBase : (s.markHostErr).inBase = s.inBase := rfl
@[simp] theorem State.markHostErr_inLen : (s.markHostErr).inLen = s.inLen := rfl
@[simp] theorem State.markHostErr_outBase : (s.markHostErr).outBase = s.outBase := rfl
@[simp] theorem State.markHostErr_outCap : (s.markHostErr).outCap = s.outCap := rfl
@[simp] theorem State.markHostErr_outLen : (s.markHostErr).outLen = s.outLen := rfl
@[simp] theorem State.markHostErr_ft : (s.markHostErr).ft = s.ft := rfl
@[simp] theorem State.markHostErr_bodyOff : (s.markHostErr).bodyOff = s.bodyOff := rfl
@[simp] theorem State.markHostErr_arena : (s.markHostErr).arena = s.arena := rfl
@[simp] theorem State.markHostErr_cb : (s.markHostErr).cb = s.cb := rfl
@[simp] theorem State.markHostErr_tblSel : (s.markHostErr).tblSel = s.tblSel := rfl
@[simp] theorem State.markHostErr_nodeSel : (s.markHostErr).nodeSel = s.nodeSel := rfl
@[simp] theorem State.markHostErr_work : (s.markHostErr).work = s.work := rfl
@[simp] theorem State.markHostErr_host : (s.markHostErr).host = s.host := rfl
@[simp] theorem State.markHostErr_turns : (s.markHostErr).turns = s.turns := rfl
@[simp] theorem State.markHostErr_hostData : (s.markHostErr).hostData = s.hostData := rfl
@[simp] theorem State.markHostErr_draws : (s.markHostErr).draws = s.draws := rfl
@[simp] theorem State.markHostErr_bufEpoch : (s.markHostErr).bufEpoch = s.bufEpoch := rfl

/-! ## writeBuf -/

@[simp] theorem State.writeBuf_memSize (a : Nat) (b : Byte) : (s.writeBuf a b).memSize = s.memSize := rfl
@[simp] theorem State.writeBuf_buf (a : Nat) (b : Byte) : (s.writeBuf a b).buf = s.buf.set a b := rfl
@[simp] theorem State.writeBuf_ie (a : Nat) (b : Byte) : (s.writeBuf a b).ie = s.ie := rfl
@[simp] theorem State.writeBuf_status (a : Nat) (b : Byte) : (s.writeBuf a b).status = s.status := rfl
@[simp] theorem State.writeBuf_cmd (a : Nat) (b : Byte) : (s.writeBuf a b).cmd = s.cmd := rfl
@[simp] theorem State.writeBuf_arg (a : Nat) (b : Byte) : (s.writeBuf a b).arg = s.arg := rfl
@[simp] theorem State.writeBuf_errCode (a : Nat) (b : Byte) : (s.writeBuf a b).errCode = s.errCode := rfl
@[simp] theorem State.writeBuf_errPos (a : Nat) (b : Byte) : (s.writeBuf a b).errPos = s.errPos := rfl
@[simp] theorem State.writeBuf_inBase (a : Nat) (b : Byte) : (s.writeBuf a b).inBase = s.inBase := rfl
@[simp] theorem State.writeBuf_inLen (a : Nat) (b : Byte) : (s.writeBuf a b).inLen = s.inLen := rfl
@[simp] theorem State.writeBuf_outBase (a : Nat) (b : Byte) : (s.writeBuf a b).outBase = s.outBase := rfl
@[simp] theorem State.writeBuf_outCap (a : Nat) (b : Byte) : (s.writeBuf a b).outCap = s.outCap := rfl
@[simp] theorem State.writeBuf_outLen (a : Nat) (b : Byte) : (s.writeBuf a b).outLen = s.outLen := rfl
@[simp] theorem State.writeBuf_ft (a : Nat) (b : Byte) : (s.writeBuf a b).ft = s.ft := rfl
@[simp] theorem State.writeBuf_bodyOff (a : Nat) (b : Byte) : (s.writeBuf a b).bodyOff = s.bodyOff := rfl
@[simp] theorem State.writeBuf_arena (a : Nat) (b : Byte) : (s.writeBuf a b).arena = s.arena := rfl
@[simp] theorem State.writeBuf_cb (a : Nat) (b : Byte) : (s.writeBuf a b).cb = s.cb := rfl
@[simp] theorem State.writeBuf_tblSel (a : Nat) (b : Byte) : (s.writeBuf a b).tblSel = s.tblSel := rfl
@[simp] theorem State.writeBuf_nodeSel (a : Nat) (b : Byte) : (s.writeBuf a b).nodeSel = s.nodeSel := rfl
@[simp] theorem State.writeBuf_work (a : Nat) (b : Byte) : (s.writeBuf a b).work = s.work := rfl
@[simp] theorem State.writeBuf_host (a : Nat) (b : Byte) : (s.writeBuf a b).host = s.host := rfl
@[simp] theorem State.writeBuf_turns (a : Nat) (b : Byte) : (s.writeBuf a b).turns = s.turns := rfl
@[simp] theorem State.writeBuf_hostData (a : Nat) (b : Byte) : (s.writeBuf a b).hostData = s.hostData := rfl
@[simp] theorem State.writeBuf_draws (a : Nat) (b : Byte) : (s.writeBuf a b).draws = s.draws := rfl
@[simp] theorem State.writeBuf_bufEpoch (a : Nat) (b : Byte) : (s.writeBuf a b).bufEpoch = s.bufEpoch := rfl

/-! ## discardOutput -/

@[simp] theorem State.discardOutput_memSize : (s.discardOutput).memSize = s.memSize := rfl
@[simp] theorem State.discardOutput_buf :
    (s.discardOutput).buf = s.buf.fill (s.outBase.toNat + s.work.outStart.toNat) (Config.freeByte s.draws)
      (min (s.outBase.toNat + s.outCap.toNat) s.memSize - (s.outBase.toNat + s.work.outStart.toNat)) := rfl
@[simp] theorem State.discardOutput_ie : (s.discardOutput).ie = s.ie := rfl
@[simp] theorem State.discardOutput_status : (s.discardOutput).status = s.status := rfl
@[simp] theorem State.discardOutput_cmd : (s.discardOutput).cmd = s.cmd := rfl
@[simp] theorem State.discardOutput_arg : (s.discardOutput).arg = s.arg := rfl
@[simp] theorem State.discardOutput_errCode : (s.discardOutput).errCode = s.errCode := rfl
@[simp] theorem State.discardOutput_errPos : (s.discardOutput).errPos = s.errPos := rfl
@[simp] theorem State.discardOutput_inBase : (s.discardOutput).inBase = s.inBase := rfl
@[simp] theorem State.discardOutput_inLen : (s.discardOutput).inLen = s.inLen := rfl
@[simp] theorem State.discardOutput_outBase : (s.discardOutput).outBase = s.outBase := rfl
@[simp] theorem State.discardOutput_outCap : (s.discardOutput).outCap = s.outCap := rfl
@[simp] theorem State.discardOutput_outLen : (s.discardOutput).outLen = 0 := rfl
@[simp] theorem State.discardOutput_ft : (s.discardOutput).ft = s.ft := rfl
@[simp] theorem State.discardOutput_bodyOff : (s.discardOutput).bodyOff = s.bodyOff := rfl
@[simp] theorem State.discardOutput_arena : (s.discardOutput).arena = s.arena := rfl
@[simp] theorem State.discardOutput_cb : (s.discardOutput).cb = s.cb := rfl
@[simp] theorem State.discardOutput_tblSel : (s.discardOutput).tblSel = s.tblSel := rfl
@[simp] theorem State.discardOutput_nodeSel : (s.discardOutput).nodeSel = s.nodeSel := rfl
@[simp] theorem State.discardOutput_work : (s.discardOutput).work = s.work := rfl
@[simp] theorem State.discardOutput_host : (s.discardOutput).host = s.host := rfl
@[simp] theorem State.discardOutput_turns : (s.discardOutput).turns = s.turns := rfl
@[simp] theorem State.discardOutput_hostData : (s.discardOutput).hostData = s.hostData := rfl
@[simp] theorem State.discardOutput_draws : (s.discardOutput).draws = s.draws + 1 := rfl
@[simp] theorem State.discardOutput_bufEpoch : (s.discardOutput).bufEpoch = s.bufEpoch := rfl

/-! ## accept -/

@[simp] theorem State.accept_memSize (w : Word) : (s.accept w).memSize = s.memSize := rfl
@[simp] theorem State.accept_buf (w : Word) : (s.accept w).buf = s.buf := rfl
@[simp] theorem State.accept_ie (w : Word) : (s.accept w).ie = s.ie := rfl
@[simp] theorem State.accept_status (w : Word) :
    (s.accept w).status = { s.status with busy := true, done := false, err := false } := rfl
@[simp] theorem State.accept_cmd (w : Word) : (s.accept w).cmd = w := rfl
@[simp] theorem State.accept_arg (w : Word) : (s.accept w).arg = s.arg := rfl
@[simp] theorem State.accept_errCode (w : Word) : (s.accept w).errCode = 0 := rfl
@[simp] theorem State.accept_errPos (w : Word) : (s.accept w).errPos = 0 := rfl
@[simp] theorem State.accept_inBase (w : Word) : (s.accept w).inBase = s.inBase := rfl
@[simp] theorem State.accept_inLen (w : Word) : (s.accept w).inLen = s.inLen := rfl
@[simp] theorem State.accept_outBase (w : Word) : (s.accept w).outBase = s.outBase := rfl
@[simp] theorem State.accept_outCap (w : Word) : (s.accept w).outCap = s.outCap := rfl
@[simp] theorem State.accept_outLen (w : Word) : (s.accept w).outLen = s.outLen := rfl
@[simp] theorem State.accept_ft (w : Word) : (s.accept w).ft = s.ft := rfl
@[simp] theorem State.accept_bodyOff (w : Word) : (s.accept w).bodyOff = s.bodyOff := rfl
@[simp] theorem State.accept_arena (w : Word) : (s.accept w).arena = s.arena := rfl
@[simp] theorem State.accept_cb (w : Word) : (s.accept w).cb = s.cb := rfl
@[simp] theorem State.accept_tblSel (w : Word) : (s.accept w).tblSel = s.tblSel := rfl
@[simp] theorem State.accept_nodeSel (w : Word) : (s.accept w).nodeSel = s.nodeSel := rfl
@[simp] theorem State.accept_work (w : Word) :
    (s.accept w).work = { Work.idle with outStart := if startsAtZero w then 0 else s.outLen } := rfl
@[simp] theorem State.accept_host (w : Word) : (s.accept w).host = s.host := rfl
@[simp] theorem State.accept_turns (w : Word) : (s.accept w).turns = s.turns := rfl
@[simp] theorem State.accept_hostData (w : Word) : (s.accept w).hostData = s.hostData := rfl
@[simp] theorem State.accept_draws (w : Word) : (s.accept w).draws = s.draws := rfl
@[simp] theorem State.accept_bufEpoch (w : Word) : (s.accept w).bufEpoch = s.bufEpoch := rfl

/-! ## complete -/

@[simp] theorem State.complete_memSize : (s.complete).memSize = s.memSize := rfl
@[simp] theorem State.complete_buf : (s.complete).buf = s.buf := rfl
@[simp] theorem State.complete_ie : (s.complete).ie = s.ie := rfl
@[simp] theorem State.complete_status :
    (s.complete).status = { s.status with busy := false, done := true } := rfl
@[simp] theorem State.complete_cmd : (s.complete).cmd = s.cmd := rfl
@[simp] theorem State.complete_arg : (s.complete).arg = s.arg := rfl
@[simp] theorem State.complete_errCode : (s.complete).errCode = s.errCode := rfl
@[simp] theorem State.complete_errPos : (s.complete).errPos = s.errPos := rfl
@[simp] theorem State.complete_inBase : (s.complete).inBase = s.inBase := rfl
@[simp] theorem State.complete_inLen : (s.complete).inLen = s.inLen := rfl
@[simp] theorem State.complete_outBase : (s.complete).outBase = s.outBase := rfl
@[simp] theorem State.complete_outCap : (s.complete).outCap = s.outCap := rfl
@[simp] theorem State.complete_outLen : (s.complete).outLen = s.outLen := rfl
@[simp] theorem State.complete_ft : (s.complete).ft = s.ft := rfl
@[simp] theorem State.complete_bodyOff : (s.complete).bodyOff = s.bodyOff := rfl
@[simp] theorem State.complete_arena : (s.complete).arena = s.arena := rfl
@[simp] theorem State.complete_cb : (s.complete).cb = s.cb := rfl
@[simp] theorem State.complete_tblSel : (s.complete).tblSel = s.tblSel := rfl
@[simp] theorem State.complete_nodeSel : (s.complete).nodeSel = s.nodeSel := rfl
@[simp] theorem State.complete_work : (s.complete).work = Work.idle := rfl
@[simp] theorem State.complete_host : (s.complete).host = s.host := rfl
@[simp] theorem State.complete_turns : (s.complete).turns = s.turns := rfl
@[simp] theorem State.complete_hostData : (s.complete).hostData = s.hostData := rfl
@[simp] theorem State.complete_draws : (s.complete).draws = s.draws := rfl
@[simp] theorem State.complete_bufEpoch : (s.complete).bufEpoch = s.bufEpoch := rfl

/-! ## report -/

@[simp] theorem State.report_memSize (e : ErrCode) (pos : Word) : (s.report e pos).memSize = s.memSize := rfl
@[simp] theorem State.report_buf (e : ErrCode) (pos : Word) : (s.report e pos).buf = s.buf := rfl
@[simp] theorem State.report_ie (e : ErrCode) (pos : Word) : (s.report e pos).ie = s.ie := rfl
@[simp] theorem State.report_status (e : ErrCode) (pos : Word) :
    (s.report e pos).status = { s.status with busy := false, err := true } := rfl
@[simp] theorem State.report_cmd (e : ErrCode) (pos : Word) : (s.report e pos).cmd = s.cmd := rfl
@[simp] theorem State.report_arg (e : ErrCode) (pos : Word) : (s.report e pos).arg = s.arg := rfl
@[simp] theorem State.report_errCode (e : ErrCode) (pos : Word) : (s.report e pos).errCode = e.code := rfl
@[simp] theorem State.report_errPos (e : ErrCode) (pos : Word) : (s.report e pos).errPos = pos := rfl
@[simp] theorem State.report_inBase (e : ErrCode) (pos : Word) : (s.report e pos).inBase = s.inBase := rfl
@[simp] theorem State.report_inLen (e : ErrCode) (pos : Word) : (s.report e pos).inLen = s.inLen := rfl
@[simp] theorem State.report_outBase (e : ErrCode) (pos : Word) : (s.report e pos).outBase = s.outBase := rfl
@[simp] theorem State.report_outCap (e : ErrCode) (pos : Word) : (s.report e pos).outCap = s.outCap := rfl
@[simp] theorem State.report_outLen (e : ErrCode) (pos : Word) : (s.report e pos).outLen = s.outLen := rfl
@[simp] theorem State.report_ft (e : ErrCode) (pos : Word) : (s.report e pos).ft = s.ft := rfl
@[simp] theorem State.report_bodyOff (e : ErrCode) (pos : Word) : (s.report e pos).bodyOff = s.bodyOff := rfl
@[simp] theorem State.report_arena (e : ErrCode) (pos : Word) : (s.report e pos).arena = s.arena := rfl
@[simp] theorem State.report_cb (e : ErrCode) (pos : Word) : (s.report e pos).cb = s.cb := rfl
@[simp] theorem State.report_tblSel (e : ErrCode) (pos : Word) : (s.report e pos).tblSel = s.tblSel := rfl
@[simp] theorem State.report_nodeSel (e : ErrCode) (pos : Word) : (s.report e pos).nodeSel = s.nodeSel := rfl
@[simp] theorem State.report_work (e : ErrCode) (pos : Word) : (s.report e pos).work = Work.idle := rfl
@[simp] theorem State.report_host (e : ErrCode) (pos : Word) : (s.report e pos).host = s.host := rfl
@[simp] theorem State.report_turns (e : ErrCode) (pos : Word) : (s.report e pos).turns = s.turns := rfl
@[simp] theorem State.report_hostData (e : ErrCode) (pos : Word) :
    (s.report e pos).hostData = s.hostData := rfl
@[simp] theorem State.report_draws (e : ErrCode) (pos : Word) : (s.report e pos).draws = s.draws := rfl
@[simp] theorem State.report_bufEpoch (e : ErrCode) (pos : Word) :
    (s.report e pos).bufEpoch = s.bufEpoch := rfl

/-! ## clearTable -/

@[simp] theorem State.clearTable_memSize : (s.clearTable).memSize = s.memSize := rfl
@[simp] theorem State.clearTable_buf : (s.clearTable).buf = s.buf := rfl
@[simp] theorem State.clearTable_ie : (s.clearTable).ie = s.ie := rfl
@[simp] theorem State.clearTable_status :
    (s.clearTable).status = { s.status with treeValid := false, cbValid := false, hdrValid := false } := rfl
@[simp] theorem State.clearTable_cmd : (s.clearTable).cmd = s.cmd := rfl
@[simp] theorem State.clearTable_arg : (s.clearTable).arg = s.arg := rfl
@[simp] theorem State.clearTable_errCode : (s.clearTable).errCode = s.errCode := rfl
@[simp] theorem State.clearTable_errPos : (s.clearTable).errPos = s.errPos := rfl
@[simp] theorem State.clearTable_inBase : (s.clearTable).inBase = s.inBase := rfl
@[simp] theorem State.clearTable_inLen : (s.clearTable).inLen = s.inLen := rfl
@[simp] theorem State.clearTable_outBase : (s.clearTable).outBase = s.outBase := rfl
@[simp] theorem State.clearTable_outCap : (s.clearTable).outCap = s.outCap := rfl
@[simp] theorem State.clearTable_outLen : (s.clearTable).outLen = s.outLen := rfl
@[simp] theorem State.clearTable_ft : (s.clearTable).ft = FreqTable.empty := rfl
@[simp] theorem State.clearTable_bodyOff : (s.clearTable).bodyOff = 0 := rfl
@[simp] theorem State.clearTable_arena : (s.clearTable).arena = s.arena := rfl
@[simp] theorem State.clearTable_cb : (s.clearTable).cb = s.cb := rfl
@[simp] theorem State.clearTable_tblSel : (s.clearTable).tblSel = s.tblSel := rfl
@[simp] theorem State.clearTable_nodeSel : (s.clearTable).nodeSel = s.nodeSel := rfl
@[simp] theorem State.clearTable_work : (s.clearTable).work = s.work := rfl
@[simp] theorem State.clearTable_host : (s.clearTable).host = s.host := rfl
@[simp] theorem State.clearTable_turns : (s.clearTable).turns = s.turns := rfl
@[simp] theorem State.clearTable_hostData : (s.clearTable).hostData = s.hostData := rfl
@[simp] theorem State.clearTable_draws : (s.clearTable).draws = s.draws := rfl
@[simp] theorem State.clearTable_bufEpoch : (s.clearTable).bufEpoch = s.bufEpoch := rfl

/-! ## clearArena -/

@[simp] theorem State.clearArena_memSize : (s.clearArena).memSize = s.memSize := rfl
@[simp] theorem State.clearArena_buf : (s.clearArena).buf = s.buf := rfl
@[simp] theorem State.clearArena_ie : (s.clearArena).ie = s.ie := rfl
@[simp] theorem State.clearArena_status :
    (s.clearArena).status = { s.status with treeValid := false, cbValid := false } := rfl
@[simp] theorem State.clearArena_cmd : (s.clearArena).cmd = s.cmd := rfl
@[simp] theorem State.clearArena_arg : (s.clearArena).arg = s.arg := rfl
@[simp] theorem State.clearArena_errCode : (s.clearArena).errCode = s.errCode := rfl
@[simp] theorem State.clearArena_errPos : (s.clearArena).errPos = s.errPos := rfl
@[simp] theorem State.clearArena_inBase : (s.clearArena).inBase = s.inBase := rfl
@[simp] theorem State.clearArena_inLen : (s.clearArena).inLen = s.inLen := rfl
@[simp] theorem State.clearArena_outBase : (s.clearArena).outBase = s.outBase := rfl
@[simp] theorem State.clearArena_outCap : (s.clearArena).outCap = s.outCap := rfl
@[simp] theorem State.clearArena_outLen : (s.clearArena).outLen = s.outLen := rfl
@[simp] theorem State.clearArena_ft : (s.clearArena).ft = s.ft := rfl
@[simp] theorem State.clearArena_bodyOff : (s.clearArena).bodyOff = s.bodyOff := rfl
@[simp] theorem State.clearArena_arena : (s.clearArena).arena = Arena.empty := rfl
@[simp] theorem State.clearArena_cb : (s.clearArena).cb = s.cb := rfl
@[simp] theorem State.clearArena_tblSel : (s.clearArena).tblSel = s.tblSel := rfl
@[simp] theorem State.clearArena_nodeSel : (s.clearArena).nodeSel = s.nodeSel := rfl
@[simp] theorem State.clearArena_work : (s.clearArena).work = s.work := rfl
@[simp] theorem State.clearArena_host : (s.clearArena).host = s.host := rfl
@[simp] theorem State.clearArena_turns : (s.clearArena).turns = s.turns := rfl
@[simp] theorem State.clearArena_hostData : (s.clearArena).hostData = s.hostData := rfl
@[simp] theorem State.clearArena_draws : (s.clearArena).draws = s.draws := rfl
@[simp] theorem State.clearArena_bufEpoch : (s.clearArena).bufEpoch = s.bufEpoch := rfl

/-! ## clearCodebook -/

@[simp] theorem State.clearCodebook_memSize : (s.clearCodebook).memSize = s.memSize := rfl
@[simp] theorem State.clearCodebook_buf : (s.clearCodebook).buf = s.buf := rfl
@[simp] theorem State.clearCodebook_ie : (s.clearCodebook).ie = s.ie := rfl
@[simp] theorem State.clearCodebook_status :
    (s.clearCodebook).status = { s.status with cbValid := false } := rfl
@[simp] theorem State.clearCodebook_cmd : (s.clearCodebook).cmd = s.cmd := rfl
@[simp] theorem State.clearCodebook_arg : (s.clearCodebook).arg = s.arg := rfl
@[simp] theorem State.clearCodebook_errCode : (s.clearCodebook).errCode = s.errCode := rfl
@[simp] theorem State.clearCodebook_errPos : (s.clearCodebook).errPos = s.errPos := rfl
@[simp] theorem State.clearCodebook_inBase : (s.clearCodebook).inBase = s.inBase := rfl
@[simp] theorem State.clearCodebook_inLen : (s.clearCodebook).inLen = s.inLen := rfl
@[simp] theorem State.clearCodebook_outBase : (s.clearCodebook).outBase = s.outBase := rfl
@[simp] theorem State.clearCodebook_outCap : (s.clearCodebook).outCap = s.outCap := rfl
@[simp] theorem State.clearCodebook_outLen : (s.clearCodebook).outLen = s.outLen := rfl
@[simp] theorem State.clearCodebook_ft : (s.clearCodebook).ft = s.ft := rfl
@[simp] theorem State.clearCodebook_bodyOff : (s.clearCodebook).bodyOff = s.bodyOff := rfl
@[simp] theorem State.clearCodebook_arena : (s.clearCodebook).arena = s.arena := rfl
@[simp] theorem State.clearCodebook_cb : (s.clearCodebook).cb = Codebook.empty := rfl
@[simp] theorem State.clearCodebook_tblSel : (s.clearCodebook).tblSel = s.tblSel := rfl
@[simp] theorem State.clearCodebook_nodeSel : (s.clearCodebook).nodeSel = s.nodeSel := rfl
@[simp] theorem State.clearCodebook_work : (s.clearCodebook).work = s.work := rfl
@[simp] theorem State.clearCodebook_host : (s.clearCodebook).host = s.host := rfl
@[simp] theorem State.clearCodebook_turns : (s.clearCodebook).turns = s.turns := rfl
@[simp] theorem State.clearCodebook_hostData : (s.clearCodebook).hostData = s.hostData := rfl
@[simp] theorem State.clearCodebook_draws : (s.clearCodebook).draws = s.draws := rfl
@[simp] theorem State.clearCodebook_bufEpoch : (s.clearCodebook).bufEpoch = s.bufEpoch := rfl

/-! ## startOutput -/

@[simp] theorem State.startOutput_memSize : (s.startOutput).memSize = s.memSize := rfl
@[simp] theorem State.startOutput_buf : (s.startOutput).buf = s.buf := rfl
@[simp] theorem State.startOutput_ie : (s.startOutput).ie = s.ie := rfl
@[simp] theorem State.startOutput_status : (s.startOutput).status = s.status := rfl
@[simp] theorem State.startOutput_cmd : (s.startOutput).cmd = s.cmd := rfl
@[simp] theorem State.startOutput_arg : (s.startOutput).arg = s.arg := rfl
@[simp] theorem State.startOutput_errCode : (s.startOutput).errCode = s.errCode := rfl
@[simp] theorem State.startOutput_errPos : (s.startOutput).errPos = s.errPos := rfl
@[simp] theorem State.startOutput_inBase : (s.startOutput).inBase = s.inBase := rfl
@[simp] theorem State.startOutput_inLen : (s.startOutput).inLen = s.inLen := rfl
@[simp] theorem State.startOutput_outBase : (s.startOutput).outBase = s.outBase := rfl
@[simp] theorem State.startOutput_outCap : (s.startOutput).outCap = s.outCap := rfl
@[simp] theorem State.startOutput_outLen : (s.startOutput).outLen = s.outLen := rfl
@[simp] theorem State.startOutput_ft : (s.startOutput).ft = s.ft := rfl
@[simp] theorem State.startOutput_bodyOff : (s.startOutput).bodyOff = s.bodyOff := rfl
@[simp] theorem State.startOutput_arena : (s.startOutput).arena = s.arena := rfl
@[simp] theorem State.startOutput_cb : (s.startOutput).cb = s.cb := rfl
@[simp] theorem State.startOutput_tblSel : (s.startOutput).tblSel = s.tblSel := rfl
@[simp] theorem State.startOutput_nodeSel : (s.startOutput).nodeSel = s.nodeSel := rfl
@[simp] theorem State.startOutput_work : (s.startOutput).work = { s.work with outStart := s.outLen } := rfl
@[simp] theorem State.startOutput_host : (s.startOutput).host = s.host := rfl
@[simp] theorem State.startOutput_turns : (s.startOutput).turns = s.turns := rfl
@[simp] theorem State.startOutput_hostData : (s.startOutput).hostData = s.hostData := rfl
@[simp] theorem State.startOutput_draws : (s.startOutput).draws = s.draws := rfl
@[simp] theorem State.startOutput_bufEpoch : (s.startOutput).bufEpoch = s.bufEpoch := rfl

/-! ## setPacker -/

@[simp] theorem State.setPacker_memSize (a : Byte) (n : BitVec 4) :
    (s.setPacker a n).memSize = s.memSize := rfl
@[simp] theorem State.setPacker_buf (a : Byte) (n : BitVec 4) : (s.setPacker a n).buf = s.buf := rfl
@[simp] theorem State.setPacker_ie (a : Byte) (n : BitVec 4) : (s.setPacker a n).ie = s.ie := rfl
@[simp] theorem State.setPacker_status (a : Byte) (n : BitVec 4) : (s.setPacker a n).status = s.status := rfl
@[simp] theorem State.setPacker_cmd (a : Byte) (n : BitVec 4) : (s.setPacker a n).cmd = s.cmd := rfl
@[simp] theorem State.setPacker_arg (a : Byte) (n : BitVec 4) : (s.setPacker a n).arg = s.arg := rfl
@[simp] theorem State.setPacker_errCode (a : Byte) (n : BitVec 4) :
    (s.setPacker a n).errCode = s.errCode := rfl
@[simp] theorem State.setPacker_errPos (a : Byte) (n : BitVec 4) : (s.setPacker a n).errPos = s.errPos := rfl
@[simp] theorem State.setPacker_inBase (a : Byte) (n : BitVec 4) : (s.setPacker a n).inBase = s.inBase := rfl
@[simp] theorem State.setPacker_inLen (a : Byte) (n : BitVec 4) : (s.setPacker a n).inLen = s.inLen := rfl
@[simp] theorem State.setPacker_outBase (a : Byte) (n : BitVec 4) :
    (s.setPacker a n).outBase = s.outBase := rfl
@[simp] theorem State.setPacker_outCap (a : Byte) (n : BitVec 4) : (s.setPacker a n).outCap = s.outCap := rfl
@[simp] theorem State.setPacker_outLen (a : Byte) (n : BitVec 4) : (s.setPacker a n).outLen = s.outLen := rfl
@[simp] theorem State.setPacker_ft (a : Byte) (n : BitVec 4) : (s.setPacker a n).ft = s.ft := rfl
@[simp] theorem State.setPacker_bodyOff (a : Byte) (n : BitVec 4) :
    (s.setPacker a n).bodyOff = s.bodyOff := rfl
@[simp] theorem State.setPacker_arena (a : Byte) (n : BitVec 4) : (s.setPacker a n).arena = s.arena := rfl
@[simp] theorem State.setPacker_cb (a : Byte) (n : BitVec 4) : (s.setPacker a n).cb = s.cb := rfl
@[simp] theorem State.setPacker_tblSel (a : Byte) (n : BitVec 4) : (s.setPacker a n).tblSel = s.tblSel := rfl
@[simp] theorem State.setPacker_nodeSel (a : Byte) (n : BitVec 4) :
    (s.setPacker a n).nodeSel = s.nodeSel := rfl
@[simp] theorem State.setPacker_work (a : Byte) (n : BitVec 4) :
    (s.setPacker a n).work = { s.work with acc := a, na := n } := rfl
@[simp] theorem State.setPacker_host (a : Byte) (n : BitVec 4) : (s.setPacker a n).host = s.host := rfl
@[simp] theorem State.setPacker_turns (a : Byte) (n : BitVec 4) : (s.setPacker a n).turns = s.turns := rfl
@[simp] theorem State.setPacker_hostData (a : Byte) (n : BitVec 4) :
    (s.setPacker a n).hostData = s.hostData := rfl
@[simp] theorem State.setPacker_draws (a : Byte) (n : BitVec 4) : (s.setPacker a n).draws = s.draws := rfl
@[simp] theorem State.setPacker_bufEpoch (a : Byte) (n : BitVec 4) :
    (s.setPacker a n).bufEpoch = s.bufEpoch := rfl

/-! ## setCursor -/

@[simp] theorem State.setCursor_memSize (i : NodeIdx) : (s.setCursor i).memSize = s.memSize := rfl
@[simp] theorem State.setCursor_buf (i : NodeIdx) : (s.setCursor i).buf = s.buf := rfl
@[simp] theorem State.setCursor_ie (i : NodeIdx) : (s.setCursor i).ie = s.ie := rfl
@[simp] theorem State.setCursor_status (i : NodeIdx) : (s.setCursor i).status = s.status := rfl
@[simp] theorem State.setCursor_cmd (i : NodeIdx) : (s.setCursor i).cmd = s.cmd := rfl
@[simp] theorem State.setCursor_arg (i : NodeIdx) : (s.setCursor i).arg = s.arg := rfl
@[simp] theorem State.setCursor_errCode (i : NodeIdx) : (s.setCursor i).errCode = s.errCode := rfl
@[simp] theorem State.setCursor_errPos (i : NodeIdx) : (s.setCursor i).errPos = s.errPos := rfl
@[simp] theorem State.setCursor_inBase (i : NodeIdx) : (s.setCursor i).inBase = s.inBase := rfl
@[simp] theorem State.setCursor_inLen (i : NodeIdx) : (s.setCursor i).inLen = s.inLen := rfl
@[simp] theorem State.setCursor_outBase (i : NodeIdx) : (s.setCursor i).outBase = s.outBase := rfl
@[simp] theorem State.setCursor_outCap (i : NodeIdx) : (s.setCursor i).outCap = s.outCap := rfl
@[simp] theorem State.setCursor_outLen (i : NodeIdx) : (s.setCursor i).outLen = s.outLen := rfl
@[simp] theorem State.setCursor_ft (i : NodeIdx) : (s.setCursor i).ft = s.ft := rfl
@[simp] theorem State.setCursor_bodyOff (i : NodeIdx) : (s.setCursor i).bodyOff = s.bodyOff := rfl
@[simp] theorem State.setCursor_arena (i : NodeIdx) : (s.setCursor i).arena = s.arena := rfl
@[simp] theorem State.setCursor_cb (i : NodeIdx) : (s.setCursor i).cb = s.cb := rfl
@[simp] theorem State.setCursor_tblSel (i : NodeIdx) : (s.setCursor i).tblSel = s.tblSel := rfl
@[simp] theorem State.setCursor_nodeSel (i : NodeIdx) : (s.setCursor i).nodeSel = s.nodeSel := rfl
@[simp] theorem State.setCursor_work (i : NodeIdx) : (s.setCursor i).work = { s.work with cur := i } := rfl
@[simp] theorem State.setCursor_host (i : NodeIdx) : (s.setCursor i).host = s.host := rfl
@[simp] theorem State.setCursor_turns (i : NodeIdx) : (s.setCursor i).turns = s.turns := rfl
@[simp] theorem State.setCursor_hostData (i : NodeIdx) : (s.setCursor i).hostData = s.hostData := rfl
@[simp] theorem State.setCursor_draws (i : NodeIdx) : (s.setCursor i).draws = s.draws := rfl
@[simp] theorem State.setCursor_bufEpoch (i : NodeIdx) : (s.setCursor i).bufEpoch = s.bufEpoch := rfl

/-! ## nextBit -/

@[simp] theorem State.nextBit_memSize : (s.nextBit).memSize = s.memSize := rfl
@[simp] theorem State.nextBit_buf : (s.nextBit).buf = s.buf := rfl
@[simp] theorem State.nextBit_ie : (s.nextBit).ie = s.ie := rfl
@[simp] theorem State.nextBit_status : (s.nextBit).status = s.status := rfl
@[simp] theorem State.nextBit_cmd : (s.nextBit).cmd = s.cmd := rfl
@[simp] theorem State.nextBit_arg : (s.nextBit).arg = s.arg := rfl
@[simp] theorem State.nextBit_errCode : (s.nextBit).errCode = s.errCode := rfl
@[simp] theorem State.nextBit_errPos : (s.nextBit).errPos = s.errPos := rfl
@[simp] theorem State.nextBit_inBase : (s.nextBit).inBase = s.inBase := rfl
@[simp] theorem State.nextBit_inLen : (s.nextBit).inLen = s.inLen := rfl
@[simp] theorem State.nextBit_outBase : (s.nextBit).outBase = s.outBase := rfl
@[simp] theorem State.nextBit_outCap : (s.nextBit).outCap = s.outCap := rfl
@[simp] theorem State.nextBit_outLen : (s.nextBit).outLen = s.outLen := rfl
@[simp] theorem State.nextBit_ft : (s.nextBit).ft = s.ft := rfl
@[simp] theorem State.nextBit_bodyOff : (s.nextBit).bodyOff = s.bodyOff := rfl
@[simp] theorem State.nextBit_arena : (s.nextBit).arena = s.arena := rfl
@[simp] theorem State.nextBit_cb : (s.nextBit).cb = s.cb := rfl
@[simp] theorem State.nextBit_tblSel : (s.nextBit).tblSel = s.tblSel := rfl
@[simp] theorem State.nextBit_nodeSel : (s.nextBit).nodeSel = s.nodeSel := rfl
@[simp] theorem State.nextBit_work : (s.nextBit).work = { s.work with kbit := s.work.kbit + 1 } := rfl
@[simp] theorem State.nextBit_host : (s.nextBit).host = s.host := rfl
@[simp] theorem State.nextBit_turns : (s.nextBit).turns = s.turns := rfl
@[simp] theorem State.nextBit_hostData : (s.nextBit).hostData = s.hostData := rfl
@[simp] theorem State.nextBit_draws : (s.nextBit).draws = s.draws := rfl
@[simp] theorem State.nextBit_bufEpoch : (s.nextBit).bufEpoch = s.bufEpoch := rfl

/-! ## startDecode -/

@[simp] theorem State.startDecode_memSize : (s.startDecode).memSize = s.memSize := rfl
@[simp] theorem State.startDecode_buf : (s.startDecode).buf = s.buf := rfl
@[simp] theorem State.startDecode_ie : (s.startDecode).ie = s.ie := rfl
@[simp] theorem State.startDecode_status : (s.startDecode).status = s.status := rfl
@[simp] theorem State.startDecode_cmd : (s.startDecode).cmd = s.cmd := rfl
@[simp] theorem State.startDecode_arg : (s.startDecode).arg = s.arg := rfl
@[simp] theorem State.startDecode_errCode : (s.startDecode).errCode = s.errCode := rfl
@[simp] theorem State.startDecode_errPos : (s.startDecode).errPos = s.errPos := rfl
@[simp] theorem State.startDecode_inBase : (s.startDecode).inBase = s.inBase := rfl
@[simp] theorem State.startDecode_inLen : (s.startDecode).inLen = s.inLen := rfl
@[simp] theorem State.startDecode_outBase : (s.startDecode).outBase = s.outBase := rfl
@[simp] theorem State.startDecode_outCap : (s.startDecode).outCap = s.outCap := rfl
@[simp] theorem State.startDecode_outLen : (s.startDecode).outLen = s.outLen := rfl
@[simp] theorem State.startDecode_ft : (s.startDecode).ft = s.ft := rfl
@[simp] theorem State.startDecode_bodyOff : (s.startDecode).bodyOff = s.bodyOff := rfl
@[simp] theorem State.startDecode_arena : (s.startDecode).arena = s.arena := rfl
@[simp] theorem State.startDecode_cb : (s.startDecode).cb = s.cb := rfl
@[simp] theorem State.startDecode_tblSel : (s.startDecode).tblSel = s.tblSel := rfl
@[simp] theorem State.startDecode_nodeSel : (s.startDecode).nodeSel = s.nodeSel := rfl
@[simp] theorem State.startDecode_work :
    (s.startDecode).work = { s.work with cur := s.arena.root, cnt := 0, kbit := 0 } := rfl
@[simp] theorem State.startDecode_host : (s.startDecode).host = s.host := rfl
@[simp] theorem State.startDecode_turns : (s.startDecode).turns = s.turns := rfl
@[simp] theorem State.startDecode_hostData : (s.startDecode).hostData = s.hostData := rfl
@[simp] theorem State.startDecode_draws : (s.startDecode).draws = s.draws := rfl
@[simp] theorem State.startDecode_bufEpoch : (s.startDecode).bufEpoch = s.bufEpoch := rfl

/-! ## softReset -/

@[simp] theorem State.softReset_memSize : (s.softReset).memSize = s.memSize := rfl
@[simp] theorem State.softReset_buf : (s.softReset).buf = s.buf := rfl
@[simp] theorem State.softReset_ie : (s.softReset).ie = s.ie := rfl
@[simp] theorem State.softReset_status :
    (s.softReset).status = { s.status with hostErr := false, treeValid := false, cbValid := false, hdrValid := false } := rfl
@[simp] theorem State.softReset_cmd : (s.softReset).cmd = s.cmd := rfl
@[simp] theorem State.softReset_arg : (s.softReset).arg = s.arg := rfl
@[simp] theorem State.softReset_errCode : (s.softReset).errCode = s.errCode := rfl
@[simp] theorem State.softReset_errPos : (s.softReset).errPos = s.errPos := rfl
@[simp] theorem State.softReset_inBase : (s.softReset).inBase = s.inBase := rfl
@[simp] theorem State.softReset_inLen : (s.softReset).inLen = s.inLen := rfl
@[simp] theorem State.softReset_outBase : (s.softReset).outBase = s.outBase := rfl
@[simp] theorem State.softReset_outCap : (s.softReset).outCap = s.outCap := rfl
@[simp] theorem State.softReset_outLen : (s.softReset).outLen = s.outLen := rfl
@[simp] theorem State.softReset_ft : (s.softReset).ft = FreqTable.empty := rfl
@[simp] theorem State.softReset_bodyOff : (s.softReset).bodyOff = 0 := rfl
@[simp] theorem State.softReset_arena : (s.softReset).arena = Arena.empty := rfl
@[simp] theorem State.softReset_cb : (s.softReset).cb = Codebook.empty := rfl
@[simp] theorem State.softReset_tblSel : (s.softReset).tblSel = s.tblSel := rfl
@[simp] theorem State.softReset_nodeSel : (s.softReset).nodeSel = s.nodeSel := rfl
@[simp] theorem State.softReset_work : (s.softReset).work = { s.work with q := [] } := rfl
@[simp] theorem State.softReset_host : (s.softReset).host = s.host := rfl
@[simp] theorem State.softReset_turns : (s.softReset).turns = s.turns := rfl
@[simp] theorem State.softReset_hostData : (s.softReset).hostData = s.hostData := rfl
@[simp] theorem State.softReset_draws : (s.softReset).draws = s.draws := rfl
@[simp] theorem State.softReset_bufEpoch : (s.softReset).bufEpoch = s.bufEpoch := rfl

/-! ## enterPhase -/

@[simp] theorem State.enterPhase_memSize (p : Phase) : (s.enterPhase p).memSize = s.memSize := rfl
@[simp] theorem State.enterPhase_buf (p : Phase) : (s.enterPhase p).buf = s.buf := rfl
@[simp] theorem State.enterPhase_ie (p : Phase) : (s.enterPhase p).ie = s.ie := rfl
@[simp] theorem State.enterPhase_status (p : Phase) : (s.enterPhase p).status = s.status := rfl
@[simp] theorem State.enterPhase_cmd (p : Phase) : (s.enterPhase p).cmd = s.cmd := rfl
@[simp] theorem State.enterPhase_arg (p : Phase) : (s.enterPhase p).arg = s.arg := rfl
@[simp] theorem State.enterPhase_errCode (p : Phase) : (s.enterPhase p).errCode = s.errCode := rfl
@[simp] theorem State.enterPhase_errPos (p : Phase) : (s.enterPhase p).errPos = s.errPos := rfl
@[simp] theorem State.enterPhase_inBase (p : Phase) : (s.enterPhase p).inBase = s.inBase := rfl
@[simp] theorem State.enterPhase_inLen (p : Phase) : (s.enterPhase p).inLen = s.inLen := rfl
@[simp] theorem State.enterPhase_outBase (p : Phase) : (s.enterPhase p).outBase = s.outBase := rfl
@[simp] theorem State.enterPhase_outCap (p : Phase) : (s.enterPhase p).outCap = s.outCap := rfl
@[simp] theorem State.enterPhase_outLen (p : Phase) : (s.enterPhase p).outLen = s.outLen := rfl
@[simp] theorem State.enterPhase_ft (p : Phase) : (s.enterPhase p).ft = s.ft := rfl
@[simp] theorem State.enterPhase_bodyOff (p : Phase) : (s.enterPhase p).bodyOff = s.bodyOff := rfl
@[simp] theorem State.enterPhase_arena (p : Phase) : (s.enterPhase p).arena = s.arena := rfl
@[simp] theorem State.enterPhase_cb (p : Phase) : (s.enterPhase p).cb = s.cb := rfl
@[simp] theorem State.enterPhase_tblSel (p : Phase) : (s.enterPhase p).tblSel = s.tblSel := rfl
@[simp] theorem State.enterPhase_nodeSel (p : Phase) : (s.enterPhase p).nodeSel = s.nodeSel := rfl
@[simp] theorem State.enterPhase_work (p : Phase) :
    (s.enterPhase p).work = { s.work with phase := some p } := rfl
@[simp] theorem State.enterPhase_host (p : Phase) : (s.enterPhase p).host = s.host := rfl
@[simp] theorem State.enterPhase_turns (p : Phase) : (s.enterPhase p).turns = s.turns := rfl
@[simp] theorem State.enterPhase_hostData (p : Phase) : (s.enterPhase p).hostData = s.hostData := rfl
@[simp] theorem State.enterPhase_draws (p : Phase) : (s.enterPhase p).draws = s.draws := rfl
@[simp] theorem State.enterPhase_bufEpoch (p : Phase) : (s.enterPhase p).bufEpoch = s.bufEpoch := rfl

/-! ## restartOutput -/

@[simp] theorem State.restartOutput_memSize : (s.restartOutput).memSize = s.memSize := rfl
@[simp] theorem State.restartOutput_buf : (s.restartOutput).buf = s.buf := rfl
@[simp] theorem State.restartOutput_ie : (s.restartOutput).ie = s.ie := rfl
@[simp] theorem State.restartOutput_status : (s.restartOutput).status = s.status := rfl
@[simp] theorem State.restartOutput_cmd : (s.restartOutput).cmd = s.cmd := rfl
@[simp] theorem State.restartOutput_arg : (s.restartOutput).arg = s.arg := rfl
@[simp] theorem State.restartOutput_errCode : (s.restartOutput).errCode = s.errCode := rfl
@[simp] theorem State.restartOutput_errPos : (s.restartOutput).errPos = s.errPos := rfl
@[simp] theorem State.restartOutput_inBase : (s.restartOutput).inBase = s.inBase := rfl
@[simp] theorem State.restartOutput_inLen : (s.restartOutput).inLen = s.inLen := rfl
@[simp] theorem State.restartOutput_outBase : (s.restartOutput).outBase = s.outBase := rfl
@[simp] theorem State.restartOutput_outCap : (s.restartOutput).outCap = s.outCap := rfl
@[simp] theorem State.restartOutput_outLen : (s.restartOutput).outLen = 0 := rfl
@[simp] theorem State.restartOutput_ft : (s.restartOutput).ft = s.ft := rfl
@[simp] theorem State.restartOutput_bodyOff : (s.restartOutput).bodyOff = s.bodyOff := rfl
@[simp] theorem State.restartOutput_arena : (s.restartOutput).arena = s.arena := rfl
@[simp] theorem State.restartOutput_cb : (s.restartOutput).cb = s.cb := rfl
@[simp] theorem State.restartOutput_tblSel : (s.restartOutput).tblSel = s.tblSel := rfl
@[simp] theorem State.restartOutput_nodeSel : (s.restartOutput).nodeSel = s.nodeSel := rfl
@[simp] theorem State.restartOutput_work : (s.restartOutput).work = { s.work with outStart := 0 } := rfl
@[simp] theorem State.restartOutput_host : (s.restartOutput).host = s.host := rfl
@[simp] theorem State.restartOutput_turns : (s.restartOutput).turns = s.turns := rfl
@[simp] theorem State.restartOutput_hostData : (s.restartOutput).hostData = s.hostData := rfl
@[simp] theorem State.restartOutput_draws : (s.restartOutput).draws = s.draws := rfl
@[simp] theorem State.restartOutput_bufEpoch : (s.restartOutput).bufEpoch = s.bufEpoch := rfl

/-! ## returnData -/

@[simp] theorem State.returnData_memSize (v : Word) : (s.returnData v).memSize = s.memSize := rfl
@[simp] theorem State.returnData_buf (v : Word) : (s.returnData v).buf = s.buf := rfl
@[simp] theorem State.returnData_ie (v : Word) : (s.returnData v).ie = s.ie := rfl
@[simp] theorem State.returnData_status (v : Word) : (s.returnData v).status = s.status := rfl
@[simp] theorem State.returnData_cmd (v : Word) : (s.returnData v).cmd = s.cmd := rfl
@[simp] theorem State.returnData_arg (v : Word) : (s.returnData v).arg = s.arg := rfl
@[simp] theorem State.returnData_errCode (v : Word) : (s.returnData v).errCode = s.errCode := rfl
@[simp] theorem State.returnData_errPos (v : Word) : (s.returnData v).errPos = s.errPos := rfl
@[simp] theorem State.returnData_inBase (v : Word) : (s.returnData v).inBase = s.inBase := rfl
@[simp] theorem State.returnData_inLen (v : Word) : (s.returnData v).inLen = s.inLen := rfl
@[simp] theorem State.returnData_outBase (v : Word) : (s.returnData v).outBase = s.outBase := rfl
@[simp] theorem State.returnData_outCap (v : Word) : (s.returnData v).outCap = s.outCap := rfl
@[simp] theorem State.returnData_outLen (v : Word) : (s.returnData v).outLen = s.outLen := rfl
@[simp] theorem State.returnData_ft (v : Word) : (s.returnData v).ft = s.ft := rfl
@[simp] theorem State.returnData_bodyOff (v : Word) : (s.returnData v).bodyOff = s.bodyOff := rfl
@[simp] theorem State.returnData_arena (v : Word) : (s.returnData v).arena = s.arena := rfl
@[simp] theorem State.returnData_cb (v : Word) : (s.returnData v).cb = s.cb := rfl
@[simp] theorem State.returnData_tblSel (v : Word) : (s.returnData v).tblSel = s.tblSel := rfl
@[simp] theorem State.returnData_nodeSel (v : Word) : (s.returnData v).nodeSel = s.nodeSel := rfl
@[simp] theorem State.returnData_work (v : Word) : (s.returnData v).work = s.work := rfl
@[simp] theorem State.returnData_host (v : Word) : (s.returnData v).host = s.host := rfl
@[simp] theorem State.returnData_turns (v : Word) : (s.returnData v).turns = s.turns := rfl
@[simp] theorem State.returnData_hostData (v : Word) : (s.returnData v).hostData = v := rfl
@[simp] theorem State.returnData_draws (v : Word) : (s.returnData v).draws = s.draws := rfl
@[simp] theorem State.returnData_bufEpoch (v : Word) : (s.returnData v).bufEpoch = s.bufEpoch := rfl

/-! ## returnDraw -/

@[simp] theorem State.returnDraw_memSize (v : Word) : (s.returnDraw v).memSize = s.memSize := rfl
@[simp] theorem State.returnDraw_buf (v : Word) : (s.returnDraw v).buf = s.buf := rfl
@[simp] theorem State.returnDraw_ie (v : Word) : (s.returnDraw v).ie = s.ie := rfl
@[simp] theorem State.returnDraw_status (v : Word) : (s.returnDraw v).status = s.status := rfl
@[simp] theorem State.returnDraw_cmd (v : Word) : (s.returnDraw v).cmd = s.cmd := rfl
@[simp] theorem State.returnDraw_arg (v : Word) : (s.returnDraw v).arg = s.arg := rfl
@[simp] theorem State.returnDraw_errCode (v : Word) : (s.returnDraw v).errCode = s.errCode := rfl
@[simp] theorem State.returnDraw_errPos (v : Word) : (s.returnDraw v).errPos = s.errPos := rfl
@[simp] theorem State.returnDraw_inBase (v : Word) : (s.returnDraw v).inBase = s.inBase := rfl
@[simp] theorem State.returnDraw_inLen (v : Word) : (s.returnDraw v).inLen = s.inLen := rfl
@[simp] theorem State.returnDraw_outBase (v : Word) : (s.returnDraw v).outBase = s.outBase := rfl
@[simp] theorem State.returnDraw_outCap (v : Word) : (s.returnDraw v).outCap = s.outCap := rfl
@[simp] theorem State.returnDraw_outLen (v : Word) : (s.returnDraw v).outLen = s.outLen := rfl
@[simp] theorem State.returnDraw_ft (v : Word) : (s.returnDraw v).ft = s.ft := rfl
@[simp] theorem State.returnDraw_bodyOff (v : Word) : (s.returnDraw v).bodyOff = s.bodyOff := rfl
@[simp] theorem State.returnDraw_arena (v : Word) : (s.returnDraw v).arena = s.arena := rfl
@[simp] theorem State.returnDraw_cb (v : Word) : (s.returnDraw v).cb = s.cb := rfl
@[simp] theorem State.returnDraw_tblSel (v : Word) : (s.returnDraw v).tblSel = s.tblSel := rfl
@[simp] theorem State.returnDraw_nodeSel (v : Word) : (s.returnDraw v).nodeSel = s.nodeSel := rfl
@[simp] theorem State.returnDraw_work (v : Word) : (s.returnDraw v).work = s.work := rfl
@[simp] theorem State.returnDraw_host (v : Word) : (s.returnDraw v).host = s.host := rfl
@[simp] theorem State.returnDraw_turns (v : Word) : (s.returnDraw v).turns = s.turns := rfl
@[simp] theorem State.returnDraw_hostData (v : Word) : (s.returnDraw v).hostData = v := rfl
@[simp] theorem State.returnDraw_draws (v : Word) : (s.returnDraw v).draws = s.draws + 1 := rfl
@[simp] theorem State.returnDraw_bufEpoch (v : Word) : (s.returnDraw v).bufEpoch = s.bufEpoch := rfl

end Sys2Proof.Machine
end

