-- ==== Sys2Proof/Laws/Memory.lean ====
section
/-! SUPPORT. Laws/Memory.lean: the laws of BUF's bytes: a read after a store, every other byte as before, and
the canonical form, which every memory operation keeps. -/

namespace Sys2Proof.Machine

/-! ## One byte -/

@[simp] theorem Memory.get?_nil (a : Nat) : Memory.get? [] a = none := rfl

theorem Memory.get?_cons (k : Nat) (b : Byte) (m : Memory) (a : Nat) :
    Memory.get? ((k, b) :: m) a = if k = a then some b else Memory.get? m a := rfl

/-- Reading after a store: the byte stored there, and every other address as before. -/
theorem Memory.get?_set (m : Memory) (a : Nat) (b : Byte) (c : Nat) :
    (m.set a b).get? c = if c = a then some b else m.get? c := by
  induction m with
  | nil => simp [Memory.set, Memory.get?_cons, eq_comm]
  | cons cell rest ih =>
    obtain ⟨k, x⟩ := cell
    simp only [Memory.set]
    split
    · simp [Memory.get?_cons, eq_comm]
    · split
      · subst a; simp only [Memory.get?_cons]; split <;> simp_all [eq_comm]
      · simp only [Memory.get?_cons, ih]
        by_cases hk : k = c <;> by_cases hc : c = a <;> simp_all

@[simp] theorem Memory.get?_set_self (m : Memory) (a : Nat) (b : Byte) : (m.set a b).get? a = some b := by
  simp [Memory.get?_set]

theorem Memory.get?_set_ne (m : Memory) (a : Nat) (b : Byte) {c : Nat} (h : c ≠ a) :
    (m.set a b).get? c = m.get? c := by simp [Memory.get?_set, h]

/-- A store lists nothing but the byte stored and what was listed. -/
theorem Memory.mem_set {m : Memory} {a : Nat} {b : Byte} {c : Host.Cell} (h : c ∈ m.set a b) :
    c = (a, b) ∨ c ∈ m := by
  induction m with
  | nil => simpa [Memory.set] using h
  | cons cell rest ih =>
    obtain ⟨k, x⟩ := cell
    simp only [Memory.set] at h
    split at h
    · simpa using h
    · split at h
      · rcases List.mem_cons.mp h with h | h <;> simp [h]
      · rcases List.mem_cons.mp h with h | h
        · simp [h]
        · rcases ih h with h | h <;> simp [h]

/-- A store keeps the canonical form. -/
theorem Memory.wf_set {m : Memory} (h : m.wf) (a : Nat) (b : Byte) : (m.set a b).wf := by
  induction m with
  | nil => simp [Memory.wf, Memory.set]
  | cons cell rest ih =>
    obtain ⟨k, x⟩ := cell
    obtain ⟨hk, hr⟩ : (∀ c ∈ rest, k < c.1) ∧ Memory.wf rest := by
      simpa [Memory.wf, List.pairwise_cons] using h
    simp only [Memory.set]
    split
    · next hlt =>
      simp only [Memory.wf, List.map_cons, List.pairwise_cons, List.mem_cons, List.mem_map]
      refine ⟨?_, by simpa using hk, hr⟩
      rintro y (rfl | ⟨c, hc, rfl⟩)
      · exact hlt
      · exact lt_trans hlt (hk c hc)
    · split
      · next heq => subst heq; exact h
      · next hge hne =>
        simp only [Memory.wf, List.map_cons, List.pairwise_cons, List.mem_map]
        refine ⟨?_, ih hr⟩
        rintro y ⟨c, hc, rfl⟩
        rcases Memory.mem_set hc with rfl | hc
        · change k < a; omega
        · exact hk c hc

/-- In canonical form an address is listed exactly when it has an entry. -/
theorem Memory.get?_eq_some_iff {m : Memory} (h : m.wf) (a : Nat) (b : Byte) :
    m.get? a = some b ↔ (a, b) ∈ m := by
  induction m with
  | nil => simp
  | cons cell rest ih =>
    obtain ⟨k, x⟩ := cell
    obtain ⟨hk, hr⟩ : (∀ c ∈ rest, k < c.1) ∧ Memory.wf rest := by
      simpa [Memory.wf, List.pairwise_cons] using h
    rw [Memory.get?_cons, List.mem_cons, Prod.mk.injEq]
    split
    · next hka =>
      subst hka
      constructor
      · intro hx; exact .inl ⟨rfl, (Option.some.inj hx).symm⟩
      · rintro (⟨-, rfl⟩ | hm)
        · rfl
        · exact absurd (hk _ hm) (lt_irrefl _)
    · next hka =>
      rw [ih hr]
      constructor
      · exact .inr
      · rintro (⟨rfl, -⟩ | hm)
        · exact absurd rfl hka
        · exact hm

/-! ## A run of bytes -/

/-- Reading after `fill`: the bytes filled, and every other address as before. -/
theorem Memory.get?_fill (m : Memory) (lo : Nat) (f : Nat → Byte) (n c : Nat) :
    (m.fill lo f n).get? c = if lo ≤ c ∧ c < lo + n then some (f c) else m.get? c := by
  induction n with
  | zero => simp [Memory.fill]
  | succ n ih =>
    rw [Memory.fill, Memory.get?_set, ih]
    by_cases hc : c = lo + n
    · subst hc; simp
    · by_cases hin : lo ≤ c ∧ c < lo + n
      · rw [if_neg hc, if_pos hin, if_pos ⟨hin.1, by omega⟩]
      · rw [if_neg hc, if_neg hin, if_neg (by omega)]

/-- `fill` keeps the canonical form. -/
theorem Memory.wf_fill {m : Memory} (h : m.wf) (lo : Nat) (f : Nat → Byte) (n : Nat) :
    (m.fill lo f n).wf := by
  induction n with
  | zero => exact h
  | succ n ih => exact Memory.wf_set ih _ _

/-- `fill` lists nothing but the bytes filled and what was listed. -/
theorem Memory.mem_fill {m : Memory} {lo n : Nat} {f : Nat → Byte} {c : Host.Cell}
    (h : c ∈ m.fill lo f n) : (lo ≤ c.1 ∧ c.1 < lo + n) ∨ c ∈ m := by
  induction n with
  | zero => exact .inr h
  | succ n ih =>
    rcases Memory.mem_set h with rfl | h
    · exact .inl ⟨Nat.le_add_right _ _, by simp⟩
    · rcases ih h with h | h
      · exact .inl ⟨h.1, by omega⟩
      · exact .inr h

/-! ## Canonical form is canonical -/

/-- In canonical form the first entry's address is the least one listed. -/
theorem Memory.get?_lt_head {k : Nat} {x : Byte} {m : Memory} (h : Memory.wf ((k, x) :: m)) {a : Nat}
    (ha : a ≤ k) : Memory.get? m a = none := by
  obtain ⟨hk, hr⟩ : (∀ c ∈ m, k < c.1) ∧ Memory.wf m := by
    simpa [Memory.wf, List.pairwise_cons] using h
  cases hg : Memory.get? m a with
  | none => rfl
  | some b =>
    have := hk _ ((Memory.get?_eq_some_iff hr a b).mp hg)
    exact absurd this (by simpa using ha)

/-- Two memories in canonical form that list the same bytes are equal data. -/
theorem Memory.ext_of_wf {m m' : Memory} (h : m.wf) (h' : m'.wf) (heq : ∀ a, m.get? a = m'.get? a) :
    m = m' := by
  induction m generalizing m' with
  | nil =>
    cases m' with
    | nil => rfl
    | cons cell' rest' =>
      obtain ⟨k', x'⟩ := cell'
      simpa [Memory.get?_cons] using heq k'
  | cons cell rest ih =>
    obtain ⟨k, x⟩ := cell
    cases m' with
    | nil => simpa [Memory.get?_cons] using heq k
    | cons cell' rest' =>
      obtain ⟨k', x'⟩ := cell'
      have hkk : k = k' := by
        rcases lt_trichotomy k k' with hlt | heq' | hlt
        · have := heq k
          rw [Memory.get?_cons, Memory.get?_cons, if_pos rfl, if_neg (by omega),
            Memory.get?_lt_head h' hlt.le] at this
          exact absurd this (by simp)
        · exact heq'
        · have := heq k'
          rw [Memory.get?_cons, Memory.get?_cons, if_pos rfl, if_neg (by omega),
            Memory.get?_lt_head h hlt.le] at this
          exact absurd this (by simp)
      subst hkk
      have hx : x = x' := by simpa [Memory.get?_cons] using heq k
      subst hx
      rw [ih (by simpa [Memory.wf, List.pairwise_cons] using (List.pairwise_cons.mp h).2)
        (by simpa [Memory.wf, List.pairwise_cons] using (List.pairwise_cons.mp h').2)]
      intro a
      by_cases hka : k = a
      · subst hka; rw [Memory.get?_lt_head h le_rfl, Memory.get?_lt_head h' le_rfl]
      · simpa [Memory.get?_cons, hka] using heq a

/-! ## Reads of BUF -/

/-- A read after a byte store (`20_memory.md` R91). -/
theorem State.readBuf_writeBuf (s : State) (a : Nat) (b : Byte) (c : Nat) :
    (s.writeBuf a b).readBuf c = if c = a then b else s.readBuf c := by
  simp only [State.readBuf, State.writeBuf, Memory.get?_set]
  split <;> simp

@[simp] theorem State.readBuf_writeBuf_self (s : State) (a : Nat) (b : Byte) :
    (s.writeBuf a b).readBuf a = b := by simp [State.readBuf_writeBuf]

theorem State.readBuf_writeBuf_ne (s : State) (a : Nat) (b : Byte) {c : Nat} (h : c ≠ a) :
    (s.writeBuf a b).readBuf c = s.readBuf c := by simp [State.readBuf_writeBuf, h]

/-- A read depends on BUF alone. -/
theorem State.readBuf_congr {s t : State} (hb : t.buf = s.buf) (he : t.bufEpoch = s.bufEpoch) (a : Nat) :
    t.readBuf a = s.readBuf a := by simp [State.readBuf, hb, he]

/-- The input bytes depend on BUF and IN_BASE alone. -/
theorem State.input_congr {s t : State} (hb : t.buf = s.buf) (he : t.bufEpoch = s.bufEpoch)
    (hi : t.inBase = s.inBase) (i : Nat) : t.input i = s.input i := by
  simp [State.input, State.readBuf_congr hb he, hi]

theorem State.inputs_congr {s t : State} (hb : t.buf = s.buf) (he : t.bufEpoch = s.bufEpoch)
    (hi : t.inBase = s.inBase) (n : Nat) : t.inputs n = s.inputs n := by
  simp only [State.inputs]
  exact List.map_congr_left fun i _ => State.input_congr hb he hi i

@[simp] theorem State.length_inputs (s : State) (n : Nat) : (s.inputs n).length = n := by
  simp [State.inputs]

@[simp] theorem State.length_inputBytes (s : State) : s.inputBytes.length = s.inLen.toNat := by
  simp [State.inputBytes]

/-- Discarding the output (`60_exceptions.md` R336): inside the discarded bytes a free draw, and every other
byte as before. -/
theorem State.readBuf_discardOutput (s : State) (a : Nat) :
    s.discardOutput.readBuf a =
      if s.outBase.toNat + s.work.outStart.toNat ≤ a ∧ a < s.outBase.toNat + s.outCap.toNat ∧ a < s.memSize
      then Config.freeByte s.draws a else s.readBuf a := by
  simp only [State.readBuf, State.discardOutput, Memory.get?_fill]
  by_cases h : s.outBase.toNat + s.work.outStart.toNat ≤ a ∧ a < s.outBase.toNat + s.outCap.toNat ∧
      a < s.memSize
  · rw [if_pos h, if_pos (by omega)]; rfl
  · rw [if_neg h, if_neg (by omega)]

/-- The memory operations on the state keep the canonical form. -/
theorem State.wf_writeBuf {s : State} (h : s.buf.wf) (a : Nat) (b : Byte) : (s.writeBuf a b).buf.wf :=
  Memory.wf_set h a b

theorem State.wf_discardOutput {s : State} (h : s.buf.wf) : s.discardOutput.buf.wf :=
  Memory.wf_fill h _ _ _

/-- `State.reset`'s memory has the canonical form. -/
theorem reset_buf_wf : State.reset.buf.wf := List.Pairwise.nil

end Sys2Proof.Machine
end

