-- ==== Sys2Proof/Laws/Ops.lean ====
section
/-! SUPPORT. Laws/Ops.lean: one lemma for everything each shared operation can do: sequencing, the output
primitive, acceptance and completion, cancellation, and the step. Later proofs cite these instead of unfolding
the operations. -/

namespace Sys2Proof.Machine

/-! ## Sequencing -/

@[simp] theorem Run.ok_andThen (s : State) (f : State → Run) : (Run.ok s).andThen f = f s := rfl

@[simp] theorem Run.raised_andThen (e : ErrCode) (pos : Word) (s : State) (f : State → Run) :
    (Run.raised e pos s).andThen f = .raised e pos s := rfl

/-- A sequence runs to its end only through its first part's end. -/
theorem Run.andThen_eq_ok {r : Run} {f : State → Run} {t : State} :
    r.andThen f = .ok t ↔ ∃ s, r = .ok s ∧ f s = .ok t := by
  cases r <;> simp

/-- A sequence raises an error in its first part or in its second. -/
theorem Run.andThen_eq_raised {r : Run} {f : State → Run} {e : ErrCode} {pos : Word} {t : State} :
    r.andThen f = .raised e pos t ↔ r = .raised e pos t ∨ ∃ s, r = .ok s ∧ f s = .raised e pos t := by
  cases r <;> simp

theorem Run.andThen_assoc (r : Run) (f g : State → Run) :
    (r.andThen f).andThen g = r.andThen fun s => (f s).andThen g := by cases r <;> rfl

@[simp] theorem Run.repeat_zero (f : State → Run) (s : State) : Run.repeat f 0 s = .ok s := rfl

@[simp] theorem Run.repeat_succ (f : State → Run) (n : Nat) (s : State) :
    Run.repeat f (n + 1) s = (f s).andThen (Run.repeat f n) := rfl

/-- Doing `f` `m + n` times is doing it `m` times and then `n` times. -/
theorem Run.repeat_add (f : State → Run) (m n : Nat) (s : State) :
    Run.repeat f (m + n) s = (Run.repeat f m s).andThen (Run.repeat f n) := by
  induction m generalizing s with
  | zero => simp
  | succ m ih =>
    rw [Nat.succ_add, Run.repeat_succ, Run.repeat_succ, Run.andThen_assoc]
    cases f s <;> simp [ih]

/-- The state a run has reached, however it ends. -/
def Run.reached (r : Run) : State :=
  match r with
  | .ok s => s
  | .raised _ _ s => s

@[simp] theorem Run.reached_ok (s : State) : (Run.ok s).reached = s := rfl

@[simp] theorem Run.reached_raised (e : ErrCode) (pos : Word) (s : State) :
    (Run.raised e pos s).reached = s := rfl

/-- A relation that each part of a sequence keeps, the sequence keeps. -/
theorem Run.reached_andThen {r : Run} {f : State → Run} {P : State → Prop} (hr : P r.reached)
    (hf : ∀ s, P s → P (f s).reached) : P (r.andThen f).reached := by
  cases r with
  | ok s => exact hf s hr
  | raised e pos s => exact hr

/-- A relation that `f` keeps, `f` done `n` times keeps. -/
theorem Run.reached_repeat {f : State → Run} {P : State → Prop} (hf : ∀ s, P s → P (f s).reached) (n : Nat)
    {s : State} (hs : P s) : P (Run.repeat f n s).reached := by
  induction n generalizing s with
  | zero => exact hs
  | succ n ih => exact Run.reached_andThen (hf s hs) fun t ht => ih ht

/-! ## Output -/

/-- `out` with room (`20_memory.md` R87): the byte is stored at OUT_BASE + OUT_LEN, and OUT_LEN grows. -/
theorem out_of_room (b : Byte) {s : State} (h : s.outLen ≠ s.outCap) :
    out b s = .ok { s.writeBuf (s.outBase.toNat + s.outLen.toNat) b with outLen := s.outLen + 1 } :=
  if_neg h

/-- `out` with no room (`20_memory.md` R87): OUT_OVERFLOW with OUT_CAP as position. -/
theorem out_of_full (b : Byte) {s : State} (h : s.outLen = s.outCap) :
    out b s = .raised .outOverflow s.outCap s := if_pos h

@[simp] theorem outAll_nil (s : State) : outAll [] s = .ok s := rfl

@[simp] theorem outAll_cons (b : Byte) (bs : List Byte) (s : State) :
    outAll (b :: bs) s = (out b s).andThen (outAll bs) := rfl

theorem outAll_append (bs cs : List Byte) (s : State) :
    outAll (bs ++ cs) s = (outAll bs s).andThen (outAll cs) := by
  induction bs generalizing s with
  | nil => rfl
  | cons b bs ih =>
    rw [List.cons_append, outAll_cons, outAll_cons, Run.andThen_assoc]
    cases out b s <;> simp [ih]

/-- Bytes that fit are appended at OUT_LEN, in order, and nothing else changes. -/
theorem outAll_of_fits (bs : List Byte) (s : State) (h : s.outLen.toNat + bs.length ≤ s.outCap.toNat) :
    ∃ m, outAll bs s = .ok { s with buf := m, outLen := s.outLen + BitVec.ofNat 32 bs.length } ∧
      (s.buf.wf → m.wf) ∧
      ∀ a, Memory.get? m a =
        if s.outBase.toNat + s.outLen.toNat ≤ a ∧ a < s.outBase.toNat + s.outLen.toNat + bs.length
        then bs[a - (s.outBase.toNat + s.outLen.toNat)]? else s.buf.get? a := by
  induction bs generalizing s with
  | nil => exact ⟨s.buf, by simp, id, fun a => by rw [if_neg (by simp)]⟩
  | cons b bs ih =>
    rw [List.length_cons] at h
    have hcap := s.outCap.isLt
    have hlen : (s.outLen + 1).toNat = s.outLen.toNat + 1 := by
      rw [BitVec.toNat_add, show (1 : Word).toNat = 1 from rfl]; omega
    have hne : s.outLen ≠ s.outCap := fun he => by rw [he] at h; omega
    obtain ⟨m, hm, hwf, hget⟩ :=
      ih { s.writeBuf (s.outBase.toNat + s.outLen.toNat) b with outLen := s.outLen + 1 }
        (by simp only [State.writeBuf_outCap]; omega)
    refine ⟨m, ?_, fun hs => hwf (State.wf_writeBuf hs _ _), fun a => ?_⟩
    · rw [outAll_cons, out_of_room b hne, Run.ok_andThen, hm]
      simp only [State.writeBuf, List.length_cons]
      congr 2
      rw [BitVec.add_assoc]
      congr 1
      apply BitVec.eq_of_toNat_eq
      simp [Nat.add_comm]
    · rw [hget a]
      simp only [State.writeBuf_outBase, State.writeBuf_buf, hlen, Memory.get?_set, List.length_cons]
      by_cases ha : a = s.outBase.toNat + s.outLen.toNat
      · subst ha
        rw [if_neg (by omega), if_pos rfl, if_pos (by omega), Nat.sub_self, List.getElem?_cons_zero]
      · by_cases hin : s.outBase.toNat + s.outLen.toNat ≤ a ∧
            a < s.outBase.toNat + s.outLen.toNat + (bs.length + 1)
        · rw [if_pos (by omega), if_pos hin,
            show a - (s.outBase.toNat + s.outLen.toNat)
              = a - (s.outBase.toNat + (s.outLen.toNat + 1)) + 1 by omega,
            List.getElem?_cons_succ]
        · rw [if_neg (by omega), if_neg hin, if_neg ha]

/-- Bytes that do not fit raise OUT_OVERFLOW with OUT_CAP as position, having changed nothing but the bytes
from OUT_LEN to OUT_CAP, and OUT_LEN. -/
theorem outAll_of_overflow (bs : List Byte) (s : State) (hle : s.outLen.toNat ≤ s.outCap.toNat)
    (h : s.outCap.toNat < s.outLen.toNat + bs.length) :
    ∃ m, outAll bs s = .raised .outOverflow s.outCap { s with buf := m, outLen := s.outCap } ∧
      (s.buf.wf → m.wf) ∧
      ∀ a, (a < s.outBase.toNat + s.outLen.toNat ∨ s.outBase.toNat + s.outCap.toNat ≤ a) →
        Memory.get? m a = s.buf.get? a := by
  obtain ⟨m, hm, hwf, hget⟩ := outAll_of_fits (bs.take (s.outCap.toNat - s.outLen.toNat)) s
    (by rw [List.length_take]; omega)
  have hlen : (bs.take (s.outCap.toNat - s.outLen.toNat)).length = s.outCap.toNat - s.outLen.toNat := by
    rw [List.length_take]; omega
  have hcap : s.outLen + BitVec.ofNat 32 (s.outCap.toNat - s.outLen.toNat) = s.outCap := by
    apply BitVec.eq_of_toNat_eq
    have := s.outCap.isLt
    rw [BitVec.toNat_add, BitVec.toNat_ofNat]
    omega
  rw [hlen, hcap] at hm
  refine ⟨m, ?_, hwf, fun a ha => ?_⟩
  · rw [← List.take_append_drop (s.outCap.toNat - s.outLen.toNat) bs, outAll_append, hm, Run.ok_andThen]
    cases hd : bs.drop (s.outCap.toNat - s.outLen.toNat) with
    | nil =>
      have := congrArg List.length hd
      rw [List.length_drop, List.length_nil] at this
      omega
    | cons b rest => rw [outAll_cons, out_of_full b rfl]; rfl
  · rw [hget a, hlen, if_neg (by omega)]

/-! ## Completion -/

@[simp] theorem Run.settle_ok (w : Bool) (s : State) : (Run.ok s).settle w = s.complete := rfl

theorem Run.settle_raised (w : Bool) (e : ErrCode) (pos : Word) (s : State) :
    (Run.raised e pos s).settle w = (if w && e.discards then s.discardOutput else s).report e pos := rfl

/-- A command ends in success completion or in error completion, and then BUSY = 0 and the busy-only state is
gone (`60_exceptions.md` R335, R336). -/
theorem Run.settle_cases (w : Bool) (r : Run) :
    (∃ s, r = .ok s ∧ r.settle w = s.complete) ∨
    (∃ e pos s, r = .raised e pos s ∧ w = true ∧ e.discards = true ∧
      r.settle w = s.discardOutput.report e pos) ∨
    (∃ e pos s, r = .raised e pos s ∧ (w && e.discards) = false ∧ r.settle w = s.report e pos) := by
  cases r with
  | ok s => exact .inl ⟨s, rfl, rfl⟩
  | raised e pos s =>
    right
    cases h : w && e.discards with
    | true =>
      obtain ⟨hw, he⟩ := Bool.and_eq_true_iff.mp h
      exact .inl ⟨e, pos, s, rfl, hw, he, by rw [Run.settle_raised, h]; rfl⟩
    | false => exact .inr ⟨e, pos, s, rfl, h, by rw [Run.settle_raised, h]; rfl⟩

/-- Of the error codes only the reset value is 0x00, and none is above 0x0E (`60_exceptions.md` R331). -/
theorem ErrCode.code_le (e : ErrCode) : e.code ≤ 0x0E := by cases e <;> decide

theorem ErrCode.code_eq_zero_iff (e : ErrCode) : e.code = 0 ↔ e = .none := by cases e <;> decide

/-! ## Cancellation -/

/-- With no request pending a command runs its pseudocode to its completion. -/
theorem runCommand_of_no_request (ws : WriteSet) (body : State → Run) {s : State}
    (h : s.work.abortReq = false) : runCommand ws body s = (body s).settle ws.out := by
  simp [runCommand, h]

/-- With a request pending there are two outcomes (`45_control.md` R306): ordinary completion, or cancellation. -/
theorem runCommand_of_request (ws : WriteSet) (body : State → Run) {s : State} (h : s.work.abortReq = true) :
    runCommand ws body s = (body { s with draws := s.draws + 1 }).settle ws.out ∨
    runCommand ws body s = State.cancel ws { s with draws := s.draws + 1 } := by
  simp only [runCommand, h, if_true]
  cases Config.cancelDraw s.draws <;> simp

/-- Everything a command can end as: a completion of its pseudocode, or a cancellation. -/
theorem runCommand_cases (ws : WriteSet) (body : State → Run) (s : State) :
    ∃ d, runCommand ws body s = (body { s with draws := d }).settle ws.out ∨
      (s.work.abortReq = true ∧ runCommand ws body s = State.cancel ws { s with draws := d }) := by
  cases h : s.work.abortReq with
  | false => exact ⟨s.draws, .inl (runCommand_of_no_request ws body h)⟩
  | true =>
    refine ⟨s.draws + 1, ?_⟩
    rcases runCommand_of_request ws body h with h' | h'
    · exact .inl h'
    · exact .inr ⟨rfl, h'⟩

/-! ## The step -/

/-- Every command answers a next state (log 14). -/
theorem exec_next (i : Instr) (s : State) : ∃ t, exec i s = .next t := by cases i <;> exact ⟨_, rfl⟩

/-- Everything the CORE's step can do (`00_scope.md` R22, `30_encoding.md` R111). -/
theorem coreStep_cases {s t : State} (h : coreStep s = .next t) :
    (∃ i, decode s.cmd = .ok i ∧ exec i s = .next t) ∨ (∃ e, decode s.cmd = .error e ∧ t = rejectWord s) := by
  rw [coreStep] at h
  cases hd : decode s.cmd with
  | ok i => rw [hd] at h; exact .inl ⟨i, rfl, h⟩
  | error e =>
    rw [hd] at h
    injection h with h
    exact .inr ⟨e, rfl, h.symm⟩

/-- Everything the HOST's step can do: rest, or its first pending operation. -/
theorem hostStep_cases (s : State) :
    (s.host = [] ∧ hostStep s = s) ∨
    (∃ op rest, s.host = op :: rest ∧ hostStep s = hostOp op { s with host := rest }) := by
  rw [hostStep]
  cases hh : s.host with
  | nil => exact .inl ⟨rfl, rfl⟩
  | cons op rest => exact .inr ⟨op, rest, rfl, rfl⟩

/-- Everything a step can do (`70_reset_and_hazards.md` R385): a step of the HOST, or, only while BUSY = 1, of
the CORE. -/
theorem step_cases {s t : State} (h : step s = .next t) :
    (s.mover = .host ∧ t = hostStep s.takeTurn) ∨
    (s.mover = .core ∧ s.status.busy = true ∧ coreStep s.takeTurn = .next t) := by
  rw [step] at h
  cases hm : s.mover with
  | host => rw [hm] at h; injection h with h; exact .inl ⟨rfl, h.symm⟩
  | core =>
    rw [hm] at h
    refine .inr ⟨rfl, ?_, h⟩
    cases hb : s.status.busy with
    | true => rfl
    | false => rw [State.mover, hb] at hm; exact absurd hm (by simp)

/-- Using up a turn changes `turns` alone. -/
theorem State.takeTurn_eq (s : State) : ∃ ts, s.takeTurn = { s with turns := ts } := by
  rw [State.takeTurn]
  split
  · exact ⟨_, rfl⟩
  · exact ⟨s.turns, rfl⟩

/-- A write of the kind `70_reset_and_hazards.md` R380 ignores while busy. -/
theorem State.whileIdle_cases (s s' : State) :
    (s.status.busy = true ∧ s.whileIdle s' = s.markHostErr) ∨
    (s.status.busy = false ∧ s.whileIdle s' = s') := by
  rw [State.whileIdle]
  cases s.status.busy <;> simp

/-- Everything a register read does: the value goes to the HOST, and a draw may be used up. -/
theorem hostRegRead_cases (off : BitVec 12) (width : Nat) (s : State) :
    (∃ v, hostRegRead off width s = s.returnData v) ∨ (∃ v, hostRegRead off width s = s.returnDraw v) := by
  rw [hostRegRead]
  split
  · exact .inl ⟨0, rfl⟩
  · split
    · exact .inr ⟨_, rfl⟩
    · exact .inl ⟨_, rfl⟩

/-- Everything a BUF read does: the value goes to the HOST, and a draw may be used up. -/
theorem hostBufRead_cases (a : Nat) (s : State) :
    (∃ v, hostBufRead a s = s.returnData v) ∨ (∃ v, hostBufRead a s = s.returnDraw v) := by
  rw [hostBufRead]
  split
  · split
    · exact .inr ⟨_, rfl⟩
    · exact .inl ⟨_, rfl⟩
  · exact .inl ⟨0, rfl⟩

/-- Everything a BUF write does: it is ignored, sets HOSTERR, or stores its byte inside BUF. -/
theorem hostBufWrite_cases (a : Nat) (b : Byte) (s : State) :
    hostBufWrite a b s = s ∨ (s.status.busy = true ∧ hostBufWrite a b s = s.markHostErr) ∨
    (s.status.busy = false ∧ a < s.memSize ∧ hostBufWrite a b s = s.writeBuf a b) := by
  rw [hostBufWrite]
  rcases State.whileIdle_cases s (if a < s.memSize then s.writeBuf a b else s) with ⟨hb, h⟩ | ⟨hb, h⟩
  · exact .inr (.inl ⟨hb, h⟩)
  · rw [h]
    by_cases ha : a < s.memSize
    · exact .inr (.inr ⟨hb, ha, if_pos ha⟩)
    · exact .inl (if_neg ha)

/-- The HOST's memory operations keep BUF's canonical form. -/
theorem wf_hostBufWrite {s : State} (h : s.buf.wf) (a : Nat) (b : Byte) : (hostBufWrite a b s).buf.wf := by
  rcases hostBufWrite_cases a b s with he | ⟨-, he⟩ | ⟨-, -, he⟩ <;> rw [he]
  · exact h
  · exact h
  · exact State.wf_writeBuf h a b

/-- Hardware reset leaves BUF with nothing listed, which is canonical. -/
theorem wf_hardReset (s : State) : (hardReset s).buf.wf := List.Pairwise.nil

/-- `out` keeps BUF's canonical form. -/
theorem wf_out {s : State} (h : s.buf.wf) (b : Byte) : (out b s).reached.buf.wf := by
  by_cases hf : s.outLen = s.outCap
  · rw [out_of_full b hf]; exact h
  · rw [out_of_room b hf]; exact State.wf_writeBuf h _ b

/-- `outAll` keeps BUF's canonical form. -/
theorem wf_outAll {s : State} (h : s.buf.wf) (bs : List Byte) : (outAll bs s).reached.buf.wf := by
  induction bs generalizing s with
  | nil => exact h
  | cons b bs ih =>
    exact Run.reached_andThen (P := fun t => t.buf.wf) (wf_out h b) fun t ht => ih ht

end Sys2Proof.Machine
end

