-- ==== Sys2Proof/Laws/Exec.lean ====
section
/-! SUPPORT. Laws/Exec.lean: what each command's meaning is with no cancellation pending, the region checks as
propositions, the register map read both ways, and the bytes of a host program's text. -/

namespace Sys2Proof.Machine

/-! ## The commands, with no request pending -/

variable {s : State}

@[simp] theorem exec_nop : exec .nop s = .next s.complete := rfl

@[simp] theorem exec_reset : exec .reset s = .next s.softReset.complete := rfl

theorem exec_ftclr (h : s.work.abortReq = false) : exec .ftclr s = .next s.clearTable.complete :=
  congrArg _ (runCommand_of_no_request _ _ h)

theorem exec_ftadd (v : Byte) (h : s.work.abortReq = false) :
    exec (.ftadd v) s = .next ((ftaddBody v s).settle false) := congrArg _ (runCommand_of_no_request _ _ h)

theorem exec_count (h : s.work.abortReq = false) : exec .count s = .next ((countBody s).settle false) :=
  congrArg _ (runCommand_of_no_request _ _ h)

theorem exec_parsehdr (h : s.work.abortReq = false) :
    exec .parsehdr s = .next ((parsehdrBody s).settle false) := congrArg _ (runCommand_of_no_request _ _ h)

theorem exec_build (h : s.work.abortReq = false) : exec .build s = .next ((buildPhase s).settle false) :=
  congrArg _ (runCommand_of_no_request _ _ h)

theorem exec_gencode (h : s.work.abortReq = false) :
    exec .gencode s = .next ((gencodeBody s).settle false) := congrArg _ (runCommand_of_no_request _ _ h)

theorem exec_wrhdr (h : s.work.abortReq = false) : exec .wrhdr s = .next ((wrhdrBody s).settle true) :=
  congrArg _ (runCommand_of_no_request _ _ h)

theorem exec_encode (h : s.work.abortReq = false) : exec .encode s = .next ((encodeBody s).settle true) :=
  congrArg _ (runCommand_of_no_request _ _ h)

theorem exec_decode (h : s.work.abortReq = false) : exec .decode s = .next ((decodeBody s).settle true) :=
  congrArg _ (runCommand_of_no_request _ _ h)

theorem exec_compress (h : s.work.abortReq = false) :
    exec .compress s = .next ((compressBody s).settle true) := congrArg _ (runCommand_of_no_request _ _ h)

theorem exec_decompress (h : s.work.abortReq = false) :
    exec .decompress s = .next ((decompressBody s).settle true) := congrArg _ (runCommand_of_no_request _ _ h)

/-! ## The region checks -/

@[simp] theorem State.inOk_iff : s.inOk = true ↔ s.inBase.toNat + s.inLen.toNat ≤ s.memSize := by
  simp [State.inOk]

@[simp] theorem State.outFits_iff : s.outFits = true ↔ s.outBase.toNat + s.outCap.toNat ≤ s.memSize := by
  simp [State.outFits]

@[simp] theorem State.outOk_iff :
    s.outOk = true ↔
      s.outBase.toNat + s.outCap.toNat ≤ s.memSize ∧ s.outLen.toNat ≤ s.outCap.toNat := by
  simp [State.outOk]

@[simp] theorem State.disjoint_iff :
    s.disjoint = true ↔
      s.inLen = 0 ∨ s.outCap = 0 ∨ s.inBase.toNat + s.inLen.toNat ≤ s.outBase.toNat ∨
        s.outBase.toNat + s.outCap.toNat ≤ s.inBase.toNat := by
  simp [State.disjoint, or_assoc]

/-! ## The register map -/

/-- Every register is found at its own offset (`10_state.md` R32). -/
theorem regAt_offset (r : Reg) : regAt r.offset = some r := by
  cases r with
  | tblCode k => revert k; decide
  | _ => rfl

/-- Two registers never share an offset. -/
theorem Reg.offset_injective {r r' : Reg} (h : r.offset = r'.offset) : r = r' :=
  Option.some.inj (by rw [← regAt_offset r, ← regAt_offset r', h])

/-- A 32-bit access at a register's offset reaches that register. -/
theorem accessed_offset (r : Reg) : accessed r.offset 32 = some r := by
  rw [accessed, if_pos rfl, regAt_offset]

/-- An access reaches no register at an offset past the last, off a multiple of 4, or of another width
(`20_memory.md` R85, `10_state.md` R53). -/
theorem accessed_eq_none {off : BitVec 12} {width : Nat}
    (h : 0x090 ≤ off.toNat ∨ off.toNat % 4 ≠ 0 ∨ width ≠ 32) : accessed off width = none := by
  by_cases hw : width = 32
  · rw [accessed, if_pos hw, regAt]
    split <;> first | rfl | (next he => exact absurd he (by omega))
  · rw [accessed, if_neg hw]

/-! ## Host program text -/

/-- The expansion of a text of ASCII characters (`30_encoding.md` R126): a byte store for each. -/
theorem dataTextOps_of_ascii (a : Nat) {text : String} (h : ∀ c ∈ text.toList, c.toNat < 128) :
    dataTextOps a text = some (dataOps a (text.toList.map fun c => BitVec.ofNat 8 c.toNat)) := by
  have hm : ∀ cs : List Char, (∀ c ∈ cs, c.toNat < 128) →
      cs.mapM asciiByte = some (cs.map fun c => BitVec.ofNat 8 c.toNat) := by
    intro cs hcs
    induction cs with
    | nil => rfl
    | cons c cs ih =>
      rw [List.forall_mem_cons] at hcs
      simp [List.mapM_cons, asciiByte, hcs.1, ih hcs.2]
  rw [dataTextOps, hm _ h, Option.map_some]

end Sys2Proof.Machine
end

