-- ==== Sys2Proof/Laws/Files.lean ====
section
/-! SUPPORT. Laws/Files.lean: the laws of the register files: an entry after a write of it, and every other
entry as before, for the frequency table, the arena and the codebook, with one lemma per operation on them. -/

namespace Sys2Proof.Machine

/-! ## The frequency table -/

@[simp] theorem FreqTable.freqOf_empty (v : Byte) : FreqTable.empty.freqOf v = 0 := by
  simp [FreqTable.freqOf, FreqTable.empty]

@[simp] theorem FreqTable.orderAt_empty (k : Nat) : FreqTable.empty.orderAt k = 0 := by
  by_cases h : k < 256 <;> simp [FreqTable.orderAt, FreqTable.empty, h]

@[simp] theorem FreqTable.leafCnt_empty : FreqTable.empty.leafCnt = 0 := rfl

@[simp] theorem FreqTable.total_empty : FreqTable.empty.total = 0 := rfl

theorem FreqTable.freqOf_setFreq (t : FreqTable) (v u : Byte) (f : Word) :
    (t.setFreq v f).freqOf u = if u = v then f else t.freqOf u := by
  simp only [FreqTable.freqOf, FreqTable.setFreq, Vector.getElem_set]
  by_cases h : u = v
  · simp [h]
  · rw [if_neg h, if_neg fun he => h (BitVec.eq_of_toNat_eq he.symm)]

@[simp] theorem FreqTable.orderAt_setFreq (t : FreqTable) (v : Byte) (f : Word) (k : Nat) :
    (t.setFreq v f).orderAt k = t.orderAt k := rfl

@[simp] theorem FreqTable.leafCnt_setFreq (t : FreqTable) (v : Byte) (f : Word) :
    (t.setFreq v f).leafCnt = t.leafCnt := rfl

@[simp] theorem FreqTable.total_setFreq (t : FreqTable) (v : Byte) (f : Word) :
    (t.setFreq v f).total = t.total := rfl

theorem FreqTable.orderAt_setOrder (t : FreqTable) (k j : Nat) (v : Byte) :
    (t.setOrder k v).orderAt j = if j = k ∧ j < 256 then v else t.orderAt j := by
  simp only [FreqTable.orderAt, FreqTable.setOrder, Vector.getElem?_setIfInBounds]
  by_cases h : j = k
  · subst h
    by_cases hj : j < 256 <;> simp [hj]
  · rw [if_neg (fun he => h he.symm), if_neg (fun he => h he.1)]

@[simp] theorem FreqTable.freqOf_setOrder (t : FreqTable) (k : Nat) (v u : Byte) :
    (t.setOrder k v).freqOf u = t.freqOf u := rfl

@[simp] theorem FreqTable.freqOf_enter (t : FreqTable) (v u : Byte) : (t.enter v).freqOf u = t.freqOf u := rfl

@[simp] theorem FreqTable.leafCnt_enter (t : FreqTable) (v : Byte) : (t.enter v).leafCnt = t.leafCnt + 1 := rfl

@[simp] theorem FreqTable.total_enter (t : FreqTable) (v : Byte) : (t.enter v).total = t.total := rfl

theorem FreqTable.orderAt_enter (t : FreqTable) (v : Byte) (k : Nat) :
    (t.enter v).orderAt k = if k = t.leafCnt.toNat ∧ k < 256 then v else t.orderAt k :=
  FreqTable.orderAt_setOrder t _ k v

/-- Appending a pair (`40_frequency_tree.md` R152): its frequency, and every other value's as before. -/
theorem FreqTable.freqOf_append (t : FreqTable) (v : Byte) (f : Word) (u : Byte) :
    (t.append v f).freqOf u = if u = v then f else t.freqOf u := FreqTable.freqOf_setFreq (t.enter v) v u f

/-- Appending a pair: its place in the table order, and every other position as before. -/
theorem FreqTable.orderAt_append (t : FreqTable) (v : Byte) (f : Word) (k : Nat) :
    (t.append v f).orderAt k = if k = t.leafCnt.toNat ∧ k < 256 then v else t.orderAt k :=
  FreqTable.orderAt_enter t v k

@[simp] theorem FreqTable.leafCnt_append (t : FreqTable) (v : Byte) (f : Word) :
    (t.append v f).leafCnt = t.leafCnt + 1 := rfl

@[simp] theorem FreqTable.total_append (t : FreqTable) (v : Byte) (f : Word) :
    (t.append v f).total = t.total + f.zeroExtend 40 := rfl

/-- Counting a byte (`40_frequency_tree.md` R153): its frequency grows by one, the others stay. -/
theorem FreqTable.freqOf_countByte (t : FreqTable) (b u : Byte) :
    (t.countByte b).freqOf u = if u = b then t.freqOf b + 1 else t.freqOf u := by
  simp only [FreqTable.countByte]
  split <;> simp [FreqTable.freqOf_setFreq]

/-- Counting a byte: a value not seen before enters the table, and any other leaves the order alone. -/
theorem FreqTable.orderAt_countByte (t : FreqTable) (b : Byte) (k : Nat) :
    (t.countByte b).orderAt k =
      if t.freqOf b = 0 ∧ k = t.leafCnt.toNat ∧ k < 256 then b else t.orderAt k := by
  simp only [FreqTable.countByte, FreqTable.orderAt_setFreq]
  split <;> simp_all [FreqTable.orderAt_enter]

theorem FreqTable.leafCnt_countByte (t : FreqTable) (b : Byte) :
    (t.countByte b).leafCnt = if t.freqOf b = 0 then t.leafCnt + 1 else t.leafCnt := by
  simp only [FreqTable.countByte]
  split <;> rfl

theorem FreqTable.total_countByte (t : FreqTable) (b : Byte) : (t.countByte b).total = t.total := by
  simp only [FreqTable.countByte]
  split <;> rfl

/-! ## The arena -/

@[simp] theorem Arena.nodeAt_empty (i : NodeIdx) : Arena.empty.nodeAt i = Node.empty := by
  by_cases h : i.toNat < 511 <;> simp [Arena.nodeAt, Arena.empty, h]

/-- The index NULL reads as an EMPTY entry (log 13). -/
theorem Arena.nodeAt_null (a : Arena) : a.nodeAt Config.null = Node.empty := by
  simp [Arena.nodeAt]

theorem Arena.nodeAt_setNode (a : Arena) (k : Nat) (n : Node) (i : NodeIdx) :
    (a.setNode k n).nodeAt i = if i.toNat = k ∧ k < 511 then n else a.nodeAt i := by
  simp only [Arena.nodeAt, Arena.setNode, Vector.getElem?_setIfInBounds]
  by_cases h : k = i.toNat
  · subst h
    by_cases hj : i.toNat < 511 <;> simp [hj]
  · rw [if_neg h, if_neg (fun he => h he.1.symm)]

@[simp] theorem Arena.root_setNode (a : Arena) (k : Nat) (n : Node) : (a.setNode k n).root = a.root := rfl

@[simp] theorem Arena.nodeCnt_setNode (a : Arena) (k : Nat) (n : Node) :
    (a.setNode k n).nodeCnt = a.nodeCnt := rfl

/-- Placing leaves (`40_frequency_tree.md` R161): the leaf of each position at its index, and every other
entry as before. -/
theorem FreqTable.nodeAt_placeLeaves (t : FreqTable) (n : Nat) (a : Arena) (i : NodeIdx) :
    (t.placeLeaves n a).nodeAt i = if i.toNat < n ∧ i.toNat < 511 then t.leafAt i.toNat else a.nodeAt i := by
  induction n with
  | zero => simp [FreqTable.placeLeaves]
  | succ n ih =>
    rw [FreqTable.placeLeaves, Arena.nodeAt_setNode, ih]
    by_cases h : i.toNat = n
    · subst h
      by_cases h' : i.toNat < 511 <;> simp [h']
    · rw [if_neg (fun he => h he.1)]
      by_cases h' : i.toNat < n ∧ i.toNat < 511
      · rw [if_pos h', if_pos ⟨by omega, h'.2⟩]
      · rw [if_neg h', if_neg (by omega)]

/-! ## The codebook -/

@[simp] theorem Codebook.lenOf_empty (v : Byte) : Codebook.empty.lenOf v = 0 := by
  simp [Codebook.lenOf, Codebook.empty]

@[simp] theorem Codebook.bitsOf_empty (v : Byte) : Codebook.empty.bitsOf v = 0 := by
  simp [Codebook.bitsOf, Codebook.empty]

@[simp] theorem Codebook.maxLen_empty : Codebook.empty.maxLen = 0 := rfl

/-- Recording a leaf (`41_codebook.md` R192): its value's length, and every other value's as before. -/
theorem Codebook.lenOf_record (cb : Codebook) (v : Byte) (len : Nat) (c : CodeBits) (u : Byte) :
    (cb.record v len c).lenOf u = if u = v then BitVec.ofNat 8 len else cb.lenOf u := by
  simp only [Codebook.lenOf, Codebook.record, Vector.getElem_set]
  by_cases h : u = v
  · simp [h]
  · rw [if_neg h, if_neg fun he => h (BitVec.eq_of_toNat_eq he.symm)]

/-- Recording a leaf: its value's path, and every other value's as before. -/
theorem Codebook.bitsOf_record (cb : Codebook) (v : Byte) (len : Nat) (c : CodeBits) (u : Byte) :
    (cb.record v len c).bitsOf u = if u = v then c else cb.bitsOf u := by
  simp only [Codebook.bitsOf, Codebook.record, Vector.getElem_set]
  by_cases h : u = v
  · simp [h]
  · rw [if_neg h, if_neg fun he => h (BitVec.eq_of_toNat_eq he.symm)]

/-! ## Codes -/

@[simp] theorem length_codeString (c : CodeBits) (len : Nat) : (codeString c len).length = len := by
  simp [codeString]

@[simp] theorem Codebook.length_codeOf (cb : Codebook) (v : Byte) :
    (cb.codeOf v).length = (cb.lenOf v).toNat := by simp [Codebook.codeOf]

/-- The bits of a path followed by a left edge. -/
theorem codeString_leftPath (c : CodeBits) (len : Nat) (h : len < 255) :
    codeString (leftPath c) (len + 1) = codeString c len ++ [false] := by
  rw [codeString, codeString, List.range_succ, List.map_append]
  congr 1
  · refine List.map_congr_left fun j hj => ?_
    have hj := List.mem_range.mp hj
    simp only [codeBit, leftPath, BitVec.getLsbD_shiftLeft]
    rw [show len + 1 - 1 - j - 1 = len - 1 - j by omega]
    simp; omega
  · simp [codeBit, leftPath]

/-- The bits of a path followed by a right edge. -/
theorem codeString_rightPath (c : CodeBits) (len : Nat) (h : len < 255) :
    codeString (rightPath c) (len + 1) = codeString c len ++ [true] := by
  rw [codeString, codeString, List.range_succ, List.map_append]
  congr 1
  · refine List.map_congr_left fun j hj => ?_
    have hj := List.mem_range.mp hj
    simp only [codeBit, rightPath, BitVec.getLsbD_or, BitVec.getLsbD_shiftLeft]
    rw [show len + 1 - 1 - j - 1 = len - 1 - j by omega]
    simp [show len - j < 255 by omega, show ¬ len - j = 0 by omega]
  · simp [codeBit, rightPath]

/-! ## The four bytes of a word -/

/-- Four bytes written most significant first read back as the word (`20_memory.md` R83). -/
theorem be32_of_be32Bytes (w : Word) :
    be32 (w.extractLsb' 24 8) (w.extractLsb' 16 8) (w.extractLsb' 8 8) (w.extractLsb' 0 8) = w := by
  apply BitVec.eq_of_getLsbD_eq
  intro i hi
  simp only [be32, BitVec.getLsbD_append, BitVec.getLsbD_extractLsb']
  by_cases h1 : i < 8
  · simp [h1]
  · by_cases h2 : i < 16
    · simp [h1, show i - 8 < 8 by omega, show 8 + (i - 8) = i by omega]
    · by_cases h3 : i < 24
      · simp [h1, show ¬ i - 8 < 8 by omega, show i - 8 - 8 < 8 by omega,
          show 16 + (i - 8 - 8) = i by omega]
      · simp [h1, show ¬ i - 8 < 8 by omega, show ¬ i - 8 - 8 < 8 by omega, show i - 8 - 8 - 8 < 8 by omega,
          show 24 + (i - 8 - 8 - 8) = i by omega]

@[simp] theorem length_be32Bytes (w : Word) : (be32Bytes w).length = 4 := rfl

@[simp] theorem FreqTable.length_recordBytes (t : FreqTable) (k : Nat) : (t.recordBytes k).length = 5 := rfl

end Sys2Proof.Machine
end

