-- ==== Sys2Proof/Laws/PerInstr.lean ====
section
/-! SUPPORT. Laws/PerInstr.lean: the statement family TableRow, about each command as syntax: it is well
formed, its word matches its row of the opcode map under the row's mask (`30_encoding.md` R114), and the word's
fields are the row's (R110). -/

namespace Sys2Proof.Laws.TableRow

/-- What a row of the opcode map says of a command's word: the bits under `mask`, and the three fields. -/
structure Row (i : Instr) (mask value : Word) (f : CmdFields) : Prop where
  wf      : i.wf = true
  matched : encode i &&& mask = value
  fields  : fieldsOf (encode i) = f
  accepts : f.illFormed = none

/-- The row of each command. -/
def Statement : Instr → Prop
  | .nop => Row .nop 0xFFFFFFFF 0x00000000 { op := 0x00, imm8 := 0, rsvd := 0 }
  | .reset => Row .reset 0xFFFFFFFF 0x00000001 { op := 0x01, imm8 := 0, rsvd := 0 }
  | .ftclr => Row .ftclr 0xFFFFFFFF 0x00000002 { op := 0x02, imm8 := 0, rsvd := 0 }
  | .ftadd v => Row (.ftadd v) 0xFFFF00FF 0x00000003 { op := 0x03, imm8 := v, rsvd := 0 }
  | .count => Row .count 0xFFFFFFFF 0x00000004 { op := 0x04, imm8 := 0, rsvd := 0 }
  | .parsehdr => Row .parsehdr 0xFFFFFFFF 0x00000005 { op := 0x05, imm8 := 0, rsvd := 0 }
  | .build => Row .build 0xFFFFFFFF 0x00000006 { op := 0x06, imm8 := 0, rsvd := 0 }
  | .gencode => Row .gencode 0xFFFFFFFF 0x00000007 { op := 0x07, imm8 := 0, rsvd := 0 }
  | .wrhdr => Row .wrhdr 0xFFFFFFFF 0x00000008 { op := 0x08, imm8 := 0, rsvd := 0 }
  | .encode => Row .encode 0xFFFFFFFF 0x00000009 { op := 0x09, imm8 := 0, rsvd := 0 }
  | .decode => Row .decode 0xFFFFFFFF 0x0000000A { op := 0x0A, imm8 := 0, rsvd := 0 }
  | .compress => Row .compress 0xFFFFFFFF 0x0000000B { op := 0x0B, imm8 := 0, rsvd := 0 }
  | .decompress => Row .decompress 0xFFFFFFFF 0x0000000C { op := 0x0C, imm8 := 0, rsvd := 0 }

theorem nop : Statement .nop := ⟨rfl, by decide, by decide, by decide⟩
theorem reset : Statement .reset := ⟨rfl, by decide, by decide, by decide⟩
theorem ftclr : Statement .ftclr := ⟨rfl, by decide, by decide, by decide⟩

/-- FTADD: the mask leaves the operand's bits out, and the IMM8 field is the operand, whatever it is. -/
theorem ftadd (v : Byte) : Statement (.ftadd v) := by
  refine ⟨by simpa [Instr.wf] using v.isLt, ?_, ?_, by simp [CmdFields.illFormed]⟩
  · apply BitVec.eq_of_getLsbD_eq
    intro n hn
    by_cases h1 : n < 8
    · simp only [encode, wordOf, Instr.opcode, Instr.imm8, BitVec.getLsbD_and, BitVec.getLsbD_append, h1,
        if_true]
      interval_cases n <;> rfl
    · by_cases h2 : n < 16
      · have hm : (0xFFFF00FF : Word).getLsbD n = false ∧ (0x00000003 : Word).getLsbD n = false := by
          interval_cases n <;> first | omega | decide
        rw [BitVec.getLsbD_and, hm.1, hm.2, Bool.and_false]
      · have hz : (0x00000003 : Word).getLsbD n = false := by
          interval_cases n <;> first | omega | decide
        rw [BitVec.getLsbD_and, hz, Sys2Proof.encode, wordOf, BitVec.getLsbD_append, BitVec.getLsbD_append,
          if_neg h1, if_neg (by omega)]
        simp
  · simp only [fieldsOf, encode, wordOf, Instr.opcode, Instr.imm8, CmdFields.mk.injEq]
    refine ⟨?_, ?_, ?_⟩ <;> apply BitVec.eq_of_getLsbD_eq <;> intro n hn <;>
      simp only [BitVec.getLsbD_extractLsb', BitVec.getLsbD_append, hn, decide_true, Bool.true_and]
    · rw [if_pos (by omega), Nat.zero_add]
    · rw [if_neg (by omega), if_pos (by omega), Nat.add_sub_cancel_left]
    · rw [if_neg (by omega), if_neg (by omega)]; simp

theorem count : Statement .count := ⟨rfl, by decide, by decide, by decide⟩
theorem parsehdr : Statement .parsehdr := ⟨rfl, by decide, by decide, by decide⟩
theorem build : Statement .build := ⟨rfl, by decide, by decide, by decide⟩
theorem gencode : Statement .gencode := ⟨rfl, by decide, by decide, by decide⟩
theorem wrhdr : Statement .wrhdr := ⟨rfl, by decide, by decide, by decide⟩
theorem encode : Statement .encode := ⟨rfl, by decide, by decide, by decide⟩
theorem decode : Statement .decode := ⟨rfl, by decide, by decide, by decide⟩
theorem compress : Statement .compress := ⟨rfl, by decide, by decide, by decide⟩
theorem decompress : Statement .decompress := ⟨rfl, by decide, by decide, by decide⟩

end Sys2Proof.Laws.TableRow
end

