-- ==== Sys2Proof/Tests/Slice0.lean ====
section
/-! SUPPORT. Tests/Slice0.lean: the model's own tests: what decoding refuses, the words of the opcode map, one
or two steps of every command against the vectors of `95_test_vectors.md` (each test names its vector), the host
port, and for every obligation with hypotheses a concrete state and operands that meet them. -/

namespace Sys2Proof.Tests

open Sys2Proof.Machine

set_option Elab.async false

/-! ## States the tests use -/

/-- Bytes stored from an address on. -/
def stored (m : Memory) : Nat → List Byte → Memory
  | _, [] => m
  | a, b :: rest => stored (m.set a b) (a + 1) rest

/-- The vectors' standard state: the input at 0x00, the output region 0x80 .. 0xFF. -/
def fed (bs : List Byte) : State :=
  { State.reset with
    buf := stored [] 0 bs, inLen := BitVec.ofNat 32 bs.length, outBase := 0x80, outCap := 0x80 }

/-- The state a command's meaning answers. -/
def ran (i : Instr) (s : State) : State :=
  match exec i s with
  | .next t => t
  | .fault _ => s
  | .refused _ => s

/-- A state whose command `i` has been accepted. -/
def accepted (i : Instr) (s : State) : State := s.accept (encode i)

/-- The state after a command: its acceptance and its step. -/
def after (i : Instr) (s : State) : State := ran i (accepted i s)

/-- Bytes of BUF. -/
def bytesAt (s : State) (a n : Nat) : List Byte := (List.range n).map fun i => s.readBuf (a + i)

/-- What STATUS, ERRCODE and ERRPOS hold. -/
def shows (s : State) (status : Word) (code : BitVec 8) (pos : Word) : Bool :=
  s.status.word == status && s.errCode == code && s.errPos == pos

/-- "aaabbc", the input of V-L1. -/
def aaabbc : List Byte := [0x61, 0x61, 0x61, 0x62, 0x62, 0x63]

/-- The header of V-L1's container (V-P1). -/
def header : List Byte :=
  [0x00, 0x00, 0x00, 0x03, 0x61, 0x00, 0x00, 0x00, 0x03, 0x62, 0x00, 0x00, 0x00, 0x02, 0x63, 0x00, 0x00, 0x00,
    0x01]

/-- V-L1's container. -/
def container : List Byte := header ++ [0x1F, 0x01, 0x00]

/-- The container of V-D19, with a 1 bit at the UNARY root. -/
def badUnary : List Byte := [0x00, 0x00, 0x00, 0x01, 0x41, 0x00, 0x00, 0x00, 0x04, 0x04, 0x20]

/-- "aaabbc" counted, with its tree and its codebook: the vectors' "prepare". -/
def counted : State := after .count (fed aaabbc)
def built : State := after .build counted
def prepared : State := after .gencode built

/-- V-D3's state before DECODE, and V-D19's. -/
def decodable : State := after .build (after .parsehdr (fed container))
def unary : State := after .build (after .parsehdr (fed badUnary))

/-- A state with a cancellation request pending. -/
def requested (s : State) : State := { s with work := { s.work with abortReq := true } }

/-- The frequency-table invariant as a check. -/
def wfCheck (t : FreqTable) : Bool :=
  t.leafCnt.toNat == t.present && t.total.toNat == t.sum
    && (List.range t.leafCnt.toNat).all (fun k =>
      t.freqOf (t.orderAt k) != 0 && (List.range k).all fun j => t.orderAt j != t.orderAt k)
    && (List.range 256).all fun k => decide (k < t.leafCnt.toNat) || t.orderAt k == 0

theorem wf_of_wfCheck {t : FreqTable} (h : wfCheck t = true) : t.Wf := by
  simp only [wfCheck, Bool.and_eq_true, List.all_eq_true, List.mem_range, beq_iff_eq, bne_iff_ne,
    Bool.or_eq_true, decide_eq_true_eq] at h
  obtain ⟨⟨⟨hn, ht⟩, hl⟩, hu⟩ := h
  exact ⟨hn, fun j k hjk hk => (hl k hk).2 j hjk, fun k hk => (hl k hk).1,
    fun k hk hk' => (hu k hk').resolve_left (by omega), ht⟩

/-- BUILD leaves the tree of its table. -/
theorem arena_ran_build {s : State} (h : s.work.abortReq = false) :
    (ran .build s).arena = (ran .build s).ft.buildTree.1 := by
  simp only [ran, exec, execBuild, runCommand_of_no_request _ _ h, buildPhase, Run.settle_ok,
    State.complete_arena, State.complete_ft, State.markTree_ft]

theorem built_arena : built.arena = built.ft.buildTree.1 := arena_ran_build rfl

theorem counted_wf : counted.ft.Wf := wf_of_wfCheck (by decide +kernel)

/-! ## WellFormed and Decode -/

theorem test_reserved_opcode_is_ill_formed :
    CmdFields.illFormed { op := 0x0D, imm8 := 0, rsvd := 0 } = some .reservedOpcode := by decide

theorem test_nonzero_reserved_is_ill_formed :
    CmdFields.illFormed { op := 0x03, imm8 := 0, rsvd := 0x8000 } = some .nonzeroReserved := by decide

theorem test_nonzero_immediate_is_ill_formed :
    CmdFields.illFormed { op := 0x02, imm8 := 0x01, rsvd := 0 } = some .nonzeroImmediate := by decide

/-- V-C2, V-C3, V-C4, V-C5, V-C6, V-C7: words that name no command. -/
theorem test_decode_refuses :
    decode 0x0000000D = .error .reservedOpcode ∧ decode 0x000000FF = .error .reservedOpcode ∧
    decode 0x00010000 = .error .nonzeroReserved ∧ decode 0x00000100 = .error .nonzeroImmediate ∧
    decode 0x00000102 = .error .nonzeroImmediate ∧ decode 0x80000003 = .error .nonzeroReserved := by
  decide

/-- The words of the opcode map, bit by bit (`30_encoding.md` R114); FTADD's is V-F1's. -/
theorem test_decode_words :
    decode 0b00000000000000000000000000000000 = .ok .nop ∧
    decode 0b00000000000000000000000000000001 = .ok .reset ∧
    decode 0b00000000000000000000000000000010 = .ok .ftclr ∧
    decode 0b00000000000000000110000100000011 = .ok (.ftadd 0x61) ∧
    decode 0b00000000000000000000000000000100 = .ok .count ∧
    decode 0b00000000000000000000000000000101 = .ok .parsehdr ∧
    decode 0b00000000000000000000000000000110 = .ok .build ∧
    decode 0b00000000000000000000000000000111 = .ok .gencode ∧
    decode 0b00000000000000000000000000001000 = .ok .wrhdr ∧
    decode 0b00000000000000000000000000001001 = .ok .encode ∧
    decode 0b00000000000000000000000000001010 = .ok .decode ∧
    decode 0b00000000000000000000000000001011 = .ok .compress ∧
    decode 0b00000000000000000000000000001100 = .ok .decompress := by decide

theorem test_decodeTableWord :
    decodeTableWord 32 0x00006103 = some (.ftadd 0x61) ∧ decodeTableWord 32 0x0C = some .decompress ∧
    decodeTableWord 32 0x0D = none := by decide

/-! ## Every command, against its vectors -/

/-- V-C1. -/
theorem test_nop : shows (after .nop State.reset) 0x02 0 0 = true := by decide +kernel

/-- V-C8. -/
theorem test_reset :
    let s := after .reset (after .compress (fed aaabbc))
    shows s 0x02 0 0 = true ∧ s.ft.leafCnt = 0 ∧ s.arena.root = 0x1FF ∧ s.arena.nodeCnt = 0 ∧
      s.cb.maxLen = 0 ∧ s.outLen = 22 ∧ bytesAt s 0x80 22 = container := by decide +kernel

/-- V-F9. -/
theorem test_ftclr :
    let s := after .ftclr counted
    shows s 0x02 0 0 = true ∧ s.ft.leafCnt = 0 ∧ s.ft.total = 0 ∧ s.ft.freqOf 0x61 = 0 := by decide +kernel

/-- V-F5. -/
theorem test_ftadd :
    let s := after (.ftadd 0x00) { State.reset with arg := 0xFFFFFFFF }
    shows s 0x02 0 0 = true ∧ s.ft.orderAt 0 = 0x00 ∧ s.ft.freqOf 0 = 0xFFFFFFFF ∧
      s.regValue .totalLo = 0xFFFFFFFF ∧ s.regValue .totalHi = 0 := by decide +kernel

/-- V-F4: the zero check comes before the duplicate check. -/
theorem test_ftadd_zero_first :
    let s := after (.ftadd 0x61) { after (.ftadd 0x61) { State.reset with arg := 3 } with arg := 0 }
    s.errCode = 0x03 ∧ s.errPos = 0 ∧ s.ft.leafCnt = 1 := by decide +kernel

/-- V-F13. -/
theorem test_count :
    let s := after .count (fed [0x00, 0x00, 0xFF])
    shows s 0x02 0 0 = true ∧ s.ft.orderAt 0 = 0x00 ∧ s.ft.orderAt 1 = 0xFF ∧ s.ft.freqOf 0x00 = 2 ∧
      s.ft.freqOf 0xFF = 1 ∧ s.ft.total = 3 := by decide +kernel

/-- V-F11. -/
theorem test_count_bad_region :
    shows (after .count { State.reset with inBase := 254, inLen := 3 }) 0x04 0x0B 0 = true := by
  decide +kernel

/-- V-P1. -/
theorem test_parsehdr :
    let s := after .parsehdr (fed header)
    shows s 0x42 0 0 = true ∧ s.ft.orderAt 2 = 0x63 ∧ s.ft.freqOf 0x61 = 3 ∧ s.ft.freqOf 0x62 = 2 ∧
      s.ft.leafCnt = 3 ∧ s.ft.total = 6 ∧ s.bodyOff = 19 := by decide +kernel

/-- V-P7. -/
theorem test_parsehdr_duplicate :
    let s := after .parsehdr
      (fed [0x00, 0x00, 0x00, 0x02, 0x61, 0x00, 0x00, 0x00, 0x01, 0x61, 0x00, 0x00, 0x00, 0x02])
    shows s 0x04 0x08 9 = true ∧ s.ft.leafCnt = 0 := by decide +kernel

/-- V-B1: the second merge is a tie, which index order breaks. -/
theorem test_build :
    shows built 0x12 0 0 = true ∧ built.arena.root = 4 ∧ built.arena.nodeCnt = 5 ∧
      built.arena.nodeAt 3 = { kind := .internal, value := 0, left := 2, right := 1, freq := 3 } ∧
      built.arena.nodeAt 4 = { kind := .internal, value := 0, left := 0, right := 3, freq := 6 } := by
  decide +kernel

/-- V-B6. -/
theorem test_build_single_leaf :
    let s := after .build (after .count (fed [0x41, 0x41, 0x41, 0x41]))
    s.arena.root = 1 ∧ s.arena.nodeCnt = 2 ∧
      s.arena.nodeAt 1 = { kind := .unary, value := 0, left := 0, right := 0x1FF, freq := 4 } := by
  decide +kernel

/-- V-B1 and V-G4. -/
theorem test_gencode :
    shows prepared 0x32 0 0 = true ∧ prepared.cb.codeOf 0x61 = [false] ∧
      prepared.cb.codeOf 0x62 = [true, true] ∧ prepared.cb.codeOf 0x63 = [true, false] ∧
      prepared.cb.lenOf 0x64 = 0 ∧ prepared.cb.maxLen = 2 := by decide +kernel

/-- V-G1. -/
theorem test_gencode_sequence : shows (after .gencode State.reset) 0x04 0x0C 0 = true := by decide +kernel

/-- V-H7: WRHDR appends, big-endian. -/
theorem test_wrhdr :
    let s := after .wrhdr (after (.ftadd 0x41)
      { State.reset with
        buf := stored [] 0x80 [0xAA, 0xBB, 0xCC], outBase := 0x80, outCap := 0x80, outLen := 3
        arg := 0x01020304 })
    s.outLen = 12 ∧ bytesAt s 0x80 12 =
      [0xAA, 0xBB, 0xCC, 0x00, 0x00, 0x00, 0x01, 0x41, 0x01, 0x02, 0x03, 0x04] := by decide +kernel

/-- V-H2. -/
theorem test_wrhdr_overflow :
    let s := after .wrhdr { counted with outCap := 3, buf := counted.buf.set 0x83 0x5A }
    s.errCode = 0x0A ∧ s.errPos = 3 ∧ s.outLen = 0 ∧ s.readBuf 0x83 = 0x5A ∧ s.ft.leafCnt = 3 := by
  decide +kernel

/-- V-E1. -/
theorem test_encode :
    let s := after .encode prepared
    shows s 0x32 0 0 = true ∧ s.outLen = 3 ∧ bytesAt s 0x80 3 = [0x1F, 0x01, 0x00] := by decide +kernel

/-- V-E5. -/
theorem test_encode_no_code :
    let s := after .encode { prepared with buf := stored [] 0 [0x61, 0x62, 0x64], inLen := 3 }
    shows s 0x34 0x09 2 = true ∧ s.outLen = 0 := by decide +kernel

/-- V-D3. -/
theorem test_decode :
    let s := after .decode decodable
    shows s 0x52 0 0 = true ∧ s.outLen = 6 ∧ bytesAt s 0x80 6 = aaabbc := by decide +kernel

/-- V-D19. -/
theorem test_decode_unary_one :
    let s := after .decode unary
    shows s 0x54 0x02 10 = true ∧ s.outLen = 0 := by decide +kernel

/-- V-L1. -/
theorem test_compress :
    let s := after .compress (fed aaabbc)
    shows s 0x32 0 0 = true ∧ s.outLen = 22 ∧ bytesAt s 0x80 22 = container := by decide +kernel

/-- V-C12. -/
theorem test_compress_no_room : shows (after .compress State.reset) 0x34 0x0A 0 = true := by decide +kernel

/-- V-L1, the round trip. -/
theorem test_decompress :
    let s := after .decompress (fed container)
    shows s 0x52 0 0 = true ∧ s.outLen = 6 ∧ bytesAt s 0x80 6 = aaabbc ∧ s.bodyOff = 19 := by decide +kernel

/-- V-C14. -/
theorem test_decompress_bad_trailer :
    shows (after .decompress (fed [0x00, 0x00, 0x00, 0x00, 0x33])) 0x54 0x05 4 = true := by decide +kernel

/-! ## The host port -/

/-- V-X4 and V-X5: the busy writes are ignored and set HOSTERR, which writing 1 clears. -/
theorem test_busy_writes :
    let s := accepted .compress (fed aaabbc)
    let t := hostOp (wr .cmd 0x01) (hostOp (wr .outCap 0) s)
    t.outCap = 0x80 ∧ t.cmd = 0x0B ∧ t.status.word = 0x09 ∧
      (hostOp (wr .status 0x8) t).status.word = 0x01 := by decide +kernel

/-- V-L1's node table and V-G4 through the read ports. -/
theorem test_read_ports :
    let s := hostOp (wr .nodeSel 3) (hostOp (wr .tblSel 0x62) prepared)
    (hostOp (rd .nodeInfo) s).hostData = 0x00000002 ∧ (hostOp (rd .nodeLink) s).hostData = 0x00010002 ∧
      (hostOp (rd .tblFreq) s).hostData = 2 ∧ (hostOp (rd .tblClen) s).hostData = 2 ∧
      (hostOp (rd (.tblCode 0)) s).hostData = 0x3 ∧ (hostOp (rd (.tblCode 7)) s).hostData = 0 := by
  decide +kernel

/-- `data addr, "text"` (`30_encoding.md` R126) with V-L1's input, and a text that is not ASCII. -/
theorem test_data_text :
    dataTextOps 0x10 "abc" = some [sb 0x10 0x61, sb 0x11 0x62, sb 0x12 0x63] ∧ dataTextOps 0 "é" = none := by
  decide +kernel

/-- A cancelled DECOMPRESS resets the table, the arena and OUT, and leaves the codebook (`45_control.md` R302,
R306). -/
theorem test_cancelled_decompress_keeps_the_codebook (s : State) :
    let t := s.cancel (writeSet .decompress)
    t.ft = FreqTable.empty ∧ t.arena = Arena.empty ∧ t.outLen = 0 ∧ t.cb = s.cb := ⟨rfl, rfl, rfl, rfl⟩

/-- V-X1: IRQ after completion, and its acknowledge. -/
theorem test_interrupt :
    let s := after .nop { State.reset with ie := true }
    s.irq = true ∧ (hostOp (wr .status 0x2) s).irq = false := by decide +kernel

/-! ## Witnesses: the hypotheses of each obligation can be met -/

/-- The three ways a word names no command, with and without a request pending, and a word that names one. -/
theorem witness_DecodeChecksThenRunsOrRaisesBadCommand :
    let s := fun w => State.reset.accept w
    decode (s 0x0D).cmd = .error .reservedOpcode ∧ (s 0x0D).work.abortReq = false ∧
    decode (s 0x00010000).cmd = .error .nonzeroReserved ∧ (s 0x00010000).work.abortReq = false ∧
    decode (s 0x100).cmd = .error .nonzeroImmediate ∧ (s 0x100).work.abortReq = false ∧
    decode (requested (s 0x0D)).cmd = .error .reservedOpcode ∧ (requested (s 0x0D)).work.abortReq = true ∧
    decode (s 0x0C).cmd = .ok .decompress := by decide +kernel

theorem witness_StepRunsTheDecodedCommand :
    (accepted .build State.reset).mover = .core ∧ decode (accepted .build State.reset).cmd = .ok .build := by
  decide +kernel

theorem witness_HostMovesOneOperationAStep :
    let idle : State := { State.reset with host := [.wait] }
    let busy : State := { accepted .nop State.reset with host := [.wait], turns := [.host] }
    idle.status.busy = false ∧ idle.host = .wait :: [] ∧ busy.status.busy = true ∧ busy.host = .wait :: [] ∧
    busy.turns = .host :: [] ∧ State.reset.status.busy = false ∧ State.reset.host = [] := by decide +kernel

theorem witness_AcceptedCommandCompletes : (accepted .build State.reset).status.busy = true := by
  decide +kernel

theorem witness_WriteToCmdIsAcceptance :
    State.reset.status.busy = false ∧ State.reset.host = [] ∧
    (accepted .nop State.reset).status.busy = true := by decide +kernel

theorem witness_BusyWritesAreIgnoredOrTakeEffect :
    (accepted .nop State.reset).status.busy = true ∧ 255 < State.reset.memSize ∧
    (0x02C : BitVec 12) ∈ ([0x00C, 0x010, 0x01C, 0x020, 0x024, 0x028, 0x02C] : List (BitVec 12)) ∧
    (0x030 : BitVec 12) ∉ ([0x004, 0x008, 0x00C, 0x010, 0x01C, 0x020, 0x024, 0x028, 0x02C, 0x04C, 0x07C] :
      List (BitVec 12)) := by decide +kernel

theorem witness_IdleWritesTakeEffect : State.reset.status.busy = false := by decide +kernel

/-- A selected node, and NULL selected. -/
theorem witness_ReadPortsShowTheSelectedEntry :
    let s : State := { prepared with nodeSel := 4 }
    let n : State := { prepared with nodeSel := 0x1FF }
    s.status.busy = false ∧ s.nodeSel ≠ 0x1FF ∧ n.status.busy = false ∧ n.nodeSel = 0x1FF := by
  decide +kernel

/-- The first reserved offset, a misaligned one, and a narrow access. -/
theorem witness_ReservedSpaceReadsZeroAndIgnoresWrites :
    0x090 ≤ (0x090 : BitVec 12).toNat ∧ (0x002 : BitVec 12).toNat % 4 ≠ 0 ∧ (8 : Nat) ≠ 32 := by decide

/-- The last byte of BUF, and the first address past it. -/
theorem witness_HostBufAccessesReachOneByte :
    State.reset.status.busy = false ∧ 255 < State.reset.memSize ∧ State.reset.memSize ≤ 256 := by
  decide +kernel

/-- Busy, with addresses on both sides of each end of the output region from OUT_START on. -/
theorem witness_BusyReadsReturnDrawsOrStoredValues :
    let s : State := (accepted .wrhdr { fed aaabbc with outLen := 3, outCap := 0x20 })
    s.status.busy = true ∧ (0x02C : BitVec 12) ∈ ([0x02C, 0x030, 0x034] : List (BitVec 12)) ∧
    s.outBase.toNat + s.work.outStart.toNat ≤ 0x83 ∧ 0x9F < s.outBase.toNat + s.outCap.toNat ∧
    0x82 < s.outBase.toNat + s.work.outStart.toNat ∧ s.outBase.toNat + s.outCap.toNat ≤ 0xA0 ∧
    0xA0 < s.memSize := by decide +kernel

theorem witness_BusyWindowKeepsTheInputs :
    (accepted .count (fed aaabbc)).status.busy = true ∧ sb 0 7 ≠ .hardReset ∧
    (accepted .count (fed aaabbc)).memSize ≤ 256 := by decide +kernel

theorem witness_InterruptFollowsCompletionAndAcknowledge :
    exec .build counted = .next (ran .build counted) ∧ counted.status.busy = false ∧
    (after .build counted).status.done = true ∧ (0x2 : Word).getLsbD 1 = true ∧
    (after .build counted).status.err = false ∧ (0x2 : Word).getLsbD 0 = false :=
  ⟨rfl, by decide +kernel, by decide +kernel, by decide, by decide +kernel, by decide⟩

theorem witness_EveryCommandEndsInOneCompletion :
    (accepted .count (fed aaabbc)).status.done = false ∧ (accepted .count (fed aaabbc)).status.err = false := by
  decide +kernel

theorem witness_CommandsKeepWhatTheyDoNotWrite :
    exec .encode prepared = .next (ran .encode prepared) ∧
    Instr.encode ≠ .reset ∧ Instr.build ∉ [.wrhdr, .encode, .decode, .compress, .decompress] ∧
    Instr.encode ∈ [.nop, .build, .gencode, .wrhdr, .encode, .decode] ∧
    Instr.encode ∉ [.reset, .build, .compress, .decompress] ∧
    Instr.encode ∉ [.reset, .gencode, .compress] :=
  ⟨rfl, by decide, by decide, by decide, by decide, by decide⟩

/-- A success that writes output, and a command that writes none. -/
theorem witness_OutputStaysInItsRegion :
    let s := accepted .encode prepared
    s.Accepted .encode ∧ exec .encode s = .next (ran .encode s) ∧
    (ran .encode s).status.err = false ∧ s.outBase.toNat + (outStartOf .encode s).toNat ≤ 0x80 ∧
    (accepted .build counted).Accepted .build ∧ (writeSet .build).out = false :=
  ⟨⟨by decide +kernel, by decide +kernel, by decide +kernel⟩, rfl, by decide +kernel, by decide +kernel,
    ⟨by decide +kernel, by decide +kernel, by decide +kernel⟩, rfl⟩

/-- A byte outside the input region differs. -/
theorem witness_OnlyTheInputRegionMatters :
    let s := fed aaabbc
    exec .count s = .next (ran .count s) ∧
    (∀ k, k < s.inLen.toNat → ({ s with buf := s.buf.set 0x50 7 } : State).input k = s.input k) ∧
    s.buf.set 0x50 7 ≠ s.buf := ⟨rfl, by decide +kernel, by decide +kernel⟩

theorem witness_LeftoverBusyStateDoesNotMatter :
    let s := accepted .decode decodable
    let w : Work := { s.work with acc := 0x55, na := 3, cur := 7, cnt := 2, kbit := 9, q := [1, 2] }
    w.abortReq = s.work.abortReq ∧ w.outStart = s.work.outStart ∧ w ≠ s.work := by decide +kernel

theorem witness_CancellationHasTwoOutcomes :
    (requested (accepted .compress (fed aaabbc))).work.abortReq = true ∧
    Instr.compress ≠ .nop ∧ Instr.compress ≠ .reset := by decide +kernel

/-- Each failing condition by one byte: the input, the output, OUT_LEN past OUT_CAP, and the overlap. -/
theorem witness_FailedRegionCheckRaisesBadRegion :
    let inBad : State := { State.reset with inBase := 254, inLen := 3 }
    let outBad : State := { State.reset with outBase := 200, outCap := 57 }
    let full : State := { State.reset with outCap := 4, outLen := 5 }
    let overlap : State := { prepared with outBase := 5, outCap := 10 }
    let overlapped : State := { decodable with outBase := 21, outCap := 6 }
    inBad.work.abortReq = false ∧ inBad.memSize < inBad.inBase.toNat + inBad.inLen.toNat ∧
    outBad.work.abortReq = false ∧ outBad.memSize < outBad.outBase.toNat + outBad.outCap.toNat ∧
    full.work.abortReq = false ∧ full.outCap.toNat < full.outLen.toNat ∧
    overlap.work.abortReq = false ∧ overlap.status.cbValid = true ∧ overlap.inLen ≠ 0 ∧ overlap.outCap ≠ 0 ∧
    overlap.outBase.toNat < overlap.inBase.toNat + overlap.inLen.toNat ∧
    overlap.inBase.toNat < overlap.outBase.toNat + overlap.outCap.toNat ∧
    overlapped.work.abortReq = false ∧ overlapped.status.treeValid = true ∧
    overlapped.status.hdrValid = true ∧ overlapped.inLen ≠ 0 ∧ overlapped.outCap ≠ 0 ∧
    overlapped.outBase.toNat < overlapped.inBase.toNat + overlapped.inLen.toNat ∧
    overlapped.inBase.toNat < overlapped.outBase.toNat + overlapped.outCap.toNat := by decide +kernel

theorem witness_MissingPrerequisiteRaisesSequence :
    State.reset.work.abortReq = false ∧ State.reset.status.treeValid = false ∧
    State.reset.status.cbValid = false ∧ built.work.abortReq = false ∧ built.status.treeValid = true ∧
    built.status.hdrValid = false := by decide +kernel

theorem witness_FtclrEmptiesTheTable : counted.work.abortReq = false := by decide +kernel

/-- A new value with the largest frequency, a zero frequency, and a value already present. -/
theorem witness_FtaddAppendsThePair :
    let s : State := { counted with arg := 0xFFFFFFFF }
    s.work.abortReq = false ∧ s.ft.Wf ∧ s.arg ≠ 0 ∧ s.ft.freqOf 0xFF = 0 ∧ s.ft.freqOf 0x61 ≠ 0 ∧
    counted.work.abortReq = false ∧ counted.ft.Wf ∧ counted.arg = 0 :=
  ⟨by decide +kernel, counted_wf, by decide +kernel, by decide +kernel, by decide +kernel, by decide +kernel,
    counted_wf, by decide +kernel⟩

/-- An input region, and an empty one at the very end of BUF (V-F12). -/
theorem witness_CountCountsTheInput :
    let s := fed aaabbc
    let t : State := { State.reset with inBase := 256 }
    s.work.abortReq = false ∧ s.inBase.toNat + s.inLen.toNat ≤ s.memSize ∧
    t.work.abortReq = false ∧ t.inBase.toNat + t.inLen.toNat ≤ t.memSize := by decide +kernel

theorem witness_ExtractMinTakesTheSmallestKey :
    ([0, 1, 2] : List NodeIdx) ≠ [] ∧ ([0, 1, 2] : List NodeIdx).Nodup ∧
    counted.ft.buildTree.1.less 2 1 = true ∧ counted.ft.buildTree.1.less 1 0 = true := by decide +kernel

theorem witness_MergeJoinsTheTwoSmallest :
    let b := counted.ft.startBuild 3
    b.q.Nodup ∧ 2 ≤ b.q.length ∧ b.next < 511 := by decide +kernel

/-- An empty table, and a table of one leaf. -/
theorem witness_BuildOfEmptyAndSingleLeafTables :
    let one := after .count (fed [0x41])
    State.reset.work.abortReq = false ∧ State.reset.ft.leafCnt = 0 ∧
    one.work.abortReq = false ∧ one.ft.leafCnt = 1 := by decide +kernel

/-- Three leaves, and one. -/
theorem witness_BuildMakesTheTree :
    let one := after .count (fed [0x41])
    counted.work.abortReq = false ∧ counted.ft.Wf ∧ 2 ≤ counted.ft.leafCnt.toNat ∧
    one.work.abortReq = false ∧ one.ft.Wf ∧ one.ft.leafCnt.toNat = 1 :=
  ⟨by decide +kernel, counted_wf, by decide +kernel, by decide +kernel, wf_of_wfCheck (by decide +kernel),
    by decide +kernel⟩

/-- Two states with one table of pairs, whose other parts differ. -/
theorem witness_BuildDependsOnlyOnThePairs :
    let s := counted
    let t : State := { prepared with arg := 5 }
    s.work.abortReq = false ∧ t.work.abortReq = false ∧ s.ft.leafCnt = t.ft.leafCnt ∧
    (∀ k, k < s.ft.leafCnt.toNat → s.ft.orderAt k = t.ft.orderAt k ∧
      s.ft.freqOf (s.ft.orderAt k) = t.ft.freqOf (t.ft.orderAt k)) ∧
    exec .build s = .next (ran .build s) ∧ exec .build t = .next (ran .build t) :=
  ⟨by decide +kernel, by decide +kernel, by decide +kernel, by decide +kernel, rfl, rfl⟩

theorem witness_GencodeRecordsThePaths :
    built.work.abortReq = false ∧ built.ft.Wf ∧ built.status.treeValid = true ∧
    built.arena = built.ft.buildTree.1 ∧ built.ft.freqOf 0x61 ≠ 0 :=
  ⟨by decide +kernel, wf_of_wfCheck (by decide +kernel), by decide +kernel, built_arena, by decide +kernel⟩

theorem witness_CodesArePrefixFree :
    counted.ft.Wf ∧ counted.ft.freqOf 0x61 ≠ 0 ∧ counted.ft.freqOf 0x62 ≠ 0 ∧ (0x61 : Byte) ≠ 0x62 :=
  ⟨counted_wf, by decide +kernel, by decide +kernel, by decide⟩

/-- Three leaves, and one. -/
theorem witness_CodeLengthsMeetTheKraftEquality :
    counted.ft.Wf ∧ 2 ≤ counted.ft.leafCnt.toNat ∧
    (after .count (fed [0x41])).ft.Wf ∧ (after .count (fed [0x41])).ft.leafCnt.toNat = 1 :=
  ⟨counted_wf, by decide +kernel, wf_of_wfCheck (by decide +kernel), by decide +kernel⟩

/-- A region that the header fills exactly (V-H3). -/
theorem witness_WrhdrAppendsTheHeader :
    let s : State := { counted with outCap := 19 }
    s.work.abortReq = false ∧ s.outBase.toNat + s.outCap.toNat ≤ s.memSize ∧ s.ft.leafCnt.toNat ≤ 256 ∧
    s.outLen.toNat + s.ft.headerLen ≤ s.outCap.toNat := by decide +kernel

/-- One byte too little room for each of the three (V-H3, V-E7, V-C9), and no room for the codes of four input
bytes, after which comes one with no code. -/
theorem witness_OutputOverflowDiscardsTheOutput :
    let h : State := { counted with outCap := 18 }
    let e : State := { prepared with outCap := 2 }
    let c : State := { fed aaabbc with outCap := 21 }
    let f : State :=
      { prepared with buf := stored [] 0 [0x62, 0x62, 0x62, 0x62, 0x64], inLen := 5, outCap := 0 }
    h.work.abortReq = false ∧ h.outBase.toNat + h.outCap.toNat ≤ h.memSize ∧ h.ft.leafCnt.toNat ≤ 256 ∧
    h.outLen.toNat ≤ h.outCap.toNat ∧ h.outCap.toNat < h.outLen.toNat + h.ft.headerLen ∧
    e.work.abortReq = false ∧ e.outBase.toNat + e.outCap.toNat ≤ e.memSize ∧ e.status.cbValid = true ∧
    e.inBase.toNat + e.inLen.toNat ≤ e.memSize ∧ e.inBase.toNat + e.inLen.toNat ≤ e.outBase.toNat ∧
    e.outLen.toNat ≤ e.outCap.toNat ∧ e.ft.leafCnt ≠ 0 ∧ (∀ b ∈ e.inputBytes, e.cb.lenOf b ≠ 0) ∧
    e.outCap.toNat < e.outLen.toNat + (e.cb.bitString e.inputBytes).length / 8 + 2 ∧
    c.work.abortReq = false ∧ c.outBase.toNat + c.outCap.toNat ≤ c.memSize ∧
    c.inBase.toNat + c.inLen.toNat ≤ c.memSize ∧ c.inBase.toNat + c.inLen.toNat ≤ c.outBase.toNat ∧
    c.outCap.toNat < (FreqTable.ofBytes c.inputBytes).containerLen
      ((FreqTable.ofBytes c.inputBytes).codebook.bitString c.inputBytes) ∧
    f.work.abortReq = false ∧ f.outBase.toNat + f.outCap.toNat ≤ f.memSize ∧ f.status.cbValid = true ∧
    f.inBase.toNat + f.inLen.toNat ≤ f.memSize ∧ f.outCap = 0 ∧ f.outLen.toNat ≤ f.outCap.toNat ∧
    4 ≤ f.inLen.toNat ∧ (∀ j, j < 4 → f.cb.lenOf (f.input j) ≠ 0) ∧
    f.outCap.toNat < f.outLen.toNat + (f.cb.bitString (f.inputs 4)).length / 8 ∧
    f.cb.lenOf (f.input 4) = 0 := by decide +kernel

theorem witness_ParsehdrReadsTheHeader :
    let s := fed header
    s.work.abortReq = false ∧ s.inBase.toNat + s.inLen.toNat ≤ s.memSize ∧ (s.input32 0).toNat ≤ 256 ∧
    4 + 5 * (s.input32 0).toNat ≤ s.inLen.toNat ∧
    (∀ k, k < (s.input32 0).toNat → s.input32 (5 + 5 * k) ≠ 0) ∧
    (∀ k, k < (s.input32 0).toNat → ∀ j, j < k → s.input (4 + 5 * j) ≠ s.input (4 + 5 * k)) := by
  decide +kernel

/-- V-P2, V-P3, V-P5, V-P6 and V-P7: one input for each check. -/
theorem witness_ParsehdrRejectsInOrder :
    let short := fed [0x00, 0x00, 0x00]
    let count := fed [0x00, 0x00, 0x01, 0x01]
    let cut := fed (header.take 18)
    let zero := fed [0x00, 0x00, 0x00, 0x02, 0x61, 0x00, 0x00, 0x00, 0x01, 0x62, 0x00, 0x00, 0x00, 0x00]
    let twice := fed [0x00, 0x00, 0x00, 0x02, 0x61, 0x00, 0x00, 0x00, 0x01, 0x61, 0x00, 0x00, 0x00, 0x02]
    short.work.abortReq = false ∧ short.inBase.toNat + short.inLen.toNat ≤ short.memSize ∧
    short.inLen.toNat < 4 ∧
    count.inBase.toNat + count.inLen.toNat ≤ count.memSize ∧ 4 ≤ count.inLen.toNat ∧
    256 < (count.input32 0).toNat ∧
    cut.inBase.toNat + cut.inLen.toNat ≤ cut.memSize ∧ 4 ≤ cut.inLen.toNat ∧ (cut.input32 0).toNat ≤ 256 ∧
    cut.inLen.toNat < 4 + 5 * (cut.input32 0).toNat ∧
    zero.inBase.toNat + zero.inLen.toNat ≤ zero.memSize ∧ (zero.input32 0).toNat ≤ 256 ∧
    4 + 5 * (zero.input32 0).toNat ≤ zero.inLen.toNat ∧ 1 < (zero.input32 0).toNat ∧
    zero.input32 5 ≠ 0 ∧ zero.input32 10 = 0 ∧
    twice.inBase.toNat + twice.inLen.toNat ≤ twice.memSize ∧ (twice.input32 0).toNat ≤ 256 ∧
    4 + 5 * (twice.input32 0).toNat ≤ twice.inLen.toNat ∧ 1 < (twice.input32 0).toNat ∧
    twice.input32 5 ≠ 0 ∧ twice.input32 10 ≠ 0 ∧ twice.input 4 = twice.input 9 := by decide +kernel

/-- The header of V-L1, and the table it is the header of. -/
theorem header_holds : HoldsHeader (fed container).readBuf 0 counted.ft :=
  ⟨by decide +kernel, by decide +kernel, by decide +kernel⟩

theorem witness_HeaderRoundTrip :
    let s := fed container
    s.work.abortReq = false ∧ counted.ft.Wf ∧ s.inBase.toNat + s.inLen.toNat ≤ s.memSize ∧
    counted.ft.headerLen ≤ s.inLen.toNat ∧ HoldsHeader s.readBuf s.inBase.toNat counted.ft :=
  ⟨by decide +kernel, counted_wf, by decide +kernel, by decide +kernel, header_holds⟩

/-- A region that the body and the trailer fill exactly. -/
theorem witness_EncodeAppendsBodyAndTrailer :
    let s : State := { prepared with outCap := 3 }
    s.work.abortReq = false ∧ s.status.cbValid = true ∧ s.inBase.toNat + s.inLen.toNat ≤ s.memSize ∧
    s.outBase.toNat + s.outCap.toNat ≤ s.memSize ∧ s.inBase.toNat + s.inLen.toNat ≤ s.outBase.toNat ∧
    (∀ b ∈ s.inputBytes, s.cb.lenOf b ≠ 0) ∧
    s.outLen.toNat + ((s.cb.bitString s.inputBytes).length / 8 + (if s.ft.leafCnt = 0 then 0 else 2))
      ≤ s.outCap.toNat := by decide +kernel

/-- V-E5. -/
theorem witness_EncodeRejectsTheFirstUncodedByte :
    let s : State := { prepared with buf := stored [] 0 [0x61, 0x62, 0x64], inLen := 3 }
    s.work.abortReq = false ∧ s.status.cbValid = true ∧ s.inBase.toNat + s.inLen.toNat ≤ s.memSize ∧
    s.outBase.toNat + s.outCap.toNat ≤ s.memSize ∧ s.inBase.toNat + s.inLen.toNat ≤ s.outBase.toNat ∧
    2 < s.inLen.toNat ∧ s.cb.lenOf (s.input 2) = 0 ∧ (∀ j, j < 2 → s.cb.lenOf (s.input j) ≠ 0) ∧
    s.outLen.toNat + (s.cb.bitString (s.inputs 2)).length / 8 ≤ s.outCap.toNat := by decide +kernel

/-- What the trailer statement asks of a state before its clauses. -/
def trailerReady (s : State) : Bool :=
  !s.work.abortReq && s.status.treeValid && s.status.hdrValid
    && decide (s.inBase.toNat + s.inLen.toNat ≤ s.memSize)
    && decide (s.outBase.toNat + s.outCap.toNat ≤ s.memSize) && decide (s.outLen.toNat ≤ s.outCap.toNat)
    && decide (s.inBase.toNat + s.inLen.toNat ≤ s.outBase.toNat) && decide (s.bodyOff.toNat ≤ s.inLen.toNat)

/-- V-D24, V-D25, V-D1, V-D5 and V-D2: one container for each clause. -/
theorem witness_DecodeChecksTheTrailer :
    let ready := fun bs => after .build (after .parsehdr (fed bs))
    let empty := ready [0x00, 0x00, 0x00, 0x00]
    let tail := ready [0x00, 0x00, 0x00, 0x00, 0x00]
    let cut := ready (header ++ [0x1F])
    let nine := ready (header ++ [0x1F, 0x09, 0x00])
    let none := ready (header ++ [0x00, 0x00])
    (trailerReady empty = true ∧ empty.ft.leafCnt = 0 ∧ empty.bodyOff = empty.inLen) ∧
    (trailerReady tail = true ∧ tail.ft.leafCnt = 0 ∧ tail.bodyOff ≠ tail.inLen) ∧
    (trailerReady cut = true ∧ cut.ft.leafCnt ≠ 0 ∧ cut.inLen.toNat < cut.bodyOff.toNat + 2) ∧
    (trailerReady nine = true ∧ nine.ft.leafCnt ≠ 0 ∧ nine.bodyOff.toNat + 2 ≤ nine.inLen.toNat ∧
      8 < (nine.input (nine.inLen.toNat - 2)).toNat) ∧
    (trailerReady none = true ∧ none.ft.leafCnt ≠ 0 ∧ none.bodyOff.toNat + 2 = none.inLen.toNat ∧
      none.input (none.inLen.toNat - 2) = 0 ∧ (none.arena.nodeAt none.arena.root).kind ≠ .leaf) := by
  decide +kernel

/-- V-L1's codes. -/
def codeL1 (v : Byte) : List Bool :=
  if v = 0x61 then [false] else if v = 0x62 then [true, true] else [true, false]

/-- A code as a check. -/
def isCodeCheck (a : Arena) (bits : List Bool) (v : Byte) : Bool :=
  bits != [] && (a.nodeAt (a.follow a.root bits)).kind == .leaf
    && (a.nodeAt (a.follow a.root bits)).value == v
    && (List.range bits.length).all fun k => (a.nodeAt (a.follow a.root (bits.take k))).kind != .leaf

theorem isCode_of_isCodeCheck {a : Arena} {bits : List Bool} {v : Byte} (h : isCodeCheck a bits v = true) :
    a.IsCode bits v := by
  simp only [isCodeCheck, Bool.and_eq_true, List.all_eq_true, List.mem_range, beq_iff_eq, bne_iff_ne] at h
  exact ⟨h.1.1.1, h.1.1.2, h.1.2, h.2⟩

/-- What the decoding statements ask of a state whose body bits are the codes of `msg` and then `rest`. -/
def bodyReady (s : State) (msg : List Byte) (rest : List Bool) : Bool :=
  trailerReady s && s.ft.leafCnt != 0 && decide (s.bodyOff.toNat + 2 ≤ s.inLen.toNat)
    && decide (s.marker ≤ 8) && (s.bodyBits == msg.flatMap codeL1 ++ rest)
    && msg.all fun v => isCodeCheck s.arena (codeL1 v) v

/-- A region that the message fills exactly (V-D13). -/
theorem witness_DecodeFollowsTheTree :
    let s : State := { decodable with outCap := 6 }
    bodyReady s aaabbc [] = true ∧ aaabbc ≠ [] ∧ aaabbc.length = s.ft.total.toNat ∧
    s.outLen.toNat + aaabbc.length ≤ s.outCap.toNat := by decide +kernel

/-- V-D2b, V-D10, V-D12 and V-D7: one container for each clause; and V-D7's and V-D10's once more, the first
with too little room before its unfinished code, the second with less room than TOTAL. -/
theorem witness_DecodeChecksTheCountAndTheEnd :
    let ready := fun bs => after .build (after .parsehdr (fed (header ++ bs)))
    let few := ready [0x01, 0x00]
    let many := ready [0x00, 0x1F, 0x08, 0x00]
    let manyMsg : List Byte := List.replicate 11 0x61 ++ [0x62, 0x62, 0x63] ++ List.replicate 7 0x61
    let full : State := { decodable with outCap := 4 }
    let mid := ready [0x1F, 0x00, 0x00]
    let midMsg : List Byte := [0x61, 0x61, 0x61, 0x62, 0x62]
    (bodyReady few [0x61] [] = true ∧ 1 < few.ft.total.toNat ∧ few.outLen.toNat + 1 ≤ few.outCap.toNat) ∧
    (bodyReady many manyMsg [] = true ∧ many.ft.total.toNat < manyMsg.length ∧
      many.outLen.toNat + many.ft.total.toNat ≤ many.outCap.toNat) ∧
    (bodyReady full aaabbc [] = true ∧ full.outCap.toNat < full.outLen.toNat + full.ft.total.toNat ∧
      full.outCap.toNat < full.outLen.toNat + aaabbc.length) ∧
    (bodyReady { mid with outCap := 4 } midMsg [true] = true ∧ 4 < mid.outLen.toNat + mid.ft.total.toNat ∧
      4 < mid.outLen.toNat + midMsg.length) ∧
    (bodyReady { many with outCap := 5 } manyMsg [] = true ∧ many.ft.total.toNat < manyMsg.length ∧
      5 < many.outLen.toNat + many.ft.total.toNat) ∧
    (bodyReady mid midMsg [true] = true ∧ midMsg.length ≤ mid.ft.total.toNat ∧
      mid.outLen.toNat + midMsg.length ≤ mid.outCap.toNat ∧
      ∀ k, k < 2 →
        (mid.arena.nodeAt (mid.arena.follow mid.arena.root (([true] : List Bool).take k))).kind ≠ .leaf ∧
        mid.arena.follow mid.arena.root (([true] : List Bool).take k) ≠ Config.null) := by decide +kernel

/-- V-D19. -/
theorem witness_OneBitAtTheUnaryRootIsRejected :
    let s := unary
    s.arena = s.ft.buildTree.1 ∧
    s.work.abortReq = false ∧ s.status.treeValid = true ∧ s.status.hdrValid = true ∧ s.ft.leafCnt = 1 ∧
    s.inBase.toNat + s.inLen.toNat ≤ s.memSize ∧
    s.outBase.toNat + s.outCap.toNat ≤ s.memSize ∧ s.inBase.toNat + s.inLen.toNat ≤ s.outBase.toNat ∧
    s.bodyOff.toNat + 2 ≤ s.inLen.toNat ∧ s.marker ≤ 8 ∧ 2 < s.bodyBits.length ∧
    s.bodyBits.getD 2 false = true ∧ (∀ j, j < 2 → s.bodyBits.getD j false = false) ∧
    2 ≤ s.ft.total.toNat ∧ s.outLen.toNat + 2 ≤ s.outCap.toNat :=
  ⟨arena_ran_build rfl, by decide +kernel⟩

/-- V-D6: the seven padding bits of a final byte 0x00 become those of 0x7F. -/
theorem witness_PaddingBitsAreNotRead :
    let s := decodable
    s.bodyOff.toNat + 2 ≤ s.inLen.toNat ∧
    (∀ i, i < 8 → i < s.marker →
      (0x7F : Byte).getLsbD (7 - i) = (s.input (s.inLen.toNat - 1)).getLsbD (7 - i)) ∧
    exec .decode s = .next (ran .decode s) := ⟨by decide +kernel, by decide +kernel, rfl⟩

/-- A region that the container fills exactly (V-C11). -/
theorem witness_CompressWritesTheContainer :
    let s : State := { fed aaabbc with outCap := 22, outLen := 50 }
    s.work.abortReq = false ∧ s.inBase.toNat + s.inLen.toNat ≤ s.memSize ∧
    s.outBase.toNat + s.outCap.toNat ≤ s.memSize ∧ s.inBase.toNat + s.inLen.toNat ≤ s.outBase.toNat ∧
    (FreqTable.ofBytes s.inputBytes).containerLen
      ((FreqTable.ofBytes s.inputBytes).codebook.bitString s.inputBytes) ≤ s.outCap.toNat := by decide +kernel

theorem witness_CompressFailsOnlyWithBadRegionOrOverflow :
    let s := fed aaabbc
    s.work.abortReq = false ∧ s.status.err = false ∧ exec .compress s = .next (ran .compress s) :=
  ⟨by decide +kernel, by decide +kernel, rfl⟩

/-- V-L1 both ways; V-C13, which PARSEHDR rejects, and V-C14, which DECODE rejects. -/
theorem witness_PipelinesEqualTheirCommands :
    let s := fed aaabbc
    let c : State := { s with outLen := 0 }
    let r := fed container
    let d : State := { r with outLen := 0 }
    let twice := fed [0x00, 0x00, 0x00, 0x02, 0x61, 0x00, 0x00, 0x00, 0x01, 0x61, 0x00, 0x00, 0x00, 0x01, 0x00, 0x00]
    let tail := fed [0x00, 0x00, 0x00, 0x00, 0x33]
    (s.work.abortReq = false ∧ exec .count c = .next (ran .count c) ∧
      exec .build (ran .count c) = .next (ran .build (ran .count c)) ∧
      exec .gencode (ran .build (ran .count c)) = .next (ran .gencode (ran .build (ran .count c))) ∧
      (ran .encode (ran .wrhdr (ran .gencode (ran .build (ran .count c))))).status.err = false) ∧
    (r.work.abortReq = false ∧ exec .parsehdr d = .next (ran .parsehdr d) ∧
      exec .build (ran .parsehdr d) = .next (ran .build (ran .parsehdr d)) ∧
      (ran .decode (ran .build (ran .parsehdr d))).status.err = false) ∧
    (twice.work.abortReq = false ∧ twice.status.err = false ∧
      twice.inBase.toNat + twice.inLen.toNat ≤ twice.memSize ∧
      twice.outBase.toNat + twice.outCap.toNat ≤ twice.memSize ∧
      twice.inBase.toNat + twice.inLen.toNat ≤ twice.outBase.toNat ∧
      (ran .parsehdr { twice with outLen := 0 }).status.err = true) ∧
    tail.work.abortReq = false ∧ tail.status.err = false ∧
    tail.inBase.toNat + tail.inLen.toNat ≤ tail.memSize ∧
    tail.outBase.toNat + tail.outCap.toNat ≤ tail.memSize ∧
    tail.inBase.toNat + tail.inLen.toNat ≤ tail.outBase.toNat ∧
    (ran .parsehdr { tail with outLen := 0 }).status.err = false ∧
    (ran .decode (ran .build (ran .parsehdr { tail with outLen := 0 }))).status.err = true :=
  ⟨⟨by decide +kernel, rfl, rfl, rfl, by decide +kernel⟩, ⟨by decide +kernel, rfl, rfl, by decide +kernel⟩,
    by decide +kernel⟩

/-- V-L1's container, its table and its message, in a region that the message fills exactly. -/
theorem witness_DecompressWritesTheMessage :
    let s : State := { fed container with outCap := 6 }
    let bits := counted.ft.codebook.bitString aaabbc
    (s.work.abortReq = false ∧ s.inBase.toNat + s.inLen.toNat ≤ s.memSize ∧
      s.outBase.toNat + s.outCap.toNat ≤ s.memSize ∧ s.inBase.toNat + s.inLen.toNat ≤ s.outBase.toNat ∧
      (∀ v ∈ aaabbc, counted.ft.freqOf v ≠ 0) ∧ aaabbc.length = counted.ft.total.toNat ∧
      s.inLen.toNat = counted.ft.containerLen bits ∧ aaabbc.length ≤ s.outCap.toNat) ∧
    counted.ft.Wf ∧ HoldsContainer s.readBuf s.inBase.toNat counted.ft bits :=
  ⟨by decide +kernel, counted_wf, header_holds, fun _ =>
    ⟨by decide +kernel, by decide +kernel, by decide +kernel⟩⟩

/-- V-L1's round trip, both output regions filled exactly. -/
theorem witness_CodecRoundTrip :
    let s : State := { fed aaabbc with outCap := 22 }
    let t := ran .compress s
    let u : State := { State.reset with buf := t.buf, inBase := 0x80, inLen := 22, outCap := 6 }
    s.work.abortReq = false ∧ s.status.err = false ∧ s.inBase.toNat + s.inLen.toNat ≤ s.memSize ∧
    s.outBase.toNat + s.outCap.toNat ≤ s.memSize ∧ s.inBase.toNat + s.inLen.toNat ≤ s.outBase.toNat ∧
    (FreqTable.ofBytes s.inputBytes).containerLen
      ((FreqTable.ofBytes s.inputBytes).codebook.bitString s.inputBytes) ≤ s.outCap.toNat ∧
    u.work.abortReq = false ∧ u.status.err = false ∧ u.inLen = t.outLen ∧
    (∀ i, i < t.outLen.toNat → u.input i = t.readBuf (t.outBase.toNat + i)) ∧
    u.inBase.toNat + u.inLen.toNat ≤ u.memSize ∧ u.outBase.toNat + u.outCap.toNat ≤ u.memSize ∧
    u.outBase.toNat + u.outCap.toNat ≤ u.inBase.toNat ∧ s.inLen.toNat ≤ u.outCap.toNat := by decide +kernel

/-! ## Witnesses of the invariants -/

theorem witness_EveryStepKeepsTheTableInvariant :
    let s := accepted .parsehdr { fed container with ft := counted.ft }
    s.ft.Wf ∧ ∃ t, step s = .next t := ⟨counted_wf, _, rfl⟩

theorem witness_EveryStepKeepsBufInRange :
    let s := accepted .encode prepared
    s.BufWf ∧ ∃ t, step s = .next t :=
  ⟨⟨by decide +kernel, by decide +kernel, by decide +kernel, by decide +kernel⟩, _, rfl⟩

theorem witness_EveryStepKeepsTheReport :
    let s := accepted .decode State.reset
    s.ReportWf ∧ ∃ t, step s = .next t :=
  ⟨⟨by decide +kernel, by decide +kernel, by decide +kernel, by decide +kernel, by decide +kernel⟩, _, rfl⟩

theorem witness_EveryStepKeepsTheFlags :
    let s := accepted .gencode built
    s.FlagsWf ∧ ∃ t, step s = .next t := by
  have h : (accepted .gencode built).arena = (accepted .gencode built).ft.buildTree.1 := by
    rw [accepted, State.accept_arena, State.accept_ft]
    exact built_arena
  exact ⟨⟨fun _ => h, by decide +kernel, by decide +kernel, by decide +kernel⟩, _, rfl⟩

/-- An arena of two leaves under one INTERNAL node. -/
def twoLeaves : Arena :=
  { ((Arena.empty.setNode 0 (Node.mkLeaf 0x61 3)).setNode 1 (Node.mkLeaf 0x62 2)).setNode 2
      (Node.mkInternal 1 0 5) with root := 2, nodeCnt := 3 }

theorem nodeAt_twoLeaves (i : NodeIdx) :
    twoLeaves.nodeAt i =
      if i.toNat = 2 then Node.mkInternal 1 0 5
      else if i.toNat = 1 then Node.mkLeaf 0x62 2
      else if i.toNat = 0 then Node.mkLeaf 0x61 3
      else Node.empty := by
  change (((Arena.empty.setNode 0 _).setNode 1 _).setNode 2 _).nodeAt i = _
  simp [Arena.nodeAt_setNode]

theorem twoLeaves_shape : twoLeaves.Shape where
  fields i := by
    rw [nodeAt_twoLeaves]
    split
    · exact ⟨rfl, by change 1 < 3; decide, by change 0 < 3; decide, by decide,
        by rw [nodeAt_twoLeaves, nodeAt_twoLeaves]; decide⟩
    · split
      · exact ⟨rfl, rfl⟩
      · split
        · exact ⟨rfl, rfl⟩
        · exact rfl
  nonEmpty i := by
    change i.toNat < 3 ↔ _
    rw [nodeAt_twoLeaves]
    split_ifs <;> simp [Node.mkInternal, Node.mkLeaf, Node.empty] <;> omega
  unaryRoot i := by
    rw [nodeAt_twoLeaves]
    split_ifs <;> simp [Node.mkInternal, Node.mkLeaf, Node.empty]
  root := .inl (by change 2 < 3; decide)

/-- BUILD about to build the tree of V-L1, over that arena, whose leaves have V-L1's frequencies. -/
theorem witness_EveryStepKeepsTheArenaShape :
    let s := accepted .build { built with arena := twoLeaves }
    s.ft.Wf ∧ s.ArenaWf ∧ s.status.treeValid = true ∧ ∃ t, step s = .next t := by
  refine ⟨counted_wf, ⟨twoLeaves_shape, fun _ i => ?_⟩, by decide +kernel, _, rfl⟩
  change (twoLeaves.nodeAt i).kind = .leaf →
    (twoLeaves.nodeAt i).freq = (counted.ft.freqOf (twoLeaves.nodeAt i).value).zeroExtend 40
  rw [nodeAt_twoLeaves]
  split_ifs
  · exact fun h => nomatch h
  · exact fun _ => by decide +kernel
  · exact fun _ => by decide +kernel
  · exact fun h => nomatch h

theorem witness_ResetMeetsTheInvariants : 8 ≤ Config.defaultMemSize ∧ Config.defaultMemSize ≤ 2 ^ 32 := by
  decide

end Sys2Proof.Tests
end

