-- ==== Sys2Proof/Proofs/TableInvariant.lean ====
section
/-! PROOFS. The frequency-table invariant (`10_state.md` R41): what one write of FREQ does to the two numbers it
counts, the operations on a table that keep it, and the commands and host operations built from those. -/

namespace Sys2Proof.Machine

/-! ## One write of FREQ -/

/-- FREQ as a list splits at `v`: its entry there and the 255 others, which a write of FREQ[v] leaves alone. -/
theorem FreqTable.exists_freq_perm (t : FreqTable) (v : Byte) (f : Word) :
    ∃ rest : List Word, rest.length = 255 ∧ t.freq.toList.Perm (t.freqOf v :: rest) ∧
      (t.setFreq v f).freq.toList.Perm (f :: rest) := by
  have hv : v.toNat < t.freq.toList.length := by simpa using v.isLt
  refine ⟨t.freq.toList.eraseIdx v.toNat, ?_, ?_, ?_⟩
  · simp [List.length_eraseIdx_of_lt hv]
  · simpa [FreqTable.freqOf] using (List.getElem_cons_eraseIdx_perm hv).symm
  · rw [FreqTable.setFreq, Vector.toList_set]
    exact List.set_perm_cons_eraseIdx hv f

theorem FreqTable.sum_setFreq (t : FreqTable) (v : Byte) (f : Word) :
    (t.setFreq v f).sum + (t.freqOf v).toNat = t.sum + f.toNat := by
  obtain ⟨rest, -, hold, hnew⟩ := t.exists_freq_perm v f
  have h := (hold.map BitVec.toNat).sum_nat
  have h' := (hnew.map BitVec.toNat).sum_nat
  simp only [List.map_cons, List.sum_cons] at h h'
  rw [FreqTable.sum, FreqTable.sum]
  omega

theorem FreqTable.present_setFreq (t : FreqTable) (v : Byte) (f : Word) :
    (t.setFreq v f).present + (if t.freqOf v = 0 then 0 else 1) = t.present + (if f = 0 then 0 else 1) := by
  obtain ⟨rest, -, hold, hnew⟩ := t.exists_freq_perm v f
  simp only [FreqTable.present, hold.countP_eq, hnew.countP_eq, List.countP_cons, bne_iff_ne, ite_not]
  omega

theorem FreqTable.present_lt_of_absent {t : FreqTable} {v : Byte} (hv : t.freqOf v = 0) : t.present < 256 := by
  obtain ⟨rest, hlen, hold, -⟩ := t.exists_freq_perm v 0
  rw [FreqTable.present, hold.countP_eq, hv, List.countP_cons_of_neg (by simp)]
  exact Nat.lt_succ_of_le (hlen ▸ List.countP_le_length)

/-- The sum of the frequencies fits TOTAL's 40 bits (`00_scope.md` R11). -/
theorem FreqTable.sum_lt (t : FreqTable) : t.sum < 2 ^ 40 := by
  have h : t.sum ≤ (t.freq.toList.map BitVec.toNat).length • (2 ^ 32 - 1) :=
    List.sum_le_card_nsmul _ _ fun n hn => by
      obtain ⟨f, -, rfl⟩ := List.mem_map.mp hn
      exact Nat.le_pred_of_lt f.isLt
  simp only [List.length_map, Vector.length_toList, smul_eq_mul] at h
  omega

theorem FreqTable.freqOf_le_sum (t : FreqTable) (v : Byte) : (t.freqOf v).toNat ≤ t.sum := by
  have h : (t.setFreq v 0).sum + (t.freqOf v).toNat = t.sum := t.sum_setFreq v 0
  omega

/-! ## The operations on a table -/

theorem FreqTable.wf_empty : FreqTable.empty.Wf where
  leafCnt := by
    rw [FreqTable.present, FreqTable.empty, Vector.toList_replicate, List.countP_replicate]
    rfl
  distinct j k _ hk := absurd hk (by simp)
  listed k hk := absurd hk (by simp)
  unused k _ _ := FreqTable.orderAt_empty k
  total := by
    rw [FreqTable.sum, FreqTable.empty, Vector.toList_replicate, List.map_replicate, List.sum_replicate]
    rfl

/-- An absent value leaves a place in the table. -/
theorem FreqTable.Wf.leafCnt_lt_of_absent {t : FreqTable} (h : t.Wf) {v : Byte} (hv : t.freqOf v = 0) :
    t.leafCnt.toNat < 256 := h.leafCnt ▸ FreqTable.present_lt_of_absent hv

/-- A listed value is not an absent one. -/
theorem FreqTable.Wf.orderAt_ne_of_absent {t : FreqTable} (h : t.Wf) {v : Byte} (hv : t.freqOf v = 0) {k : Nat}
    (hk : k < t.leafCnt.toNat) : t.orderAt k ≠ v := fun he => h.listed k hk (he ▸ hv)

theorem FreqTable.Wf.toNat_leafCnt_append {t : FreqTable} (h : t.Wf) {v : Byte} (hv : t.freqOf v = 0)
    (f : Word) : (t.append v f).leafCnt.toNat = t.leafCnt.toNat + 1 := by
  have := h.leafCnt_lt_of_absent hv
  exact BitVec.toNat_add_of_lt (show t.leafCnt.toNat + 1 < 2 ^ 9 by omega)

/-- Appending a nonzero frequency of an absent value keeps the invariant (`40_frequency_tree.md` R152). -/
theorem FreqTable.Wf.append {t : FreqTable} (h : t.Wf) {v : Byte} {f : Word} (hv : t.freqOf v = 0)
    (hf : f ≠ 0) : (t.append v f).Wf := by
  have hroom := h.leafCnt_lt_of_absent hv
  have hcnt := h.toNat_leafCnt_append hv f
  have hnew : (t.append v f).orderAt t.leafCnt.toNat = v := by
    rw [FreqTable.orderAt_append, if_pos ⟨rfl, hroom⟩]
  have hold : ∀ k, k ≠ t.leafCnt.toNat → (t.append v f).orderAt k = t.orderAt k := fun k hk => by
    rw [FreqTable.orderAt_append, if_neg fun hc => hk hc.1]
  constructor
  case leafCnt =>
    have hpres := FreqTable.present_setFreq (t.enter v) v f
    rw [FreqTable.freqOf_enter, if_pos hv, if_neg hf] at hpres
    rw [hcnt, h.leafCnt]
    exact hpres.symm
  case distinct =>
    intro j k hjk hk
    rw [hold j (by omega)]
    rcases Nat.lt_succ_iff_lt_or_eq.mp (hcnt ▸ hk) with hk' | rfl
    · rw [hold k (by omega)]
      exact h.distinct j k hjk hk'
    · rw [hnew]
      exact h.orderAt_ne_of_absent hv hjk
  case listed =>
    intro k hk
    rcases Nat.lt_succ_iff_lt_or_eq.mp (hcnt ▸ hk) with hk' | rfl
    · rw [hold k (by omega), FreqTable.freqOf_append, if_neg (h.orderAt_ne_of_absent hv hk')]
      exact h.listed k hk'
    · rw [hnew, FreqTable.freqOf_append, if_pos rfl]
      exact hf
  case unused =>
    intro k hk hk'
    rw [hold k (by omega)]
    exact h.unused k (by omega) hk'
  case total =>
    have hsum : (t.append v f).sum + (t.freqOf v).toNat = t.sum + f.toNat :=
      FreqTable.sum_setFreq (t.enter v) v f
    have hlt := (t.append v f).sum_lt
    have hz : (t.freqOf v).toNat = 0 := by rw [hv]; rfl
    rw [FreqTable.total_append, BitVec.toNat_add, h.total,
      show (f.zeroExtend 40).toNat = f.toNat from BitVec.toNat_setWidth_of_le (by decide)]
    omega

/-- A new nonzero frequency of a present value keeps the invariant, with TOTAL changed by as much. -/
theorem FreqTable.Wf.setFreq_of_present {t : FreqTable} (h : t.Wf) {v : Byte} {f : Word} {n : Freq40}
    (hv : t.freqOf v ≠ 0) (hf : f ≠ 0) (hn : n.toNat + (t.freqOf v).toNat = t.total.toNat + f.toNat) :
    FreqTable.Wf { t.setFreq v f with total := n } where
  leafCnt := by
    have hpres := t.present_setFreq v f
    rw [if_neg hv, if_neg hf] at hpres
    exact h.leafCnt.trans (Nat.add_right_cancel hpres).symm
  distinct := h.distinct
  listed k hk := by
    change (t.setFreq v f).freqOf (t.orderAt k) ≠ 0
    rw [FreqTable.freqOf_setFreq]
    split
    · exact hf
    · exact h.listed k hk
  unused := h.unused
  total := by
    have hsum := t.sum_setFreq v f
    have ht := h.total
    change n.toNat = (t.setFreq v f).sum
    omega

/-- Counting one more byte keeps the invariant while the frequencies have room, TOTAL growing by one
(`40_frequency_tree.md` R153). -/
theorem FreqTable.Wf.countByte {t : FreqTable} (h : t.Wf) (b : Byte) (hroom : t.total.toNat + 1 < 2 ^ 32) :
    FreqTable.Wf { t.countByte b with total := t.total + 1 } := by
  by_cases hb : t.freqOf b = 0
  · have he : { t.countByte b with total := t.total + 1 } = t.append b 1 := by
      simp [FreqTable.countByte, FreqTable.append, hb]
    exact he ▸ h.append hb (by decide)
  · have he : t.countByte b = t.setFreq b (t.freqOf b + 1) := by
      simp only [FreqTable.countByte, if_neg hb]
    have hle := h.total ▸ t.freqOf_le_sum b
    have hf : (t.freqOf b + 1).toNat = (t.freqOf b).toNat + 1 :=
      BitVec.toNat_add_of_lt (show (t.freqOf b).toNat + 1 < 2 ^ 32 by omega)
    have hn : (t.total + 1).toNat = t.total.toNat + 1 :=
      BitVec.toNat_add_of_lt (show t.total.toNat + 1 < 2 ^ 40 by omega)
    have hne : t.freqOf b + 1 ≠ 0 := fun hz => by
      rw [hz] at hf
      exact absurd hf (Nat.succ_ne_zero _).symm
    rw [he]
    exact h.setFreq_of_present hb hne (by omega)

/-- Counting a byte does not depend on TOTAL. -/
theorem FreqTable.countByte_with_total (t : FreqTable) (n : Freq40) (b : Byte) :
    FreqTable.countByte { t with total := n } b = { t.countByte b with total := n } := by
  by_cases hb : t.freqOf b = 0
  · have hb' : FreqTable.freqOf { t with total := n } b = 0 := hb
    simp only [FreqTable.countByte, if_pos hb, if_pos hb']
    rfl
  · have hb' : FreqTable.freqOf { t with total := n } b ≠ 0 := hb
    simp only [FreqTable.countByte, if_neg hb, if_neg hb']
    rfl

theorem FreqTable.ofBytes_concat (bs : List Byte) (b : Byte) :
    FreqTable.ofBytes (bs ++ [b])
      = { (FreqTable.ofBytes bs).countByte b with total := (FreqTable.ofBytes bs).total + 1 } := by
  simp [FreqTable.ofBytes, FreqTable.countByte_with_total, BitVec.ofNat_add]

/-- Every input shorter than 2^32 bytes makes a table that meets the invariant: no frequency overflows
(`40_frequency_tree.md` R153). -/
theorem FreqTable.wf_ofBytes (bs : List Byte) (hlen : bs.length < 2 ^ 32) : (FreqTable.ofBytes bs).Wf := by
  induction bs using List.reverseRecOn with
  | nil => exact FreqTable.wf_empty
  | append_singleton bs b ih =>
    rw [List.length_append, List.length_singleton] at hlen
    have htotal : (FreqTable.ofBytes bs).total.toNat = bs.length := by
      simp [FreqTable.ofBytes]; omega
    rw [FreqTable.ofBytes_concat]
    exact (ih (by omega)).countByte b (by omega)

/-! ## The commands that only write output -/

/-- `t` is `s` but for BUF, OUT_LEN and the busy-only state: all that the pseudocode of WRHDR, ENCODE and
DECODE writes. -/
def State.OutputStep (s t : State) : Prop :=
  ∃ m n w, t = { s with buf := m, outLen := n, work := w }

theorem State.OutputStep.refl (s : State) : s.OutputStep s := ⟨s.buf, s.outLen, s.work, rfl⟩

theorem State.OutputStep.trans {s t u : State} (h : s.OutputStep t) (h' : t.OutputStep u) :
    s.OutputStep u := by
  obtain ⟨_, _, _, rfl⟩ := h
  obtain ⟨m, n, w, rfl⟩ := h'
  exact ⟨m, n, w, rfl⟩

/-- A change of the busy-only state alone. -/
theorem State.OutputStep.work (s : State) (w : Work) : s.OutputStep { s with work := w } :=
  ⟨s.buf, s.outLen, w, rfl⟩

theorem State.OutputStep.ft_eq {s t : State} (h : s.OutputStep t) : t.ft = s.ft := by
  obtain ⟨_, _, _, rfl⟩ := h
  rfl

theorem State.OutputStep.andThen {s : State} {r : Run} {f : State → Run} (hr : s.OutputStep r.reached)
    (hf : ∀ u : State, u.OutputStep (f u).reached) : s.OutputStep (r.andThen f).reached :=
  Run.reached_andThen hr fun u hu => hu.trans (hf u)

theorem out_outputStep (b : Byte) (s : State) : s.OutputStep (out b s).reached := by
  by_cases hf : s.outLen = s.outCap
  · rw [out_of_full b hf]; exact .refl s
  · rw [out_of_room b hf]; exact ⟨_, _, _, rfl⟩

theorem outAll_outputStep (bs : List Byte) (s : State) : s.OutputStep (outAll bs s).reached := by
  induction bs generalizing s with
  | nil => exact .refl s
  | cons b bs ih => exact (out_outputStep b s).andThen ih

theorem wrhdrPhase_outputStep (s : State) : s.OutputStep (wrhdrPhase s).reached := outAll_outputStep _ s

theorem packBit_outputStep (b : Bool) (s : State) : s.OutputStep (packBit b s).reached := by
  rw [packBit]
  split
  · exact (State.OutputStep.work s _).trans ((out_outputStep _ _).andThen fun u => .work u _)
  · exact .work s _

theorem packBits_outputStep (bs : List Bool) (s : State) : s.OutputStep (packBits bs s).reached := by
  induction bs generalizing s with
  | nil => exact .refl s
  | cons b bs ih => exact (packBit_outputStep b s).andThen ih

theorem encodeByte_outputStep (i : Nat) (b : Byte) (s : State) :
    s.OutputStep (encodeByte i b s).reached := by
  rw [encodeByte]
  split
  · exact .refl s
  · exact packBits_outputStep _ s

theorem encodeBytes_outputStep (i : Nat) (bs : List Byte) (s : State) :
    s.OutputStep (encodeBytes i bs s).reached := by
  induction bs generalizing i s with
  | nil => exact .refl s
  | cons b bs ih => exact (encodeByte_outputStep i b s).andThen (ih (i + 1))

theorem writeTrailer_outputStep (s : State) : s.OutputStep (writeTrailer s).reached := by
  rw [writeTrailer]
  split
  · exact .refl s
  · exact (out_outputStep _ s).andThen fun u => out_outputStep _ u

theorem encodePhase_outputStep (s : State) : s.OutputStep (encodePhase s).reached :=
  (State.OutputStep.work s _).trans (encodeBytes_outputStep 0 _ _) |>.andThen writeTrailer_outputStep

theorem emit_outputStep (v : Byte) (p : Word) (s : State) : s.OutputStep (emit v p s).reached := by
  rw [emit]
  split
  · exact .refl s
  · exact (out_outputStep v s).andThen fun u => .work u _

theorem detectLeaf_outputStep (p : Word) (s : State) : s.OutputStep (detectLeaf p s).reached := by
  rw [detectLeaf]
  split
  · exact (emit_outputStep _ p s).andThen fun u => .work u _
  · exact .refl s

theorem descend_outputStep (b : Bool) (p : Word) (s : State) : s.OutputStep (descend b p s).reached := by
  rw [descend]
  generalize (if b then s.cursor.right else s.cursor.left) = nxt
  split
  · exact .refl s
  · exact .work s _

theorem decodeBit_outputStep (r : Nat) (s : State) : s.OutputStep (decodeBit r s).reached :=
  (detectLeaf_outputStep _ s).andThen fun u => (descend_outputStep _ _ u).andThen fun x => .work x _

theorem endDecode_outputStep (s : State) : s.OutputStep (endDecode s).reached := by
  rw [endDecode]
  split
  · refine (emit_outputStep _ _ s).andThen fun u => ?_
    split <;> exact .refl u
  · exact .refl s

theorem decodePhase_outputStep (s : State) : s.OutputStep (decodePhase s).reached := by
  rw [decodePhase]
  split
  · split <;> exact .refl s
  · split
    · exact .refl s
    · split
      · exact .refl s
      · refine .andThen ?_ endDecode_outputStep
        exact Run.reached_repeat (P := s.OutputStep) (fun u hu => hu.trans (decodeBit_outputStep _ u)) _
          (.work s _)

/-! ## The commands' pseudocode -/

/-- The pseudocode `body` keeps the frequency-table invariant, however it ends. -/
def KeepsTable (body : State → Run) : Prop := ∀ s : State, s.ft.Wf → (body s).reached.ft.Wf

theorem KeepsTable.of_ft_eq {body : State → Run} (h : ∀ s, (body s).reached.ft = s.ft) : KeepsTable body :=
  fun s hs => (h s).symm ▸ hs

theorem KeepsTable.raised (e : ErrCode) (pos : Word) : KeepsTable (Run.raised e pos) := .of_ft_eq fun _ => rfl

theorem KeepsTable.of_outputStep {body : State → Run} (h : ∀ s : State, s.OutputStep (body s).reached) :
    KeepsTable body := .of_ft_eq fun s => (h s).ft_eq

theorem KeepsTable.andThen {f g : State → Run} (hf : KeepsTable f) (hg : KeepsTable g) :
    KeepsTable fun s => (f s).andThen g := fun s hs => Run.reached_andThen (hf s hs) hg

/-- A check before the pseudocode `body`: it runs only when the check passes. -/
theorem KeepsTable.checked {body : State → Run} (h : KeepsTable body) (c : State → Bool) (e : ErrCode) :
    KeepsTable fun s => if c s then body s else .raised e 0 s := fun s hs => by
  dsimp only
  split
  · exact h s hs
  · exact hs

/-- Pseudocode that begins with an update of the state that leaves the table alone. -/
theorem KeepsTable.after {body : State → Run} (h : KeepsTable body) {g : State → State}
    (hg : ∀ s, (g s).ft = s.ft) : KeepsTable fun s => body (g s) := fun s hs => h _ ((hg s).symm ▸ hs)

/-- A phase of COMPRESS or DECOMPRESS, begun by naming it in PHASE. -/
theorem KeepsTable.inPhase {phase : State → Run} (h : KeepsTable phase) (p : Phase) :
    KeepsTable fun s => phase (s.enterPhase p) := h.after fun s => s.enterPhase_ft p

theorem ftclrBody_keepsTable : KeepsTable ftclrBody := fun _ _ => FreqTable.wf_empty

theorem ftaddBody_keepsTable (v : Byte) : KeepsTable (ftaddBody v) := fun s hs => by
  rw [ftaddBody]
  split
  · exact hs
  · next harg =>
    split
    · exact hs
    · next hv => exact hs.append (not_not.mp hv) harg

theorem countPhase_keepsTable : KeepsTable countPhase := fun s _ =>
  FreqTable.wf_ofBytes s.inputBytes (s.length_inputBytes ▸ s.inLen.isLt)

theorem failHeader_wf (e : ErrCode) (pos : Word) (s : State) : (failHeader e pos s).reached.ft.Wf :=
  FreqTable.wf_empty

theorem parseRecord_keepsTable (k : Nat) : KeepsTable (parseRecord k) := fun s hs => by
  rw [parseRecord]
  split
  · exact failHeader_wf _ _ s
  · next hf =>
    split
    · exact failHeader_wf _ _ s
    · next hv => exact hs.append (not_not.mp hv) hf

theorem parseRecords_keepsTable (n : Nat) : KeepsTable (parseRecords n) := by
  induction n with
  | zero => exact .of_ft_eq fun _ => rfl
  | succ n ih => exact ih.andThen (parseRecord_keepsTable n)

theorem parseLeaves_keepsTable : KeepsTable parseLeaves := fun s hs => by
  rw [parseLeaves]
  split
  · exact failHeader_wf _ _ s
  · dsimp only
    split
    · exact failHeader_wf _ _ s
    · split
      · exact failHeader_wf _ _ s
      · exact (parseRecords_keepsTable _).andThen (.of_ft_eq fun _ => rfl) s hs

theorem parsehdrPhase_keepsTable : KeepsTable parsehdrPhase := fun _ _ =>
  parseLeaves_keepsTable _ FreqTable.wf_empty

theorem buildPhase_keepsTable : KeepsTable buildPhase := .of_ft_eq fun _ => rfl

theorem gencodePhase_keepsTable : KeepsTable gencodePhase := .of_ft_eq fun _ => rfl

theorem wrhdrPhase_keepsTable : KeepsTable wrhdrPhase := .of_outputStep wrhdrPhase_outputStep

theorem encodePhase_keepsTable : KeepsTable encodePhase := .of_outputStep encodePhase_outputStep

theorem decodePhase_keepsTable : KeepsTable decodePhase := .of_outputStep decodePhase_outputStep

theorem compressPhases_keepsTable : KeepsTable compressPhases :=
  (countPhase_keepsTable.inPhase .count).andThen <|
  (buildPhase_keepsTable.inPhase .build).andThen <|
  (gencodePhase_keepsTable.inPhase .gencode).andThen <|
  (wrhdrPhase_keepsTable.inPhase .wrhdr).andThen <|
  encodePhase_keepsTable.inPhase .encode

theorem decompressPhases_keepsTable : KeepsTable decompressPhases :=
  (parsehdrPhase_keepsTable.inPhase .parsehdr).andThen <|
  (buildPhase_keepsTable.inPhase .build).andThen <|
  decodePhase_keepsTable.inPhase .decode

/-- ENCODE's and DECODE's shape: a SEQUENCE check, then a region check, then the phase. -/
theorem KeepsTable.sequenced {phase : State → Run} (h : KeepsTable phase) (c d : State → Bool) :
    KeepsTable fun s =>
      if c s then if d s then phase s.startOutput else .raised .badRegion 0 s
      else .raised .sequence 0 s :=
  ((h.after State.startOutput_ft).checked d .badRegion).checked c .sequence

/-! ## Completion, cancellation and the step -/

@[simp] theorem Run.settle_ft (w : Bool) (r : Run) : (r.settle w).ft = r.reached.ft := by
  rcases Run.settle_cases w r with ⟨s, rfl, h⟩ | ⟨e, pos, s, rfl, -, -, h⟩ | ⟨e, pos, s, rfl, -, h⟩ <;>
    simp [h]

/-- A cancellation clears the table, or leaves it alone (`45_control.md` R306). -/
theorem State.cancel_ft (ws : WriteSet) (s : State) :
    (s.cancel ws).ft = if ws.table then FreqTable.empty else s.ft := by
  simp only [State.cancel, State.clearWriteSet, State.report_ft, apply_ite State.ft, State.discardOutput_ft,
    State.clearCodebook_ft, State.clearArena_ft, State.clearTable_ft, ite_self]

theorem KeepsTable.runCommand {body : State → Run} (h : KeepsTable body) (ws : WriteSet) {s : State}
    (hs : s.ft.Wf) : (runCommand ws body s).ft.Wf := by
  obtain ⟨d, hd | ⟨-, hd⟩⟩ := runCommand_cases ws body s
  · rw [hd, Run.settle_ft]
    exact h _ hs
  · rw [hd, State.cancel_ft]
    split
    · exact FreqTable.wf_empty
    · exact hs

/-- Every command keeps the frequency-table invariant. -/
theorem exec_keepsTable {i : Instr} {s t : State} (hs : s.ft.Wf) (h : exec i s = .next t) : t.ft.Wf := by
  cases i <;> injection h with h <;> subst h
  case nop => exact hs
  case reset => exact FreqTable.wf_empty
  case ftclr => exact ftclrBody_keepsTable.runCommand _ hs
  case ftadd v => exact (ftaddBody_keepsTable v).runCommand _ hs
  case count => exact (countPhase_keepsTable.checked State.inOk .badRegion).runCommand _ hs
  case parsehdr => exact (parsehdrPhase_keepsTable.checked State.inOk .badRegion).runCommand _ hs
  case build => exact buildPhase_keepsTable.runCommand _ hs
  case gencode => exact (gencodePhase_keepsTable.checked _ .sequence).runCommand _ hs
  case wrhdr =>
    exact ((wrhdrPhase_keepsTable.after State.startOutput_ft).checked State.outOk .badRegion).runCommand _ hs
  case encode => exact (encodePhase_keepsTable.sequenced _ _).runCommand _ hs
  case decode => exact (decodePhase_keepsTable.sequenced _ _).runCommand _ hs
  case compress =>
    exact ((compressPhases_keepsTable.after State.restartOutput_ft).checked _ .badRegion).runCommand _ hs
  case decompress =>
    exact ((decompressPhases_keepsTable.after State.restartOutput_ft).checked _ .badRegion).runCommand _ hs

theorem coreStep_keepsTable {s t : State} (hs : s.ft.Wf) (h : coreStep s = .next t) : t.ft.Wf := by
  rcases coreStep_cases h with ⟨i, -, hi⟩ | ⟨e, -, rfl⟩
  · exact exec_keepsTable hs hi
  · exact (KeepsTable.raised .badCommand 0).runCommand _ hs

theorem State.whileIdle_ft {s s' : State} (h : s'.ft = s.ft) : (s.whileIdle s').ft = s.ft := by
  rcases State.whileIdle_cases s s' with ⟨-, hw⟩ | ⟨-, hw⟩ <;> simp [hw, h]

/-- No register write reaches the frequency table: its registers are read-only (`10_state.md` R40). -/
theorem State.writeReg_ft (r : Reg) (v : Word) (s : State) : (s.writeReg r v).ft = s.ft := by
  cases r
  case cmd | arg | inBase | inLen | outBase | outCap | outLen => exact State.whileIdle_ft rfl
  all_goals rfl

/-- A host operation leaves the table alone, but for hardware reset, which empties it. -/
theorem hostOp_ft_cases (op : HostOp) (s : State) :
    (hostOp op s).ft = s.ft ∨ (hostOp op s).ft = FreqTable.empty := by
  cases op with
  | regWrite off width v =>
    left
    change (hostRegWrite off width v s).ft = s.ft
    rw [hostRegWrite]
    split
    · rfl
    · exact State.writeReg_ft _ v s
  | regRead off width =>
    left
    change (hostRegRead off width s).ft = s.ft
    rcases hostRegRead_cases off width s with ⟨v, h⟩ | ⟨v, h⟩ <;> simp [h]
  | bufWrite a b =>
    left
    change (hostBufWrite a b s).ft = s.ft
    rcases hostBufWrite_cases a b s with h | ⟨-, h⟩ | ⟨-, -, h⟩ <;> simp [h]
  | bufRead a =>
    left
    change (hostBufRead a s).ft = s.ft
    rcases hostBufRead_cases a s with ⟨v, h⟩ | ⟨v, h⟩ <;> simp [h]
  | wait =>
    left
    change (hostWait s).ft = s.ft
    rw [hostWait]
    split <;> rfl
  | hardReset => exact .inr rfl

theorem hostStep_keepsTable {s : State} (hs : s.ft.Wf) : (hostStep s).ft.Wf := by
  rcases hostStep_cases s with ⟨-, h⟩ | ⟨op, rest, -, h⟩ <;> rw [h]
  · exact hs
  · rcases hostOp_ft_cases op { s with host := rest } with ho | ho <;> rw [ho]
    · exact hs
    · exact FreqTable.wf_empty

/-- Settles O55: a step is the HOST's, which leaves the table alone or resets it, or the CORE's, whose command
appends absent values with nonzero frequencies, counts an input too short to overflow, or empties the table. -/
theorem everyStepKeepsTheTableInvariant : Obligations.EveryStepKeepsTheTableInvariant := by
  intro s t hs h
  obtain ⟨ts, hturn⟩ := s.takeTurn_eq
  have hs' : s.takeTurn.ft.Wf := by rw [hturn]; exact hs
  rcases step_cases h with ⟨-, rfl⟩ | ⟨-, -, hcore⟩
  · exact hostStep_keepsTable hs'
  · exact coreStep_keepsTable hs' hcore

end Sys2Proof.Machine
end

