-- ==== Sys2Proof/Proofs/MemoryAccess.lean ====
section
/-! PROOFS. Accesses to BUF (`20_memory.md` R86, R89): the HOST's bytes on both sides of MEM_SIZE, and the region
check before a command's first access. -/

namespace Sys2Proof.Machine

section
variable {s : State}

/-! ## Host accesses -/

theorem hostBufWrite_of_inRange {a : Nat} (b : Byte) (hidle : s.status.busy = false) (ha : a < s.memSize) :
    hostBufWrite a b s = s.writeBuf a b := by
  simp [hostBufWrite, State.whileIdle, hidle, ha]

theorem hostBufWrite_of_pastEnd {a : Nat} (b : Byte) (hidle : s.status.busy = false) (ha : s.memSize ≤ a) :
    hostBufWrite a b s = s := by
  simp [hostBufWrite, State.whileIdle, hidle, Nat.not_lt.mpr ha]

theorem hostBufRead_of_inRange {a : Nat} (hidle : s.status.busy = false) (ha : a < s.memSize) :
    hostBufRead a s = s.returnData ((s.readBuf a).zeroExtend 32) := by
  simp [hostBufRead, hidle, ha]

theorem hostBufRead_of_pastEnd {a : Nat} (ha : s.memSize ≤ a) : hostBufRead a s = s.returnData 0 :=
  if_neg (Nat.not_lt.mpr ha)

/-! ## Failed region checks -/

theorem State.inOk_eq_false (h : s.memSize < s.inBase.toNat + s.inLen.toNat) : s.inOk = false :=
  decide_eq_false (Nat.not_le.mpr h)

theorem State.outFits_eq_false (h : s.memSize < s.outBase.toNat + s.outCap.toNat) : s.outFits = false :=
  decide_eq_false (Nat.not_le.mpr h)

theorem State.outOk_eq_false
    (h : s.memSize < s.outBase.toNat + s.outCap.toNat ∨ s.outCap.toNat < s.outLen.toNat) : s.outOk = false := by
  rw [Bool.eq_false_iff, ne_eq, State.outOk_iff]
  omega

theorem State.disjoint_eq_false (hin : s.inLen ≠ 0) (hout : s.outCap ≠ 0)
    (hlo : s.outBase.toNat < s.inBase.toNat + s.inLen.toNat)
    (hhi : s.inBase.toNat < s.outBase.toNat + s.outCap.toNat) : s.disjoint = false := by
  rw [Bool.eq_false_iff, ne_eq, State.disjoint_iff]
  rintro (h | h | h | h)
  · exact hin h
  · exact hout h
  · omega
  · omega

end

/-- BAD_REGION discards no output (`60_exceptions.md` R336): error completion is the report alone. -/
theorem settle_badRegion (w : Bool) (s : State) :
    (Run.raised .badRegion 0 s).settle w = s.report .badRegion 0 := by
  rw [Run.settle_raised, ErrCode.discards, Bool.and_false, if_neg Bool.false_ne_true]

/-- The command ends as `20_memory.md` R89 has a failed region check end. -/
def State.FailsRegionCheck (s : State) (i : Instr) : Prop := ∃ w : Work, w.Gone ∧
  exec i s = .next { s with errCode := 0x0B, errPos := 0, status := s.status.failed, work := w }

/-- So ends a command whose pseudocode raises BAD_REGION(0) at once. -/
theorem State.FailsRegionCheck.of_raised {s : State} {i : Instr} {w : Bool} {r : Run}
    (hexec : exec i s = .next (r.settle w))
    (hr : r = .raised .badRegion 0 s) : s.FailsRegionCheck i :=
  ⟨Work.idle, ⟨rfl, rfl⟩, by rw [hexec, hr, settle_badRegion]; rfl⟩

/-! ## The obligations -/

/-- Settles O13: below MEM_SIZE an idle access is the plain store or the plain read, and past the end it is none. -/
theorem hostBufAccessesReachOneByte : Obligations.HostBufAccessesReachOneByte := by
  refine ⟨fun s a b hidle ha => ?_, fun s a hidle ha => hostBufRead_of_inRange hidle ha,
    fun s a b ha => ⟨hostBufRead_of_pastEnd ha, fun hidle => hostBufWrite_of_pastEnd b hidle ha⟩⟩
  have hwrite : hostOp (.bufWrite a b) s = s.writeBuf a b := hostBufWrite_of_inRange b hidle ha
  rw [hwrite]
  exact ⟨rfl, s.readBuf_writeBuf_self a b, fun c hc => s.readBuf_writeBuf_ne a b hc⟩

/-- Settles O24: each failing condition makes its conjunct of the check false, and the check stands before
everything else that the command does. -/
theorem failedRegionCheckRaisesBadRegion : Obligations.FailedRegionCheckRaisesBadRegion := by
  intro s hreq fails inBad outBad overlap full
  have hdis : overlap → s.disjoint = false := fun ⟨hin, hout, hlo, hhi⟩ =>
    State.disjoint_eq_false hin hout hlo hhi
  have hchecked : inBad ∨ outBad ∨ full ∨ overlap → (s.inOk && s.outOk && s.disjoint) = false := by
    rintro (h | h | h | h)
    · rw [State.inOk_eq_false h]; rfl
    · rw [State.outOk_eq_false (.inl h), Bool.and_false]; rfl
    · rw [State.outOk_eq_false (.inr h), Bool.and_false]; rfl
    · rw [hdis h, Bool.and_false]
  have hpipeline : inBad ∨ outBad ∨ overlap → (s.inOk && s.outFits && s.disjoint) = false := by
    rintro (h | h | h)
    · rw [State.inOk_eq_false h]; rfl
    · rw [State.outFits_eq_false h, Bool.and_false]; rfl
    · rw [hdis h, Bool.and_false]
  refine ⟨fun h => ⟨?_, ?_⟩, fun h => ?_, fun hcb h => ?_, fun htree hhdr h => ?_, fun h => ⟨?_, ?_⟩⟩
  · exact State.FailsRegionCheck.of_raised (exec_count hreq) (by simp [countBody, State.inOk_eq_false h])
  · exact State.FailsRegionCheck.of_raised (exec_parsehdr hreq) (by simp [parsehdrBody, State.inOk_eq_false h])
  · exact State.FailsRegionCheck.of_raised (exec_wrhdr hreq) (by simp [wrhdrBody, State.outOk_eq_false h])
  · exact State.FailsRegionCheck.of_raised (exec_encode hreq) (by rw [encodeBody, hcb, hchecked h]; rfl)
  · exact State.FailsRegionCheck.of_raised (exec_decode hreq) (by rw [decodeBody, htree, hhdr, hchecked h]; rfl)
  · exact State.FailsRegionCheck.of_raised (exec_compress hreq) (by rw [compressBody, hpipeline h]; rfl)
  · exact State.FailsRegionCheck.of_raised (exec_decompress hreq) (by rw [decompressBody, hpipeline h]; rfl)

end Sys2Proof.Machine
end

