-- ==== Sys2Proof/Proofs/InputRegion.lean ====
section
/-! PROOFS. What a command reads of BUF (`20_memory.md` R93, R94): two runs of one command whose input regions hold
the same bytes go through the same states but for BUF, and make the same writes there. -/

namespace Sys2Proof.Machine

/-! ## Two runs side by side -/

/-- `s` and `s'`, reached from `s₀` and `s₀'`, differ in BUF alone, see the same input, whose length is that of
the start, and each byte of BUF is the same in both or still the one it was at the start in both. -/
structure State.Twins (s₀ s₀' s s' : State) : Prop where
  same  : ∃ m, s' = { s with buf := m }
  inLen : s.inLen = s₀.inLen
  input : ∀ k, k < s.inLen.toNat → s'.input k = s.input k
  bytes : ∀ a, s'.readBuf a = s.readBuf a ∨ (s'.readBuf a = s₀'.readBuf a ∧ s.readBuf a = s₀.readBuf a)

/-- The two runs end alike, in such states. -/
inductive Run.Twins (s₀ s₀' : State) : Run → Run → Prop where
  | ok {s s' : State} (h : s₀.Twins s₀' s s') : Run.Twins s₀ s₀' (.ok s) (.ok s')
  | raised (e : ErrCode) (pos : Word) {s s' : State} (h : s₀.Twins s₀' s s') :
    Run.Twins s₀ s₀' (.raised e pos s) (.raised e pos s')

/-- The update `g` of the state neither looks at BUF nor changes it, and leaves the input region in its place. -/
structure LeavesBuf (g : State → State) : Prop where
  comm     : ∀ s m, g { s with buf := m } = { g s with buf := m } := by intros; rfl
  inBase   : ∀ s, (g s).inBase = s.inBase := by intros; rfl
  inLen    : ∀ s, (g s).inLen = s.inLen := by intros; rfl
  bufEpoch : ∀ s, (g s).bufEpoch = s.bufEpoch := by intros; rfl

/-- The pseudocode `body` reads no byte of BUF outside the input region: it keeps two runs side by side. -/
def ReadsInputOnly (body : State → Run) : Prop :=
  ∀ ⦃s₀ s₀' s s' : State⦄, s₀.Twins s₀' s s' → (body s).Twins s₀ s₀' (body s')

/-- The two sides of a relation branch on one condition. -/
theorem rel_ite {α : Type} {R : α → α → Prop} {c c' : Prop} [Decidable c] [Decidable c'] {a a' b b' : α}
    (hc : c ↔ c') (ht : c → R a a') (he : ¬ c → R b b') :
    R (if c then a else b) (if c' then a' else b') := by
  by_cases h : c
  · rw [if_pos h, if_pos (hc.mp h)]; exact ht h
  · rw [if_neg h, if_neg (mt hc.mpr h)]; exact he h

section
variable {s₀ s₀' s s' : State}

/-! ## What two states side by side share -/

theorem State.Twins.inputBytes (h : s₀.Twins s₀' s s') : s'.inputBytes = s.inputBytes := by
  have hin := h.input
  obtain ⟨m, rfl⟩ := h.same
  exact List.map_congr_left fun k hk => hin k (List.mem_range.mp hk)

theorem State.Twins.input32 (h : s₀.Twins s₀' s s') {p : Nat} (hp : p + 4 ≤ s.inLen.toNat) :
    s'.input32 p = s.input32 p := by
  simp only [State.input32, h.input p (by omega), h.input (p + 1) (by omega), h.input (p + 2) (by omega),
    h.input (p + 3) (by omega)]

theorem State.Twins.marker (h : s₀.Twins s₀' s s') (hlen : 2 ≤ s.inLen.toNat) : s'.marker = s.marker := by
  have hin := h.input (s.inLen.toNat - 2) (by omega)
  obtain ⟨m, rfl⟩ := h.same
  exact congrArg BitVec.toNat hin

/-- Every bit of the body lies in the input region (`44_decoder.md` R272). -/
theorem State.Twins.bitAt (h : s₀.Twins s₀' s s') (hr : 2 ≤ s.bodyBytes) (k : Nat) :
    s'.bitAt s.bodyBytes k = s.bitAt s.bodyBytes k := by
  rw [State.bodyBytes] at hr
  have hin := h.input
  obtain ⟨m, rfl⟩ := h.same
  rw [State.bitAt, State.bitAt, State.bodyBytes]
  refine rel_ite (R := Eq) Iff.rfl (fun hk => ?_) fun _ => ?_
  · exact congrArg (fun b : Byte => (b.getLsbD _, _)) (hin (s.bodyOff.toNat + k / 8) (by omega))
  · exact congrArg (fun b : Byte => (b.getLsbD _, _)) (hin (s.inLen.toNat - 1) (by omega))

/-! ## Updates of both states -/

/-- Updates that write BUF alike keep two states side by side. -/
theorem State.Twins.step {t t' : State} (h : s₀.Twins s₀' s s') (same : ∃ m, t' = { t with buf := m })
    (hib : t.inBase = s.inBase) (hil : t.inLen = s.inLen)
    (hb : ∀ a, t'.readBuf a = t.readBuf a ∨ (t'.readBuf a = s'.readBuf a ∧ t.readBuf a = s.readBuf a)) :
    s₀.Twins s₀' t t' where
  same := same
  inLen := hil.trans h.inLen
  input k hk := by
    have hin := h.input k (hil ▸ hk)
    have hs : s'.inBase = s.inBase := by obtain ⟨m, rfl⟩ := h.same; rfl
    have ht : t'.inBase = s.inBase := by obtain ⟨m, rfl⟩ := same; exact hib
    rw [State.input, State.input, hs] at hin
    rw [State.input, State.input, ht, hib]
    rcases hb (s.inBase.toNat + k) with he | ⟨he', he⟩
    · exact he
    · rw [he', he]; exact hin
  bytes a := by
    rcases hb a with he | ⟨he', he⟩
    · exact .inl he
    · rw [he', he]; exact h.bytes a

theorem LeavesBuf.buf_eq {g : State → State} (hg : LeavesBuf g) (u : State) : (g u).buf = u.buf := by
  have hself : g u = { g u with buf := u.buf } := hg.comm u u.buf
  rw [hself]

theorem State.Twins.update {g : State → State} (h : s₀.Twins s₀' s s') (hg : LeavesBuf g) :
    s₀.Twins s₀' (g s) (g s') := by
  have hread : ∀ u a, (g u).readBuf a = u.readBuf a := fun u =>
    State.readBuf_congr (hg.buf_eq u) (hg.bufEpoch u)
  refine h.step ?_ (hg.inBase s) (hg.inLen s) fun a => .inr ⟨hread s' a, hread s a⟩
  obtain ⟨m, rfl⟩ := h.same
  exact ⟨m, hg.comm s m⟩

theorem State.Twins.writeBuf (h : s₀.Twins s₀' s s') (a : Nat) (b : Byte) :
    s₀.Twins s₀' (s.writeBuf a b) (s'.writeBuf a b) := by
  refine h.step ?_ rfl rfl fun c => ?_
  · obtain ⟨m, rfl⟩ := h.same
    exact ⟨_, rfl⟩
  · rw [State.readBuf_writeBuf, State.readBuf_writeBuf]
    by_cases hc : c = a
    · exact .inl (by rw [if_pos hc, if_pos hc])
    · exact .inr ⟨if_neg hc, if_neg hc⟩

theorem State.Twins.discardOutput (h : s₀.Twins s₀' s s') :
    s₀.Twins s₀' s.discardOutput s'.discardOutput := by
  obtain ⟨m, rfl⟩ := h.same
  refine h.step ⟨_, rfl⟩ rfl rfl fun c => ?_
  rw [State.readBuf_discardOutput, State.readBuf_discardOutput]
  by_cases hc : s.outBase.toNat + s.work.outStart.toNat ≤ c ∧ c < s.outBase.toNat + s.outCap.toNat ∧
      c < s.memSize
  · exact .inl ((if_pos hc).trans (if_pos hc).symm)
  · exact .inr ⟨if_neg hc, if_neg hc⟩

/-! ## Sequencing -/

theorem Run.Twins.andThen {r r' : Run} {f f' : State → Run} (hr : r.Twins s₀ s₀' r')
    (hf : ∀ u u', r = .ok u → s₀.Twins s₀' u u' → (f u).Twins s₀ s₀' (f' u')) :
    (r.andThen f).Twins s₀ s₀' (r'.andThen f') := by
  cases hr with
  | ok h => exact hf _ _ rfl h
  | raised e pos h => exact .raised e pos h

/-- A property `P` of the state that `f` keeps may be used at each of the `n` turns. -/
theorem Run.Twins.repeat {f : State → Run} {P : State → Prop} (hP : ∀ u, P u → P (f u).reached)
    (hf : ∀ u u', P u → s₀.Twins s₀' u u' → (f u).Twins s₀ s₀' (f u')) (n : Nat) (hs : P s)
    (h : s₀.Twins s₀' s s') : (Run.repeat f n s).Twins s₀ s₀' (Run.repeat f n s') := by
  induction n generalizing s s' with
  | zero => exact .ok h
  | succ n ih =>
    refine (hf s s' hs h).andThen fun u u' hu hk => ih ?_ hk
    have hnext := hP s hs
    rwa [hu] at hnext

end

theorem ReadsInputOnly.andThen {f g : State → Run} (hf : ReadsInputOnly f) (hg : ReadsInputOnly g) :
    ReadsInputOnly fun s => (f s).andThen g := fun _ _ _ _ h => (hf h).andThen fun _ _ _ hu => hg hu

/-- A check that does not look at BUF, before the pseudocode `body`. -/
theorem ReadsInputOnly.checked {body : State → Run} (h : ReadsInputOnly body) (c : State → Bool) (e : ErrCode)
    (hc : ∀ s m, c { s with buf := m } = c s := by intros; rfl) :
    ReadsInputOnly fun s => if c s then body s else .raised e 0 s := fun s₀ s₀' s s' hs => by
  have hcc : c s = c s' := by
    obtain ⟨m, rfl⟩ := hs.same
    exact (hc s m).symm
  exact rel_ite (by rw [hcc]) (fun _ => h hs) fun _ => .raised e 0 hs

/-- Pseudocode that begins with an update of the state. -/
theorem ReadsInputOnly.after {body : State → Run} (h : ReadsInputOnly body) {g : State → State}
    (hg : LeavesBuf g) : ReadsInputOnly fun s => body (g s) := fun _ _ _ _ hs => h (hs.update hg)

/-- A phase of COMPRESS or DECOMPRESS, begun by naming it in PHASE. -/
theorem ReadsInputOnly.inPhase {phase : State → Run} (h : ReadsInputOnly phase) (p : Phase) :
    ReadsInputOnly fun s => phase (s.enterPhase p) := h.after {}

/-- ENCODE's and DECODE's shape: a SEQUENCE check, then a region check, then the phase. -/
theorem ReadsInputOnly.sequenced {phase : State → Run} (h : ReadsInputOnly phase) (c d : State → Bool)
    (hc : ∀ s m, c { s with buf := m } = c s := by intros; rfl)
    (hd : ∀ s m, d { s with buf := m } = d s := by intros; rfl) :
    ReadsInputOnly fun s =>
      if c s then if d s then phase s.startOutput else .raised .badRegion 0 s
      else .raised .sequence 0 s :=
  ((h.after (g := State.startOutput) {}).checked d .badRegion hd).checked c .sequence hc

/-- An update of the state alone reads nothing. -/
theorem LeavesBuf.readsInputOnly {g : State → State} (hg : LeavesBuf g) : ReadsInputOnly fun s => .ok (g s) :=
  fun _ _ _ _ h => .ok (h.update hg)

theorem readsInputOnly_raised (e : ErrCode) (pos : Word) : ReadsInputOnly (Run.raised e pos) :=
  fun _ _ _ _ h => .raised e pos h

/-! ## Output -/

theorem out_readsInputOnly (b : Byte) : ReadsInputOnly (out b) := fun s₀ s₀' s s' h => by
  have hw := h.writeBuf (s.outBase.toNat + s.outLen.toNat) b
  obtain ⟨m, rfl⟩ := h.same
  exact rel_ite Iff.rfl (fun _ => .raised _ _ h) fun _ =>
    .ok (hw.update (g := fun u => { u with outLen := u.outLen + 1 }) {})

theorem outAll_readsInputOnly (bs : List Byte) : ReadsInputOnly (outAll bs) := by
  induction bs with
  | nil => exact LeavesBuf.readsInputOnly {}
  | cons b bs ih => exact (out_readsInputOnly b).andThen ih

theorem wrhdrPhase_readsInputOnly : ReadsInputOnly wrhdrPhase := fun s₀ s₀' s s' h => by
  have hall := outAll_readsInputOnly s.ft.headerBytes h
  obtain ⟨m, rfl⟩ := h.same
  exact hall

/-! ## The encoder -/

theorem packBit_readsInputOnly (b : Bool) : ReadsInputOnly (packBit b) := fun s₀ s₀' s s' h => by
  have hp := h.update (g := fun u =>
    u.setPacker ((u.work.acc <<< 1) ||| BitVec.zeroExtend 8 (BitVec.ofBool b)) (u.work.na + 1)) {}
  obtain ⟨m, rfl⟩ := h.same
  exact rel_ite Iff.rfl
    (fun _ => (out_readsInputOnly _ hp).andThen fun u u' _ hu => .ok (hu.update {})) fun _ => .ok hp

theorem packBits_readsInputOnly (bs : List Bool) : ReadsInputOnly (packBits bs) := by
  induction bs with
  | nil => exact LeavesBuf.readsInputOnly {}
  | cons b bs ih => exact (packBit_readsInputOnly b).andThen ih

theorem encodeByte_readsInputOnly (i : Nat) (b : Byte) : ReadsInputOnly (encodeByte i b) :=
  fun s₀ s₀' s s' h => by
  have hbits := packBits_readsInputOnly (s.cb.codeOf b) h
  obtain ⟨m, rfl⟩ := h.same
  exact rel_ite Iff.rfl (fun _ => .raised _ _ h) fun _ => hbits

theorem encodeBytes_readsInputOnly (i : Nat) (bs : List Byte) : ReadsInputOnly (encodeBytes i bs) := by
  induction bs generalizing i with
  | nil => exact LeavesBuf.readsInputOnly {}
  | cons b bs ih => exact (encodeByte_readsInputOnly i b).andThen (ih (i + 1))

theorem writeTrailer_readsInputOnly : ReadsInputOnly writeTrailer := fun s₀ s₀' s s' h => by
  have hmark := out_readsInputOnly (s.work.na.zeroExtend 8) h
  obtain ⟨m, rfl⟩ := h.same
  refine rel_ite Iff.rfl (fun _ => .ok h) fun _ => hmark.andThen fun u u' _ hu => ?_
  have hlast := out_readsInputOnly (u.work.acc <<< (8 - u.work.na.toNat)) hu
  obtain ⟨m', rfl⟩ := hu.same
  exact hlast

theorem encodePhase_readsInputOnly : ReadsInputOnly encodePhase := fun s₀ s₀' s s' h => by
  rw [encodePhase, encodePhase, h.inputBytes]
  exact (encodeBytes_readsInputOnly 0 _ (h.update {})).andThen fun _ _ _ hu => writeTrailer_readsInputOnly hu

/-! ## The decoder -/

theorem emit_readsInputOnly (v : Byte) (p : Word) : ReadsInputOnly (emit v p) := fun s₀ s₀' s s' h => by
  have hout := out_readsInputOnly v h
  obtain ⟨m, rfl⟩ := h.same
  exact rel_ite Iff.rfl (fun _ => .raised _ _ h) fun _ => hout.andThen fun u u' _ hu =>
    .ok (hu.update (g := fun t => { t with work := { t.work with cnt := t.work.cnt + 1 } }) {})

theorem detectLeaf_readsInputOnly (p : Word) : ReadsInputOnly (detectLeaf p) := fun s₀ s₀' s s' h => by
  have hemit := emit_readsInputOnly s.cursor.value p h
  obtain ⟨m, rfl⟩ := h.same
  exact rel_ite Iff.rfl (fun _ => hemit.andThen fun u u' _ hu =>
    .ok (hu.update (g := fun t => t.setCursor t.arena.root) {})) fun _ => .ok h

theorem descend_readsInputOnly (b : Bool) (p : Word) : ReadsInputOnly (descend b p) := fun s₀ s₀' s s' h => by
  have hdown := h.update (g := State.setCursor (if b then s.cursor.right else s.cursor.left)) {}
  obtain ⟨m, rfl⟩ := h.same
  exact rel_ite Iff.rfl (fun _ => .raised _ _ h) fun _ => .ok hdown

/-- One bit of the body is read from the input region, where the body lies. -/
theorem decodeBit_twins {s₀ s₀' s s' : State} {r : Nat} (hr : 2 ≤ r) (hs : s.bodyBytes = r)
    (h : s₀.Twins s₀' s s') : (decodeBit r s).Twins s₀ s₀' (decodeBit r s') := by
  have hbit : s'.bitAt r s.work.kbit.toNat = s.bitAt r s.work.kbit.toNat := hs ▸ h.bitAt (hs ▸ hr) _
  have hkbit : s'.work = s.work := by obtain ⟨m, rfl⟩ := h.same; rfl
  rw [decodeBit, decodeBit, hkbit, hbit]
  exact (detectLeaf_readsInputOnly _ h).andThen fun _ _ _ hu =>
    (descend_readsInputOnly _ _ hu).andThen fun _ _ _ hv => .ok (hv.update {})

theorem endDecode_readsInputOnly : ReadsInputOnly endDecode := fun s₀ s₀' s s' h => by
  have hemit := emit_readsInputOnly s.cursor.value s.inLen h
  obtain ⟨m, rfl⟩ := h.same
  refine rel_ite Iff.rfl (fun _ => hemit.andThen fun u u' _ hu => ?_) fun _ => .raised _ _ h
  obtain ⟨m', rfl⟩ := hu.same
  exact rel_ite Iff.rfl (fun _ => .ok hu) fun _ => .raised _ _ hu

theorem State.OutputStep.bodyBytes_eq {s t : State} (h : s.OutputStep t) : t.bodyBytes = s.bodyBytes := by
  obtain ⟨_, _, _, rfl⟩ := h
  rfl

theorem decodePhase_readsInputOnly : ReadsInputOnly decodePhase := fun s₀ s₀' s s' h => by
  have hmarker := h.marker
  have hstart := h.update (g := State.startDecode) {}
  obtain ⟨m, rfl⟩ := h.same
  refine rel_ite Iff.rfl (fun _ => rel_ite Iff.rfl (fun _ => .ok h) fun _ => .raised _ _ h) fun _ => ?_
  refine rel_ite Iff.rfl (fun _ => .raised _ _ h) fun hr => ?_
  rw [hmarker (by rw [State.bodyBytes] at hr; omega)]
  refine rel_ite Iff.rfl (fun _ => .raised _ _ h) fun _ => .andThen ?_ fun _ _ _ hu => endDecode_readsInputOnly hu
  exact .repeat (P := s.OutputStep) (fun u hu => hu.trans (decodeBit_outputStep _ u))
    (fun u u' hu hk => decodeBit_twins (by omega) hu.bodyBytes_eq hk) _ (.work s _) hstart

/-! ## The header, read -/

theorem failHeader_readsInputOnly (e : ErrCode) (pos : Word) : ReadsInputOnly (failHeader e pos) :=
  (readsInputOnly_raised e pos).after (g := fun s => { s with ft := FreqTable.empty }) {}

theorem parseRecord_twins {s₀ s₀' s s' : State} {k : Nat} (hlen : 4 + 5 * (k + 1) ≤ s.inLen.toNat)
    (h : s₀.Twins s₀' s s') : (parseRecord k s).Twins s₀ s₀' (parseRecord k s') := by
  have hp : recordOffset k + 5 ≤ s.inLen.toNat := by rw [recordOffset]; omega
  have hv := h.input (recordOffset k) (by omega)
  have hf := h.input32 (p := recordOffset k + 1) (by omega)
  have hadd := h.update (g := fun u =>
    { u with ft := u.ft.append (s.input (recordOffset k)) (s.input32 (recordOffset k + 1)) }) {}
  rw [parseRecord, parseRecord, hv, hf]
  refine rel_ite Iff.rfl (fun _ => failHeader_readsInputOnly _ _ h) fun _ => ?_
  refine rel_ite ?_ (fun _ => failHeader_readsInputOnly _ _ h) fun _ => .ok hadd
  obtain ⟨m, rfl⟩ := h.same
  exact Iff.rfl

theorem parseRecords_twins {s₀ s₀' s s' : State} {n : Nat} (hlen : 4 + 5 * n ≤ s.inLen.toNat)
    (h : s₀.Twins s₀' s s') : (parseRecords n s).Twins s₀ s₀' (parseRecords n s') := by
  induction n with
  | zero => exact .ok h
  | succ n ih =>
    exact (ih (by omega)).andThen fun u u' _ hu => parseRecord_twins (by rwa [hu.inLen, ← h.inLen]) hu

theorem parseLeaves_readsInputOnly : ReadsInputOnly parseLeaves := fun s₀ s₀' s s' h => by
  have hcount := h.input32 (p := 0)
  have hrecords := fun n => parseRecords_twins (n := n) (h := h)
  have hfail := fun e pos => failHeader_readsInputOnly e pos h
  obtain ⟨m, rfl⟩ := h.same
  refine rel_ite Iff.rfl (fun _ => hfail _ _) fun hlen => ?_
  rw [hcount (by omega)]
  refine rel_ite Iff.rfl (fun _ => hfail _ _) fun _ => ?_
  refine rel_ite Iff.rfl (fun _ => hfail _ _) fun hroom => ?_
  exact (hrecords _ (by omega)).andThen fun u u' _ hu => .ok (hu.update {})

theorem parsehdrPhase_readsInputOnly : ReadsInputOnly parsehdrPhase := parseLeaves_readsInputOnly.after {}

/-! ## The other pseudocode -/

theorem ftaddBody_readsInputOnly (v : Byte) : ReadsInputOnly (ftaddBody v) := fun s₀ s₀' s s' h => by
  have hadd := h.update (g := fun u => { u.clearFlags with ft := u.ft.append v u.arg }) {}
  obtain ⟨m, rfl⟩ := h.same
  exact rel_ite Iff.rfl (fun _ => .raised _ _ h) fun _ =>
    rel_ite Iff.rfl (fun _ => .raised _ _ h) fun _ => .ok hadd

theorem countPhase_readsInputOnly : ReadsInputOnly countPhase := fun s₀ s₀' s s' h => by
  rw [countPhase, countPhase, h.inputBytes]
  exact .ok (h.update (g := fun u => { u.clearFlags with ft := FreqTable.ofBytes s.inputBytes }) {})

theorem buildPhase_readsInputOnly : ReadsInputOnly buildPhase := LeavesBuf.readsInputOnly {}

theorem gencodePhase_readsInputOnly : ReadsInputOnly gencodePhase := LeavesBuf.readsInputOnly {}

theorem compressPhases_readsInputOnly : ReadsInputOnly compressPhases :=
  (countPhase_readsInputOnly.inPhase .count).andThen <|
  (buildPhase_readsInputOnly.inPhase .build).andThen <|
  (gencodePhase_readsInputOnly.inPhase .gencode).andThen <|
  (wrhdrPhase_readsInputOnly.inPhase .wrhdr).andThen <|
  encodePhase_readsInputOnly.inPhase .encode

theorem decompressPhases_readsInputOnly : ReadsInputOnly decompressPhases :=
  (parsehdrPhase_readsInputOnly.inPhase .parsehdr).andThen <|
  (buildPhase_readsInputOnly.inPhase .build).andThen <|
  decodePhase_readsInputOnly.inPhase .decode

/-! ## Completion and cancellation -/

section
variable {s₀ s₀' s s' : State}

theorem Run.Twins.settle {r r' : Run} (h : r.Twins s₀ s₀' r') (w : Bool) :
    s₀.Twins s₀' (r.settle w) (r'.settle w) := by
  cases h with
  | ok h => exact h.update (g := State.complete) {}
  | raised e pos h =>
    rw [Run.settle_raised, Run.settle_raised]
    exact (rel_ite Iff.rfl (fun _ => h.discardOutput) fun _ => h).update (g := State.report e pos) {}

theorem State.Twins.cancel (h : s₀.Twins s₀' s s') (ws : WriteSet) :
    s₀.Twins s₀' (s.cancel ws) (s'.cancel ws) := by
  have htable := rel_ite (c := ws.table) Iff.rfl (fun _ => h.update (g := State.clearTable) {}) fun _ => h
  have harena := rel_ite (c := ws.arena) Iff.rfl (fun _ => htable.update (g := State.clearArena) {})
    fun _ => htable
  have hcb := rel_ite (c := ws.codebook) Iff.rfl (fun _ => harena.update (g := State.clearCodebook) {})
    fun _ => harena
  have hout := rel_ite (c := ws.out) Iff.rfl (fun _ => hcb.discardOutput) fun _ => hcb
  exact hout.update (g := State.report .cancelled 0) {}

theorem ReadsInputOnly.runCommand {body : State → Run} (hb : ReadsInputOnly body) (ws : WriteSet)
    (h : s₀.Twins s₀' s s') : s₀.Twins s₀' (runCommand ws body s) (runCommand ws body s') := by
  have hdraw := h.update (g := fun u => { u with draws := u.draws + 1 }) {}
  obtain ⟨m, rfl⟩ := h.same
  exact rel_ite Iff.rfl
    (fun _ => rel_ite Iff.rfl (fun _ => hdraw.cancel ws) fun _ => (hb hdraw).settle ws.out)
    fun _ => (hb h).settle ws.out

/-- A command takes two states side by side to two such states. -/
theorem exec_twins {i : Instr} {t : State} (h : s₀.Twins s₀' s s') (ht : exec i s = .next t) :
    ∃ t', exec i s' = .next t' ∧ s₀.Twins s₀' t t' := by
  cases i <;> injection ht with ht <;> subst ht <;> refine ⟨_, rfl, ?_⟩
  case nop => exact h.update {}
  case reset => exact h.update (g := fun u => u.softReset.complete) {}
  case ftclr => exact (LeavesBuf.readsInputOnly (g := State.clearTable) {}).runCommand _ h
  case ftadd v => exact (ftaddBody_readsInputOnly v).runCommand _ h
  case count => exact (countPhase_readsInputOnly.checked State.inOk .badRegion).runCommand _ h
  case parsehdr => exact (parsehdrPhase_readsInputOnly.checked State.inOk .badRegion).runCommand _ h
  case build => exact buildPhase_readsInputOnly.runCommand _ h
  case gencode => exact (gencodePhase_readsInputOnly.checked _ .sequence).runCommand _ h
  case wrhdr =>
    exact ((wrhdrPhase_readsInputOnly.after (g := State.startOutput) {}).checked
      State.outOk .badRegion).runCommand _ h
  case encode => exact (encodePhase_readsInputOnly.sequenced _ _).runCommand _ h
  case decode => exact (decodePhase_readsInputOnly.sequenced _ _).runCommand _ h
  case compress =>
    exact ((compressPhases_readsInputOnly.after (g := State.restartOutput) {}).checked
      _ .badRegion).runCommand _ h
  case decompress =>
    exact ((decompressPhases_readsInputOnly.after (g := State.restartOutput) {}).checked
      _ .badRegion).runCommand _ h

end

/-- Settles O21: the run from the other memory goes through the same states but for BUF, as every byte either run
reads is one of the input region, and makes the same writes there. -/
theorem onlyTheInputRegionMatters : Obligations.OnlyTheInputRegionMatters := by
  intro i s t m ht hin
  have hstart : s.Twins { s with buf := m } s { s with buf := m } :=
    ⟨⟨m, rfl⟩, rfl, hin, fun _ => .inr ⟨rfl, rfl⟩⟩
  obtain ⟨t', ht', hend⟩ := exec_twins hstart ht
  obtain ⟨m', rfl⟩ := hend.same
  exact ⟨m', ht', hend.bytes⟩

end Sys2Proof.Machine
end

