-- ==== Sys2Proof/Proofs/FrequencyTable.lean ====
section
/-! PROOFS. Loading the frequency table (`40_frequency_tree.md` R150 to R154): FTCLR, FTADD, and COUNT, whose
table after each input byte counts the bytes read so far. -/

namespace Sys2Proof.Machine

/-! ## FTCLR and FTADD -/

/-- Settles O27: FTCLR writes the empty table, with the flags every change of the table clears. -/
theorem ftclrEmptiesTheTable : Obligations.FtclrEmptiesTheTable := fun _ hreq =>
  ⟨_, exec_ftclr hreq, ⟨rfl, rfl⟩, rfl, FreqTable.freqOf_empty, FreqTable.orderAt_empty,
    FreqTable.leafCnt_empty, FreqTable.total_empty⟩

/-- The frequencies of a table that lacks `v` leave room in TOTAL for one more (`00_scope.md` R11). -/
theorem FreqTable.Wf.toNat_total_append {t : FreqTable} (h : t.Wf) {v : Byte} (hv : t.freqOf v = 0) {f : Word}
    (hf : f ≠ 0) : (t.append v f).total.toNat = t.total.toNat + f.toNat := by
  have hsum : (t.append v f).sum + (t.freqOf v).toNat = t.sum + f.toNat :=
    FreqTable.sum_setFreq (t.enter v) v f
  rw [hv] at hsum
  rw [(h.append hv hf).total, h.total]
  exact hsum

/-- Settles O28: an absent value has a place at position LEAFCNT, and its frequency fits TOTAL; the checks stand
before every write of the table. -/
theorem ftaddAppendsThePair : Obligations.FtaddAppendsThePair := by
  intro s v hreq hwf
  refine ⟨fun harg hv => ?_, fun harg => ?_, fun harg hv => ?_⟩
  · have hbody : ftaddBody v s = .ok { s.clearFlags with ft := s.ft.append v s.arg } := by
      rw [ftaddBody, if_neg harg, if_neg (not_not.mpr hv)]
    refine ⟨_, exec_ftadd v hreq, by rw [hbody]; exact ⟨rfl, rfl⟩, by rw [hbody]; rfl, ?_⟩
    rw [hbody, Run.settle_ok, State.complete_ft]
    refine ⟨?_, fun u hu => ?_, ?_, fun k hk => ?_, hwf.toNat_leafCnt_append hv _,
      hwf.toNat_total_append hv harg⟩
    · rw [FreqTable.freqOf_append, if_pos rfl]
    · rw [FreqTable.freqOf_append, if_neg hu]
    · rw [FreqTable.orderAt_append, if_pos ⟨rfl, hwf.leafCnt_lt_of_absent hv⟩]
    · rw [FreqTable.orderAt_append, if_neg fun h => hk h.1]
  · have hbody : ftaddBody v s = .raised .zeroFrequency 0 s := if_pos harg
    exact ⟨Work.idle, ⟨rfl, rfl⟩, by rw [exec_ftadd v hreq, hbody]; rfl⟩
  · have hbody : ftaddBody v s = .raised .duplicateValue 0 s := (if_neg harg).trans (if_pos hv)
    exact ⟨Work.idle, ⟨rfl, rfl⟩, by rw [exec_ftadd v hreq, hbody]; rfl⟩

/-! ## COUNT -/

/-- What is left of a list with one element more once repeated elements are dropped. -/
theorem eraseDups_concat (bs : List Byte) (b : Byte) :
    (bs ++ [b]).eraseDups = if b ∈ bs then bs.eraseDups else bs.eraseDups ++ [b] := by
  rw [List.eraseDups_append]
  by_cases hb : b ∈ bs <;> simp [List.removeAll, hb, List.eraseDups_cons]

/-- Table `t` counts the bytes `bs`, in the order of their first occurrences (`40_frequency_tree.md` R154). -/
structure FreqTable.Counts (t : FreqTable) (bs : List Byte) : Prop where
  freq    : ∀ v, (t.freqOf v).toNat = bs.count v
  leafCnt : t.leafCnt.toNat = bs.eraseDups.length
  order   : ∀ k, k < 256 → t.orderAt k = bs.eraseDups.getD k 0
  total   : t.total.toNat = bs.length

theorem FreqTable.Counts.freqOf_eq_zero_iff {t : FreqTable} {bs : List Byte} (h : t.Counts bs) (b : Byte) :
    t.freqOf b = 0 ↔ b ∉ bs := by
  rw [← List.count_eq_zero, ← h.freq b]
  exact BitVec.toNat_inj.symm

/-- Counting one more byte (`40_frequency_tree.md` R153): a value not seen before takes the next place in the
order. -/
theorem FreqTable.Counts.countByte {t : FreqTable} {bs : List Byte} (h : t.Counts bs) (hwf : t.Wf) (b : Byte)
    (hlen : bs.length + 1 < 2 ^ 32) :
    FreqTable.Counts { t.countByte b with total := t.total + 1 } (bs ++ [b]) := by
  have habs := h.freqOf_eq_zero_iff b
  constructor
  case freq =>
    intro v
    change ((t.countByte b).freqOf v).toNat = _
    have hle : bs.count b ≤ bs.length := List.count_le_length
    have hone : (t.freqOf b + 1).toNat = (t.freqOf b).toNat + 1 :=
      BitVec.toNat_add_of_lt (show (t.freqOf b).toNat + 1 < 2 ^ 32 by rw [h.freq b]; omega)
    rw [FreqTable.freqOf_countByte, List.count_append]
    by_cases hv : v = b
    · rw [if_pos hv, hone, h.freq b, hv, List.count_singleton_self]
    · rw [if_neg hv, h.freq v, List.count_singleton, if_neg (by simpa using Ne.symm hv)]
      rfl
  case leafCnt =>
    change (t.countByte b).leafCnt.toNat = _
    rw [FreqTable.leafCnt_countByte, eraseDups_concat]
    by_cases hb : b ∈ bs
    · rw [if_neg fun hz => habs.mp hz hb, if_pos hb, h.leafCnt]
    · have hz := habs.mpr hb
      have hlt := hwf.leafCnt_lt_of_absent hz
      rw [if_pos hz, if_neg hb, List.length_append, ← h.leafCnt]
      exact BitVec.toNat_add_of_lt (show t.leafCnt.toNat + 1 < 2 ^ 9 by omega)
  case order =>
    intro k hk
    change (t.countByte b).orderAt k = _
    rw [FreqTable.orderAt_countByte, eraseDups_concat, h.leafCnt, h.order k hk]
    by_cases hb : b ∈ bs
    · rw [if_neg fun hc => habs.mp hc.1 hb, if_pos hb]
    · rw [if_neg hb]
      rcases Nat.lt_trichotomy k bs.eraseDups.length with hlt | rfl | hgt
      · rw [if_neg fun hc => hlt.ne hc.2.1, List.getD_append _ _ _ _ hlt]
      · rw [if_pos ⟨habs.mpr hb, rfl, hk⟩, List.getD_append_right _ _ _ _ le_rfl, Nat.sub_self]
        rfl
      · rw [if_neg fun hc => hgt.ne' hc.2.1, List.getD_eq_default _ _ hgt.le,
          List.getD_eq_default _ _ (by rw [List.length_append, List.length_singleton]; omega)]
  case total =>
    rw [List.length_append, ← h.total]
    exact BitVec.toNat_add_of_lt (show t.total.toNat + 1 < 2 ^ 40 by rw [h.total]; omega)

theorem FreqTable.counts_empty : FreqTable.empty.Counts [] where
  freq v := by rw [FreqTable.freqOf_empty]; rfl
  leafCnt := rfl
  order k _ := FreqTable.orderAt_empty k
  total := rfl

/-- COUNT's table counts its input (`40_frequency_tree.md` R154). -/
theorem FreqTable.counts_ofBytes (bs : List Byte) (hlen : bs.length < 2 ^ 32) :
    (FreqTable.ofBytes bs).Counts bs := by
  induction bs using List.reverseRecOn with
  | nil => exact FreqTable.counts_empty
  | append_singleton bs b ih =>
    rw [List.length_append, List.length_singleton] at hlen
    rw [FreqTable.ofBytes_concat]
    exact (ih (by omega)).countByte (FreqTable.wf_ofBytes bs (by omega)) b hlen

/-- Settles O29: the table after each input byte counts the bytes so far, and the input is too short for a
frequency to overflow. -/
theorem countCountsTheInput : Obligations.CountCountsTheInput := by
  intro s hreq hin
  have hbody : countBody s = .ok { s.clearFlags with ft := FreqTable.ofBytes s.inputBytes } :=
    if_pos (State.inOk_iff.mpr hin)
  obtain ⟨hfreq, hcnt, horder, htotal⟩ :=
    FreqTable.counts_ofBytes s.inputBytes (s.length_inputBytes ▸ s.inLen.isLt)
  refine ⟨_, exec_count hreq, ?_⟩
  rw [hbody]
  exact ⟨⟨rfl, rfl⟩, rfl, hfreq, hcnt, horder, htotal.trans s.length_inputBytes⟩

end Sys2Proof.Machine
end

