-- ==== Sys2Proof/Proofs/TreeBuilder.lean ====
section
/-! PROOFS. The tree builder (`40_frequency_tree.md` R161 to R166): the listed frequencies add up to TOTAL, the
nodes of BUILD's working state form a forest whose roots are the queued ones, and every merge keeps it one. -/

namespace Sys2Proof.Machine

/-! ## The listed frequencies -/

/-- FREQ as a list, by byte value. -/
theorem FreqTable.toList_freq (t : FreqTable) :
    t.freq.toList = (List.finRange 256).map fun v => t.freqOf (BitVec.ofFin v) :=
  List.ext_getElem (by simp) fun i hi hi' => by simp [FreqTable.freqOf]

/-- The listed values are the present ones (`10_state.md` R41), so their frequencies are the nonzero ones. -/
theorem FreqTable.Wf.listed_perm {t : FreqTable} (h : t.Wf) :
    ((List.range t.leafCnt.toNat).map fun k => t.freqOf (t.orderAt k)).Perm
      (t.freq.toList.filter (· != 0)) := by
  have hcnt : ((List.finRange 256).filter fun v => t.freqOf (BitVec.ofFin v) != 0).length = t.leafCnt.toNat := by
    rw [h.leafCnt, FreqTable.present, t.toList_freq, List.countP_map, List.countP_eq_length_filter]
    rfl
  have hnodup : ((List.range t.leafCnt.toNat).map fun k => (t.orderAt k).toFin).Nodup := by
    refine List.nodup_range.map_on fun j hj k hk he => ?_
    have he : t.orderAt j = t.orderAt k := BitVec.eq_of_toFin_eq he
    rw [List.mem_range] at hj hk
    rcases Nat.lt_trichotomy j k with hlt | heq | hgt
    · exact absurd he (h.distinct j k hlt hk)
    · exact heq
    · exact absurd he.symm (h.distinct k j hgt hj)
  have hsub : ((List.range t.leafCnt.toNat).map fun k => (t.orderAt k).toFin) ⊆
      (List.finRange 256).filter fun v => t.freqOf (BitVec.ofFin v) != 0 := by
    intro v hv
    obtain ⟨k, hk, rfl⟩ := List.mem_map.mp hv
    exact List.mem_filter.mpr ⟨List.mem_finRange _, bne_iff_ne.mpr (h.listed k (List.mem_range.mp hk))⟩
  have hperm := (List.subperm_of_subset hnodup hsub).perm_of_length_le
    (by rw [hcnt, List.length_map, List.length_range])
  rw [t.toList_freq, List.filter_map]
  simpa [Function.comp_def] using hperm.map fun v => t.freqOf (BitVec.ofFin v)

/-- The frequencies of the listed values add up to TOTAL. -/
theorem FreqTable.Wf.sum_listed {t : FreqTable} (h : t.Wf) :
    ((List.range t.leafCnt.toNat).map fun k => (t.freqOf (t.orderAt k)).toNat).sum = t.total.toNat := by
  have hsum := (h.listed_perm.map BitVec.toNat).sum_nat
  have hdrop : (t.freq.toList.filter (· != 0)).map BitVec.toNat
      = (t.freq.toList.map BitVec.toNat).filter (· != 0) := by
    rw [List.filter_map]
    congr 2
    funext f
    simp [bne, ← BitVec.toNat_inj]
  rw [hdrop, List.sum_filter_bne_zero, List.map_map] at hsum
  exact hsum.trans h.total.symm

/-! ## One turn of BUILD's loop -/

theorem Arena.smallest_mem (a : Arena) (m : NodeIdx) (q : List NodeIdx) : a.smallest m q ∈ m :: q := by
  induction q generalizing m with
  | nil => exact List.mem_singleton_self m
  | cons i q ih =>
    rcases List.mem_cons.mp (ih (if a.less i m then i else m)) with h | h
    · rw [Arena.smallest, h]
      split <;> simp
    · exact List.mem_cons_of_mem _ (List.mem_cons_of_mem _ h)

/-- Q.extractMin() takes one node out of the queue (`40_frequency_tree.md` R162). -/
theorem Arena.extractMin_perm (a : Arena) {q : List NodeIdx} (hq : q ≠ []) :
    ∃ m rest, a.extractMin q = some (m, rest) ∧ q.Perm (m :: rest) := by
  obtain ⟨i, q', rfl⟩ := List.exists_cons_of_ne_nil hq
  exact ⟨_, _, rfl, List.perm_cons_erase (a.smallest_mem i q')⟩

/-- With two or more nodes queued, a turn of the loop takes two out, and queues their new parent
(`40_frequency_tree.md` R161, R163). -/
theorem Builder.mergeOnce_of_two {b : Builder} (h : 2 ≤ b.q.length) :
    ∃ l r rest, b.q.Perm (l :: r :: rest) ∧
      b.mergeOnce = { arena := b.merge l r, q := BitVec.ofNat 9 b.next :: rest, next := b.next + 1 } := by
  obtain ⟨l, q₁, hl, hpl⟩ := b.arena.extractMin_perm (List.ne_nil_of_length_pos (l := b.q) (by omega))
  have hlen := hpl.length_eq
  rw [List.length_cons] at hlen
  obtain ⟨r, q₂, hr, hpr⟩ := b.arena.extractMin_perm (List.ne_nil_of_length_pos (l := q₁) (by omega))
  exact ⟨l, r, q₂, hpl.trans (hpr.cons l), by simp [Builder.mergeOnce, hl, hr]⟩

/-- An index in the node index space is the number it is made of. -/
theorem toNat_nodeIdx {k : Nat} (hk : k < 512) : (BitVec.ofNat 9 k : NodeIdx).toNat = k := Nat.mod_eq_of_lt hk

/-! ## Parents -/

/-- Node `i` is an INTERNAL node with `j` as a child. -/
def Arena.IsParent (a : Arena) (i j : NodeIdx) : Prop :=
  (a.nodeAt i).kind = .internal ∧ ((a.nodeAt i).left = j ∨ (a.nodeAt i).right = j)

/-- Node `i` is an INTERNAL node as the merger makes it (`40_frequency_tree.md` R163, R166). -/
structure Arena.IsMerged (a : Arena) (i : NodeIdx) : Prop where
  kind  : (a.nodeAt i).kind = .internal
  value : (a.nodeAt i).value = 0
  left  : (a.nodeAt i).left.toNat < i.toNat
  right : (a.nodeAt i).right.toNat < i.toNat
  ne    : (a.nodeAt i).left ≠ (a.nodeAt i).right
  freq  : (a.nodeAt i).freq.toNat
    = (a.nodeAt (a.nodeAt i).left).freq.toNat + (a.nodeAt (a.nodeAt i).right).freq.toNat

theorem Arena.IsMerged.child_lt {a : Arena} {i j : NodeIdx} (h : a.IsMerged i) (hp : a.IsParent i j) :
    j.toNat < i.toNat := by
  obtain ⟨-, rfl | rfl⟩ := hp
  · exact h.left
  · exact h.right

/-- A merged node stays one in an arena that has it and every node below its index as before. -/
theorem Arena.IsMerged.congr {a a' : Arena} {i : NodeIdx} (h : a.IsMerged i)
    (heq : ∀ j : NodeIdx, j.toNat ≤ i.toNat → a'.nodeAt j = a.nodeAt j) : a'.IsMerged i := by
  have hi := heq i le_rfl
  have hl := heq _ h.left.le
  have hr := heq _ h.right.le
  constructor <;> rw [hi]
  · exact h.kind
  · exact h.value
  · exact h.left
  · exact h.right
  · exact h.ne
  · rw [hl, hr]
    exact h.freq

section
variable {b : Builder} (hnext : b.next < 511) (l r : NodeIdx)
include hnext

theorem Builder.toNat_next : (BitVec.ofNat 9 b.next : NodeIdx).toNat = b.next :=
  toNat_nodeIdx (by omega)

/-- The merger writes NODE[next]. -/
theorem Builder.nodeAt_merge_next : (b.merge l r).nodeAt (BitVec.ofNat 9 b.next) =
    Node.mkInternal l r ((b.arena.nodeAt l).freq + (b.arena.nodeAt r).freq) := by
  rw [Builder.merge, Arena.nodeAt_setNode, Builder.toNat_next hnext, if_pos ⟨rfl, hnext⟩]

omit hnext in
/-- The merger leaves every other entry alone. -/
theorem Builder.nodeAt_merge_ne {i : NodeIdx} (hi : i.toNat ≠ b.next) :
    (b.merge l r).nodeAt i = b.arena.nodeAt i := by
  rw [Builder.merge, Arena.nodeAt_setNode, if_neg fun h => hi h.1]

/-- The parents after a merge: the new node's children are the two merged, and the others' are as before. -/
theorem Builder.isParent_merge_iff {i j : NodeIdx} : (b.merge l r).IsParent i j ↔
    (i = BitVec.ofNat 9 b.next ∧ (l = j ∨ r = j)) ∨ (i.toNat ≠ b.next ∧ b.arena.IsParent i j) := by
  by_cases hi : i.toNat = b.next
  · have he : i = BitVec.ofNat 9 b.next := BitVec.eq_of_toNat_eq (hi.trans (Builder.toNat_next hnext).symm)
    rw [Arena.IsParent, he, Builder.nodeAt_merge_next hnext, Builder.toNat_next hnext]
    simp [Node.mkInternal]
  · have he : i ≠ BitVec.ofNat 9 b.next := fun he => hi (he ▸ Builder.toNat_next hnext)
    rw [Arena.IsParent, Builder.nodeAt_merge_ne l r hi]
    simp [Arena.IsParent, hi, he]

end

/-! ## The loop's invariant -/

/-- The nodes of BUILD's working state form a forest over the leaves of table `t` whose roots are the queued
nodes: every other node has exactly one parent. -/
structure Builder.Forest (t : FreqTable) (b : Builder) : Prop where
  started  : t.leafCnt.toNat ≤ b.next
  count    : b.q.length + b.next = 2 * t.leafCnt.toNat
  nodup    : b.q.Nodup
  queued   : ∀ j ∈ b.q, j.toNat < b.next
  total    : (b.q.map fun j => (b.arena.nodeAt j).freq.toNat).sum = t.total.toNat
  leaf     : ∀ i : NodeIdx, i.toNat < t.leafCnt.toNat → b.arena.nodeAt i = t.leafAt i.toNat
  internal : ∀ i : NodeIdx, t.leafCnt.toNat ≤ i.toNat → i.toNat < b.next → b.arena.IsMerged i
  empty    : ∀ i : NodeIdx, b.next ≤ i.toNat → b.arena.nodeAt i = Node.empty
  orphan   : ∀ j ∈ b.q, ∀ i, ¬ b.arena.IsParent i j
  parent   : ∀ j : NodeIdx, j.toNat < b.next → j ∉ b.q → ∃! i, b.arena.IsParent i j

section
variable {t : FreqTable} {b : Builder}

/-- A parent is one of the merged nodes. -/
theorem Builder.Forest.isMerged_of_isParent (h : b.Forest t) {i j : NodeIdx} (hp : b.arena.IsParent i j) :
    b.arena.IsMerged i ∧ i.toNat < b.next := by
  obtain ⟨hkind, -⟩ := hp
  by_cases hn : i.toNat < t.leafCnt.toNat
  · simp [h.leaf i hn, FreqTable.leafAt, Node.mkLeaf] at hkind
  · by_cases hi : i.toNat < b.next
    · exact ⟨h.internal i (by omega) hi, hi⟩
    · simp [h.empty i (by omega), Node.empty] at hkind

/-- A parent's index is greater than its child's. -/
theorem Builder.Forest.child_lt (h : b.Forest t) {i j : NodeIdx} (hp : b.arena.IsParent i j) :
    j.toNat < i.toNat ∧ i.toNat < b.next := by
  obtain ⟨hm, hi⟩ := h.isMerged_of_isParent hp
  exact ⟨hm.child_lt hp, hi⟩

section
variable {l r : NodeIdx} {rest : List NodeIdx} (h : b.Forest t) (hnext : b.next < 511)
  (hq : b.q.Perm (l :: r :: rest))
include h hq

theorem Builder.Forest.lt_of_perm {j : NodeIdx} (hj : j ∈ l :: r :: rest) : j.toNat < b.next :=
  h.queued j (hq.mem_iff.mpr hj)

theorem Builder.Forest.sum_perm : (b.arena.nodeAt l).freq.toNat + ((b.arena.nodeAt r).freq.toNat +
    (rest.map fun j => (b.arena.nodeAt j).freq.toNat).sum) = t.total.toNat := by
  have hsum := (hq.map fun j => (b.arena.nodeAt j).freq.toNat).sum_nat
  rw [h.total, List.map_cons, List.sum_cons, List.map_cons, List.sum_cons] at hsum
  exact hsum.symm

include hnext

/-- The frequency of the new node does not overflow. -/
theorem Builder.Forest.toNat_freq_merge : ((b.merge l r).nodeAt (BitVec.ofNat 9 b.next)).freq.toNat
    = (b.arena.nodeAt l).freq.toNat + (b.arena.nodeAt r).freq.toNat := by
  have hsum := h.sum_perm hq
  have hlt := t.total.isLt
  rw [Builder.nodeAt_merge_next hnext]
  exact BitVec.toNat_add_of_lt (by omega)

/-- After a merge the new node is a merged one, and so is each made before it. -/
theorem Builder.Forest.isMerged_merge {i : NodeIdx} (hi : t.leafCnt.toNat ≤ i.toNat)
    (hi' : i.toNat < b.next + 1) : (b.merge l r).IsMerged i := by
  rcases Nat.lt_succ_iff_lt_or_eq.mp hi' with hlt | heq
  · exact (h.internal i hi hlt).congr fun j hj => Builder.nodeAt_merge_ne l r (by omega)
  · obtain rfl : i = BitVec.ofNat 9 b.next := BitVec.eq_of_toNat_eq (heq.trans (Builder.toNat_next hnext).symm)
    have hl := h.lt_of_perm hq (j := l) (by simp)
    have hr := h.lt_of_perm hq (j := r) (by simp)
    have hlr : l ≠ r := List.ne_of_not_mem_cons (List.nodup_cons.mp (hq.nodup_iff.mp h.nodup)).1
    have hnode := Builder.nodeAt_merge_next hnext l r
    constructor
    case freq =>
      rw [h.toNat_freq_merge hnext hq, hnode, Node.mkInternal, Builder.nodeAt_merge_ne l r hl.ne,
        Builder.nodeAt_merge_ne l r hr.ne]
    all_goals rw [hnode, Node.mkInternal]
    case left => rwa [heq]
    case right => rwa [heq]
    case ne => exact hlr

/-- After a merge the new node and the unmerged roots have no parent. -/
theorem Builder.Forest.not_isParent_merge {j : NodeIdx} (hj : j ∈ BitVec.ofNat 9 b.next :: rest)
    (i : NodeIdx) : ¬ (b.merge l r).IsParent i j := by
  have hnew := Builder.toNat_next hnext
  have hl := h.lt_of_perm hq (j := l) (by simp)
  have hr := h.lt_of_perm hq (j := r) (by simp)
  have hnodup := hq.nodup_iff.mp h.nodup
  simp only [List.nodup_cons, List.mem_cons, not_or] at hnodup
  rw [Builder.isParent_merge_iff hnext]
  rcases List.mem_cons.mp hj with rfl | hj
  · rintro (⟨-, rfl | rfl⟩ | ⟨-, hp⟩)
    · omega
    · omega
    · have := h.child_lt hp
      omega
  · rintro (⟨-, rfl | rfl⟩ | ⟨-, hp⟩)
    · exact hnodup.1.2 hj
    · exact hnodup.2.1 hj
    · exact h.orphan j (hq.mem_iff.mpr (by simp [hj])) i hp

/-- After a merge every other node has exactly one parent: the two merged have the new node, and the others the
one they had. -/
theorem Builder.Forest.existsUnique_isParent_merge {j : NodeIdx} (hj : j.toNat < b.next + 1)
    (hjq : j ∉ BitVec.ofNat 9 b.next :: rest) : ∃! i, (b.merge l r).IsParent i j := by
  rw [List.mem_cons, not_or] at hjq
  obtain ⟨hjne, hjrest⟩ := hjq
  have hne : j.toNat ≠ b.next := fun he =>
    hjne (BitVec.eq_of_toNat_eq (he.trans (Builder.toNat_next hnext).symm))
  simp only [Builder.isParent_merge_iff hnext]
  by_cases hc : l = j ∨ r = j
  · have hin : j ∈ b.q := hq.mem_iff.mpr (by rcases hc with rfl | rfl <;> simp)
    refine ⟨_, .inl ⟨rfl, hc⟩, ?_⟩
    rintro i (⟨he, -⟩ | ⟨-, hp⟩)
    · exact he
    · exact absurd hp (h.orphan j hin i)
  · have hout : j ∉ b.q := fun hin => by
      rcases List.mem_cons.mp (hq.mem_iff.mp hin) with he | hin
      · exact hc (.inl he.symm)
      · exact (List.mem_cons.mp hin).elim (fun he => hc (.inr he.symm)) hjrest
    obtain ⟨i, hp, huniq⟩ := h.parent j (by omega) hout
    refine ⟨i, .inr ⟨(h.child_lt hp).2.ne, hp⟩, ?_⟩
    rintro i' (⟨-, hc'⟩ | ⟨-, hp'⟩)
    · exact absurd hc' hc
    · exact huniq i' hp'

/-- Merging two roots of the forest makes a forest again, with their parent as a root in their place. -/
theorem Builder.Forest.merge : Builder.Forest t
    { arena := b.merge l r, q := BitVec.ofNat 9 b.next :: rest, next := b.next + 1 } := by
  have hnew := Builder.toNat_next hnext
  have hstarted := h.started
  have hrest : ∀ j ∈ rest, j.toNat < b.next := fun j hj => h.lt_of_perm hq (by simp [hj])
  constructor
  case started => exact Nat.le_succ_of_le hstarted
  case count =>
    have hcount := h.count
    rw [hq.length_eq, List.length_cons, List.length_cons] at hcount
    change rest.length + 1 + (b.next + 1) = 2 * t.leafCnt.toNat
    omega
  case nodup =>
    have hnodup := hq.nodup_iff.mp h.nodup
    exact hnodup.of_cons.of_cons.cons fun hc => (hnew ▸ hrest _ hc).false
  case queued =>
    intro j hj
    rcases List.mem_cons.mp hj with rfl | hj
    · exact hnew.trans_lt (Nat.lt_succ_self _)
    · exact Nat.lt_succ_of_lt (hrest j hj)
  case total =>
    have hsame : (rest.map fun j => ((b.merge l r).nodeAt j).freq.toNat)
        = rest.map fun j => (b.arena.nodeAt j).freq.toNat :=
      List.map_congr_left fun j hj => by rw [Builder.nodeAt_merge_ne l r (hrest j hj).ne]
    rw [List.map_cons, List.sum_cons, hsame, h.toNat_freq_merge hnext hq, Nat.add_assoc, h.sum_perm hq]
  case leaf => exact fun i hi => (Builder.nodeAt_merge_ne l r (by omega)).trans (h.leaf i hi)
  case internal => exact fun i hi hi' => h.isMerged_merge hnext hq hi hi'
  case empty =>
    intro i (hi : b.next + 1 ≤ i.toNat)
    exact (Builder.nodeAt_merge_ne l r (by omega)).trans (h.empty i (by omega))
  case orphan => exact fun j hj i => h.not_isParent_merge hnext hq hj i
  case parent => exact fun j hj hjq => h.existsUnique_isParent_merge hnext hq hj hjq

end

theorem Builder.Forest.mergeLoop (hn : t.leafCnt.toNat ≤ 256) (k : Nat) (h : b.Forest t)
    (hk : k < b.q.length) :
    (Builder.mergeLoop k b).Forest t ∧ (Builder.mergeLoop k b).q.length + k = b.q.length := by
  induction k generalizing b with
  | zero => exact ⟨h, rfl⟩
  | succ k ih =>
    obtain ⟨l, r, rest, hq, hstep⟩ := Builder.mergeOnce_of_two (b := b) (by omega)
    have hnext : b.next < 511 := by have := h.count; omega
    have hlen := hq.length_eq
    simp only [List.length_cons] at hlen
    have hturn := ih (hstep ▸ h.merge hnext hq) (by rw [hstep, List.length_cons]; omega)
    rw [hstep, List.length_cons] at hturn
    rw [Builder.mergeLoop, hstep]
    exact ⟨hturn.1, by omega⟩

end

theorem FreqTable.Wf.leafCnt_le {t : FreqTable} (h : t.Wf) : t.leafCnt.toNat ≤ 256 := by
  rw [h.leafCnt, FreqTable.present]
  simpa using t.freq.toList.countP_le_length (p := fun f => f != 0)

/-- Before the first merge every leaf is a root. -/
theorem FreqTable.Wf.forest_startBuild {t : FreqTable} (h : t.Wf) :
    (t.startBuild t.leafCnt.toNat).Forest t := by
  have hn := h.leafCnt_le
  have hidx : ∀ k, k < t.leafCnt.toNat → (BitVec.ofNat 9 k : NodeIdx).toNat = k := fun _ _ =>
    toNat_nodeIdx (by omega)
  have hnode : ∀ i : NodeIdx, (t.startBuild t.leafCnt.toNat).arena.nodeAt i =
      if i.toNat < t.leafCnt.toNat then t.leafAt i.toNat else Node.empty := fun i => by
    have : i.toNat < t.leafCnt.toNat ∧ i.toNat < 511 ↔ i.toNat < t.leafCnt.toNat := by omega
    simp only [FreqTable.startBuild, FreqTable.nodeAt_placeLeaves, this, Arena.nodeAt_empty]
  have hnoParent : ∀ i j, ¬ (t.startBuild t.leafCnt.toNat).arena.IsParent i j := by
    rintro i j ⟨hkind, -⟩
    rw [hnode] at hkind
    split at hkind
    · exact NodeKind.noConfusion hkind
    · exact NodeKind.noConfusion hkind
  constructor
  case started => exact le_rfl
  case count => simp [FreqTable.startBuild]; omega
  case nodup =>
    refine List.nodup_range.map_on fun j hj k hk he => ?_
    rw [← hidx j (List.mem_range.mp hj), he, hidx k (List.mem_range.mp hk)]
  case queued =>
    intro j hj
    obtain ⟨k, hk, rfl⟩ := List.mem_map.mp hj
    rw [List.mem_range] at hk
    exact (hidx k hk).trans_lt hk
  case total =>
    rw [← h.sum_listed]
    simp only [hnode]
    rw [FreqTable.startBuild, List.map_map]
    refine congrArg List.sum (List.map_congr_left fun k hk => ?_)
    rw [List.mem_range] at hk
    rw [Function.comp_apply, hidx k hk, if_pos hk]
    exact BitVec.toNat_setWidth_of_le (by decide)
  case leaf => exact fun i hi => (hnode i).trans (if_pos hi)
  case internal => exact fun i hi hi' => absurd hi' (Nat.not_lt.mpr hi)
  case empty => exact fun i hi => (hnode i).trans (if_neg (Nat.not_lt.mpr hi))
  case orphan => exact fun j _ i => hnoParent i j
  case parent =>
    intro j hj hjq
    refine absurd (List.mem_map.mpr ⟨j.toNat, List.mem_range.mpr hj, ?_⟩) hjq
    simp

/-! ## The tree -/

/-- ROOT and NODECNT are no part of the nodes. -/
theorem Arena.nodeAt_with (a : Arena) (root : NodeIdx) (cnt : BitVec 10) (i : NodeIdx) :
    Arena.nodeAt { a with root := root, nodeCnt := cnt } i = a.nodeAt i := rfl

/-- The tree of one leaf (`40_frequency_tree.md` R165): the leaf, and a UNARY root of its frequency. -/
theorem FreqTable.buildTree_one {t : FreqTable} (h : t.leafCnt.toNat = 1) : t.buildTree.1 =
    { (Arena.empty.setNode 0 (t.leafAt 0)).setNode 1 (Node.mkUnary 0 (t.leafAt 0).freq) with
      root := 1, nodeCnt := 2 } := by
  simp only [FreqTable.buildTree, h]

/-- The tree of two or more leaves is a forest with one root. -/
theorem FreqTable.Wf.buildTree_forest {t : FreqTable} (h : t.Wf) (hn : 2 ≤ t.leafCnt.toNat) :
    ∃ (b : Builder) (root : NodeIdx), b.Forest t ∧ b.q = [root] ∧
      t.buildTree = ({ b.arena with root := root, nodeCnt := BitVec.ofNat 10 b.next }, []) := by
  obtain ⟨n, hn'⟩ := Nat.exists_eq_add_of_le' hn
  have hstart := h.forest_startBuild
  have hlen : (t.startBuild t.leafCnt.toNat).q.length = t.leafCnt.toNat := by simp [FreqTable.startBuild]
  obtain ⟨hforest, hcount⟩ := hstart.mergeLoop h.leafCnt_le (n + 1) (by omega)
  obtain ⟨root, hroot⟩ := List.length_eq_one_iff.mp
    (show (Builder.mergeLoop (n + 1) (t.startBuild t.leafCnt.toNat)).q.length = 1 by omega)
  refine ⟨_, root, hforest, hroot, ?_⟩
  rw [hn'] at hroot
  simp only [FreqTable.buildTree, hn', Builder.finish, hroot]
  simp [Arena.extractMin, Arena.smallest]

/-- The one root left is the last node made, every other having a parent of greater index. -/
theorem Builder.Forest.toNat_root {t : FreqTable} {b : Builder} {root : NodeIdx} (h : b.Forest t)
    (hn : t.leafCnt.toNat ≤ 256) (hroot : b.q = [root]) : root.toNat = b.next - 1 := by
  have hcount := h.count
  rw [hroot, List.length_singleton] at hcount
  have hlast : (BitVec.ofNat 9 (b.next - 1) : NodeIdx).toNat = b.next - 1 :=
    toNat_nodeIdx (by omega)
  by_cases hq : BitVec.ofNat 9 (b.next - 1) ∈ b.q
  · rw [hroot, List.mem_singleton] at hq
    exact hq ▸ hlast
  · obtain ⟨i, hp, -⟩ := h.parent _ (by omega) hq
    have := h.child_lt hp
    omega

/-- BUILD completes with the tree of its table (`40_frequency_tree.md` R161). -/
theorem exec_build_tree {s : State} (h : s.work.abortReq = false) : exec .build s = .next
    { s with
      arena := s.ft.buildTree.1, status := Status.completed { s.status with treeValid := true, cbValid := false }
      work := Work.idle } := exec_build h

/-- Settles O33: BUILD's loop keeps a forest over the leaves, whose roots are queued and whose roots' frequencies
add up to TOTAL, and n - 1 merges leave one root, the last node made. -/
theorem buildMakesTheTree : Obligations.BuildMakesTheTree := by
  intro s hreq hwf n
  refine ⟨_, exec_build_tree hreq, ⟨rfl, rfl⟩, rfl, fun hn => ?_, fun hn => ?_⟩
  · have hsum := hwf.sum_listed
    rw [show s.ft.leafCnt.toNat = 1 from hn, List.range_one, List.map_singleton, List.sum_singleton] at hsum
    simp only [FreqTable.buildTree_one hn, Arena.nodeAt_with, Arena.nodeAt_setNode]
    exact ⟨trivial, trivial, BitVec.eq_of_toNat_eq ((BitVec.toNat_setWidth_of_le (by decide)).trans hsum)⟩
  · obtain ⟨b, root, hforest, hq, htree⟩ := hwf.buildTree_forest hn
    have hle := hwf.leafCnt_le
    have hroot := hforest.toNat_root hle hq
    have hcount := hforest.count
    have htotal := hforest.total
    rw [hq, List.length_singleton] at hcount
    rw [hq, List.map_singleton, List.sum_singleton] at htotal
    have hnext : b.next = 2 * n - 1 := by omega
    have hnode : ∀ i, s.ft.buildTree.1.nodeAt i = b.arena.nodeAt i := fun i => by rw [htree]; rfl
    have hidx : s.ft.buildTree.1.root = root := by rw [htree]
    have hcnt : s.ft.buildTree.1.nodeCnt = BitVec.ofNat 10 b.next := by rw [htree]
    simp only [hnode, hidx, hcnt]
    refine ⟨?_, ?_, BitVec.eq_of_toNat_eq htotal, hforest.leaf, fun i hi hi' => ?_, fun i hi => ?_,
      fun j hj => ?_⟩
    · rw [BitVec.toNat_ofNat]; omega
    · omega
    · obtain ⟨hkind, hvalue, hleft, hright, hne, hfreq⟩ := hforest.internal i hi (by omega)
      exact ⟨hkind, hvalue, hleft, hright, hne, hfreq⟩
    · exact hforest.empty i (by omega)
    · obtain ⟨i, ⟨hkind, hchild⟩, huniq⟩ := hforest.parent j (by omega) fun hj' => by
        rw [hq, List.mem_singleton] at hj'
        rw [hj'] at hj
        omega
      exact ⟨i, hkind, hchild, fun i' hkind' hchild' => huniq i' ⟨hkind', hchild'⟩⟩

end Sys2Proof.Machine
end

