-- ==== Sys2Proof/Proofs/CodePaths.lean ====
section
/-! PROOFS. The tree walker and the bit-length encoder (`41_codebook.md` R190 to R192), for any arena: the walker
records the paths to the leaves, and the codebook of a list of paths reads them back. -/

namespace Sys2Proof.Machine

/-! ## The paths of an arena -/

/-- The values and paths of a subtree, read from the other end of an edge down to it. -/
def underEdge (b : Bool) (ps : List (Byte × List Bool)) : List (Byte × List Bool) :=
  ps.map fun x => (x.1, b :: x.2)

/-- The values of the leaves below node `i`, each with the path from `i` to it, in the walker's order and to the
walker's depth (`41_codebook.md` R190). -/
def Arena.paths (a : Arena) : Nat → NodeIdx → List (Byte × List Bool)
  | 0, _ => []
  | fuel + 1, i =>
    match (a.nodeAt i).kind with
    | .empty => []
    | .leaf => [((a.nodeAt i).value, [])]
    | .internal =>
      underEdge false (Arena.paths a fuel (a.nodeAt i).left) ++
        underEdge true (Arena.paths a fuel (a.nodeAt i).right)
    | .unary => underEdge false (Arena.paths a fuel (a.nodeAt i).left)

section
variable {a : Arena} {i : NodeIdx}

@[simp] theorem Arena.paths_zero : a.paths 0 i = [] := rfl

theorem Arena.paths_of_empty (h : (a.nodeAt i).kind = .empty) (fuel : Nat) : a.paths fuel i = [] := by
  cases fuel with
  | zero => rfl
  | succ fuel => rw [Arena.paths, h]

theorem Arena.paths_of_leaf (h : (a.nodeAt i).kind = .leaf) (fuel : Nat) :
    a.paths (fuel + 1) i = [((a.nodeAt i).value, [])] := by rw [Arena.paths, h]

theorem Arena.paths_of_internal (h : (a.nodeAt i).kind = .internal) (fuel : Nat) :
    a.paths (fuel + 1) i =
      underEdge false (a.paths fuel (a.nodeAt i).left) ++ underEdge true (a.paths fuel (a.nodeAt i).right) := by
  rw [Arena.paths, h]

theorem Arena.paths_of_unary (h : (a.nodeAt i).kind = .unary) (fuel : Nat) :
    a.paths (fuel + 1) i = underEdge false (a.paths fuel (a.nodeAt i).left) := by rw [Arena.paths, h]

end

/-- The paths depend on the nodes alone. -/
theorem Arena.paths_congr {a a' : Arena} (h : ∀ i, a'.nodeAt i = a.nodeAt i) (fuel : Nat) (i : NodeIdx) :
    a'.paths fuel i = a.paths fuel i := by
  induction fuel generalizing i with
  | zero => rfl
  | succ fuel ih => simp only [Arena.paths, h, ih]

/-- The bit string leads from node `i` to the leaf of `v`, over no other leaf: `Arena.IsCode`, from any node and
with the empty string allowed. -/
structure Arena.EndsAt (a : Arena) (i : NodeIdx) (bits : List Bool) (v : Byte) : Prop where
  leaf     : (a.nodeAt (a.follow i bits)).kind = .leaf
  value    : (a.nodeAt (a.follow i bits)).value = v
  onlyLeaf : ∀ k, k < bits.length → (a.nodeAt (a.follow i (bits.take k))).kind ≠ .leaf

/-- A path gets longer by an edge down from a node that is no leaf. -/
theorem Arena.EndsAt.cons {a : Arena} {i : NodeIdx} {b : Bool} {bits : List Bool} {v : Byte}
    (hi : (a.nodeAt i).kind ≠ .leaf) (h : a.EndsAt (a.child i b) bits v) : a.EndsAt i (b :: bits) v where
  leaf := h.leaf
  value := h.value
  onlyLeaf
    | 0, _ => hi
    | k + 1, hk => h.onlyLeaf k (Nat.lt_of_succ_lt_succ hk)

/-- Each listed path leads to the leaf of its value. -/
theorem Arena.endsAt_of_mem_paths (a : Arena) (fuel : Nat) (i : NodeIdx) :
    ∀ x ∈ a.paths fuel i, a.EndsAt i x.2 x.1 := by
  induction fuel generalizing i with
  | zero => simp
  | succ fuel ih =>
    have hedge : (a.nodeAt i).kind ≠ .leaf → ∀ b, ∀ x ∈ underEdge b (a.paths fuel (a.child i b)),
        a.EndsAt i x.2 x.1 := by
      intro hi b x hx
      obtain ⟨y, hy, rfl⟩ := List.mem_map.mp hx
      exact (ih _ y hy).cons hi
    cases hk : (a.nodeAt i).kind with
    | empty => simp [Arena.paths_of_empty hk]
    | leaf =>
      rw [Arena.paths_of_leaf hk, List.forall_mem_singleton]
      exact ⟨hk, rfl, fun k hk => absurd hk (Nat.not_lt_zero k)⟩
    | internal =>
      have hi : (a.nodeAt i).kind ≠ .leaf := by simp [hk]
      rw [Arena.paths_of_internal hk, List.forall_mem_append]
      exact ⟨hedge hi false, hedge hi true⟩
    | unary =>
      have hi : (a.nodeAt i).kind ≠ .leaf := by simp [hk]
      rw [Arena.paths_of_unary hk]
      exact hedge hi false

/-- No code begins another one: it ends at a leaf, and the other passes no leaf. -/
theorem Arena.IsCode.eq_of_prefix {a : Arena} {p q : List Bool} {u v : Byte} (hp : a.IsCode p u)
    (hq : a.IsCode q v) (h : p <+: q) : u = v := by
  rcases h.length_le.eq_or_lt with heq | hlt
  · rw [← hp.value, ← hq.value, h.eq_of_length heq]
  · exact absurd hp.leaf (List.prefix_iff_eq_take.mp h ▸ hq.onlyLeaf _ hlt)

/-! ## Paths as numbers -/

/-- The walker's path `c` after one more edge (`41_codebook.md` R191). -/
def addEdge (c : CodeBits) (b : Bool) : CodeBits := if b then rightPath c else leftPath c

/-- The walker's path value of a bit string (`41_codebook.md` R191). -/
def pathBits (p : List Bool) : CodeBits := p.foldl addEdge 0

theorem pathBits_concat (p : List Bool) (b : Bool) : pathBits (p ++ [b]) = addEdge (pathBits p) b := by
  simp [pathBits]

theorem codeString_pathBits (p : List Bool) (hp : p.length ≤ 255) : codeString (pathBits p) p.length = p := by
  induction p using List.reverseRecOn with
  | nil => rfl
  | append_singleton p b ih =>
    rw [List.length_append, List.length_singleton] at hp ⊢
    rw [pathBits_concat]
    cases b with
    | false => exact (codeString_leftPath _ _ (by omega)).trans (by rw [ih (by omega)])
    | true => exact (codeString_rightPath _ _ (by omega)).trans (by rw [ih (by omega)])

/-- A path of L edges is an L-bit number (`41_codebook.md` R192). -/
theorem pathBits_lt (p : List Bool) : (pathBits p).toNat < 2 ^ p.length := by
  induction p using List.reverseRecOn with
  | nil => decide
  | append_singleton p b ih =>
    have hshift : (pathBits p <<< 1).toNat < 2 ^ (p.length + 1) := by
      rw [BitVec.toNat_shiftLeft, Nat.shiftLeft_eq, Nat.pow_succ]
      exact (Nat.mod_le _ _).trans_lt (by omega)
    rw [pathBits_concat, List.length_append, List.length_singleton]
    cases b with
    | false => exact hshift
    | true => exact BitVec.toNat_or .. ▸ Nat.or_lt_two_pow hshift (Nat.one_lt_two_pow (Nat.succ_ne_zero _))

/-! ## The codebook of a list of paths -/

/-- The bit-length encoder at the end of a path (`41_codebook.md` R192). -/
def Codebook.recordPath (cb : Codebook) (x : Byte × List Bool) : Codebook :=
  cb.record x.1 x.2.length (pathBits x.2)

/-- The codebook that records every path of a list (`41_codebook.md` R191). -/
def Codebook.ofPaths (ps : List (Byte × List Bool)) : Codebook := ps.foldl Codebook.recordPath Codebook.empty

/-- The walker, having come to node `i` by the path `p`, records the paths that lead on from there. -/
theorem Arena.walk_eq_foldl (a : Arena) (fuel : Nat) (i : NodeIdx) (p : List Bool) (cb : Codebook) :
    a.walk fuel i (pathBits p) p.length cb =
      ((a.paths fuel i).map fun x => (x.1, p ++ x.2)).foldl Codebook.recordPath cb := by
  induction fuel generalizing i p cb with
  | zero => rfl
  | succ fuel ih =>
    have hedge : ∀ b j cb, a.walk fuel j (addEdge (pathBits p) b) (p.length + 1) cb =
        ((underEdge b (a.paths fuel j)).map fun x => (x.1, p ++ x.2)).foldl Codebook.recordPath cb := by
      intro b j cb
      have := ih j (p ++ [b]) cb
      rw [pathBits_concat, List.length_append, List.length_singleton] at this
      simpa [underEdge, Function.comp_def] using this
    rw [Arena.walk]
    cases hk : (a.nodeAt i).kind with
    | empty => rw [Arena.paths_of_empty hk]; rfl
    | leaf => rw [Arena.paths_of_leaf hk]; simp [Codebook.recordPath]
    | internal =>
      rw [Arena.paths_of_internal hk, List.map_append, List.foldl_append, ← hedge, ← hedge]
      rfl
    | unary => rw [Arena.paths_of_unary hk, ← hedge]; rfl

/-- GENCODE's codebook records the paths from the root; with no root there is none (`41_codebook.md` R191). -/
theorem Arena.codebook_eq_ofPaths (a : Arena) : a.codebook = Codebook.ofPaths (a.paths Config.nnode a.root) := by
  rw [Arena.codebook]
  split
  · next hroot => rw [hroot, Arena.paths_of_empty (by rw [Arena.nodeAt_null]; rfl)]; rfl
  · simpa [Codebook.ofPaths, pathBits] using a.walk_eq_foldl Config.nnode a.root [] Codebook.empty

/-- The codebook gives each listed value its path, and no other value a code; MAXLEN is the longest length
(`41_codebook.md` R192). -/
structure Codebook.Lists (cb : Codebook) (ps : List (Byte × List Bool)) : Prop where
  len     : ∀ x ∈ ps, (cb.lenOf x.1).toNat = x.2.length
  bits    : ∀ x ∈ ps, cb.bitsOf x.1 = pathBits x.2
  absent  : ∀ v, v ∉ ps.map Prod.fst → cb.lenOf v = 0 ∧ cb.bitsOf v = 0
  le_max  : ∀ x ∈ ps, x.2.length ≤ cb.maxLen.toNat
  max_mem : cb.maxLen = 0 ∨ ∃ x ∈ ps, x.2.length = cb.maxLen.toNat

theorem Codebook.lists_empty : Codebook.empty.Lists [] where
  len := by simp
  bits := by simp
  absent v _ := ⟨Codebook.lenOf_empty v, Codebook.bitsOf_empty v⟩
  le_max := by simp
  max_mem := .inl rfl

/-- MAXLEN after recording a path (`41_codebook.md` R192). -/
theorem Codebook.maxLen_recordPath (cb : Codebook) {x : Byte × List Bool} (hx : x.2.length ≤ 255) :
    (cb.recordPath x).maxLen.toNat = max cb.maxLen.toNat x.2.length := by
  simp only [Codebook.recordPath, Codebook.record]
  split
  · simp; omega
  · omega

/-- Recording the path of a new value. -/
theorem Codebook.Lists.recordPath {cb : Codebook} {ps : List (Byte × List Bool)} (h : cb.Lists ps)
    {x : Byte × List Bool} (hnew : x.1 ∉ ps.map Prod.fst) (hx : x.2.length ≤ 255) :
    (cb.recordPath x).Lists (ps ++ [x]) := by
  have hsame : (cb.recordPath x).lenOf x.1 = BitVec.ofNat 8 x.2.length ∧
      (cb.recordPath x).bitsOf x.1 = pathBits x.2 := by
    simp [Codebook.recordPath, Codebook.lenOf_record, Codebook.bitsOf_record]
  have hother : ∀ v, v ≠ x.1 → (cb.recordPath x).lenOf v = cb.lenOf v ∧
      (cb.recordPath x).bitsOf v = cb.bitsOf v := fun v hv => by
    simp [Codebook.recordPath, Codebook.lenOf_record, Codebook.bitsOf_record, hv]
  have hne : ∀ y ∈ ps, y.1 ≠ x.1 := fun y hy he => hnew (he ▸ List.mem_map_of_mem hy)
  have hmax := cb.maxLen_recordPath hx
  constructor
  case len =>
    rw [List.forall_mem_append, List.forall_mem_singleton, hsame.1]
    exact ⟨fun y hy => by rw [(hother _ (hne y hy)).1, h.len y hy], Nat.mod_eq_of_lt (by omega)⟩
  case bits =>
    rw [List.forall_mem_append, List.forall_mem_singleton]
    exact ⟨fun y hy => by rw [(hother _ (hne y hy)).2, h.bits y hy], hsame.2⟩
  case absent =>
    intro v hv
    rw [List.map_append, List.map_singleton, List.mem_append, List.mem_singleton, not_or] at hv
    rw [(hother v hv.2).1, (hother v hv.2).2]
    exact h.absent v hv.1
  case le_max =>
    rw [hmax, List.forall_mem_append, List.forall_mem_singleton]
    exact ⟨fun y hy => (h.le_max y hy).trans (le_max_left _ _), le_max_right _ _⟩
  case max_mem =>
    right
    rcases max_choice cb.maxLen.toNat x.2.length with he | he
    · rcases h.max_mem with hz | ⟨y, hy, hlen⟩
      · rw [hz] at he hmax
        exact ⟨x, by simp, by rw [hmax]; simp⟩
      · exact ⟨y, by simp [hy], by rw [hmax, he, hlen]⟩
    · exact ⟨x, by simp, by rw [hmax, he]⟩

/-- The codebook of a list of paths to distinct values. -/
theorem Codebook.lists_ofPaths (ps : List (Byte × List Bool)) (hnodup : (ps.map Prod.fst).Nodup)
    (hlen : ∀ x ∈ ps, x.2.length ≤ 255) : (Codebook.ofPaths ps).Lists ps := by
  induction ps using List.reverseRecOn with
  | nil => exact Codebook.lists_empty
  | append_singleton ps x ih =>
    rw [List.map_append, List.map_singleton, List.nodup_append_comm, List.singleton_append,
      List.nodup_cons] at hnodup
    rw [List.forall_mem_append, List.forall_mem_singleton] at hlen
    rw [Codebook.ofPaths, List.foldl_concat]
    exact (ih hnodup.2 hlen.1).recordPath hnodup.1 hlen.2

section
variable {cb : Codebook} {ps : List (Byte × List Bool)} (h : cb.Lists ps)
include h

theorem Codebook.Lists.codeOf {x : Byte × List Bool} (hx : x ∈ ps) (hlen : x.2.length ≤ 255) :
    cb.codeOf x.1 = x.2 := by
  rw [Codebook.codeOf, h.bits x hx, h.len x hx, codeString_pathBits _ hlen]

theorem Codebook.Lists.bitsOf_lt (v : Byte) : (cb.bitsOf v).toNat < 2 ^ (cb.lenOf v).toNat := by
  by_cases hv : v ∈ ps.map Prod.fst
  · obtain ⟨x, hx, rfl⟩ := List.mem_map.mp hv
    rw [h.bits x hx, h.len x hx]
    exact pathBits_lt x.2
  · rw [(h.absent v hv).1, (h.absent v hv).2]
    decide

theorem Codebook.Lists.lenOf_le_maxLen (v : Byte) : (cb.lenOf v).toNat ≤ cb.maxLen.toNat := by
  by_cases hv : v ∈ ps.map Prod.fst
  · obtain ⟨x, hx, rfl⟩ := List.mem_map.mp hv
    exact h.len x hx ▸ h.le_max x hx
  · rw [(h.absent v hv).1]
    exact Nat.zero_le _

theorem Codebook.Lists.maxLen_attained : cb.maxLen = 0 ∨ ∃ v, cb.lenOf v = cb.maxLen :=
  h.max_mem.imp_right fun ⟨x, hx, hlen⟩ => ⟨x.1, BitVec.eq_of_toNat_eq ((h.len x hx).trans hlen)⟩

end

end Sys2Proof.Machine
end

