-- ==== Sys2Proof/Proofs/CodeTable.lean ====
section
/-! PROOFS. The code table generator over the tree of a frequency table (`41_codebook.md` R190 to R195): the paths
of the tree lead to the listed values, one to each, and those of two or more leaves fill a binary tree. -/

namespace Sys2Proof.Machine

/-! ## The listed values -/

/-- The present values, in table order (`10_state.md` R41). -/
def FreqTable.listed (t : FreqTable) : List Byte := (List.range t.leafCnt.toNat).map t.orderAt

/-- Every byte value, in order. -/
def allBytes : List Byte := (List.range 256).map (BitVec.ofNat 8)

theorem mem_allBytes (v : Byte) : v ∈ allBytes :=
  List.mem_map.mpr ⟨v.toNat, List.mem_range.mpr v.isLt, by simp⟩

theorem nodup_allBytes : allBytes.Nodup :=
  List.nodup_range.map_on fun j hj k hk he => by
    rw [List.mem_range] at hj hk
    simpa [Nat.mod_eq_of_lt hj, Nat.mod_eq_of_lt hk] using congrArg BitVec.toNat he

/-- A list of distinct elements of another list makes it up together with a rest. -/
theorem exists_perm_append_of_subset {α : Type} {l₁ l₂ : List α} (hnodup : l₁.Nodup) (hsub : l₁ ⊆ l₂) :
    ∃ rest, l₂.Perm (l₁ ++ rest) := by
  obtain ⟨l, hperm, hsublist⟩ := List.subperm_of_subset hnodup hsub
  obtain ⟨rest, hrest⟩ := hsublist.exists_perm_append
  exact ⟨rest, hrest.trans (hperm.append_right rest)⟩

/-- Where distinct elements of a list have the whole list's sum, nothing is left for the others. -/
theorem exists_perm_append_of_sum_eq {α : Type} {l₁ l₂ : List α} {f : α → Nat} (hnodup : l₁.Nodup)
    (hsub : l₁ ⊆ l₂) (hsum : (l₂.map f).sum = (l₁.map f).sum) :
    ∃ rest, l₂.Perm (l₁ ++ rest) ∧ ∀ v ∈ rest, f v = 0 := by
  obtain ⟨rest, hperm⟩ := exists_perm_append_of_subset hnodup hsub
  have h := (hperm.map f).sum_nat
  rw [hsum, List.map_append, List.sum_append_nat, Nat.left_eq_add, List.sum_eq_zero_iff] at h
  exact ⟨rest, hperm, fun v hv => h _ (List.mem_map_of_mem hv)⟩

theorem FreqTable.sum_allBytes (t : FreqTable) : (allBytes.map fun v => (t.freqOf v).toNat).sum = t.sum := by
  rw [FreqTable.sum]
  exact congrArg List.sum (List.ext_getElem (by simp [allBytes]) fun i hi _ => by
    have hi : i < 256 := by simpa [allBytes] using hi
    simp [allBytes, FreqTable.freqOf, Nat.mod_eq_of_lt hi])

section
variable {t : FreqTable} (h : t.Wf)
include h

theorem FreqTable.Wf.nodup_listed : t.listed.Nodup :=
  List.pairwise_map.mpr (List.pairwise_lt_range.imp_of_mem fun _ hk hlt =>
    h.distinct _ _ hlt (List.mem_range.mp hk))

theorem FreqTable.Wf.sum_listed_eq : (t.listed.map fun v => (t.freqOf v).toNat).sum = t.total.toNat := by
  rw [FreqTable.listed, List.map_map]
  exact h.sum_listed

/-- The listed values are the present ones: with their frequencies TOTAL is used up. -/
theorem FreqTable.Wf.mem_listed_iff (v : Byte) : v ∈ t.listed ↔ t.freqOf v ≠ 0 := by
  constructor
  · intro hv
    obtain ⟨k, hk, rfl⟩ := List.mem_map.mp hv
    exact h.listed k (List.mem_range.mp hk)
  · intro hv
    obtain ⟨rest, hperm, hrest⟩ := exists_perm_append_of_sum_eq h.nodup_listed (fun v _ => mem_allBytes v)
      (t.sum_allBytes.trans (h.total.symm.trans h.sum_listed_eq.symm))
    refine (List.mem_append.mp (hperm.mem_iff.mp (mem_allBytes v))).resolve_right fun hr => hv ?_
    exact BitVec.eq_of_toNat_eq (hrest v hr)

end

/-! ## Full lists of paths -/

/-- The paths to the leaves of a tree in which every node has no child or two. -/
inductive FullPaths : List (Byte × List Bool) → Prop
  | leaf (v : Byte) : FullPaths [(v, [])]
  | node {ps qs : List (Byte × List Bool)} (hp : FullPaths ps) (hq : FullPaths qs) :
      FullPaths (underEdge false ps ++ underEdge true qs)

@[simp] theorem length_underEdge (b : Bool) (ps : List (Byte × List Bool)) : (underEdge b ps).length = ps.length :=
  List.length_map _

@[simp] theorem map_fst_underEdge (b : Bool) (ps : List (Byte × List Bool)) :
    (underEdge b ps).map Prod.fst = ps.map Prod.fst := by simp [underEdge]

/-- The paths below a node with two children are those of its left child and those of its right. -/
theorem forall_mem_children {ps qs : List (Byte × List Bool)} {P : Byte × List Bool → Prop} :
    (∀ x ∈ underEdge false ps ++ underEdge true qs, P x) ↔
      (∀ x ∈ ps, P (x.1, false :: x.2)) ∧ ∀ x ∈ qs, P (x.1, true :: x.2) :=
  List.forall_mem_append.trans (and_congr List.forall_mem_map List.forall_mem_map)

theorem FullPaths.length_pos {ps : List (Byte × List Bool)} (h : FullPaths ps) : 0 < ps.length := by
  induction h with
  | leaf v => exact Nat.one_pos
  | node _ _ ihp _ => simp [ihp]

/-- With two leaves or more, none is the root. -/
theorem FullPaths.length_pos_of_two_le {ps : List (Byte × List Bool)} (h : FullPaths ps) (hlen : 2 ≤ ps.length) :
    ∀ x ∈ ps, 1 ≤ x.2.length := by
  cases h with
  | leaf v => exact absurd hlen (Nat.lt_irrefl 1)
  | node hp hq => exact forall_mem_children.mpr ⟨fun _ _ => Nat.succ_pos _, fun _ _ => Nat.succ_pos _⟩

/-- Every edge down leaves another leaf aside (`10_state.md` R50). -/
theorem FullPaths.length_lt {ps : List (Byte × List Bool)} (h : FullPaths ps) :
    ∀ x ∈ ps, x.2.length < ps.length := by
  induction h with
  | leaf v => simp
  | node hp hq ihp ihq =>
    have hp := hp.length_pos
    have hq := hq.length_pos
    rw [forall_mem_children]
    simp only [List.length_append, length_underEdge, List.length_cons]
    exact ⟨fun x hx => by have := ihp x hx; omega, fun x hx => by have := ihq x hx; omega⟩

/-- The share of the code space the paths take up, times 2^d (`41_codebook.md` R195). -/
def kraftSum (d : Nat) (ps : List (Byte × List Bool)) : Nat := (ps.map fun x => 2 ^ (d - x.2.length)).sum

theorem kraftSum_underEdge (d : Nat) (b : Bool) (ps : List (Byte × List Bool)) :
    kraftSum (d + 1) (underEdge b ps) = kraftSum d ps := by
  simp [kraftSum, underEdge, Function.comp_def]

/-- Full paths take up the whole code space: the two children of a node take up half of its share each. -/
theorem FullPaths.kraftSum_eq {ps : List (Byte × List Bool)} (h : FullPaths ps) (d : Nat)
    (hd : ∀ x ∈ ps, x.2.length ≤ d) : kraftSum d ps = 2 ^ d := by
  induction h generalizing d with
  | leaf v => simp [kraftSum]
  | @node ps qs hp hq ihp ihq =>
    rw [forall_mem_children] at hd
    obtain ⟨x, hx⟩ := List.exists_mem_of_length_pos hp.length_pos
    obtain ⟨d, rfl⟩ : ∃ e, d = e + 1 := Nat.exists_eq_add_one.mpr (Nat.zero_lt_of_lt (hd.1 x hx))
    have hsplit : kraftSum (d + 1) (underEdge false ps ++ underEdge true qs)
        = kraftSum (d + 1) (underEdge false ps) + kraftSum (d + 1) (underEdge true qs) := by
      simp [kraftSum]
    rw [hsplit, kraftSum_underEdge, kraftSum_underEdge, ihp d fun x hx => Nat.le_of_succ_le_succ (hd.1 x hx),
      ihq d fun x hx => Nat.le_of_succ_le_succ (hd.2 x hx), Nat.pow_succ, Nat.mul_two]

/-! ## The paths of BUILD's forest -/

namespace Builder.Forest

variable {t : FreqTable} {b : Builder} (h : b.Forest t)
include h

theorem kind_leaf {i : NodeIdx} (hi : i.toNat < t.leafCnt.toNat) : (b.arena.nodeAt i).kind = .leaf := by
  rw [h.leaf i hi]
  rfl

theorem paths_leaf {i : NodeIdx} (hi : i.toNat < t.leafCnt.toNat) (fuel : Nat) :
    b.arena.paths (fuel + 1) i = [(t.orderAt i.toNat, [])] := by
  rw [Arena.paths_of_leaf (h.kind_leaf hi), h.leaf i hi]
  rfl

/-- Below a node of the forest hangs a full tree whose frequencies add up to the node's (`40_frequency_tree.md`
R163, R166). -/
theorem fullPaths_and_sum (fuel : Nat) {i : NodeIdx} (hi : i.toNat < b.next) (hfuel : i.toNat < fuel) :
    FullPaths (b.arena.paths fuel i) ∧
      ((b.arena.paths fuel i).map fun x => (t.freqOf x.1).toNat).sum = (b.arena.nodeAt i).freq.toNat := by
  induction fuel generalizing i with
  | zero => exact absurd hfuel (Nat.not_lt_zero _)
  | succ fuel ih =>
    by_cases hn : i.toNat < t.leafCnt.toNat
    · rw [h.paths_leaf hn, h.leaf i hn]
      refine ⟨.leaf _, ?_⟩
      rw [List.map_singleton, List.sum_singleton]
      exact (BitVec.toNat_setWidth_of_le (by decide)).symm
    · have hm := h.internal i (Nat.le_of_not_lt hn) hi
      have hleft := hm.left
      have hright := hm.right
      obtain ⟨hlfull, hlsum⟩ := ih (hleft.trans hi) (by omega)
      obtain ⟨hrfull, hrsum⟩ := ih (hright.trans hi) (by omega)
      rw [Arena.paths_of_internal hm.kind, hm.freq, ← hlsum, ← hrsum]
      exact ⟨.node hlfull hrfull, by simp [underEdge, Function.comp_def]⟩

/-- A leaf of the forest is one of the listed values'. -/
theorem value_mem_listed {i : NodeIdx} (hi : (b.arena.nodeAt i).kind = .leaf) :
    (b.arena.nodeAt i).value ∈ t.listed := by
  by_cases hn : i.toNat < t.leafCnt.toNat
  · rw [h.leaf i hn]
    exact List.mem_map.mpr ⟨i.toNat, List.mem_range.mpr hn, rfl⟩
  · by_cases hnext : i.toNat < b.next
    · simp [(h.internal i (by omega) hnext).kind] at hi
    · simp [h.empty i (by omega), Node.empty] at hi

/-- From the one root of the forest every node is reached: the values below it are all among those below the
root. -/
theorem values_subset_root {root : NodeIdx} (hq : b.q = [root]) (hroot : root.toNat < 511) {j : NodeIdx}
    (hj : j.toNat < b.next) : ∃ fuel, j.toNat < fuel ∧
      (b.arena.paths fuel j).map Prod.fst ⊆ (b.arena.paths Config.nnode root).map Prod.fst := by
  induction hd : b.next - j.toNat using Nat.strong_induction_on generalizing j with
  | _ d ih =>
    by_cases hjq : j ∈ b.q
    · obtain rfl : j = root := List.mem_singleton.mp (hq ▸ hjq)
      exact ⟨_, hroot, List.Subset.refl _⟩
    · obtain ⟨i, hp, -⟩ := h.parent j hj hjq
      obtain ⟨hlt, hi⟩ := h.child_lt hp
      obtain ⟨fuel, hfuel, hsub⟩ := ih (b.next - i.toNat) (by omega) hi rfl
      obtain ⟨fuel, rfl⟩ := Nat.exists_eq_add_one.mpr (Nat.zero_lt_of_lt hfuel)
      obtain ⟨hkind, hchild⟩ := hp
      rw [Arena.paths_of_internal hkind, List.map_append, map_fst_underEdge, map_fst_underEdge,
        List.append_subset] at hsub
      refine ⟨fuel, by omega, ?_⟩
      rcases hchild with rfl | rfl
      · exact hsub.1
      · exact hsub.2

/-- The one root leads to every listed value, each having its leaf in the forest. -/
theorem listed_subset_root (hwf : t.Wf) {root : NodeIdx} (hq : b.q = [root]) (hroot : root.toNat < 511) :
    t.listed ⊆ (b.arena.paths Config.nnode root).map Prod.fst := by
  intro v hv
  obtain ⟨k, hk, rfl⟩ := List.mem_map.mp hv
  rw [List.mem_range] at hk
  have hle := hwf.leafCnt_le
  have hidx : (BitVec.ofNat 9 k : NodeIdx).toNat = k := toNat_nodeIdx (by omega)
  have hleaf : (BitVec.ofNat 9 k : NodeIdx).toNat < t.leafCnt.toNat := by rwa [hidx]
  obtain ⟨fuel, hfuel, hsub⟩ := h.values_subset_root hq hroot (hleaf.trans_le h.started)
  obtain ⟨fuel, rfl⟩ := Nat.exists_eq_add_one.mpr (Nat.zero_lt_of_lt hfuel)
  rw [h.paths_leaf hleaf, hidx] at hsub
  exact hsub (by simp)

/-- The paths from the one root lead to each listed value once: all of them are reached, and with one path to each
TOTAL is used up. -/
theorem values_root (hwf : t.Wf) {root : NodeIdx} (hq : b.q = [root]) (hroot : root.toNat < 511) :
    ((b.arena.paths Config.nnode root).map Prod.fst).Perm t.listed := by
  have hnext : root.toNat < b.next := h.queued root (by simp [hq])
  have hsum : (((b.arena.paths Config.nnode root).map Prod.fst).map fun v => (t.freqOf v).toNat).sum
      = (t.listed.map fun v => (t.freqOf v).toNat).sum := by
    have htotal := h.total
    rw [hq, List.map_singleton, List.sum_singleton] at htotal
    rw [hwf.sum_listed_eq, ← htotal, List.map_map]
    exact (h.fullPaths_and_sum _ hnext hroot).2
  obtain ⟨rest, hperm, hrest⟩ := exists_perm_append_of_sum_eq hwf.nodup_listed
    (h.listed_subset_root hwf hq hroot) hsum
  have hnil : rest = [] := List.eq_nil_iff_forall_not_mem.mpr fun v hv => by
    obtain ⟨x, hx, rfl⟩ := List.mem_map.mp (hperm.mem_iff.mpr (List.mem_append_right _ hv))
    have hx := b.arena.endsAt_of_mem_paths _ _ x hx
    have hlisted : x.1 ∈ t.listed := hx.value ▸ h.value_mem_listed hx.leaf
    exact (hwf.mem_listed_iff x.1).mp hlisted (BitVec.eq_of_toNat_eq (hrest _ hv))
  rwa [hnil, List.append_nil] at hperm

end Builder.Forest

/-! ## The codes of a table -/

/-- The values of a table's tree with the paths to them (`41_codebook.md` R190). -/
def FreqTable.codes (t : FreqTable) : List (Byte × List Bool) :=
  t.buildTree.1.paths Config.nnode t.buildTree.1.root

theorem FreqTable.codebook_eq_ofPaths (t : FreqTable) : t.codebook = Codebook.ofPaths t.codes :=
  t.buildTree.1.codebook_eq_ofPaths

theorem FreqTable.codes_zero {t : FreqTable} (hn : t.leafCnt.toNat = 0) : t.codes = [] := by
  have htree : t.buildTree.1 = Arena.empty := by simp only [FreqTable.buildTree, hn]
  rw [FreqTable.codes, htree]
  exact Arena.paths_of_empty (by rw [Arena.nodeAt_empty]; rfl) _

/-- The one leaf of a one-leaf tree is reached by the bit 0 (`41_codebook.md` R191). -/
theorem FreqTable.codes_one {t : FreqTable} (hn : t.leafCnt.toNat = 1) : t.codes = [(t.orderAt 0, [false])] := by
  have hroot : t.buildTree.1.nodeAt 1 = Node.mkUnary 0 (t.leafAt 0).freq := by
    simp [FreqTable.buildTree_one hn, Arena.nodeAt_with, Arena.nodeAt_setNode]
  have hleaf : t.buildTree.1.nodeAt 0 = t.leafAt 0 := by
    simp [FreqTable.buildTree_one hn, Arena.nodeAt_with, Arena.nodeAt_setNode]
  have hidx : t.buildTree.1.root = 1 := by rw [FreqTable.buildTree_one hn]
  rw [FreqTable.codes, hidx, Arena.paths_of_unary (by rw [hroot]; rfl), hroot]
  change underEdge false (t.buildTree.1.paths 510 0) = _
  rw [Arena.paths_of_leaf (by rw [hleaf]; rfl), hleaf]
  rfl

/-- A value's term of the Kraft sum, times 2^255 (`41_codebook.md` R195). -/
def Codebook.kraftTerm (cb : Codebook) (v : Byte) : Nat :=
  if (cb.lenOf v).toNat = 0 then 0 else 2 ^ (255 - (cb.lenOf v).toNat)

section
variable {t : FreqTable} (h : t.Wf)
include h

/-- The tree of two or more leaves is full, with one path to each present value. -/
theorem FreqTable.Wf.codes_of_two (hn : 2 ≤ t.leafCnt.toNat) :
    FullPaths t.codes ∧ (t.codes.map Prod.fst).Perm t.listed := by
  obtain ⟨b, root, hforest, hq, htree⟩ := h.buildTree_forest hn
  have hle := h.leafCnt_le
  have hcount := hforest.count
  have hroot := hforest.toNat_root hle hq
  rw [hq, List.length_singleton] at hcount
  have hcodes : t.codes = b.arena.paths Config.nnode root := by
    rw [FreqTable.codes, htree]
    exact Arena.paths_congr (Arena.nodeAt_with b.arena _ _) _ _
  rw [hcodes]
  exact ⟨(hforest.fullPaths_and_sum _ (by omega) (by change _ < 511; omega)).1,
    hforest.values_root h hq (by omega)⟩

/-- The tree leads to each present value once (`41_codebook.md` R190). -/
theorem FreqTable.Wf.values_codes : (t.codes.map Prod.fst).Perm t.listed := by
  match hn : t.leafCnt.toNat with
  | 0 => rw [FreqTable.codes_zero hn, FreqTable.listed, hn]; rfl
  | 1 => rw [FreqTable.codes_one hn, FreqTable.listed, hn]; rfl
  | n + 2 => exact (h.codes_of_two (by omega)).2

/-- Every code has from 1 to 255 bits (`10_state.md` R50). -/
theorem FreqTable.Wf.length_codes : ∀ x ∈ t.codes, 1 ≤ x.2.length ∧ x.2.length ≤ 255 := by
  match hn : t.leafCnt.toNat with
  | 0 => simp [FreqTable.codes_zero hn]
  | 1 => simp [FreqTable.codes_one hn]
  | n + 2 =>
    obtain ⟨hfull, hperm⟩ := h.codes_of_two (by omega)
    have hlen : t.codes.length = n + 2 := by
      have := hperm.length_eq
      rwa [List.length_map, FreqTable.listed, List.length_map, List.length_range, hn] at this
    have hle := h.leafCnt_le
    exact fun x hx => ⟨hfull.length_pos_of_two_le (by omega) x hx, by have := hfull.length_lt x hx; omega⟩

theorem FreqTable.Wf.lists_codes : t.codebook.Lists t.codes :=
  t.codebook_eq_ofPaths ▸ Codebook.lists_ofPaths t.codes (h.values_codes.nodup_iff.mpr h.nodup_listed)
    fun x hx => (h.length_codes x hx).2

theorem FreqTable.Wf.mem_codes_iff (v : Byte) : v ∈ t.codes.map Prod.fst ↔ t.freqOf v ≠ 0 :=
  h.values_codes.mem_iff.trans (h.mem_listed_iff v)

/-- A value has a code exactly when it is present (`41_codebook.md` R193). -/
theorem FreqTable.Wf.lenOf_ne_zero_iff (v : Byte) : t.codebook.lenOf v ≠ 0 ↔ t.freqOf v ≠ 0 := by
  rw [← h.mem_codes_iff v]
  constructor
  · exact fun hlen => by_contra fun hv => hlen (h.lists_codes.absent v hv).1
  · intro hv hlen
    obtain ⟨x, hx, rfl⟩ := List.mem_map.mp hv
    have hpos := (h.length_codes x hx).1
    rw [← h.lists_codes.len x hx, hlen] at hpos
    exact absurd hpos (by decide)

/-- A present value's code is the path to its leaf (`41_codebook.md` R190). -/
theorem FreqTable.Wf.isCode_codeOf {v : Byte} (hv : t.freqOf v ≠ 0) :
    t.buildTree.1.IsCode (t.codebook.codeOf v) v := by
  obtain ⟨x, hx, rfl⟩ := List.mem_map.mp ((h.mem_codes_iff v).mpr hv)
  obtain ⟨hpos, hle⟩ := h.length_codes x hx
  obtain ⟨hleaf, hvalue, honly⟩ := t.buildTree.1.endsAt_of_mem_paths _ _ x hx
  rw [h.lists_codes.codeOf hx hle]
  exact ⟨List.ne_nil_of_length_pos hpos, hleaf, hvalue, honly⟩

/-- The Kraft sum over all byte values is the one over the paths: a value with no code adds nothing. -/
theorem FreqTable.Wf.sum_kraftTerm : (allBytes.map t.codebook.kraftTerm).sum = kraftSum 255 t.codes := by
  have hlists := h.lists_codes
  have hnodup : (t.codes.map Prod.fst).Nodup := h.values_codes.nodup_iff.mpr h.nodup_listed
  obtain ⟨rest, hperm⟩ := exists_perm_append_of_subset hnodup fun v _ => mem_allBytes v
  have hdisjoint := List.disjoint_of_nodup_append (hperm.nodup_iff.mp nodup_allBytes)
  have hrest : (rest.map t.codebook.kraftTerm).sum = 0 := by
    refine List.sum_eq_zero fun n hn => ?_
    obtain ⟨v, hv, rfl⟩ := List.mem_map.mp hn
    rw [Codebook.kraftTerm, (hlists.absent v fun hc => hdisjoint hc hv).1]
    rfl
  rw [(hperm.map _).sum_nat, List.map_append, List.sum_append_nat, hrest, Nat.add_zero, List.map_map, kraftSum]
  refine congrArg List.sum (List.map_congr_left fun x hx => ?_)
  have hpos := (h.length_codes x hx).1
  rw [Function.comp_apply, Codebook.kraftTerm, hlists.len x hx, if_neg (by omega)]

end

/-- Settles O35: the walker records the paths of the tree, which lead to each present value once. -/
theorem gencodeRecordsThePaths : Obligations.GencodeRecordsThePaths := by
  intro s hreq hwf hvalid htree
  have hbody : gencodeBody s = .ok { s.markCodebook with cb := s.ft.codebook } := by
    rw [gencodeBody, if_pos hvalid, gencodePhase, htree]
    rfl
  have hlists := hwf.lists_codes
  refine ⟨_, exec_gencode hreq, ?_⟩
  rw [hbody]
  exact ⟨⟨rfl, rfl⟩, rfl, rfl, fun v => (hwf.lenOf_ne_zero_iff v).symm,
    fun v hv => htree ▸ hwf.isCode_codeOf hv, hlists.bitsOf_lt, hlists.lenOf_le_maxLen, hlists.maxLen_attained⟩

/-- Settles O36: a code ends at a leaf, and no code passes another's leaf. -/
theorem codesArePrefixFree : Obligations.CodesArePrefixFree := fun _ h _ _ hu hv hne hprefix =>
  hne ((h.isCode_codeOf hu).eq_of_prefix (h.isCode_codeOf hv) hprefix)

/-- Settles O37: the paths of two or more leaves fill a binary tree, and those of one leaf half of one. -/
theorem codeLengthsMeetTheKraftEquality : Obligations.CodeLengthsMeetTheKraftEquality := by
  intro t h kraft
  have hkraft : kraft = kraftSum 255 t.codes := by
    rw [← h.sum_kraftTerm, allBytes, List.map_map]
    rfl
  refine ⟨fun hn => ?_, fun hn => ?_⟩
  · rw [hkraft, (h.codes_of_two hn).1.kraftSum_eq 255 fun x hx => (h.length_codes x hx).2]
  · rw [hkraft, FreqTable.codes_one hn]
    simp [kraftSum]

end Sys2Proof.Machine
end

