-- ==== Sys2Proof/Proofs/HeaderReader.lean ====
section
/-! PROOFS. PARSEHDR (`42_header.md` R213 to R216): the table after each record, the first check that fails, and the
header of a table, which is read back as that table. -/

namespace Sys2Proof.Machine

/-! ## The records of the input -/

/-- The byte value of record `k` of the input (`30_encoding.md` R118). -/
def State.recordValue (s : State) (k : Nat) : Byte := s.input (recordOffset k)

/-- The frequency of record `k` of the input (`30_encoding.md` R118). -/
def State.recordFreq (s : State) (k : Nat) : Word := s.input32 (recordOffset k + 1)

theorem State.recordFreq_eq (s : State) (k : Nat) : s.recordFreq k = s.input32 (5 + 5 * k) := by
  rw [State.recordFreq, recordOffset, show 4 + 5 * k + 1 = 5 + 5 * k by omega]

/-- The table of the first `n` records. -/
def State.recordTable (s : State) : Nat → FreqTable
  | 0 => FreqTable.empty
  | n + 1 => (s.recordTable n).append (s.recordValue n) (s.recordFreq n)

/-- The first `n` records pass the checks of `42_header.md` R213: no frequency is 0, and no value comes twice. -/
structure State.GoodRecords (s : State) (n : Nat) : Prop where
  nonzero  : ∀ k, k < n → s.recordFreq k ≠ 0
  distinct : ∀ j k, j < k → k < n → s.recordValue j ≠ s.recordValue k

theorem State.GoodRecords.mono {s : State} {m n : Nat} (h : s.GoodRecords n) (hmn : m ≤ n) : s.GoodRecords m where
  nonzero k hk := h.nonzero k (by omega)
  distinct j k hjk hk := h.distinct j k hjk (by omega)

section
variable {s : State} {n : Nat}

/-- The values in the table are those of the records. -/
theorem State.GoodRecords.freqOf_eq_zero_iff (h : s.GoodRecords n) (v : Byte) :
    (s.recordTable n).freqOf v = 0 ↔ ∀ k, k < n → s.recordValue k ≠ v := by
  induction n with
  | zero => simp [State.recordTable]
  | succ n ih =>
    rw [State.recordTable, FreqTable.freqOf_append, Nat.forall_lt_succ_right]
    by_cases hv : v = s.recordValue n
    · rw [if_pos hv]
      exact iff_of_false (h.nonzero n (by omega)) fun hne => hne.2 hv.symm
    · rw [if_neg hv, ih (h.mono (by omega))]
      exact (and_iff_left (Ne.symm hv)).symm

/-- The next record that passes the checks has a value not yet in the table. -/
theorem State.GoodRecords.freqOf_next (h : s.GoodRecords (n + 1)) :
    (s.recordTable n).freqOf (s.recordValue n) = 0 :=
  ((h.mono (by omega)).freqOf_eq_zero_iff _).mpr fun k hk => h.distinct k n hk (by omega)

theorem State.GoodRecords.wf_recordTable (h : s.GoodRecords n) : (s.recordTable n).Wf := by
  induction n with
  | zero => exact FreqTable.wf_empty
  | succ n ih => exact (ih (h.mono (by omega))).append h.freqOf_next (h.nonzero n (by omega))

theorem State.GoodRecords.toNat_leafCnt (h : s.GoodRecords n) : (s.recordTable n).leafCnt.toNat = n := by
  induction n with
  | zero => rfl
  | succ n ih =>
    have hn := h.mono (Nat.le_succ n)
    rw [State.recordTable, hn.wf_recordTable.toNat_leafCnt_append h.freqOf_next, ih hn]

/-- The table holds each record at its position. -/
theorem State.GoodRecords.record (h : s.GoodRecords n) : ∀ k, k < n →
    (s.recordTable n).orderAt k = s.recordValue k ∧ (s.recordTable n).freqOf (s.recordValue k) = s.recordFreq k := by
  induction n with
  | zero => exact fun k hk => absurd hk (Nat.not_lt_zero k)
  | succ n ih =>
    have hn := h.mono (Nat.le_succ n)
    have hroom := hn.wf_recordTable.leafCnt_lt_of_absent h.freqOf_next
    rw [Nat.forall_lt_succ_right]
    simp only [State.recordTable, FreqTable.orderAt_append, FreqTable.freqOf_append, hn.toNat_leafCnt] at hroom ⊢
    refine ⟨fun k hk => ?_, if_pos ⟨trivial, hroom⟩, if_pos trivial⟩
    rw [if_neg fun hc => hk.ne hc.1, if_neg (h.distinct k n hk (by omega))]
    exact ih hn k hk

/-! ## Parsing the records -/

/-- Good records enter the table in order, and nothing else changes (`42_header.md` R213). -/
theorem State.GoodRecords.parseRecords (h : s.GoodRecords n) :
    parseRecords n s.clearTable = .ok { s.clearTable with ft := s.recordTable n } := by
  induction n with
  | zero => rfl
  | succ n ih =>
    rw [Machine.parseRecords, ih (h.mono (by omega)), Run.ok_andThen]
    exact (if_neg (h.nonzero n (by omega))).trans (if_neg (not_not.mpr h.freqOf_next))

/-- The first record that fails a check ends the parsing. -/
theorem parseRecords_of_raised {k : Nat} {s u t : State} {e : ErrCode} {pos : Word} (hok : parseRecords k s = .ok u)
    (hfail : parseRecord k u = .raised e pos t) (hk : k < n) : parseRecords n s = .raised e pos t := by
  induction n, hk using Nat.le_induction with
  | base => rw [parseRecords, hok, Run.ok_andThen, hfail]
  | succ n _ ih => rw [parseRecords, ih, Run.raised_andThen]

/-- A frequency of 0 ends the parsing with an empty table (`42_header.md` R215). -/
theorem State.GoodRecords.zeroFrequency {k : Nat} (h : s.GoodRecords k) (hk : k < n) (hf : s.recordFreq k = 0) :
    Machine.parseRecords n s.clearTable = .raised .zeroFrequency (BitVec.ofNat 32 (recordOffset k)) s.clearTable :=
  parseRecords_of_raised h.parseRecords (if_pos hf) hk

/-- A value that comes again ends the parsing with an empty table (`42_header.md` R215). -/
theorem State.GoodRecords.duplicateValue {k : Nat} (h : s.GoodRecords k) (hk : k < n) (hf : s.recordFreq k ≠ 0)
    (hv : ∃ j, j < k ∧ s.recordValue j = s.recordValue k) :
    Machine.parseRecords n s.clearTable = .raised .duplicateValue (BitVec.ofNat 32 (recordOffset k)) s.clearTable := by
  obtain ⟨j, hj, he⟩ := hv
  have hpresent : (s.recordTable k).freqOf (s.recordValue k) ≠ 0 := fun hz =>
    (h.freqOf_eq_zero_iff _).mp hz j hj he
  exact parseRecords_of_raised h.parseRecords ((if_neg hf).trans (if_pos hpresent)) hk

/-! ## The checks before the records -/

theorem parseLeaves_of_noCount (hlen : s.inLen.toNat < 4) :
    parseLeaves s = failHeader .truncatedHeader s.inLen s := if_pos hlen

theorem parseLeaves_of_badCount (hlen : 4 ≤ s.inLen.toNat) (hn : 256 < (s.input32 0).toNat) :
    parseLeaves s = failHeader .badLeafCount 0 s := (if_neg (by omega)).trans (if_pos hn)

theorem parseLeaves_of_truncated (hlen : 4 ≤ s.inLen.toNat) (hn : (s.input32 0).toNat ≤ 256)
    (hcut : s.inLen.toNat < 4 + 5 * (s.input32 0).toNat) :
    parseLeaves s = failHeader .truncatedHeader s.inLen s :=
  (if_neg (by omega)).trans ((if_neg (by omega)).trans (if_pos hcut))

theorem parseLeaves_of_room (hn : (s.input32 0).toNat ≤ 256) (hroom : 4 + 5 * (s.input32 0).toNat ≤ s.inLen.toNat) :
    parseLeaves s = (parseRecords (s.input32 0).toNat s).andThen fun t =>
      .ok (t.markHeader (BitVec.ofNat 32 (4 + 5 * (s.input32 0).toNat))) :=
  (if_neg (by omega)).trans ((if_neg (by omega)).trans (if_neg (by omega)))

/-- PARSEHDR that passes its region check empties the table and parses (`42_header.md` R213). -/
theorem exec_parsehdr_leaves (hreq : s.work.abortReq = false) (hin : s.inBase.toNat + s.inLen.toNat ≤ s.memSize) :
    exec .parsehdr s = .next ((parseLeaves s.clearTable).settle false) := by
  rw [exec_parsehdr hreq, parsehdrBody, if_pos (State.inOk_iff.mpr hin), parsehdrPhase]

/-- PARSEHDR of a header that passes every check completes with the table of its records (`42_header.md` R213). -/
theorem State.GoodRecords.exec_parsehdr (h : s.GoodRecords (s.input32 0).toNat) (hreq : s.work.abortReq = false)
    (hin : s.inBase.toNat + s.inLen.toNat ≤ s.memSize)
    (hroom : 4 + 5 * (s.input32 0).toNat ≤ s.inLen.toNat) :
    exec .parsehdr s = .next { s with
      ft := s.recordTable (s.input32 0).toNat, bodyOff := BitVec.ofNat 32 (4 + 5 * (s.input32 0).toNat)
      status := Status.completed { s.status.invalidated with hdrValid := true }, work := Work.idle } := by
  have hn : (s.input32 0).toNat ≤ 256 := h.toNat_leafCnt ▸ h.wf_recordTable.leafCnt_le
  have hleaves : parseLeaves s.clearTable = (Machine.parseRecords (s.input32 0).toNat s.clearTable).andThen fun t =>
      .ok (t.markHeader (BitVec.ofNat 32 (4 + 5 * (s.input32 0).toNat))) :=
    parseLeaves_of_room (s := s.clearTable) hn hroom
  rw [exec_parsehdr_leaves hreq hin, hleaves, h.parseRecords]
  rfl

end

/-! ## The header of a table -/

/-- Two tables that meet the invariant and list the same pairs in the same order are equal (`10_state.md` R41). -/
theorem FreqTable.Wf.eq_of_pairs {t u : FreqTable} (ht : t.Wf) (hu : u.Wf) (hcnt : t.leafCnt = u.leafCnt)
    (hpair : ∀ k, k < u.leafCnt.toNat →
      t.orderAt k = u.orderAt k ∧ t.freqOf (u.orderAt k) = u.freqOf (u.orderAt k)) : t = u := by
  have hlisted : t.listed = u.listed := by
    rw [FreqTable.listed, FreqTable.listed, hcnt]
    exact List.map_congr_left fun k hk => (hpair k (List.mem_range.mp hk)).1
  have hfreqOf : ∀ v, t.freqOf v = u.freqOf v := fun v => by
    by_cases hv : v ∈ u.listed
    · obtain ⟨k, hk, rfl⟩ := List.mem_map.mp hv
      exact (hpair k (List.mem_range.mp hk)).2
    · rw [not_not.mp (mt (ht.mem_listed_iff v).mpr (hlisted ▸ hv)), not_not.mp (mt (hu.mem_listed_iff v).mpr hv)]
  have horderAt : ∀ k, k < 256 → t.orderAt k = u.orderAt k := fun k hk => by
    by_cases hlt : k < u.leafCnt.toNat
    · exact (hpair k hlt).1
    · rw [ht.unused k (hcnt ▸ Nat.not_lt.mp hlt) hk, hu.unused k (Nat.not_lt.mp hlt) hk]
  have hfreq : t.freq = u.freq := Vector.ext fun i hi => by
    simpa [FreqTable.freqOf, Nat.mod_eq_of_lt hi] using hfreqOf (BitVec.ofNat 8 i)
  have horder : t.order = u.order := Vector.ext fun i hi => by
    simpa [FreqTable.orderAt, hi] using horderAt i hi
  have htotal : t.total = u.total :=
    BitVec.eq_of_toNat_eq (by rw [ht.total, hu.total, FreqTable.sum, FreqTable.sum, hfreq])
  cases t
  cases u
  congr

section
variable {s : State} {t : FreqTable} (h : HoldsHeader s.readBuf s.inBase.toNat t)
include h

theorem HoldsHeader.input32_zero : s.input32 0 = t.leafCnt.zeroExtend 32 := by
  simpa [State.input32, State.input] using h.leafCount

theorem HoldsHeader.recordValue {k : Nat} (hk : k < t.leafCnt.toNat) : s.recordValue k = t.orderAt k := by
  rw [← h.value k hk, State.recordValue, State.input, recordOffset, Nat.add_assoc]

theorem HoldsHeader.recordFreq {k : Nat} (hk : k < t.leafCnt.toNat) : s.recordFreq k = t.freqOf (t.orderAt k) := by
  rw [← h.frequency k hk, State.recordFreq_eq]
  simp only [State.input32, State.input, ← Nat.add_assoc, Nat.add_right_comm _ (5 * k)]

theorem HoldsHeader.toNat_input32_zero : (s.input32 0).toNat = t.leafCnt.toNat := by
  rw [h.input32_zero]
  exact BitVec.toNat_setWidth_of_le (by decide)

/-- The records of a table that meets the invariant pass PARSEHDR's checks (`42_header.md` R216). -/
theorem HoldsHeader.goodRecords (ht : t.Wf) : s.GoodRecords t.leafCnt.toNat where
  nonzero k hk := by
    rw [h.recordFreq hk]
    exact ht.listed k hk
  distinct j k hjk hk := by
    rw [h.recordValue (hjk.trans hk), h.recordValue hk]
    exact ht.distinct j k hjk hk

/-- The records of a table make that table (`42_header.md` R216). -/
theorem HoldsHeader.recordTable (ht : t.Wf) : s.recordTable t.leafCnt.toNat = t := by
  have hgood := h.goodRecords ht
  refine hgood.wf_recordTable.eq_of_pairs ht (BitVec.eq_of_toNat_eq hgood.toNat_leafCnt) fun k hk => ?_
  obtain ⟨horder, hfreq⟩ := hgood.record k hk
  rw [← h.recordValue hk, hfreq, h.recordFreq hk, h.recordValue hk]
  exact ⟨horder.trans (h.recordValue hk), rfl⟩

/-- PARSEHDR of the header of a table completes with that table (`42_header.md` R216). -/
theorem HoldsHeader.exec_parsehdr (ht : t.Wf) (hreq : s.work.abortReq = false)
    (hin : s.inBase.toNat + s.inLen.toNat ≤ s.memSize) (hroom : t.headerLen ≤ s.inLen.toNat) :
    exec .parsehdr s = .next { s with
      ft := t, bodyOff := BitVec.ofNat 32 t.headerLen
      status := Status.completed { s.status.invalidated with hdrValid := true }, work := Work.idle } := by
  have hgood := h.goodRecords ht
  have hcnt := h.toNat_input32_zero
  rw [← hcnt] at hgood
  rw [FreqTable.headerLen, ← hcnt] at hroom ⊢
  rw [hgood.exec_parsehdr hreq hin hroom, hcnt, h.recordTable ht]

end

/-! ## The obligations -/

/-- Settles O41: the records before the failing check are good ones, and whichever check fails, the table is the
empty one with which the parsing began. -/
theorem parsehdrRejectsInOrder : Obligations.ParsehdrRejectsInOrder := by
  intro s hreq hin n val freq rejects
  have hrejects : ∀ (e : ErrCode) (pos : Nat),
      parseLeaves s.clearTable = .raised e (BitVec.ofNat 32 pos) s.clearTable → rejects e.code pos :=
    fun e pos h => ⟨Work.idle, ⟨rfl, rfl⟩, by rw [exec_parsehdr_leaves hreq hin, h]; rfl⟩
  have hlen : BitVec.ofNat 32 s.inLen.toNat = s.inLen := by rw [BitVec.ofNat_toNat, BitVec.setWidth_eq]
  refine ⟨fun hshort => hrejects .truncatedHeader _ ?_, fun hcount hn => hrejects .badLeafCount _ ?_,
    fun hcount hn hcut => hrejects .truncatedHeader _ ?_, fun hn hroom k hk hnonzero hdistinct => ?_⟩
  · rw [hlen]
    exact parseLeaves_of_noCount (s := s.clearTable) hshort
  · exact parseLeaves_of_badCount (s := s.clearTable) hcount hn
  · rw [hlen]
    exact parseLeaves_of_truncated (s := s.clearTable) hcount hn hcut
  · have hgood : s.GoodRecords k := ⟨fun j hj => s.recordFreq_eq j ▸ hnonzero j hj, hdistinct⟩
    have hraised : ∀ e, parseRecords n s.clearTable = .raised e (BitVec.ofNat 32 (4 + 5 * k)) s.clearTable →
        rejects e.code (4 + 5 * k) := fun e he =>
      hrejects e _ ((parseLeaves_of_room (s := s.clearTable) hn hroom).trans (congrArg (Run.andThen · _) he))
    have hfreq : s.recordFreq k = freq k := s.recordFreq_eq k
    exact ⟨fun hz => hraised _ (hgood.zeroFrequency hk (hfreq.trans hz)),
      fun hnz hdup => hraised _ (hgood.duplicateValue hk (hfreq ▸ hnz) hdup)⟩

/-- Settles O42: the records of a table are good ones, and the table they make lists the same pairs in the same
order, which under the invariant makes it the same table. -/
theorem headerRoundTrip : Obligations.HeaderRoundTrip := by
  intro s table hreq ht hin hroom hheader
  have hlt := s.inLen.isLt
  refine ⟨_, _, hheader.exec_parsehdr ht hreq hin hroom, rfl, rfl, ?_, exec_build_tree rfl, rfl⟩
  exact (BitVec.toNat_ofNat _ _).trans (Nat.mod_eq_of_lt (by omega))

end Sys2Proof.Machine
end

