-- ==== Sys2Proof/Proofs/HeaderWriter.lean ====
section
/-! PROOFS. WRHDR (`42_header.md` R211, R212): the bytes of a header, one by one, and the output region they are
appended to. -/

namespace Sys2Proof.Machine

/-! ## The bytes of a header -/

theorem FreqTable.length_records (t : FreqTable) (n : Nat) :
    ((List.range n).flatMap t.recordBytes).length = 5 * n := by
  simp [List.length_flatMap, Nat.mul_comm]

theorem FreqTable.length_headerBytes (t : FreqTable) : t.headerBytes.length = t.headerLen := by
  rw [FreqTable.headerBytes, List.length_append, length_be32Bytes, FreqTable.length_records, FreqTable.headerLen]

/-- The records follow one another, five bytes each (`30_encoding.md` R118). -/
theorem FreqTable.getElem?_records (t : FreqTable) {n k i : Nat} (hk : k < n) (hi : i < 5) :
    ((List.range n).flatMap t.recordBytes)[5 * k + i]? = (t.recordBytes k)[i]? := by
  induction n with
  | zero => exact absurd hk (Nat.not_lt_zero k)
  | succ n ih =>
    have hlen := t.length_records n
    rw [List.range_succ, List.flatMap_append, List.flatMap_singleton]
    rcases Nat.lt_succ_iff_lt_or_eq.mp hk with hlt | rfl
    · rw [List.getElem?_append_left (by omega), ih hlt]
    · rw [List.getElem?_append_right (by omega), hlen, Nat.add_sub_cancel_left]

/-- The leaf count stands in the first four bytes. -/
theorem FreqTable.getElem?_headerBytes_count (t : FreqTable) {i : Nat} (hi : i < 4) :
    t.headerBytes[i]? = (be32Bytes (t.leafCnt.zeroExtend 32))[i]? :=
  List.getElem?_append_left hi

/-- Record `k` stands at its offset. -/
theorem FreqTable.getElem?_headerBytes_record (t : FreqTable) {k i : Nat} (hk : k < t.leafCnt.toNat) (hi : i < 5) :
    t.headerBytes[4 + 5 * k + i]? = (t.recordBytes k)[i]? := by
  rw [FreqTable.headerBytes, List.getElem?_append_right (by rw [length_be32Bytes]; omega), length_be32Bytes,
    show 4 + 5 * k + i - 4 = 5 * k + i by omega, t.getElem?_records hk hi]

/-- Four bytes that are those of a word, most significant first, read as that word (`20_memory.md` R83). -/
theorem be32_of_getElem? {w : Word} {f : Nat → Byte} (h : ∀ i, i < 4 → (be32Bytes w)[i]? = some (f i)) :
    be32 (f 0) (f 1) (f 2) (f 3) = w := by
  rw [← Option.some.inj (h 0 (by omega)), ← Option.some.inj (h 1 (by omega)), ← Option.some.inj (h 2 (by omega)),
    ← Option.some.inj (h 3 (by omega))]
  exact be32_of_be32Bytes w

/-- Where the header's bytes lie, the header lies (`30_encoding.md` R117, R118). -/
theorem FreqTable.holdsHeader_of_bytes {t : FreqTable} {read : Nat → Byte} {a : Nat}
    (h : ∀ i, i < t.headerLen → t.headerBytes[i]? = some (read (a + i))) : HoldsHeader read a t := by
  rw [FreqTable.headerLen] at h
  have hcount : ∀ i, i < 4 → (be32Bytes (t.leafCnt.zeroExtend 32))[i]? = some (read (a + i)) := fun i hi =>
    (t.getElem?_headerBytes_count hi).symm.trans (h i (by omega))
  have hrecord : ∀ k, k < t.leafCnt.toNat → ∀ i, i < 5 →
      (t.recordBytes k)[i]? = some (read (a + (4 + 5 * k + i))) := fun k hk i hi =>
    (t.getElem?_headerBytes_record hk hi).symm.trans (h _ (by omega))
  constructor
  case leafCount => exact be32_of_getElem? (f := fun i => read (a + i)) hcount
  case value =>
    intro k hk
    rw [Nat.add_assoc]
    exact (Option.some.inj (hrecord k hk 0 (by omega))).symm
  case frequency =>
    intro k hk
    rw [show a + 5 + 5 * k = a + (4 + 5 * k + 1) by omega, show a + 6 + 5 * k = a + (4 + 5 * k + 2) by omega,
      show a + 7 + 5 * k = a + (4 + 5 * k + 3) by omega, show a + 8 + 5 * k = a + (4 + 5 * k + 4) by omega]
    exact be32_of_getElem? (f := fun i => read (a + (4 + 5 * k + (i + 1)))) fun i hi =>
      hrecord k hk (i + 1) (by omega)

/-! ## WRHDR -/

/-- With room for the header, WRHDR's phase appends it at OUT_LEN and leaves every other byte as before
(`42_header.md` R211). -/
theorem wrhdrPhase_of_room {s : State} (hroom : s.outLen.toNat + s.ft.headerLen ≤ s.outCap.toNat) :
    ∃ m, wrhdrPhase s = .ok { s with buf := m, outLen := s.outLen + BitVec.ofNat 32 s.ft.headerLen } ∧
      HoldsHeader (State.readBuf { s with buf := m }) (s.outBase.toNat + s.outLen.toNat) s.ft ∧
      ∀ a, (a < s.outBase.toNat + s.outLen.toNat ∨ s.outBase.toNat + s.outLen.toNat + s.ft.headerLen ≤ a) →
        State.readBuf { s with buf := m } a = s.readBuf a := by
  have hlen := s.ft.length_headerBytes
  obtain ⟨m, hrun, -, hget⟩ := outAll_of_fits s.ft.headerBytes s (by rw [hlen]; exact hroom)
  rw [hlen] at hrun hget
  refine ⟨m, hrun, FreqTable.holdsHeader_of_bytes fun i hi => ?_, fun a ha => ?_⟩
  · rw [State.readBuf, hget, if_pos (by omega), Nat.add_sub_cancel_left, List.getElem?_eq_getElem (hlen ▸ hi)]
    rfl
  · rw [State.readBuf, hget, if_neg (by omega)]
    rfl

/-- Settles O38: with room for it, the output primitive appends every byte of the header. -/
theorem wrhdrAppendsTheHeader : Obligations.WrhdrAppendsTheHeader := by
  intro s hreq hregion _ hroom
  obtain ⟨m, hrun, hheader, hframe⟩ := wrhdrPhase_of_room (s := s.startOutput) hroom
  have hbody : wrhdrBody s = wrhdrPhase s.startOutput := if_pos (State.outOk_iff.mpr ⟨hregion, by omega⟩)
  have hcap := s.outCap.isLt
  have hlen : (s.outLen + BitVec.ofNat 32 s.ft.headerLen).toNat = s.outLen.toNat + s.ft.headerLen := by
    rw [BitVec.toNat_add, BitVec.toNat_ofNat]
    omega
  refine ⟨_, exec_wrhdr hreq, ?_⟩
  rw [hbody, hrun]
  refine ⟨⟨rfl, rfl⟩, rfl, hlen, hheader, fun a ha => hframe a ?_⟩
  change a < s.outBase.toNat + s.outLen.toNat ∨
    s.outBase.toNat + (s.outLen + BitVec.ofNat 32 s.ft.headerLen).toNat ≤ a at ha
  rw [hlen, ← Nat.add_assoc] at ha
  exact ha

end Sys2Proof.Machine
end

