-- ==== Sys2Proof/Proofs/Encoder.lean ====
section
/-! PROOFS. ENCODE (`43_encoder.md` R241 to R245): the bytes of a bit string's body and trailer, the bit packer as
the output of those bytes, and the output region they are appended to. -/

namespace Sys2Proof.Machine

/-! ## The bytes of a bit string -/

/-- The accumulator with one more bit (`43_encoder.md` R243). -/
def pushBit (a : Byte) (b : Bool) : Byte := (a <<< 1) ||| BitVec.zeroExtend 8 (BitVec.ofBool b)

/-- The accumulator a bit string leaves, pushed into an empty one. -/
def packedByte (bits : List Bool) : Byte := bits.foldl pushBit 0

/-- The full bytes of the packed body (`30_encoding.md` R119). -/
def fullBytes (bits : List Bool) : List Byte :=
  (List.range (bits.length / 8)).map fun j => packedByte ((bits.drop (8 * j)).take 8)

/-- The bits after the last full byte. -/
def leftover (bits : List Bool) : List Bool := bits.drop (8 * (bits.length / 8))

/-- The trailer (`43_encoder.md` R244): marker and final byte, and none for an empty table. -/
def FreqTable.trailerBytes (t : FreqTable) (bits : List Bool) : List Byte :=
  if t.leafCnt = 0 then []
  else [BitVec.ofNat 8 (bits.length % 8), packedByte (leftover bits) <<< (8 - bits.length % 8)]

/-- Everything ENCODE outputs for a bit string. -/
def FreqTable.encodedBytes (t : FreqTable) (bits : List Bool) : List Byte := fullBytes bits ++ t.trailerBytes bits

theorem packedByte_concat (bits : List Bool) (b : Bool) :
    packedByte (bits ++ [b]) = pushBit (packedByte bits) b := by
  rw [packedByte, List.foldl_append]
  rfl

theorem getLsbD_pushBit_zero (a : Byte) (b : Bool) : (pushBit a b).getLsbD 0 = b := by
  simp [pushBit]

theorem getLsbD_pushBit_succ (a : Byte) (b : Bool) {i : Nat} (hi : i + 1 < 8) :
    (pushBit a b).getLsbD (i + 1) = a.getLsbD i := by
  simp [pushBit, hi, BitVec.getLsbD_eq_getElem (show i < 8 by omega)]

/-- The accumulator holds the last eight bits, the last of them in bit 0. -/
theorem getLsbD_packedByte (bits : List Bool) {i : Nat} (hi : i < 8) :
    (packedByte bits).getLsbD i = bits.reverse.getD i false := by
  induction bits using List.reverseRecOn generalizing i with
  | nil => simp [packedByte]
  | append_singleton bits b ih =>
    rw [packedByte_concat, List.reverse_concat]
    cases i with
    | zero => exact getLsbD_pushBit_zero _ b
    | succ i => rw [getLsbD_pushBit_succ _ b hi, ih (by omega), List.getD_cons_succ]

@[simp] theorem length_fullBytes (bits : List Bool) : (fullBytes bits).length = bits.length / 8 := by
  simp [fullBytes]

@[simp] theorem length_leftover (bits : List Bool) : (leftover bits).length = bits.length % 8 := by
  rw [leftover, List.length_drop]
  omega

theorem FreqTable.length_encodedBytes (t : FreqTable) (bits : List Bool) :
    (t.encodedBytes bits).length = bits.length / 8 + (if t.leafCnt = 0 then 0 else 2) := by
  rw [FreqTable.encodedBytes, List.length_append, length_fullBytes, FreqTable.trailerBytes]
  split <;> rfl

/-- One more bit makes the full bytes of the bits before it no different but for a byte it completes. -/
theorem fullBytes_concat (bits : List Bool) (b : Bool) :
    fullBytes (bits ++ [b]) =
      fullBytes bits ++ (if bits.length % 8 = 7 then [packedByte (leftover bits ++ [b])] else []) := by
  have hold : ∀ j ∈ List.range (bits.length / 8), packedByte (((bits ++ [b]).drop (8 * j)).take 8) =
      packedByte ((bits.drop (8 * j)).take 8) := fun j hj => by
    rw [List.mem_range] at hj
    rw [List.drop_append_of_le_length (by omega), List.take_append_of_le_length (by rw [List.length_drop]; omega)]
  rw [fullBytes, List.length_append, List.length_singleton]
  split
  · next h7 =>
    have hlen := length_leftover bits
    rw [show (bits.length + 1) / 8 = bits.length / 8 + 1 by omega, List.range_succ, List.map_append,
      List.map_congr_left hold, List.map_singleton, List.drop_append_of_le_length (by omega), ← leftover,
      List.take_of_length_le (by rw [List.length_append, List.length_singleton]; omega)]
    rfl
  · next h7 =>
    rw [show (bits.length + 1) / 8 = bits.length / 8 by omega, List.map_congr_left hold, List.append_nil]
    rfl

theorem leftover_concat (bits : List Bool) (b : Bool) :
    leftover (bits ++ [b]) = if bits.length % 8 = 7 then [] else leftover bits ++ [b] := by
  rw [leftover, List.length_append, List.length_singleton]
  split
  · next h7 => exact List.drop_of_length_le (by rw [List.length_append, List.length_singleton]; omega)
  · next h7 =>
    rw [show (bits.length + 1) / 8 = bits.length / 8 by omega, List.drop_append_of_le_length (by omega), leftover]

/-! ## The bytes are the body -/

/-- Bit `7 - i` of full byte `j` is bit `8 * j + i` of the string. -/
theorem getLsbD_fullByte (bits : List Bool) {j i : Nat} (hj : j < bits.length / 8) (hi : i < 8) :
    (packedByte ((bits.drop (8 * j)).take 8)).getLsbD (7 - i) = bits.getD (8 * j + i) false := by
  have hlen : ((bits.drop (8 * j)).take 8).length = 8 := by
    rw [List.length_take, List.length_drop]
    omega
  rw [getLsbD_packedByte _ (by omega), List.getD_eq_getElem?_getD, List.getElem?_reverse (by omega), hlen,
    show 8 - 1 - (7 - i) = i by omega, List.getElem?_take_of_lt hi, List.getElem?_drop,
    List.getD_eq_getElem?_getD]

/-- The leftover bits stand at the top of the final byte, over zeros. -/
theorem getLsbD_finalByte (bits : List Bool) {i : Nat} (hi : i < 8) :
    (packedByte (leftover bits) <<< (8 - bits.length % 8)).getLsbD (7 - i) =
      (decide (i < bits.length % 8) && bits.getD (8 * (bits.length / 8) + i) false) := by
  have hlen := length_leftover bits
  rw [BitVec.getLsbD_shiftLeft, decide_eq_true (show 7 - i < 8 by omega), Bool.true_and]
  by_cases hr : i < bits.length % 8
  · rw [decide_eq_false (show ¬ 7 - i < 8 - bits.length % 8 by omega), decide_eq_true hr,
      getLsbD_packedByte _ (by omega), List.getD_eq_getElem?_getD, List.getElem?_reverse (by omega), hlen,
      show bits.length % 8 - 1 - (7 - i - (8 - bits.length % 8)) = i by omega, leftover, List.getElem?_drop,
      List.getD_eq_getElem?_getD]
    rfl
  · rw [decide_eq_true (show 7 - i < 8 - bits.length % 8 by omega), decide_eq_false hr]
    rfl

/-- Where the bytes of a body lie, the body lies (`30_encoding.md` R119). -/
theorem FreqTable.holdsBody_of_bytes {t : FreqTable} {read : Nat → Byte} {a : Nat} {bits : List Bool}
    (ht : t.leafCnt ≠ 0)
    (h : ∀ i, i < (t.encodedBytes bits).length → (t.encodedBytes bits)[i]? = some (read (a + i))) :
    HoldsBody read a bits := by
  rw [t.length_encodedBytes, if_neg ht, FreqTable.encodedBytes, FreqTable.trailerBytes, if_neg ht] at h
  have hlen := length_fullBytes bits
  have htail : ∀ k, k < 2 →
      [BitVec.ofNat 8 (bits.length % 8), packedByte (leftover bits) <<< (8 - bits.length % 8)][k]? =
        some (read (a + (bits.length / 8 + k))) := fun k hk => by
    rw [← h _ (by omega), List.getElem?_append_right (by omega), hlen, Nat.add_sub_cancel_left]
  constructor
  case packed =>
    intro j hj i hi
    have hbyte := h j (by omega)
    rw [List.getElem?_append_left (by omega), fullBytes, List.getElem?_map, List.getElem?_range hj] at hbyte
    rw [← Option.some.inj hbyte]
    exact getLsbD_fullByte bits hj hi
  case marker => exact (Option.some.inj (htail 0 (by omega))).symm
  case final =>
    intro i hi
    rw [Nat.add_assoc, ← Option.some.inj (htail 1 (by omega))]
    exact getLsbD_finalByte bits hi

/-! ## The packer's registers do not outlive the command

ACC and NA are busy-only state, so two runs that differ in nothing else complete alike, however they end. -/

section
variable {w : Bool}

@[simp] theorem Run.andThen_ok (r : Run) : r.andThen .ok = r := by cases r <;> rfl

theorem Run.settle_andThen_congr {r : Run} {f g : State → Run}
    (h : ∀ t, r = .ok t → (f t).settle w = (g t).settle w) : (r.andThen f).settle w = (r.andThen g).settle w := by
  cases r with
  | ok t => exact h t rfl
  | raised e pos t => rfl

/-- `out` neither reads nor writes the packer. -/
theorem settle_out_setPacker (b : Byte) (s : State) (a : Byte) (n : BitVec 4) {f g : State → Run}
    (h : ∀ t, (f (t.setPacker a n)).settle w = (g t).settle w) :
    ((out b (s.setPacker a n)).andThen f).settle w = ((out b s).andThen g).settle w := by
  by_cases hfull : s.outLen = s.outCap
  · rw [out_of_full b (s := s.setPacker a n) hfull, out_of_full b hfull]
    cases w <;> rfl
  · rw [out_of_room b (s := s.setPacker a n) hfull, out_of_room b hfull]
    exact h { s.writeBuf (s.outBase.toNat + s.outLen.toNat) b with outLen := s.outLen + 1 }

/-! ## The packer -/

theorem packBit_of_fewer (b : Bool) (s : State) (a : Byte) {n : Nat} (hn : n < 7) :
    packBit b (s.setPacker a (BitVec.ofNat 4 n)) = .ok (s.setPacker (pushBit a b) (BitVec.ofNat 4 (n + 1))) := by
  have hne : BitVec.ofNat 4 (n + 1) ≠ 8 := by bv_omega
  rw [BitVec.ofNat_add] at hne ⊢
  exact if_neg hne

theorem packBit_of_seven (b : Bool) (s : State) (a : Byte) :
    packBit b (s.setPacker a (BitVec.ofNat 4 7)) =
      (out (pushBit a b) (s.setPacker (pushBit a b) 8)).andThen fun t => .ok (t.setPacker 0 0) := rfl

theorem packBits_append (bs cs : List Bool) (s : State) :
    packBits (bs ++ cs) s = (packBits bs s).andThen (packBits cs) := by
  induction bs generalizing s with
  | nil => rfl
  | cons b bs ih =>
    rw [List.cons_append, packBits, packBits, Run.andThen_assoc]
    exact congrArg _ (funext ih)

/-- Packing a bit string outputs its full bytes and leaves the rest in ACC (`43_encoder.md` R243): whatever follows,
the command completes alike. -/
theorem settle_packBits (bits : List Bool) (s : State) (f : State → Run) :
    ((packBits bits (s.setPacker 0 0)).andThen f).settle w =
      ((outAll (fullBytes bits) s).andThen fun t =>
        f (t.setPacker (packedByte (leftover bits)) (BitVec.ofNat 4 (bits.length % 8)))).settle w := by
  induction bits using List.reverseRecOn generalizing f with
  | nil => rfl
  | append_singleton bits b ih =>
    have hbit : packBits [b] = packBit b := funext fun t => Run.andThen_ok (packBit b t)
    rw [packBits_append, hbit, Run.andThen_assoc, ih, fullBytes_concat, leftover_concat, List.length_append,
      List.length_singleton, outAll_append, Run.andThen_assoc]
    refine Run.settle_andThen_congr fun t _ => ?_
    by_cases h7 : bits.length % 8 = 7
    · rw [h7, packBit_of_seven, ← packedByte_concat, if_pos rfl, if_pos rfl, Run.andThen_assoc,
        show (bits.length + 1) % 8 = 0 by omega, outAll_cons, Run.andThen_assoc]
      exact settle_out_setPacker _ t _ _ fun _ => rfl
    · rw [if_neg h7, if_neg h7, packBit_of_fewer b t _ (by omega), ← packedByte_concat,
        show (bits.length + 1) % 8 = bits.length % 8 + 1 by omega]
      rfl

/-- The trailer, written of what the packer was left with (`43_encoder.md` R244). -/
theorem settle_writeTrailer (bits : List Bool) (s : State) :
    (writeTrailer (s.setPacker (packedByte (leftover bits)) (BitVec.ofNat 4 (bits.length % 8)))).settle w =
      (outAll (s.ft.trailerBytes bits) s).settle w := by
  rw [writeTrailer, State.setPacker_ft, FreqTable.trailerBytes]
  split
  · rfl
  · have hna : BitVec.zeroExtend 8 (BitVec.ofNat 4 (bits.length % 8)) = BitVec.ofNat 8 (bits.length % 8) :=
      BitVec.eq_of_toNat_eq (by simp; omega)
    have hcount : (BitVec.ofNat 4 (bits.length % 8)).toNat = bits.length % 8 := by
      rw [BitVec.toNat_ofNat]
      omega
    rw [State.setPacker_work, hna, outAll_cons]
    refine settle_out_setPacker _ s _ _ fun t => ?_
    rw [State.setPacker_work, hcount, ← Run.andThen_ok (out _ (t.setPacker _ _)), outAll_cons]
    exact settle_out_setPacker _ t _ _ fun _ => rfl

/-! ## ENCODE -/

theorem State.OutputStep.cb_eq {s t : State} (h : s.OutputStep t) : t.cb = s.cb := by
  obtain ⟨_, _, _, rfl⟩ := h
  rfl

theorem Codebook.bitString_cons (c : Codebook) (b : Byte) (bs : List Byte) :
    c.bitString (b :: bs) = c.codeOf b ++ c.bitString bs := List.flatMap_cons

/-- Input bytes that all have a code are packed as one bit string (`43_encoder.md` R241, R242). -/
theorem encodeBytes_of_coded {bs : List Byte} {s : State} (i : Nat) (h : ∀ b ∈ bs, s.cb.lenOf b ≠ 0) :
    encodeBytes i bs s = packBits (s.cb.bitString bs) s := by
  induction bs generalizing i s with
  | nil => rfl
  | cons b bs ih =>
    obtain ⟨hb, hbs⟩ := List.forall_mem_cons.mp h
    have hstep := packBits_outputStep (s.cb.codeOf b) s
    rw [encodeBytes, encodeByte, if_neg hb, Codebook.bitString_cons, packBits_append]
    cases hrun : packBits (s.cb.codeOf b) s with
    | ok t =>
      have hcb : t.cb = s.cb := by
        rw [hrun] at hstep
        exact hstep.cb_eq
      rw [Run.ok_andThen, Run.ok_andThen, ih (i + 1) (hcb ▸ hbs), hcb]
    | raised e pos t => rfl

/-- ENCODE of bytes that all have a code completes as the output of their body's bytes does, with room for them or
without. -/
theorem settle_encodePhase {s : State} (h : ∀ b ∈ s.inputBytes, s.cb.lenOf b ≠ 0) :
    (encodePhase s).settle w =
      (outAll (s.ft.encodedBytes (s.cb.bitString s.inputBytes)) s).settle w := by
  rw [encodePhase, encodeBytes_of_coded (s := s.setPacker 0 0) 0 h, State.setPacker_cb, settle_packBits,
    FreqTable.encodedBytes, outAll_append]
  refine Run.settle_andThen_congr fun t ht => ?_
  have hft : t.ft = s.ft := by
    have hstep := outAll_outputStep (fullBytes (s.cb.bitString s.inputBytes)) s
    rw [ht] at hstep
    exact hstep.ft_eq
  rw [settle_writeTrailer, hft]

/-- With room for the body and the trailer, ENCODE's phase appends them at OUT_LEN, leaves every other byte as
before, and completes. -/
theorem settle_encodePhase_of_room {s : State} {bits : List Bool} (hbits : s.cb.bitString s.inputBytes = bits)
    (hcoded : ∀ b ∈ s.inputBytes, s.cb.lenOf b ≠ 0)
    (hroom : s.outLen.toNat + (s.ft.encodedBytes bits).length ≤ s.outCap.toNat) :
    ∃ m n, (encodePhase s).settle w = State.complete { s with buf := m, outLen := n } ∧
      n.toNat = s.outLen.toNat + (s.ft.encodedBytes bits).length ∧
      (s.ft.leafCnt ≠ 0 →
        HoldsBody (State.readBuf { s with buf := m }) (s.outBase.toNat + s.outLen.toNat) bits) ∧
      ∀ a, (a < s.outBase.toNat + s.outLen.toNat ∨ s.outBase.toNat + n.toNat ≤ a) →
        State.readBuf { s with buf := m } a = s.readBuf a := by
  obtain ⟨m, hrun, -, hget⟩ := outAll_of_fits _ s hroom
  have hcap := s.outCap.isLt
  have hlen : (s.outLen + BitVec.ofNat 32 (s.ft.encodedBytes bits).length).toNat =
      s.outLen.toNat + (s.ft.encodedBytes bits).length := by
    rw [BitVec.toNat_add, BitVec.toNat_ofNat]
    omega
  refine ⟨m, _, by rw [settle_encodePhase hcoded, hbits, hrun]; rfl, hlen, fun ht => ?_, fun a ha => ?_⟩
  · refine FreqTable.holdsBody_of_bytes ht fun i hi => ?_
    rw [State.readBuf, hget, if_pos (by omega), Nat.add_sub_cancel_left, List.getElem?_eq_getElem hi]
    rfl
  · rw [hlen] at ha
    rw [State.readBuf, hget, if_neg (by omega)]
    rfl

end

/-- Settles O43: ENCODE completes as the output of the body's bytes does, and these fit. -/
theorem encodeAppendsBodyAndTrailer : Obligations.EncodeAppendsBodyAndTrailer := by
  intro s hreq hvalid hin hout hdis hcoded bits size hroom
  have hlen : (s.ft.encodedBytes bits).length = size := s.ft.length_encodedBytes bits
  obtain ⟨m, n, hrun, hn, hbody, hframe⟩ :=
    settle_encodePhase_of_room (w := true) (s := s.startOutput) rfl hcoded (hlen ▸ hroom)
  have hchecks : (s.inOk && s.outOk && s.disjoint) = true := by
    simp only [Bool.and_eq_true, State.inOk_iff, State.outOk_iff, State.disjoint_iff]
    exact ⟨⟨hin, hout, by omega⟩, hdis⟩
  have hphase : encodeBody s = encodePhase s.startOutput := by rw [encodeBody, if_pos hvalid, if_pos hchecks]
  refine ⟨_, exec_encode hreq, ?_⟩
  rw [hphase, hrun]
  exact ⟨⟨rfl, rfl⟩, rfl, hn.trans (congrArg _ hlen), hbody, hframe⟩

end Sys2Proof.Machine
end

