-- ==== Sys2Proof/Proofs/Decoder.lean ====
section
/-! PROOFS. DECODE (`44_decoder.md` R271 to R277): the body as a list of bits that no output of the command changes,
and the walk over the bits of a message's codes as the output of the message. -/

namespace Sys2Proof.Machine

/-! ## The body as a list of bits -/

/-- The bits of the body, each with the input offset of its byte (`44_decoder.md` R272). -/
def State.placedBits (s : State) : List (Bool × Nat) :=
  (List.range (8 * (s.bodyBytes - 2) + s.marker)).map (s.bitAt s.bodyBytes)

theorem State.map_fst_placedBits (s : State) : s.placedBits.map Prod.fst = s.bodyBits := List.map_map

/-- `decodeBit`, with the bit and the offset of its byte given. -/
def readBit (bp : Bool × Nat) (s : State) : Run :=
  (detectLeaf (BitVec.ofNat 32 bp.2) s).andThen fun s =>
    (descend bp.1 (BitVec.ofNat 32 bp.2) s).andThen fun s => .ok s.nextBit

/-- The decoder's loop over a list of bits. -/
def readBits : List (Bool × Nat) → State → Run
  | [], s => .ok s
  | bp :: rest, s => (readBit bp s).andThen (readBits rest)

theorem decodeBit_eq_readBit (r : Nat) (s : State) :
    decodeBit r s = readBit (s.bitAt r s.work.kbit.toNat) s := rfl

theorem descend_of_null {s : State} {b : Bool} (p : Word) (h : s.arena.child s.work.cur b = Config.null) :
    descend b p s = .raised .invalidTreeWalk p s := if_pos h

theorem descend_of_child {s : State} {b : Bool} (p : Word) (h : s.arena.child s.work.cur b ≠ Config.null) :
    descend b p s = .ok (s.setCursor (s.arena.child s.work.cur b)) := if_neg h

theorem readBits_append (ps qs : List (Bool × Nat)) (s : State) :
    readBits (ps ++ qs) s = (readBits ps s).andThen (readBits qs) := by
  induction ps generalizing s with
  | nil => rfl
  | cons bp ps ih =>
    rw [List.cons_append, readBits, readBits, Run.andThen_assoc]
    exact congrArg _ (funext ih)

/-! ## The body stays as it is -/

/-- Every input byte lies outside an output region that is disjoint from the input (`20_memory.md` R89). -/
theorem State.input_outside_output {s : State} (h : s.disjoint = true) {i : Nat} (hi : i < s.inLen.toNat) :
    s.inBase.toNat + i < s.outBase.toNat ∨ s.outBase.toNat + s.outCap.toNat ≤ s.inBase.toNat + i := by
  rcases State.disjoint_iff.mp h with h | h | h | h
  · simp [h] at hi
  · have hcap : s.outCap.toNat = 0 := by rw [h]; rfl
    omega
  · omega
  · omega

/-- `t` is a state of a decoder's run from `s` with `k` bits read: what it has written lies in the output region. -/
structure State.Reading (s : State) (k : Nat) (t : State) : Prop where
  step   : s.OutputStep t
  kbit   : t.work.kbit.toNat = k
  outLen : t.outLen.toNat ≤ s.outCap.toNat
  bytes  : ∀ a, (a < s.outBase.toNat ∨ s.outBase.toNat + s.outCap.toNat ≤ a) → t.readBuf a = s.readBuf a

section
variable {s t : State} {k : Nat} (h : s.Reading k t)
include h

theorem State.Reading.setWork {j : Nat} {w : Work} (hw : w.kbit.toNat = j) :
    s.Reading j { t with work := w } where
  step := h.step.trans (.work t w)
  kbit := hw
  outLen := h.outLen
  bytes := h.bytes

theorem State.Reading.out (b : Byte) : s.Reading k (out b t).reached := by
  by_cases hfull : t.outLen = t.outCap
  · rw [out_of_full b hfull]
    exact h
  · rw [out_of_room b hfull]
    have hlt : t.outLen.toNat < t.outCap.toNat := by
      have hne := mt BitVec.eq_of_toNat_eq hfull
      have hle := h.outLen
      obtain ⟨m, n, w, rfl⟩ := h.step
      exact Nat.lt_of_le_of_ne hle hne
    have hlen := BitVec.toNat_add_of_lt (x := t.outLen) (y := 1) (Nat.lt_of_le_of_lt hlt t.outCap.isLt)
    obtain ⟨step, kbit, -, bytes⟩ := h
    obtain ⟨m, n, w, rfl⟩ := step
    refine ⟨⟨_, _, _, rfl⟩, kbit, hlen.trans_le hlt, fun a ha => ?_⟩
    refine (State.readBuf_writeBuf_ne _ _ _ ?_).trans (bytes a ha)
    dsimp only at hlt ⊢
    omega

theorem State.Reading.detectLeaf (p : Word) : s.Reading k (detectLeaf p t).reached := by
  rw [Machine.detectLeaf, emit]
  split
  · split
    · exact h
    · rw [Run.andThen_assoc]
      exact Run.reached_andThen (h.out _) fun u hu => hu.setWork hu.kbit
  · exact h

theorem State.Reading.descend (b : Bool) (p : Word) : s.Reading k (descend b p t).reached := by
  by_cases hnull : t.arena.child t.work.cur b = Config.null
  · rw [descend_of_null p hnull]
    exact h
  · rw [descend_of_child p hnull]
    exact h.setWork h.kbit

/-- One more bit read. -/
theorem State.Reading.readBit {u : State} {bp : Bool × Nat} (hk : k + 1 < 2 ^ 35) (hu : readBit bp t = .ok u) :
    s.Reading (k + 1) u := by
  obtain ⟨t₁, h₁, hu⟩ := Run.andThen_eq_ok.mp hu
  obtain ⟨t₂, h₂, hu⟩ := Run.andThen_eq_ok.mp hu
  have hr₁ : s.Reading k t₁ := by
    rw [← Run.reached_ok t₁, ← h₁]
    exact h.detectLeaf _
  have hr₂ : s.Reading k t₂ := by
    rw [← Run.reached_ok t₂, ← h₂]
    exact hr₁.descend _ _
  obtain rfl := Run.ok.inj hu
  refine hr₂.setWork ?_
  have hkbit : t₂.work.kbit.toNat = k := hr₂.kbit
  exact (BitVec.toNat_add_of_lt (by rw [hkbit]; exact hk)).trans (congrArg (· + 1) hkbit)

/-- The body's bits are those of the start, as the input lies apart from the output (`20_memory.md` R89). -/
theorem State.Reading.bitAt (hdis : s.disjoint = true) (hr : 2 ≤ s.bodyBytes) (j : Nat) :
    t.bitAt s.bodyBytes j = s.bitAt s.bodyBytes j := by
  obtain ⟨step, -, -, bytes⟩ := h
  obtain ⟨m, n, w, rfl⟩ := step
  have htwins : s.Twins { s with buf := m } s { s with buf := m } :=
    ⟨⟨m, rfl⟩, rfl, fun i hi => bytes _ (State.input_outside_output hdis hi), fun _ => .inr ⟨rfl, rfl⟩⟩
  exact htwins.bitAt hr j

/-- `n` turns of the decoder's loop read the next `n` bits of the body. -/
theorem State.Reading.repeat_decodeBit (hdis : s.disjoint = true) (hr : 2 ≤ s.bodyBytes) {n : Nat}
    (hn : k + n < 2 ^ 35) : Run.repeat (decodeBit s.bodyBytes) n t =
      readBits ((List.range' k n).map (s.bitAt s.bodyBytes)) t := by
  induction n generalizing k t with
  | zero => rfl
  | succ n ih =>
    rw [Run.repeat_succ, decodeBit_eq_readBit, h.bitAt hdis hr, h.kbit, List.range'_succ, List.map_cons, readBits]
    cases hrun : Machine.readBit (s.bitAt s.bodyBytes k) t with
    | ok u => exact ih (h.readBit (by omega) hrun) (by omega)
    | raised e pos u => rfl

end

/-- DECODE that passes its checks walks the body's bits from the root, then makes the end checks (`44_decoder.md`
R271). -/
theorem decodePhase_eq_readBits {s : State} (hleaf : s.ft.leafCnt ≠ 0) (hr : 2 ≤ s.bodyBytes) (hmark : s.marker ≤ 8)
    (hdis : s.disjoint = true) (hlen : s.outLen.toNat ≤ s.outCap.toNat) :
    decodePhase s = (readBits s.placedBits s.startDecode).andThen endDecode := by
  have hstart : s.startDecode.Reading 0 s.startDecode := ⟨.refl _, rfl, hlen, fun _ _ => rfl⟩
  have hcount : 0 + (8 * (s.bodyBytes - 2) + s.marker) < 2 ^ 35 := by
    have hin := s.inLen.isLt
    rw [State.bodyBytes] at hr ⊢
    omega
  have hloop := hstart.repeat_decodeBit hdis hr hcount
  rw [← List.range_eq_range'] at hloop
  rw [decodePhase, if_neg hleaf, if_neg (by omega), if_neg (by omega)]
  exact congrArg (Run.andThen · endDecode) hloop

/-- A marker above 8 ends DECODE before any bit is read (`44_decoder.md` R271). -/
theorem decodePhase_of_badMarker {s : State} (hleaf : s.ft.leafCnt ≠ 0) (hr : 2 ≤ s.bodyBytes) (hmark : 8 < s.marker) :
    decodePhase s = .raised .badTrailer (s.inLen - 2) s := by
  rw [decodePhase, if_neg hleaf, if_neg (by omega), if_pos hmark]

/-! ## Walking a path -/

theorem Arena.follow_null (a : Arena) (bits : List Bool) : a.follow Config.null bits = Config.null := by
  induction bits with
  | nil => rfl
  | cons b bits ih =>
    have hchild : a.child Config.null b = Config.null := by
      rw [Arena.child, Arena.nodeAt_null]
      cases b <;> rfl
    exact (congrArg (a.follow · bits) hchild).trans ih

section
variable {a : Arena} {i : NodeIdx} {b : Bool} {bits : List Bool} {v : Byte}

/-- Nothing leads on from NULL. -/
theorem Arena.EndsAt.ne_null (h : a.EndsAt i bits v) : i ≠ Config.null := by
  rintro rfl
  have hleaf := h.leaf
  rw [Arena.follow_null, Arena.nodeAt_null] at hleaf
  exact absurd hleaf (by decide)

/-- The first edge of a path leads down from a node that is no leaf. -/
theorem Arena.EndsAt.uncons (h : a.EndsAt i (b :: bits) v) :
    (a.nodeAt i).kind ≠ .leaf ∧ a.EndsAt (a.child i b) bits v :=
  ⟨h.onlyLeaf 0 (Nat.succ_pos _), h.leaf, h.value, fun k hk => h.onlyLeaf (k + 1) (Nat.succ_lt_succ hk)⟩

theorem Arena.IsCode.endsAt (h : a.IsCode bits v) : a.EndsAt a.root bits v := ⟨h.leaf, h.value, h.onlyLeaf⟩

theorem Arena.IsCode.root_ne_leaf (h : a.IsCode bits v) : (a.nodeAt a.root).kind ≠ .leaf :=
  h.onlyLeaf 0 (List.length_pos_iff.mpr h.nonempty)

end

section
variable {s t : State} {v : Byte}

/-- One edge down (`44_decoder.md` R274). -/
theorem readBit_of_edge {bp : Bool × Nat} (hcur : s.cursor.kind ≠ .leaf)
    (hchild : s.arena.child s.work.cur bp.1 ≠ Config.null) :
    readBit bp s = .ok (s.setCursor (s.arena.child s.work.cur bp.1)).nextBit := by
  rw [readBit, detectLeaf, if_neg hcur, Run.ok_andThen, descend_of_child _ hchild, Run.ok_andThen]

/-- The bits of a path lead the cursor to its leaf, and nothing outside the busy-only state changes. -/
theorem readBits_of_path {bps : List (Bool × Nat)} (h : s.arena.EndsAt s.work.cur (bps.map Prod.fst) v) :
    ∃ w, readBits bps s = .ok { s with work := w } ∧ (State.cursor { s with work := w }).kind = .leaf ∧
      (State.cursor { s with work := w }).value = v ∧ w.cnt = s.work.cnt := by
  induction bps generalizing s with
  | nil => exact ⟨s.work, rfl, h.leaf, h.value, rfl⟩
  | cons bp bps ih =>
    obtain ⟨hcur, hrest⟩ := h.uncons
    rw [readBits, readBit_of_edge hcur hrest.ne_null, Run.ok_andThen]
    exact ih (s := (s.setCursor (s.arena.child s.work.cur bp.1)).nextBit) hrest

/-! ## Emitting a symbol -/

/-- Output that ends well has stored its byte. -/
theorem eq_of_out_ok {b : Byte} (h : out b s = .ok t) :
    s.outLen ≠ s.outCap ∧
      t = { s.writeBuf (s.outBase.toNat + s.outLen.toNat) b with outLen := s.outLen + 1 } := by
  by_cases hfull : s.outLen = s.outCap
  · rw [out_of_full b hfull] at h
    cases h
  · rw [out_of_room b hfull] at h
    exact ⟨hfull, (Run.ok.inj h).symm⟩

/-- `out` neither reads nor writes the busy-only state. -/
theorem out_setWork {b : Byte} (h : out b s = .ok t) (w : Work) :
    out b { s with work := w } = .ok { t with work := w } := by
  obtain ⟨hroom, rfl⟩ := eq_of_out_ok h
  exact out_of_room b (s := { s with work := w }) hroom

theorem outAll_setWork {bs : List Byte} (h : outAll bs s = .ok t) (w : Work) :
    outAll bs { s with work := w } = .ok { t with work := w } := by
  induction bs generalizing s with
  | nil => exact congrArg (fun u : State => Run.ok { u with work := w }) (Run.ok.inj h)
  | cons b bs ih =>
    obtain ⟨u, hu, hrest⟩ := Run.andThen_eq_ok.mp h
    rw [outAll_cons, out_setWork hu w, Run.ok_andThen, ih hrest]

/-- Bytes that fit, read back; every other byte is as before. -/
theorem outAll_readBuf (bs : List Byte) (s : State) (h : s.outLen.toNat + bs.length ≤ s.outCap.toNat) :
    ∃ m, outAll bs s = .ok { s with buf := m, outLen := s.outLen + BitVec.ofNat 32 bs.length } ∧
      ∀ a, State.readBuf { s with buf := m } a =
        if s.outBase.toNat + s.outLen.toNat ≤ a ∧ a < s.outBase.toNat + s.outLen.toNat + bs.length
        then bs.getD (a - (s.outBase.toNat + s.outLen.toNat)) 0 else s.readBuf a := by
  obtain ⟨m, hrun, -, hget⟩ := outAll_of_fits bs s h
  refine ⟨m, hrun, fun a => ?_⟩
  rw [State.readBuf, hget]
  split
  · next hin =>
    rw [List.getD_eq_getElem?_getD, List.getElem?_eq_getElem (by omega)]
    rfl
  · rfl

section
variable {w : Work} (hkind : (State.cursor { s with work := w }).kind = .leaf)
  (hvalue : (State.cursor { s with work := w }).value = v) (hcnt : w.cnt ≠ s.ft.total) (hout : out v s = .ok t)
include hcnt hout

/-- `emit` of a symbol within TOTAL is the output of its byte and one count more (`44_decoder.md` R276). -/
theorem emit_of_out (p : Word) :
    emit v p { s with work := w } = .ok { t with work := { w with cnt := w.cnt + 1 } } := by
  rw [emit, if_neg hcnt, out_setWork hout, Run.ok_andThen]

include hkind hvalue

/-- With the cursor on a leaf, the next bit first emits the leaf's value and starts again at the root
(`44_decoder.md` R275). -/
theorem readBits_of_leaf {bps : List (Bool × Nat)} (hbps : bps ≠ [])
    (hroot : (t.arena.nodeAt t.arena.root).kind ≠ .leaf) :
    readBits bps { s with work := w } =
      readBits bps { t with work := { w with cur := t.arena.root, cnt := w.cnt + 1 } } := by
  obtain ⟨bp, bps, rfl⟩ := List.exists_cons_of_ne_nil hbps
  have hdetect : ∀ p, detectLeaf p { s with work := w } =
      .ok { t with work := { w with cur := t.arena.root, cnt := w.cnt + 1 } } := fun p => by
    rw [detectLeaf, if_pos hkind, hvalue, emit_of_out hcnt hout]
    rfl
  rw [readBits, readBits, readBit, readBit, hdetect, detectLeaf]
  exact congrArg (Run.andThen · _) (congrArg (Run.andThen · _) (if_neg hroot).symm)

/-- At the end of the body the cursor is on the leaf of the last symbol (`44_decoder.md` R277). -/
theorem endDecode_of_leaf (hlast : w.cnt + 1 = t.ft.total) :
    endDecode { s with work := w } = .ok { t with work := { w with cnt := w.cnt + 1 } } := by
  rw [endDecode, if_pos hkind, hvalue, emit_of_out hcnt hout]
  exact if_pos hlast

end

/-- The walk over the codes of a message of TOTAL bytes, then the end checks, output the message (`44_decoder.md`
R271, R275 to R277). -/
theorem readBits_of_codes {msg : List Byte} {code : Byte → List Bool} {bps : List (Bool × Nat)} (hne : msg ≠ [])
    (hcode : ∀ v ∈ msg, s.arena.IsCode (code v) v) (hbits : bps.map Prod.fst = msg.flatMap code)
    (hcur : s.work.cur = s.arena.root) (hcnt : s.work.cnt.toNat + msg.length = s.ft.total.toNat)
    (hout : outAll msg s = .ok t) : ∃ w, (readBits bps s).andThen endDecode = .ok { t with work := w } := by
  induction msg generalizing s t bps with
  | nil => exact absurd rfl hne
  | cons v msg ih =>
    obtain ⟨hv, hcode⟩ := List.forall_mem_cons.mp hcode
    obtain ⟨s₁, hv₁, hout⟩ := Run.andThen_eq_ok.mp hout
    obtain ⟨ps, qs, rfl, hps, hqs⟩ := List.map_eq_append_iff.mp (hbits.trans List.flatMap_cons)
    have hend : s.arena.EndsAt s.work.cur (ps.map Prod.fst) v := by
      rw [hcur, hps]
      exact hv.endsAt
    obtain ⟨w, hpath, hkind, hvalue, hw⟩ := readBits_of_path hend
    obtain ⟨harena, hft⟩ : s₁.arena = s.arena ∧ s₁.ft = s.ft := by
      rw [(eq_of_out_ok hv₁).2]
      exact ⟨rfl, rfl⟩
    rw [List.length_cons, ← hw] at hcnt
    have hless : w.cnt ≠ s.ft.total := fun he => by
      rw [he] at hcnt
      omega
    have hone : (w.cnt + 1).toNat = w.cnt.toNat + 1 :=
      BitVec.toNat_add_of_lt (show w.cnt.toNat + 1 < 2 ^ 40 by have := s.ft.total.isLt; omega)
    rw [readBits_append, hpath, Run.andThen_assoc, Run.ok_andThen]
    rw [← harena] at hv hcode
    rw [← hft] at hcnt
    cases msg with
    | nil =>
      obtain rfl := List.map_eq_nil_iff.mp hqs
      obtain rfl := Run.ok.inj hout
      exact ⟨_, endDecode_of_leaf hkind hvalue hless hv₁ (BitVec.eq_of_toNat_eq (hone.trans hcnt))⟩
    | cons v' msg =>
      have hqs' : qs ≠ [] := fun hnil => by
        rw [hnil, List.flatMap_cons] at hqs
        exact (hcode v' (List.mem_cons_self ..)).nonempty (List.append_eq_nil_iff.mp hqs.symm).1
      have hcnt' : (w.cnt + 1).toNat + (v' :: msg).length = s₁.ft.total.toNat := by omega
      rw [readBits_of_leaf hkind hvalue hless hv₁ hqs' hv.root_ne_leaf]
      obtain ⟨w', hdone⟩ := ih (s := { s₁ with work := { w with cur := s₁.arena.root, cnt := w.cnt + 1 } })
        (List.cons_ne_nil _ _) hcode hqs rfl hcnt' (outAll_setWork hout _)
      exact ⟨w', hdone⟩

end

/-! ## DECODE of a message -/

/-- DECODE of the codes of a message of TOTAL bytes is the output of the message (`44_decoder.md` R271). -/
theorem decodePhase_of_codes {s t : State} {msg : List Byte} {code : Byte → List Bool} (hleaf : s.ft.leafCnt ≠ 0)
    (hr : 2 ≤ s.bodyBytes) (hmark : s.marker ≤ 8) (hdis : s.disjoint = true)
    (hlen : s.outLen.toNat ≤ s.outCap.toNat) (hne : msg ≠ []) (hcode : ∀ v ∈ msg, s.arena.IsCode (code v) v)
    (hbits : s.bodyBits = msg.flatMap code) (htotal : msg.length = s.ft.total.toNat)
    (hout : outAll msg s = .ok t) : ∃ w, decodePhase s = .ok { t with work := w } := by
  rw [decodePhase_eq_readBits hleaf hr hmark hdis hlen]
  obtain ⟨w, hdone⟩ := readBits_of_codes (s := s.startDecode) hne hcode (s.map_fst_placedBits.trans hbits) rfl
    ((Nat.zero_add _).trans htotal) (outAll_setWork hout s.startDecode.work)
  exact ⟨w, hdone⟩

/-- DECODE of an empty table with no body outputs nothing (`44_decoder.md` R273). -/
theorem decodePhase_of_empty {s : State} (hleaf : s.ft.leafCnt = 0) (hr : s.bodyBytes = 0) :
    decodePhase s = .ok s := by
  rw [decodePhase, if_pos hleaf, if_pos hr]

section
variable {s : State} {bits : List Bool} (h : HoldsBody s.readBuf (s.inBase.toNat + s.bodyOff.toNat) bits)
  (hlen : s.inLen.toNat = s.bodyOff.toNat + bits.length / 8 + 2)
include h hlen

theorem HoldsBody.marker_eq : s.marker = bits.length % 8 := by
  have hmark := h.marker
  rw [State.marker, State.input, show s.inBase.toNat + (s.inLen.toNat - 2) =
    s.inBase.toNat + s.bodyOff.toNat + bits.length / 8 by omega, hmark, BitVec.toNat_ofNat]
  omega

/-- The bits of a body, read back (`30_encoding.md` R119, `44_decoder.md` R272). -/
theorem HoldsBody.bodyBits_eq : s.bodyBits = bits := by
  have hr : s.bodyBytes = bits.length / 8 + 2 := by rw [State.bodyBytes]; omega
  have hcount : 8 * (s.bodyBytes - 2) + s.marker = bits.length := by
    rw [hr, h.marker_eq hlen]
    omega
  refine List.ext_getElem (by simp [State.bodyBits, hcount]) fun k hk hk' => ?_
  have hfull : 8 * (s.bodyBytes - 2) = 8 * (bits.length / 8) := by omega
  have hget : s.bodyBits[k] = (s.bitAt s.bodyBytes k).1 := by simp [State.bodyBits]
  rw [hget, State.bitAt, hfull, ← List.getD_eq_getElem _ false hk']
  split
  · next hlt =>
    have hbit := h.packed (k / 8) (by omega) (k % 8) (by omega)
    rw [Nat.div_add_mod, Nat.add_assoc] at hbit
    exact hbit
  · next hge =>
    have hbit := h.final (k - 8 * (bits.length / 8)) (by omega)
    rw [decide_eq_true (by omega), Bool.true_and, Nat.add_sub_cancel' (by omega)] at hbit
    rw [← hbit]
    simp only [State.input, hlen]
    congr 2
    omega

end

end Sys2Proof.Machine
end

