-- ==== Sys2Proof/Proofs/Padding.lean ====
section
/-! PROOFS. The padding bits of the final byte (`44_decoder.md` R279): DECODE reads no byte of BUF but for the marker
and the body's bits, so two runs whose memories differ in the padding alone go side by side. -/

namespace Sys2Proof.Machine

/-! ## Two runs that differ in one byte -/

/-- The two states are the same but for the byte of BUF at address `a`. -/
structure State.AgreeOff (a : Nat) (s s' : State) : Prop where
  same  : ∃ m, s' = { s with buf := m }
  bytes : ∀ c, c ≠ a → s'.readBuf c = s.readBuf c

/-- The two runs end alike, in such states. -/
inductive Run.AgreeOff (a : Nat) : Run → Run → Prop where
  | ok {s s' : State} (h : s.AgreeOff a s') : Run.AgreeOff a (.ok s) (.ok s')
  | raised (e : ErrCode) (pos : Word) {s s' : State} (h : s.AgreeOff a s') :
    Run.AgreeOff a (.raised e pos s) (.raised e pos s')

section
variable {a : Nat} {s s' : State}

theorem State.AgreeOff.update {g : State → State} (h : s.AgreeOff a s') (hg : LeavesBuf g) :
    (g s).AgreeOff a (g s') where
  same := by
    obtain ⟨m, rfl⟩ := h.same
    exact ⟨m, hg.comm s m⟩
  bytes c hc := by
    rw [State.readBuf_congr (hg.buf_eq s') (hg.bufEpoch s'), State.readBuf_congr (hg.buf_eq s) (hg.bufEpoch s)]
    exact h.bytes c hc

theorem State.AgreeOff.writeBuf (h : s.AgreeOff a s') (k : Nat) (b : Byte) :
    (s.writeBuf k b).AgreeOff a (s'.writeBuf k b) where
  same := by
    obtain ⟨m, rfl⟩ := h.same
    exact ⟨_, rfl⟩
  bytes c hc := by rw [State.readBuf_writeBuf, State.readBuf_writeBuf, h.bytes c hc]

theorem State.AgreeOff.discardOutput (h : s.AgreeOff a s') : s.discardOutput.AgreeOff a s'.discardOutput := by
  have hbytes := h.bytes
  obtain ⟨m, rfl⟩ := h.same
  refine ⟨⟨_, rfl⟩, fun c hc => ?_⟩
  rw [State.readBuf_discardOutput, State.readBuf_discardOutput, hbytes c hc]

theorem Run.AgreeOff.andThen {r r' : Run} {f f' : State → Run} (hr : r.AgreeOff a r')
    (hf : ∀ u u', u.AgreeOff a u' → (f u).AgreeOff a (f' u')) : (r.andThen f).AgreeOff a (r'.andThen f') := by
  cases hr with
  | ok h => exact hf _ _ h
  | raised e pos h => exact .raised e pos h

theorem Run.AgreeOff.settle {r r' : Run} (h : r.AgreeOff a r') (w : Bool) :
    (r.settle w).AgreeOff a (r'.settle w) := by
  cases h with
  | ok h => exact h.update (g := State.complete) {}
  | raised e pos h =>
    exact (rel_ite Iff.rfl (fun _ => h.discardOutput) fun _ => h).update (g := State.report e pos) {}

/-! ## The decoder looks at no byte itself -/

variable (h : s.AgreeOff a s')
include h

theorem State.AgreeOff.emit (v : Byte) (p : Word) : (emit v p s).AgreeOff a (emit v p s') := by
  have hw := h.writeBuf (s.outBase.toNat + s.outLen.toNat) v
  obtain ⟨m, rfl⟩ := h.same
  refine rel_ite Iff.rfl (fun _ => .raised _ _ h) fun _ => ?_
  exact Run.AgreeOff.andThen (rel_ite Iff.rfl (fun _ => .raised _ _ h) fun _ =>
    .ok (hw.update (g := fun u => { u with outLen := u.outLen + 1 }) {}))
    fun u u' hu => .ok (hu.update (g := fun t => { t with work := { t.work with cnt := t.work.cnt + 1 } }) {})

theorem State.AgreeOff.detectLeaf (p : Word) : (detectLeaf p s).AgreeOff a (detectLeaf p s') := by
  have hemit := h.emit s.cursor.value p
  obtain ⟨m, rfl⟩ := h.same
  exact rel_ite Iff.rfl (fun _ => hemit.andThen fun u u' hu =>
    .ok (hu.update (g := fun t => t.setCursor t.arena.root) {})) fun _ => .ok h

theorem State.AgreeOff.descend (b : Bool) (p : Word) : (descend b p s).AgreeOff a (descend b p s') := by
  have hdown := h.update (g := State.setCursor (s.arena.child s.work.cur b)) {}
  obtain ⟨m, rfl⟩ := h.same
  exact rel_ite Iff.rfl (fun _ => .raised _ _ h) fun _ => .ok hdown

theorem State.AgreeOff.endDecode : (endDecode s).AgreeOff a (endDecode s') := by
  have hemit := h.emit s.cursor.value s.inLen
  obtain ⟨m, rfl⟩ := h.same
  refine rel_ite Iff.rfl (fun _ => hemit.andThen fun u u' hu => ?_) fun _ => .raised _ _ h
  obtain ⟨m', rfl⟩ := hu.same
  exact rel_ite Iff.rfl (fun _ => .ok hu) fun _ => .raised _ _ hu

theorem State.AgreeOff.readBits (bps : List (Bool × Nat)) : (readBits bps s).AgreeOff a (readBits bps s') := by
  induction bps generalizing s s' with
  | nil => exact .ok h
  | cons bp bps ih =>
    exact Run.AgreeOff.andThen ((h.detectLeaf _).andThen fun u u' hu =>
      (hu.descend _ _).andThen fun v v' hv => .ok (hv.update {})) fun u u' hu => ih hu

end

/-! ## The padding -/

/-- `s'` is `s` but for the padding bits, below the marker's count, of the input's final byte. -/
structure State.PadTwins (s s' : State) : Prop where
  agree : s.AgreeOff (s.inBase.toNat + (s.inLen.toNat - 1)) s'
  bits  : ∀ i, i < s.marker → i < 8 →
    (s'.input (s.inLen.toNat - 1)).getLsbD (7 - i) = (s.input (s.inLen.toNat - 1)).getLsbD (7 - i)

section
variable {s s' : State} (h : s.PadTwins s')
include h

theorem State.PadTwins.input {i : Nat} (hi : i < s.inLen.toNat - 1) : s'.input i = s.input i := by
  have hbyte := h.agree.bytes (s.inBase.toNat + i) (by omega)
  obtain ⟨m, rfl⟩ := h.agree.same
  exact hbyte

variable (hr : s.bodyOff.toNat + 2 ≤ s.inLen.toNat)
include hr

theorem State.PadTwins.marker : s'.marker = s.marker := by
  have hmark := h.input (i := s.inLen.toNat - 2) (by omega)
  obtain ⟨m, rfl⟩ := h.agree.same
  exact congrArg BitVec.toNat hmark

/-- The body has no padding bit: a marker of at most 8 counts the bits of the final byte that are read
(`44_decoder.md` R272). -/
theorem State.PadTwins.placedBits (hmark : s.marker ≤ 8) : s'.placedBits = s.placedBits := by
  have hmarker := h.marker hr
  have hin := fun i => h.input (i := i)
  have hbits := h.bits
  obtain ⟨m, rfl⟩ := h.agree.same
  rw [State.placedBits, State.placedBits, hmarker]
  refine List.map_congr_left fun k hk => ?_
  have hk : k < 8 * (s.bodyBytes - 2) + s.marker := List.mem_range.mp hk
  have hbody : s.bodyBytes = s.inLen.toNat - s.bodyOff.toNat := rfl
  refine rel_ite (R := Eq) Iff.rfl (fun hlt => ?_) fun hge => ?_
  · change k < 8 * (s.bodyBytes - 2) at hlt
    exact congrArg (fun b : Byte => (b.getLsbD _, _)) (hin (s.bodyOff.toNat + k / 8) (by omega))
  · change ¬ k < 8 * (s.bodyBytes - 2) at hge
    exact congrArg (fun b : Bool => (b, _)) (hbits (k - 8 * (s.bodyBytes - 2)) (by omega) (by omega))

/-- With good regions, DECODE's phase reads nothing but the marker and the bits above the padding. -/
theorem State.PadTwins.decodePhase (hdis : s.disjoint = true) (hlen : s.outLen.toNat ≤ s.outCap.toNat) :
    (decodePhase s).AgreeOff (s.inBase.toNat + (s.inLen.toNat - 1)) (decodePhase s') := by
  have hmarker := h.marker hr
  have hbits := h.placedBits hr
  have hagree := h.agree
  have hbytes : 2 ≤ s.bodyBytes := by rw [State.bodyBytes]; omega
  obtain ⟨m, rfl⟩ := hagree.same
  by_cases hleaf : s.ft.leafCnt = 0
  · refine rel_ite Iff.rfl (fun _ => ?_) fun hne => absurd hleaf hne
    exact rel_ite Iff.rfl (fun _ => .ok hagree) fun _ => .raised _ _ hagree
  rcases Nat.lt_or_ge 8 s.marker with hbad | hmark
  · rw [decodePhase_of_badMarker hleaf hbytes hbad,
      decodePhase_of_badMarker (s := { s with buf := m }) hleaf hbytes (hbad.trans_eq hmarker.symm)]
    exact .raised _ _ hagree
  · rw [decodePhase_eq_readBits hleaf hbytes hmark hdis hlen, decodePhase_eq_readBits (s := { s with buf := m })
      hleaf hbytes (hmarker.trans_le hmark) hdis hlen, hbits hmark]
    exact ((hagree.update (g := State.startDecode) {}).readBits _).andThen fun u u' hu => hu.endDecode

/-- DECODE takes two such states to two that differ in the final byte alone. -/
theorem State.PadTwins.decodeBody :
    (decodeBody s).AgreeOff (s.inBase.toNat + (s.inLen.toNat - 1)) (decodeBody s') := by
  have hstart : s.startOutput.PadTwins s'.startOutput := by
    obtain ⟨hagree, hbits⟩ := h
    have hstart := hagree.update (g := State.startOutput) {}
    obtain ⟨m, rfl⟩ := hagree.same
    exact ⟨hstart, hbits⟩
  have hphase := hstart.decodePhase hr
  have hagree := h.agree
  obtain ⟨m, rfl⟩ := hagree.same
  refine rel_ite Iff.rfl (fun _ => rel_ite Iff.rfl (fun hchecks => ?_) fun _ => .raised _ _ hagree)
    fun _ => .raised _ _ hagree
  simp only [Bool.and_eq_true, State.outOk_iff] at hchecks
  obtain ⟨⟨-, -, hlen⟩, hdis⟩ := hchecks
  exact hphase hdis hlen

/-- So does the command, cancelled or not (`45_control.md` R306). -/
theorem State.PadTwins.runCommand : (runCommand (writeSet .decode) Machine.decodeBody s).AgreeOff
    (s.inBase.toNat + (s.inLen.toNat - 1)) (runCommand (writeSet .decode) Machine.decodeBody s') := by
  have hdraw : State.PadTwins { s with draws := s.draws + 1 } { s' with draws := s'.draws + 1 } := by
    obtain ⟨hagree, hbits⟩ := h
    have hdraw := hagree.update (g := fun u => { u with draws := u.draws + 1 }) {}
    obtain ⟨m, rfl⟩ := hagree.same
    exact ⟨hdraw, hbits⟩
  have hplain := (h.decodeBody hr).settle true
  have hdrawn := (hdraw.decodeBody hr).settle true
  have hcancel := hdraw.agree.discardOutput.update (g := State.report .cancelled 0) {}
  obtain ⟨m, rfl⟩ := h.agree.same
  exact rel_ite Iff.rfl (fun _ => rel_ite Iff.rfl (fun _ => hcancel) fun _ => hdrawn) fun _ => hplain

end

/-- Settles O49: the two runs read the same marker and the same bits, and nothing else of BUF. -/
theorem paddingBitsAreNotRead : Obligations.PaddingBitsAreNotRead := by
  intro s t b hr hbits ht
  have hagree : s.AgreeOff (s.inBase.toNat + (s.inLen.toNat - 1))
      (s.writeBuf (s.inBase.toNat + (s.inLen.toNat - 1)) b) :=
    ⟨⟨_, rfl⟩, fun c hc => State.readBuf_writeBuf_ne s _ b hc⟩
  have hpad : s.PadTwins (s.writeBuf (s.inBase.toNat + (s.inLen.toNat - 1)) b) :=
    ⟨hagree, fun i hi hi8 => (congrArg (BitVec.getLsbD · (7 - i)) (State.readBuf_writeBuf_self s _ b)).trans
      (hbits i hi hi8)⟩
  obtain rfl := Host.Outcome.next.inj ht
  have hend := hpad.runCommand hr
  obtain ⟨m, hm⟩ := hend.same
  exact ⟨m, congrArg Host.Outcome.next hm, fun c hc => hm ▸ hend.bytes c hc⟩

end Sys2Proof.Machine
end

