-- ==== Sys2Proof/Proofs/RoundTrip.lean ====
section
/-! PROOFS. COMPRESS and DECOMPRESS (`45_control.md` R303, R304) of data that fits, and the round trip
(`44_decoder.md` R281). -/

namespace Sys2Proof.Machine

/-! ## Containers in two byte spaces -/

/-- The `n` bytes of one byte space from `a'` on are those of the other from `a` on. -/
def SameBytes (read read' : Nat → Byte) (a a' n : Nat) : Prop := ∀ i, i < n → read' (a' + i) = read (a + i)

section
variable {read read' : Nat → Byte} {a a' n : Nat}

/-- The bytes named by their addresses. -/
theorem SameBytes.at (h : SameBytes read read' a a' n) {x y : Nat} (hx : a' ≤ x) (hy : y + a' = x + a)
    (hn : x < a' + n) : read' x = read y := by
  obtain ⟨i, rfl⟩ := Nat.exists_eq_add_of_le hx
  obtain rfl : y = a + i := by omega
  exact h i (by omega)

theorem SameBytes.mono {m : Nat} (h : SameBytes read read' a a' n) (hm : m ≤ n) : SameBytes read read' a a' m :=
  fun i hi => h i (by omega)

theorem SameBytes.drop (h : SameBytes read read' a a' n) (k : Nat) :
    SameBytes read read' (a + k) (a' + k) (n - k) := fun i hi => by
  rw [Nat.add_assoc, Nat.add_assoc]
  exact h _ (by omega)

theorem HoldsHeader.congr {t : FreqTable} (h : HoldsHeader read a t) (hsame : SameBytes read read' a a' t.headerLen) :
    HoldsHeader read' a' t := by
  rw [FreqTable.headerLen] at hsame
  constructor
  case leafCount =>
    rw [← h.leafCount, hsame.at (y := a) (by omega) (by omega) (by omega),
      hsame.at (y := a + 1) (by omega) (by omega) (by omega),
      hsame.at (y := a + 2) (by omega) (by omega) (by omega),
      hsame.at (y := a + 3) (by omega) (by omega) (by omega)]
  case value =>
    intro k hk
    rw [← h.value k hk]
    exact hsame.at (by omega) (by omega) (by omega)
  case frequency =>
    intro k hk
    rw [← h.frequency k hk, hsame.at (y := a + 5 + 5 * k) (by omega) (by omega) (by omega),
      hsame.at (y := a + 6 + 5 * k) (by omega) (by omega) (by omega),
      hsame.at (y := a + 7 + 5 * k) (by omega) (by omega) (by omega),
      hsame.at (y := a + 8 + 5 * k) (by omega) (by omega) (by omega)]

theorem HoldsBody.congr {bits : List Bool} (h : HoldsBody read a bits)
    (hsame : SameBytes read read' a a' (bits.length / 8 + 2)) : HoldsBody read' a' bits := by
  constructor
  case packed =>
    intro j hj i hi
    rw [hsame j (by omega)]
    exact h.packed j hj i hi
  case marker =>
    rw [hsame _ (by omega)]
    exact h.marker
  case final =>
    intro i hi
    rw [Nat.add_assoc, hsame _ (by omega), ← Nat.add_assoc]
    exact h.final i hi

theorem FreqTable.containerLen_of_empty {t : FreqTable} (ht : t.leafCnt = 0) (bits : List Bool) :
    t.containerLen bits = t.headerLen := by
  rw [FreqTable.containerLen, if_pos ht, FreqTable.headerLen, ht]
  rfl

theorem FreqTable.containerLen_of_body {t : FreqTable} (ht : t.leafCnt ≠ 0) (bits : List Bool) :
    t.containerLen bits = t.headerLen + bits.length / 8 + 2 := by
  rw [FreqTable.containerLen, if_neg ht, FreqTable.headerLen]
  omega

theorem FreqTable.headerLen_le_containerLen (t : FreqTable) (bits : List Bool) :
    t.headerLen ≤ t.containerLen bits := by
  by_cases ht : t.leafCnt = 0
  · exact (t.containerLen_of_empty ht bits).ge
  · rw [FreqTable.containerLen_of_body ht]
    omega

/-- A container moved, byte by byte, to another place is that container. -/
theorem HoldsContainer.congr {t : FreqTable} {bits : List Bool} (h : HoldsContainer read a t bits)
    (hsame : SameBytes read read' a a' (t.containerLen bits)) : HoldsContainer read' a' t bits := by
  obtain ⟨hheader, hbody⟩ := h
  refine ⟨hheader.congr (hsame.mono (t.headerLen_le_containerLen bits)), fun ht => ?_⟩
  rw [FreqTable.containerLen_of_body ht] at hsame
  exact (hbody ht).congr ((hsame.drop t.headerLen).mono (by omega))

end

/-! ## Messages of a table's values -/

section
variable {t : FreqTable} {msg : List Byte}

/-- An empty table has none. -/
theorem FreqTable.Wf.eq_nil_of_empty (h : t.Wf) (ht : t.leafCnt = 0) (hmsg : ∀ v ∈ msg, t.freqOf v ≠ 0) :
    msg = [] := by
  refine List.eq_nil_iff_forall_not_mem.mpr fun v hv => ?_
  have hlisted := (h.mem_listed_iff v).mpr (hmsg v hv)
  rw [FreqTable.listed, ht] at hlisted
  exact List.not_mem_nil hlisted

/-- A table that is not empty counts at least one symbol. -/
theorem FreqTable.Wf.total_pos (h : t.Wf) (ht : t.leafCnt ≠ 0) : 0 < t.total.toNat := by
  have hpos : 0 < t.leafCnt.toNat := Nat.pos_of_ne_zero fun hz => ht (BitVec.eq_of_toNat_eq hz)
  have hfirst : t.orderAt 0 ∈ t.listed := List.mem_map_of_mem (List.mem_range.mpr hpos)
  have hle := List.le_sum_of_mem (List.mem_map_of_mem (f := fun v => (t.freqOf v).toNat) hfirst)
  rw [h.sum_listed_eq] at hle
  exact (Nat.pos_of_ne_zero fun hz => h.listed 0 hpos (BitVec.eq_of_toNat_eq hz)).trans_le hle

/-- COUNT's table has every byte it counted (`40_frequency_tree.md` R154). -/
theorem FreqTable.freqOf_ofBytes_ne_zero {bs : List Byte} (hlen : bs.length < 2 ^ 32) :
    ∀ v ∈ bs, (FreqTable.ofBytes bs).freqOf v ≠ 0 := fun v hv hz =>
  ((FreqTable.counts_ofBytes bs hlen).freqOf_eq_zero_iff v).mp hz hv

/-- A container is its header and what ENCODE writes (`30_encoding.md` R117, R121). -/
theorem FreqTable.Wf.containerLen_eq (h : t.Wf) (hmsg : ∀ v ∈ msg, t.freqOf v ≠ 0) :
    t.containerLen (t.codebook.bitString msg) =
      t.headerLen + (t.encodedBytes (t.codebook.bitString msg)).length := by
  rw [FreqTable.length_encodedBytes]
  by_cases ht : t.leafCnt = 0
  · rw [if_pos ht, FreqTable.containerLen_of_empty ht, h.eq_nil_of_empty ht hmsg]
    simp [Codebook.bitString]
  · rw [if_neg ht, FreqTable.containerLen_of_body ht, Nat.add_assoc]

end

/-! ## COMPRESS -/

/-- COMPRESS's phases before the output make the table, the tree and the codebook of the input (`45_control.md`
R303). -/
theorem compressPhases_eq {s : State} {t : FreqTable} (ht : FreqTable.ofBytes s.inputBytes = t) :
    ∃ w, compressPhases s.restartOutput = (wrhdrPhase { s with
      outLen := 0, ft := t, bodyOff := 0, arena := t.buildTree.1, cb := t.codebook
      status := { s.status with treeValid := true, cbValid := true, hdrValid := false }
      work := w }).andThen fun t => encodePhase (t.enterPhase .encode) := by
  have hinputs : (s.restartOutput.enterPhase .count).inputBytes = s.inputBytes := State.inputs_congr rfl rfl rfl _
  refine ⟨{ s.work with outStart := 0, phase := some .wrhdr, q := t.buildTree.2 }, ?_⟩
  rw [compressPhases, countPhase, hinputs, ht]
  simp only [buildPhase, gencodePhase, Run.ok_andThen, State.enterPhase, State.restartOutput, State.clearFlags,
    State.markTree, State.markCodebook, FreqTable.codebook]

/-- COMPRESS's output phases, with room for the container, write it from OUT_BASE on, leave every other byte as
before, and complete (`45_control.md` R303, `30_encoding.md` R122). -/
theorem settle_outputPhases_of_room {s : State} {bits : List Bool} (hstart : s.outLen = 0) (hdis : s.disjoint = true)
    (hcoded : ∀ b ∈ s.inputBytes, s.cb.lenOf b ≠ 0) (hbits : s.cb.bitString s.inputBytes = bits)
    (hsize : s.ft.containerLen bits = s.ft.headerLen + (s.ft.encodedBytes bits).length)
    (hroom : s.ft.containerLen bits ≤ s.outCap.toNat) :
    ∃ m n, ((wrhdrPhase s).andThen fun t => encodePhase (t.enterPhase .encode)).settle true =
        State.complete { s with buf := m, outLen := n } ∧
      n.toNat = s.ft.containerLen bits ∧
      HoldsContainer (State.readBuf { s with buf := m }) s.outBase.toNat s.ft bits ∧
      ∀ a, (a < s.outBase.toNat ∨ s.outBase.toNat + n.toNat ≤ a) →
        State.readBuf { s with buf := m } a = s.readBuf a := by
  have hcap := s.outCap.isLt
  have hzero : s.outLen.toNat = 0 := by rw [hstart]; rfl
  obtain ⟨m₁, hwrhdr, hheader, hframe₁⟩ := wrhdrPhase_of_room (s := s) (by omega)
  let u : State := State.enterPhase .encode
    { s with buf := m₁, outLen := s.outLen + BitVec.ofNat 32 s.ft.headerLen }
  have hlen₁ : u.outLen.toNat = s.ft.headerLen := by
    change (s.outLen + BitVec.ofNat 32 s.ft.headerLen).toNat = _
    rw [BitVec.toNat_add, BitVec.toNat_ofNat]
    omega
  have hinputs : u.inputBytes = s.inputBytes := List.map_congr_left fun i hi => hframe₁ (s.inBase.toNat + i) (by
    have := State.input_outside_output hdis (List.mem_range.mp hi)
    omega)
  obtain ⟨m₂, n, hencode, hn, hbody, hframe₂⟩ := settle_encodePhase_of_room (w := true) (s := u) (bits := bits)
    (hinputs ▸ hbits) (hinputs ▸ hcoded) (by rw [hlen₁]; exact hsize ▸ hroom)
  have hend : s.outBase.toNat + u.outLen.toNat = s.outBase.toNat + s.ft.headerLen := by rw [hlen₁]
  rw [hzero, Nat.add_zero] at hheader hframe₁
  refine ⟨m₂, n, ?_, ?_, ⟨hheader.congr fun i hi => ?_, fun hleaf => hend ▸ hbody hleaf⟩, fun a ha => ?_⟩
  · rw [hwrhdr]
    exact hencode
  · rw [hn, hlen₁]
    exact hsize.symm
  · exact hframe₂ (s.outBase.toNat + i) (.inl (hend ▸ Nat.add_lt_add_left hi _))
  · have hge : s.ft.headerLen ≤ n.toNat := by rw [hn, hlen₁]; exact Nat.le_add_right _ _
    exact (hframe₂ a (ha.imp_left fun h => hend ▸ Nat.lt_add_right _ h)).trans (hframe₁ a (by omega))

/-- COMPRESS of an input whose container fits completes with the container in the output region, every byte outside
it as before (`45_control.md` R303, `30_encoding.md` R122). -/
theorem exec_compress_of_room {s : State} {t : FreqTable} {bits : List Bool} (hreq : s.work.abortReq = false)
    (hin : s.inOk = true) (hout : s.outFits = true) (hdis : s.disjoint = true)
    (ht : FreqTable.ofBytes s.inputBytes = t) (hbits : t.codebook.bitString s.inputBytes = bits)
    (hroom : t.containerLen bits ≤ s.outCap.toNat) :
    ∃ m n, exec .compress s = .next (State.complete { s with
        buf := m, outLen := n, ft := t, bodyOff := 0, arena := t.buildTree.1, cb := t.codebook
        status := { s.status with treeValid := true, cbValid := true, hdrValid := false } }) ∧
      n.toNat = t.containerLen bits ∧
      HoldsContainer (State.readBuf { s with buf := m }) s.outBase.toNat t bits ∧
      ∀ a, (a < s.outBase.toNat ∨ s.outBase.toNat + n.toNat ≤ a) →
        State.readBuf { s with buf := m } a = s.readBuf a := by
  have hlen : s.inputBytes.length < 2 ^ 32 := s.length_inputBytes ▸ s.inLen.isLt
  have hpresent : ∀ v ∈ s.inputBytes, t.freqOf v ≠ 0 := ht ▸ FreqTable.freqOf_ofBytes_ne_zero hlen
  have hwf : t.Wf := ht ▸ FreqTable.wf_ofBytes _ hlen
  have hchecks : (s.inOk && s.outFits && s.disjoint) = true := by rw [hin, hout, hdis]; rfl
  obtain ⟨w, hphases⟩ := compressPhases_eq ht
  obtain ⟨m, n, hrun, hn, hcontainer, hframe⟩ := settle_outputPhases_of_room (s := { s with
      outLen := 0, ft := t, bodyOff := 0, arena := t.buildTree.1, cb := t.codebook
      status := { s.status with treeValid := true, cbValid := true, hdrValid := false }, work := w })
    rfl hdis (fun b hb => (hwf.lenOf_ne_zero_iff b).mpr (hpresent b hb)) hbits
    (hbits ▸ hwf.containerLen_eq hpresent) hroom
  refine ⟨m, n, ?_, hn, hcontainer, hframe⟩
  rw [exec_compress hreq, compressBody, if_pos hchecks, hphases]
  exact congrArg _ hrun

/-! ## DECOMPRESS -/

/-- PARSEHDR's phase over the header of a table reads that table (`42_header.md` R216). -/
theorem HoldsHeader.parsehdrPhase {s : State} {t : FreqTable} (h : HoldsHeader s.readBuf s.inBase.toNat t)
    (ht : t.Wf) (hroom : t.headerLen ≤ s.inLen.toNat) :
    parsehdrPhase s = .ok (State.markHeader (BitVec.ofNat 32 t.headerLen) { s.clearTable with ft := t }) := by
  have hcnt : (s.clearTable.input32 0).toNat = t.leafCnt.toNat := h.toNat_input32_zero
  rw [FreqTable.headerLen] at hroom ⊢
  rw [Machine.parsehdrPhase, parseLeaves_of_room (hcnt ▸ ht.leafCnt_le) (hcnt ▸ hroom), hcnt,
    (h.goodRecords ht).parseRecords, h.recordTable ht, Run.ok_andThen]

/-- DECOMPRESS's phases before the output read the table and make its tree (`45_control.md` R304). -/
theorem HoldsHeader.decompressPhases_eq {s : State} {t : FreqTable} (h : HoldsHeader s.readBuf s.inBase.toNat t)
    (ht : t.Wf) (hroom : t.headerLen ≤ s.inLen.toNat) :
    ∃ w, decompressPhases s.restartOutput = decodePhase { s with
      outLen := 0, ft := t, bodyOff := BitVec.ofNat 32 t.headerLen, arena := t.buildTree.1
      status := { s.status with treeValid := true, cbValid := false, hdrValid := true }, work := w } := by
  have hparse := HoldsHeader.parsehdrPhase (s := s.restartOutput.enterPhase .parsehdr) h ht hroom
  refine ⟨{ s.work with outStart := 0, phase := some .decode, q := t.buildTree.2 }, ?_⟩
  rw [decompressPhases, hparse]
  simp only [buildPhase, Run.ok_andThen, State.enterPhase, State.restartOutput, State.clearTable, State.clearFlags,
    State.markHeader, State.markTree]

/-- DECODE's phase over what follows the header of the container of a message outputs the message, with an empty
table as with any other. -/
theorem decodePhase_of_message {s u : State} {msg : List Byte} (ht : s.ft.Wf) (harena : s.arena = s.ft.buildTree.1)
    (hmsg : ∀ v ∈ msg, s.ft.freqOf v ≠ 0) (htotal : msg.length = s.ft.total.toNat)
    (hoff : s.bodyOff.toNat = s.ft.headerLen)
    (hin : s.inLen.toNat = s.ft.containerLen (s.ft.codebook.bitString msg))
    (hbody : s.ft.leafCnt ≠ 0 →
      HoldsBody s.readBuf (s.inBase.toNat + s.bodyOff.toNat) (s.ft.codebook.bitString msg))
    (hdis : s.disjoint = true) (hlen : s.outLen.toNat ≤ s.outCap.toNat) (hout : outAll msg s = .ok u) :
    ∃ w, decodePhase s = .ok { u with work := w } := by
  by_cases hleaf : s.ft.leafCnt = 0
  · rw [FreqTable.containerLen_of_empty hleaf] at hin
    rw [ht.eq_nil_of_empty hleaf hmsg] at hout
    obtain rfl := Run.ok.inj hout
    exact ⟨s.work, decodePhase_of_empty hleaf (by rw [State.bodyBytes]; omega)⟩
  · rw [FreqTable.containerLen_of_body hleaf, ← hoff] at hin
    have hbody := hbody hleaf
    have hne : msg ≠ [] := fun hnil => by
      have hpos := ht.total_pos hleaf
      rw [← htotal, hnil] at hpos
      exact absurd hpos (Nat.lt_irrefl 0)
    refine decodePhase_of_codes (code := s.ft.codebook.codeOf) hleaf (by rw [State.bodyBytes]; omega) ?_ hdis hlen
      hne (fun v hv => harena ▸ ht.isCode_codeOf (hmsg v hv)) (hbody.bodyBits_eq hin) htotal hout
    rw [hbody.marker_eq hin]
    omega

/-- DECOMPRESS of the container of a message that fits completes with the message in the output region, every byte
outside it as before (`45_control.md` R304). -/
theorem exec_decompress_of_container {s : State} {t : FreqTable} {msg : List Byte} (hreq : s.work.abortReq = false)
    (hin : s.inOk = true) (hout : s.outFits = true) (hdis : s.disjoint = true) (ht : t.Wf)
    (hmsg : ∀ v ∈ msg, t.freqOf v ≠ 0) (htotal : msg.length = t.total.toNat)
    (hlen : s.inLen.toNat = t.containerLen (t.codebook.bitString msg))
    (hcontainer : HoldsContainer s.readBuf s.inBase.toNat t (t.codebook.bitString msg))
    (hroom : msg.length ≤ s.outCap.toNat) :
    ∃ m, exec .decompress s = .next (State.complete { s with
        buf := m, outLen := BitVec.ofNat 32 msg.length, ft := t, bodyOff := BitVec.ofNat 32 t.headerLen
        arena := t.buildTree.1
        status := { s.status with treeValid := true, cbValid := false, hdrValid := true } }) ∧
      ∀ a, State.readBuf { s with buf := m } a =
        if s.outBase.toNat ≤ a ∧ a < s.outBase.toNat + msg.length then msg.getD (a - s.outBase.toNat) 0
        else s.readBuf a := by
  obtain ⟨hheader, hbody⟩ := hcontainer
  have hle := t.headerLen_le_containerLen (t.codebook.bitString msg)
  obtain ⟨w, hphases⟩ := hheader.decompressPhases_eq ht (hlen ▸ hle)
  let d : State := { s with
    outLen := 0, ft := t, bodyOff := BitVec.ofNat 32 t.headerLen, arena := t.buildTree.1
    status := { s.status with treeValid := true, cbValid := false, hdrValid := true }, work := w }
  have hoff : d.bodyOff.toNat = t.headerLen := by
    have hlt := s.inLen.isLt
    change (BitVec.ofNat 32 t.headerLen).toNat = t.headerLen
    rw [BitVec.toNat_ofNat, Nat.mod_eq_of_lt (by omega)]
  obtain ⟨m, hrun, hread⟩ := outAll_readBuf msg d (show 0 + msg.length ≤ s.outCap.toNat by omega)
  obtain ⟨w', hdecode⟩ := decodePhase_of_message (s := d) ht rfl hmsg htotal hoff hlen
    (fun hleaf => hoff ▸ hbody hleaf) hdis (Nat.zero_le _) hrun
  have hchecks : (s.inOk && s.outFits && s.disjoint) = true := by rw [hin, hout, hdis]; rfl
  have hphases' : decompressPhases s.restartOutput = decodePhase d := hphases
  refine ⟨m, ?_, hread⟩
  rw [exec_decompress hreq, decompressBody, if_pos hchecks, hphases', hdecode,
    show d.outLen + BitVec.ofNat 32 msg.length = BitVec.ofNat 32 msg.length from BitVec.zero_add _]
  rfl

/-! ## The round trip -/

/-- Settles O54: COMPRESS writes the container of the input, and DECOMPRESS of that container, wherever it lies,
writes the message it is the container of. -/
theorem codecRoundTrip : Obligations.CodecRoundTrip := by
  intro s hreq herr hin hout hdis t hroom
  have hinLen : s.inputBytes.length < 2 ^ 32 := s.length_inputBytes ▸ s.inLen.isLt
  obtain ⟨m, n, hrun, hn, hcontainer, -⟩ := exec_compress_of_room hreq (State.inOk_iff.mpr hin)
    (State.outFits_iff.mpr hout) (State.disjoint_iff.mpr hdis) rfl rfl hroom
  refine ⟨_, hrun, rfl, herr, fun s' hreq' herr' hlen' hsame hin' hout' hdis' hroom' => ?_⟩
  have htotal := (FreqTable.counts_ofBytes _ hinLen).total
  have hlen : s.inputBytes.length = s.inLen.toNat := s.length_inputBytes
  have hsize : s'.inLen.toNat = t.containerLen (t.codebook.bitString s.inputBytes) := (congrArg _ hlen').trans hn
  have hcontainer' : HoldsContainer s'.readBuf s'.inBase.toNat t (t.codebook.bitString s.inputBytes) :=
    hcontainer.congr fun i hi => hsame i (hn.symm ▸ hi)
  obtain ⟨m', hrun', hread⟩ := exec_decompress_of_container hreq' (State.inOk_iff.mpr hin')
    (State.outFits_iff.mpr hout') (State.disjoint_iff.mpr (.inr hdis')) (FreqTable.wf_ofBytes _ hinLen)
    (FreqTable.freqOf_ofBytes_ne_zero hinLen) htotal.symm hsize hcontainer' (hlen ▸ hroom')
  refine ⟨_, hrun', rfl, herr', ?_, fun i hi => ?_⟩
  · change BitVec.ofNat 32 s.inputBytes.length = s.inLen
    rw [hlen, BitVec.ofNat_toNat, BitVec.setWidth_eq]
  · refine (hread (s'.outBase.toNat + i)).trans ?_
    rw [if_pos (by omega), Nat.add_sub_cancel_left, List.getD_eq_getElem _ _ (hlen ▸ hi)]
    simp [State.inputBytes, State.inputs]

end Sys2Proof.Machine
end

