-- ==== Sys2Proof/Proofs/Control.lean ====
section
/-! PROOFS. The two commands that always succeed and never look at a cancellation request: NOP and RESET
(`45_control.md` R300, R301). -/

namespace Sys2Proof.Machine

/-- What success completion discards (`10_state.md` R56) leaves no queue and no cancellation request. -/
theorem Work.gone_idle : Work.idle.Gone := ⟨rfl, rfl⟩

/-- Success completion (`60_exceptions.md` R335) writes STATUS and the busy-only state alone. -/
theorem State.complete_eq (s : State) :
    s.complete = { s with status := s.status.completed, work := Work.idle } := rfl

/-- The queue that RESET empties is discarded when it completes, so its own writes are those of the codec state
and of STATUS. -/
theorem State.complete_softReset (s : State) : s.softReset.complete = { s with
    ft := FreqTable.empty, arena := Arena.empty, cb := Codebook.empty, bodyOff := 0
    status := Status.completed { s.status.invalidated with hostErr := false }, work := Work.idle } := rfl

/-- Settles O26: each command is one success completion, from every state, and that completion takes a pending
request away. -/
theorem nopAndResetComplete : Obligations.NopAndResetComplete := by
  intro s
  refine ⟨⟨Work.idle, Work.gone_idle, ?nop⟩, ⟨Work.idle, Work.gone_idle, ?reset⟩⟩
  case nop => rw [exec_nop, State.complete_eq]
  case reset => rw [exec_reset, State.complete_softReset]

end Sys2Proof.Machine
end

