-- ==== Sys2Proof/Proofs/Completion.lean ====
section
/-! PROOFS. How every command ends (`60_exceptions.md` R334, R340, R342): in one completion, of a state that differs
from the first in nothing but what commands write; and the interrupt line that the completion raises. -/

namespace Sys2Proof.Machine

/-! ## What no command writes before it completes -/

/-- `s` with everything that a command may write before it completes put to its reset value: what is left is its
frame (`10_state.md` R59), with the completion bits and the error report. -/
def State.frame (s : State) : State :=
  { s with
    buf := [], outLen := 0, ft := FreqTable.empty, bodyOff := 0, arena := Arena.empty, cb := Codebook.empty
    status := { s.status.invalidated with hostErr := false }, work := Work.idle, draws := 0 }

theorem State.OutputStep.frame_eq {s t : State} (h : s.OutputStep t) : t.frame = s.frame := by
  obtain ⟨_, _, _, rfl⟩ := h
  rfl

/-- The resets of a cancellation, part by part, are within what a command may write. -/
theorem State.frame_clearWriteSet (ws : WriteSet) (s : State) : (s.clearWriteSet ws).frame = s.frame := by
  have htable (u : State) : u.clearTable.frame = u.frame := rfl
  have harena (u : State) : u.clearArena.frame = u.frame := rfl
  have hcb (u : State) : u.clearCodebook.frame = u.frame := rfl
  have hout (u : State) : u.discardOutput.frame = u.frame := rfl
  simp only [State.clearWriteSet, apply_ite State.frame, htable, harena, hcb, hout, ite_self]

/-! ## The commands' pseudocode -/

/-- The pseudocode `body` keeps the frame, however it ends. -/
def KeepsFrame (body : State → Run) : Prop := ∀ s : State, (body s).reached.frame = s.frame

theorem KeepsFrame.of_outputStep {body : State → Run} (h : ∀ s : State, s.OutputStep (body s).reached) :
    KeepsFrame body := fun s => (h s).frame_eq

theorem KeepsFrame.andThen {f g : State → Run} (hf : KeepsFrame f) (hg : KeepsFrame g) :
    KeepsFrame fun s => (f s).andThen g := fun s =>
  Run.reached_andThen (P := fun u => u.frame = s.frame) (hf s) fun u hu => (hg u).trans hu

/-- Pseudocode that begins with an update of the state that keeps the frame. -/
theorem KeepsFrame.after {body : State → Run} (h : KeepsFrame body) {g : State → State}
    (hg : ∀ s, (g s).frame = s.frame := by intros; rfl) : KeepsFrame fun s => body (g s) :=
  fun s => (h (g s)).trans (hg s)

/-- A check before the pseudocode `body`: it runs only when the check passes. -/
theorem KeepsFrame.checked {body : State → Run} (h : KeepsFrame body) (c : State → Bool) (e : ErrCode) :
    KeepsFrame fun s => if c s then body s else .raised e 0 s := fun s => by
  dsimp only
  split
  · exact h s
  · rfl

/-- A phase of COMPRESS or DECOMPRESS, begun by naming it in PHASE. -/
theorem KeepsFrame.inPhase {phase : State → Run} (h : KeepsFrame phase) (p : Phase) :
    KeepsFrame fun s => phase (s.enterPhase p) := h.after

/-- ENCODE's and DECODE's shape: a SEQUENCE check, then a region check, then the phase. -/
theorem KeepsFrame.sequenced {phase : State → Run} (h : KeepsFrame phase) (c d : State → Bool) :
    KeepsFrame fun s =>
      if c s then if d s then phase s.startOutput else .raised .badRegion 0 s
      else .raised .sequence 0 s :=
  ((h.after (g := State.startOutput)).checked d .badRegion).checked c .sequence

theorem ftaddBody_keepsFrame (v : Byte) : KeepsFrame (ftaddBody v) := fun s => by
  rw [ftaddBody]
  split
  · rfl
  · split <;> rfl

theorem countPhase_keepsFrame : KeepsFrame countPhase := fun _ => rfl

theorem buildPhase_keepsFrame : KeepsFrame buildPhase := fun _ => rfl

theorem gencodePhase_keepsFrame : KeepsFrame gencodePhase := fun _ => rfl

theorem wrhdrPhase_keepsFrame : KeepsFrame wrhdrPhase := .of_outputStep wrhdrPhase_outputStep

theorem encodePhase_keepsFrame : KeepsFrame encodePhase := .of_outputStep encodePhase_outputStep

theorem decodePhase_keepsFrame : KeepsFrame decodePhase := .of_outputStep decodePhase_outputStep

theorem parseRecord_keepsFrame (k : Nat) : KeepsFrame (parseRecord k) := fun s => by
  rw [parseRecord]
  split
  · rfl
  · split <;> rfl

theorem parseRecords_keepsFrame (n : Nat) : KeepsFrame (parseRecords n) := by
  induction n with
  | zero => exact fun _ => rfl
  | succ n ih => exact ih.andThen (parseRecord_keepsFrame n)

theorem parseLeaves_keepsFrame : KeepsFrame parseLeaves := fun s => by
  rw [parseLeaves]
  split
  · rfl
  · dsimp only
    split
    · rfl
    · split
      · rfl
      · exact (parseRecords_keepsFrame _).andThen (fun _ => rfl) s

theorem parsehdrPhase_keepsFrame : KeepsFrame parsehdrPhase := parseLeaves_keepsFrame.after

theorem compressPhases_keepsFrame : KeepsFrame compressPhases :=
  (countPhase_keepsFrame.inPhase .count).andThen <|
  (buildPhase_keepsFrame.inPhase .build).andThen <|
  (gencodePhase_keepsFrame.inPhase .gencode).andThen <|
  (wrhdrPhase_keepsFrame.inPhase .wrhdr).andThen <|
  encodePhase_keepsFrame.inPhase .encode

theorem decompressPhases_keepsFrame : KeepsFrame decompressPhases :=
  (parsehdrPhase_keepsFrame.inPhase .parsehdr).andThen <|
  (buildPhase_keepsFrame.inPhase .build).andThen <|
  decodePhase_keepsFrame.inPhase .decode

/-! ## Completion -/

/-- `t` is one completion, success (`60_exceptions.md` R335) or error (R336), of a state with the frame of `s`. -/
def State.CompletesTo (s t : State) : Prop :=
  ∃ u : State, u.frame = s.frame ∧ (t = u.complete ∨ ∃ e pos, t = u.report e pos)

theorem Run.completesTo_settle {s : State} {r : Run} (h : r.reached.frame = s.frame) (w : Bool) :
    s.CompletesTo (r.settle w) := by
  rcases r.settle_cases w with ⟨u, rfl, ht⟩ | ⟨e, pos, u, rfl, -, -, ht⟩ | ⟨e, pos, u, rfl, -, ht⟩
  · exact ⟨u, h, .inl ht⟩
  · exact ⟨u.discardOutput, h, .inr ⟨e, pos, ht⟩⟩
  · exact ⟨u, h, .inr ⟨e, pos, ht⟩⟩

/-- A command completes whether or not a request is pending, and whichever outcome that has (`45_control.md` R306). -/
theorem KeepsFrame.completesTo {body : State → Run} (h : KeepsFrame body) (ws : WriteSet) (s : State) :
    s.CompletesTo (runCommand ws body s) := by
  obtain ⟨d, hd | ⟨-, hd⟩⟩ := runCommand_cases ws body s <;> rw [hd]
  · exact Run.completesTo_settle (h { s with draws := d }) ws.out
  · exact ⟨_, State.frame_clearWriteSet ws { s with draws := d }, .inr ⟨.cancelled, 0, rfl⟩⟩

theorem exec_completesTo {i : Instr} {s t : State} (h : exec i s = .next t) : s.CompletesTo t := by
  cases i <;> injection h with h <;> subst h
  case nop => exact ⟨s, rfl, .inl rfl⟩
  case reset => exact ⟨s.softReset, rfl, .inl rfl⟩
  case ftclr => exact KeepsFrame.completesTo (fun _ => rfl) _ s
  case ftadd v => exact (ftaddBody_keepsFrame v).completesTo _ s
  case count => exact (countPhase_keepsFrame.checked State.inOk .badRegion).completesTo _ s
  case parsehdr => exact (parsehdrPhase_keepsFrame.checked State.inOk .badRegion).completesTo _ s
  case build => exact buildPhase_keepsFrame.completesTo _ s
  case gencode => exact (gencodePhase_keepsFrame.checked _ .sequence).completesTo _ s
  case wrhdr =>
    exact ((wrhdrPhase_keepsFrame.after (g := State.startOutput)).checked State.outOk .badRegion).completesTo _ s
  case encode => exact (encodePhase_keepsFrame.sequenced _ _).completesTo _ s
  case decode => exact (decodePhase_keepsFrame.sequenced _ _).completesTo _ s
  case compress =>
    exact ((compressPhases_keepsFrame.after (g := State.restartOutput)).checked _ .badRegion).completesTo _ s
  case decompress =>
    exact ((decompressPhases_keepsFrame.after (g := State.restartOutput)).checked _ .badRegion).completesTo _ s

/-- The CORE's step completes, whatever word CMD holds. -/
theorem coreStep_completesTo (s : State) : ∃ t, coreStep s = .next t ∧ s.CompletesTo t := by
  rw [coreStep]
  cases decode s.cmd with
  | ok i =>
    obtain ⟨t, ht⟩ := exec_next i s
    exact ⟨t, ht, exec_completesTo ht⟩
  | error e => exact ⟨rejectWord s, rfl, KeepsFrame.completesTo (fun _ => rfl) _ s⟩

section
variable {s t : State} (h : s.CompletesTo t)
include h

theorem State.CompletesTo.busy : t.status.busy = false := by
  obtain ⟨u, -, rfl | ⟨e, pos, rfl⟩⟩ := h <;> rfl

theorem State.CompletesTo.gone : t.work.Gone := by
  obtain ⟨u, -, rfl | ⟨e, pos, rfl⟩⟩ := h <;> exact Work.gone_idle

theorem State.CompletesTo.irq : t.irq = t.ie := by
  obtain ⟨u, -, rfl | ⟨e, pos, rfl⟩⟩ := h <;> simp [State.irq]

/-- One completion sets one of DONE and ERR, so it leaves the other as acceptance left it. -/
theorem State.CompletesTo.done (hdone : s.status.done = false) (herr : s.status.err = false) :
    t.status.done = !t.status.err := by
  obtain ⟨u, hframe, hend⟩ := h
  have hudone : u.status.done = false := (congrArg (fun v => v.status.done) hframe).trans hdone
  have huerr : u.status.err = false := (congrArg (fun v => v.status.err) hframe).trans herr
  rcases hend with rfl | ⟨e, pos, rfl⟩
  · rw [State.complete_status, huerr]; rfl
  · rw [State.report_status, hudone]; rfl

end

/-! ## The interrupt line -/

/-- A 32-bit host write at a register's offset is a write of that register. -/
theorem hostOp_regWrite_offset (r : Reg) (v : Word) (s : State) :
    hostOp (.regWrite r.offset 32 v) s = s.writeReg r v := by
  simp only [hostOp, hostRegWrite, accessed_offset]

/-- An idle write to CMD is an acceptance (`10_state.md` R36). -/
theorem State.writeReg_cmd_of_idle {s : State} (w : Word) (hidle : s.status.busy = false) :
    s.writeReg .cmd w = s.accept w := by
  rw [State.writeReg, State.whileIdle, hidle, if_neg Bool.false_ne_true]

theorem State.irq_eq_false_iff (s : State) :
    s.irq = false ↔ s.ie = false ∨ (s.status.done = false ∧ s.status.err = false) := by
  rw [State.irq, Bool.and_eq_false_iff, Bool.or_eq_false_iff]

/-- A register read has no side effect (`20_memory.md` R92): it clears neither bit nor line. -/
theorem status_and_irq_hostRegRead (off : BitVec 12) (width : Nat) (s : State) :
    (hostRegRead off width s).status = s.status ∧ (hostRegRead off width s).irq = s.irq := by
  rcases hostRegRead_cases off width s with ⟨v, h⟩ | ⟨v, h⟩ <;> rw [h] <;> exact ⟨rfl, rfl⟩

/-! ## The obligations -/

/-- Settles O18: the CORE's step is one completion, and before it nothing reports DONE or ERR. -/
theorem everyCommandEndsInOneCompletion : Obligations.EveryCommandEndsInOneCompletion := by
  intro s hdone herr
  obtain ⟨t, ht, hend⟩ := coreStep_completesTo s
  exact ⟨t, ht, hend.busy, hend.done hdone herr, hend.gone⟩

/-- Settles O16: a completion sets DONE or ERR, so IE alone decides the line, and each of the three ways of clearing
it writes the bits it is computed from. -/
theorem interruptFollowsCompletionAndAcknowledge : Obligations.InterruptFollowsCompletionAndAcknowledge := by
  refine ⟨fun s t i h => (exec_completesTo h).irq, fun s w hidle => ?accept, fun s v hdone herr => ?acknowledge,
    fun s v hie => ?disable, status_and_irq_hostRegRead 0x008 32⟩
  case accept =>
    rw [show (0x00C : BitVec 12) = Reg.cmd.offset from rfl, hostOp_regWrite_offset, State.writeReg_cmd_of_idle w hidle,
      State.irq_eq_false_iff]
    exact .inr ⟨rfl, rfl⟩
  case acknowledge =>
    rw [show (0x008 : BitVec 12) = Reg.status.offset from rfl, hostOp_regWrite_offset, State.irq_eq_false_iff]
    exact .inr ⟨Bool.and_eq_false_imp.mpr fun h => congrArg not (hdone h),
      Bool.and_eq_false_imp.mpr fun h => congrArg not (herr h)⟩
  case disable =>
    rw [show (0x004 : BitVec 12) = Reg.ctrl.offset from rfl, hostOp_regWrite_offset, State.irq_eq_false_iff]
    exact .inl hie

end Sys2Proof.Machine
end

