-- ==== Sys2Proof/Proofs/CommandWords.lean ====
section
/-! PROOFS. Command decode and its inverse (`30_encoding.md` R110, R111, R114): the fields of a word, the order of
decode's checks, and the one word of each command. -/

namespace Sys2Proof

/-! ## The fields of a word -/

/-- A word is made of its fields (`30_encoding.md` R110). -/
theorem wordOf_fieldsOf (w : Word) : wordOf (fieldsOf w) = w := by
  apply BitVec.eq_of_getLsbD_eq
  intro i hi
  simp only [wordOf, fieldsOf, BitVec.getLsbD_append, BitVec.getLsbD_extractLsb']
  by_cases h8 : i < 8
  · simp [h8]
  · by_cases h16 : i < 16
    · simp [h8, show i - 8 < 8 by omega, show 8 + (i - 8) = i by omega]
    · simp [h8, show ¬ i - 8 < 8 by omega, show i - 8 - 8 < 16 by omega, show 16 + (i - 8 - 8) = i by omega]

/-- The fields of a word made of fields are those fields. -/
theorem fieldsOf_wordOf (f : CmdFields) : fieldsOf (wordOf f) = f := by
  obtain ⟨op, imm8, rsvd⟩ := f
  simp only [fieldsOf, wordOf, CmdFields.mk.injEq]
  refine ⟨?op, ?imm8, ?rsvd⟩ <;> refine BitVec.eq_of_getLsbD_eq fun i hi => ?_ <;>
    simp only [BitVec.getLsbD_extractLsb', BitVec.getLsbD_append, hi, decide_true, Bool.true_and]
  case op => rw [if_pos (by omega), Nat.zero_add]
  case imm8 => rw [if_neg (by omega), if_pos (by omega), Nat.add_sub_cancel_left]
  case rsvd =>
    rw [if_neg (by omega), if_neg (by omega), Nat.sub_sub, Nat.add_sub_cancel_left]

/-! ## Decode's checks -/

section
variable {f : CmdFields}

theorem CmdFields.illFormed_eq_reservedOpcode_iff : f.illFormed = some .reservedOpcode ↔ 0x0C < f.op := by
  rw [CmdFields.illFormed]
  grind

theorem CmdFields.illFormed_eq_nonzeroReserved_iff :
    f.illFormed = some .nonzeroReserved ↔ ¬ 0x0C < f.op ∧ f.rsvd ≠ 0 := by
  rw [CmdFields.illFormed]
  grind

theorem CmdFields.illFormed_eq_nonzeroImmediate_iff :
    f.illFormed = some .nonzeroImmediate ↔ ¬ 0x0C < f.op ∧ f.rsvd = 0 ∧ f.op ≠ 0x03 ∧ f.imm8 ≠ 0 := by
  rw [CmdFields.illFormed]
  grind

theorem CmdFields.illFormed_eq_none_iff :
    f.illFormed = none ↔ ¬ 0x0C < f.op ∧ f.rsvd = 0 ∧ (f.op = 0x03 ∨ f.imm8 = 0) := by
  rw [CmdFields.illFormed]
  grind

end

/-! ## Opcodes -/

/-- Every opcode that is not reserved names a command (`30_encoding.md` R114). -/
theorem exists_commandOf {op : BitVec 8} (h : ¬ 0x0C < op) (v : Byte) : ∃ i, commandOf op v = some i := by
  have hle : op.toNat ≤ 12 := Nat.not_lt.mp h
  rw [commandOf]
  split
  case h_14 => exact absurd hle (by grind)
  all_goals exact ⟨_, rfl⟩

/-- A command is named by its own opcode and operand. -/
theorem commandOf_opcode (i : Instr) : commandOf i.opcode i.imm8 = some i := by cases i <;> rfl

/-- A command word's IMM8 is the operand of the command, if it has one, and it has one exactly when it is FTADD
(`30_encoding.md` R112). -/
theorem opcode_of_commandOf {op : BitVec 8} {v : Byte} {i : Instr} (h : commandOf op v = some i) :
    i.opcode = op ∧ ((op = 0x03 ∨ v = 0) → i.imm8 = v) := by
  rw [commandOf] at h
  split at h
  case h_14 => cases h
  case h_4 hop =>
    obtain rfl := Option.some.inj h
    exact ⟨BitVec.eq_of_toNat_eq hop.symm, fun _ => rfl⟩
  all_goals
    next hop =>
      obtain rfl := Option.some.inj h
      refine ⟨BitVec.eq_of_toNat_eq hop.symm, fun hv => (hv.resolve_left ?_).symm⟩
      rintro rfl
      cases hop

/-- The fields of a command's word pass every check. -/
theorem illFormed_fields (i : Instr) :
    CmdFields.illFormed { op := i.opcode, imm8 := i.imm8, rsvd := 0 } = none := by
  rw [CmdFields.illFormed_eq_none_iff]
  cases i <;> simp [Instr.opcode, Instr.imm8]

theorem Instr.wf_eq_true (i : Instr) : i.wf = true := by
  cases i with
  | ftadd v => exact decide_eq_true v.isLt
  | _ => rfl

/-! ## Decode -/

/-- The first failed check is decode's answer (`30_encoding.md` R111). -/
theorem decode_eq_error_iff {w : Word} {e : IllFormed} :
    decode w = .error e ↔ (fieldsOf w).illFormed = some e := by
  rw [decode]
  split
  · next e' he => simp [he]
  · next hnone =>
    obtain ⟨i, hi⟩ := exists_commandOf (CmdFields.illFormed_eq_none_iff.mp hnone).1 (fieldsOf w).imm8
    simp [hi, hnone]

/-- A word that passes every check decodes to the command of its opcode and IMM8 (`30_encoding.md` R111). -/
theorem decode_eq_ok_iff {w : Word} {i : Instr} :
    decode w = .ok i ↔
      (fieldsOf w).illFormed = none ∧ commandOf (fieldsOf w).op (fieldsOf w).imm8 = some i := by
  rw [decode]
  split
  · next e' he => simp [he]
  · next hnone =>
    obtain ⟨i', hi⟩ := exists_commandOf (CmdFields.illFormed_eq_none_iff.mp hnone).1 (fieldsOf w).imm8
    simp [hi, hnone]

/-- A word that decodes has the opcode and the operand of its command in its fields, and nothing in RSVD. -/
theorem fieldsOf_of_decode {w : Word} {i : Instr} (h : decode w = .ok i) :
    fieldsOf w = { op := i.opcode, imm8 := i.imm8, rsvd := 0 } := by
  obtain ⟨hnone, hcmd⟩ := decode_eq_ok_iff.mp h
  obtain ⟨-, hrsvd, himm⟩ := CmdFields.illFormed_eq_none_iff.mp hnone
  obtain ⟨hop, hoperand⟩ := opcode_of_commandOf hcmd
  rw [hop, hoperand himm, ← hrsvd]

theorem decode_encode (i : Instr) : decode (encode i) = .ok i := by
  rw [decode_eq_ok_iff, encode, fieldsOf_wordOf]
  exact ⟨illFormed_fields i, commandOf_opcode i⟩

/-- Settles O2: a word is made of its fields, and the checks leave just the fields of the command's own word. -/
theorem decodeAndEncodeAgree : Obligations.DecodeAndEncodeAgree := by
  refine fun w i => ⟨fun h => ⟨i.wf_eq_true, ?_⟩, ?_⟩
  · rw [encode, ← fieldsOf_of_decode h, wordOf_fieldsOf]
  · rintro ⟨-, rfl⟩
    exact decode_encode i

/-- Settles O1: each is the word of its command. -/
theorem commandWordsDecodeToTheirCommands : Obligations.CommandWordsDecodeToTheirCommands :=
  ⟨decode_encode .nop, decode_encode .reset, decode_encode .ftclr, decode_encode (.ftadd 0x61), decode_encode .count,
    decode_encode .parsehdr, decode_encode .build, decode_encode .gencode, decode_encode .wrhdr,
    decode_encode .encode, decode_encode .decode, decode_encode .compress, decode_encode .decompress⟩

end Sys2Proof

namespace Sys2Proof.Machine

/-! ## The CORE's step -/

theorem coreStep_of_ok {s : State} {i : Instr} (h : decode s.cmd = .ok i) : coreStep s = exec i s := by
  rw [coreStep, h]

theorem coreStep_of_error {s : State} {e : IllFormed} (h : decode s.cmd = .error e) :
    coreStep s = .next (rejectWord s) := by rw [coreStep, h]

/-- With no request pending a word that names no command raises BAD_COMMAND(0) (`30_encoding.md` R111). -/
theorem rejectWord_of_no_request {s : State} (h : s.work.abortReq = false) :
    rejectWord s = s.report .badCommand 0 := runCommand_of_no_request _ _ h

/-- With one pending it may report CANCELLED(0) instead (`60_exceptions.md` R338). -/
theorem rejectWord_of_request {s : State} (h : s.work.abortReq = true) :
    rejectWord s = State.report .badCommand 0 { s with draws := s.draws + 1 } ∨
    rejectWord s = State.report .cancelled 0 { s with draws := s.draws + 1 } := runCommand_of_request _ _ h

/-- Settles O3: decode answers the first check that fails, and a word that fails one has nothing to reset. -/
theorem decodeChecksThenRunsOrRaisesBadCommand : Obligations.DecodeChecksThenRunsOrRaisesBadCommand := by
  refine ⟨fun w => ⟨?opcode, ?reserved, ?immediate, ?total⟩, fun s e he hreq => ?rejected, fun s e he hreq => ?pending,
    fun s i hi => coreStep_of_ok hi⟩
  case opcode => exact decode_eq_error_iff.trans CmdFields.illFormed_eq_reservedOpcode_iff
  case reserved =>
    rw [decode_eq_error_iff, CmdFields.illFormed_eq_nonzeroReserved_iff, BitVec.not_lt]
    rfl
  case immediate =>
    rw [decode_eq_error_iff, CmdFields.illFormed_eq_nonzeroImmediate_iff, BitVec.not_lt]
    rfl
  case total =>
    cases hd : decode w with
    | error e => exact .inl ⟨e, rfl⟩
    | ok i =>
      have hf := fieldsOf_of_decode hd
      exact .inr ⟨i, rfl, (congrArg CmdFields.op hf).symm, (congrArg CmdFields.imm8 hf).symm⟩
  case rejected =>
    rw [coreStep_of_error he, rejectWord_of_no_request hreq]
    exact ⟨Work.idle, Work.gone_idle, rfl⟩
  case pending =>
    rw [coreStep_of_error he]
    rcases rejectWord_of_request hreq with h | h <;> rw [h]
    · exact ⟨0x0D, Work.idle, .inl rfl, Work.gone_idle, rfl⟩
    · exact ⟨0x0E, Work.idle, .inr rfl, Work.gone_idle, rfl⟩

end Sys2Proof.Machine
end

