-- ==== Sys2Proof/Proofs/Pipelines.lean ====
section
/-! PROOFS. COMPRESS and DECOMPRESS of data that fits (`45_control.md` R303, R304). -/

namespace Sys2Proof.Machine

/-- Settles O50: COMPRESS's phases make the table, the tree and the codebook of the input, and write its container. -/
theorem compressWritesTheContainer : Obligations.CompressWritesTheContainer := by
  intro s hreq hin hout hdis ft bits hroom
  obtain ⟨m, n, hrun, hn, hcontainer, hframe⟩ := exec_compress_of_room hreq (State.inOk_iff.mpr hin)
    (State.outFits_iff.mpr hout) (State.disjoint_iff.mpr hdis) rfl rfl hroom
  exact ⟨_, hrun, Work.gone_idle, rfl, hn, hcontainer, hframe⟩

/-- Settles O53: PARSEHDR reads the table of the container, BUILD makes its tree, and DECODE walks the codes of the
message in it. -/
theorem decompressWritesTheMessage : Obligations.DecompressWritesTheMessage := by
  intro s table msg hreq ht hin hout hdis hmsg htotal bits hlen hcontainer hroom
  obtain ⟨m, hrun, hread⟩ := exec_decompress_of_container hreq (State.inOk_iff.mpr hin) (State.outFits_iff.mpr hout)
    (State.disjoint_iff.mpr hdis) ht hmsg htotal hlen hcontainer hroom
  have hheader : (BitVec.ofNat 32 table.headerLen).toNat = table.headerLen := by
    have hle := table.headerLen_le_containerLen bits
    have hlt := s.inLen.isLt
    rw [BitVec.toNat_ofNat, Nat.mod_eq_of_lt (by omega)]
  have houtLen : (BitVec.ofNat 32 msg.length).toNat = msg.length := by
    have hlt := s.outCap.isLt
    rw [BitVec.toNat_ofNat, Nat.mod_eq_of_lt (by omega)]
  refine ⟨_, hrun, Work.gone_idle, rfl, hheader, houtLen, fun i hi => ?_, fun a ha => ?_⟩
  · refine (hread (s.outBase.toNat + i)).trans ?_
    rw [if_pos (by omega), Nat.add_sub_cancel_left]
  · refine (hread a).trans (if_neg ?_)
    replace ha : a < s.outBase.toNat ∨ s.outBase.toNat + msg.length ≤ a := houtLen ▸ ha
    omega

end Sys2Proof.Machine
end

