-- ==== Sys2Proof/Proofs/Commands.lean ====
section
/-! PROOFS. Every command as one pseudocode with one write set, how its pseudocode can end, and the invariants that
every step keeps: a property that the HOST's operations, the commands' pseudocode and their completions keep. -/

namespace Sys2Proof.Machine

/-! ## The commands' pseudocode -/

/-- The pseudocode of each command, its checks included. -/
def bodyOf : Instr → State → Run
  | .nop => .ok
  | .reset => fun s => .ok s.softReset
  | .ftclr => ftclrBody
  | .ftadd v => ftaddBody v
  | .count => countBody
  | .parsehdr => parsehdrBody
  | .build => buildPhase
  | .gencode => gencodeBody
  | .wrhdr => wrhdrBody
  | .encode => encodeBody
  | .decode => decodeBody
  | .compress => compressBody
  | .decompress => decompressBody

/-- Every command but NOP and RESET runs its pseudocode or is cancelled. -/
theorem exec_eq_runCommand {i : Instr} (hnop : i ≠ .nop) (hreset : i ≠ .reset) (s : State) :
    exec i s = .next (runCommand (writeSet i) (bodyOf i) s) := by
  cases i with
  | nop => exact absurd rfl hnop
  | reset => exact absurd rfl hreset
  | _ => rfl

/-- Everything a command can end as: a completion of its pseudocode, or a cancellation. -/
theorem exec_cases {i : Instr} {s t : State} (h : exec i s = .next t) :
    ∃ d, t = (bodyOf i { s with draws := d }).settle (writeSet i).out ∨
      t = State.cancel (writeSet i) { s with draws := d } := by
  by_cases hnop : i = .nop
  · subst hnop
    injection h with h
    exact ⟨s.draws, .inl h.symm⟩
  by_cases hreset : i = .reset
  · subst hreset
    injection h with h
    exact ⟨s.draws, .inl h.symm⟩
  · rw [exec_eq_runCommand hnop hreset] at h
    injection h with h
    obtain ⟨d, hd | ⟨-, hd⟩⟩ := runCommand_cases (writeSet i) (bodyOf i) s
    · exact ⟨d, .inl (h.symm.trans hd)⟩
    · exact ⟨d, .inr (h.symm.trans hd)⟩

/-- With no request pending it is the completion of the pseudocode. -/
theorem exec_of_no_request (i : Instr) {s : State} (h : s.work.abortReq = false) :
    exec i s = .next ((bodyOf i s).settle (writeSet i).out) := by
  by_cases hnop : i = .nop
  · subst hnop
    rfl
  by_cases hreset : i = .reset
  · subst hreset
    rfl
  · rw [exec_eq_runCommand hnop hreset, runCommand_of_no_request _ _ h]

/-- Everything the CORE's step can end as, whatever word CMD holds. -/
theorem coreStep_ends {s t : State} (h : coreStep s = .next t) :
    (∃ i, exec i s = .next t) ∨
      ∃ d, t = State.report .badCommand 0 { s with draws := d } ∨ t = State.report .cancelled 0 { s with draws := d } := by
  rcases coreStep_cases h with ⟨i, -, hi⟩ | ⟨e, -, rfl⟩
  · exact .inl ⟨i, hi⟩
  · cases hreq : s.work.abortReq with
    | false => exact .inr ⟨s.draws, .inl (rejectWord_of_no_request hreq)⟩
    | true => exact .inr ⟨s.draws + 1, rejectWord_of_request hreq⟩

/-! ## How pseudocode ends -/

/-- The run ends in a state with property `P`, and the error it raises, if any, is one that discards the output
(`60_exceptions.md` R336). -/
def Run.Ends (P : State → Prop) : Run → Prop
  | .ok s => P s
  | .raised e _ s => e.discards = true ∧ P s

section
variable {P Q : State → Prop} {r : Run}

theorem Run.Ends.reached (h : r.Ends P) : P r.reached := by
  cases r with
  | ok s => exact h
  | raised e pos s => exact h.2

theorem Run.Ends.mono (h : r.Ends P) (hPQ : ∀ s, P s → Q s) : r.Ends Q := by
  cases r with
  | ok s => exact hPQ s h
  | raised e pos s => exact ⟨h.1, hPQ s h.2⟩

theorem Run.Ends.andThen {f : State → Run} (hr : r.Ends P) (hf : ∀ s, P s → (f s).Ends Q) (hPQ : ∀ s, P s → Q s) :
    (r.andThen f).Ends Q := by
  cases r with
  | ok s => exact hf s hr
  | raised e pos s => exact ⟨hr.1, hPQ s hr.2⟩

/-- A property that each turn keeps, `n` turns keep. -/
theorem Run.Ends.repeat {f : State → Run} (hf : ∀ s, P s → (f s).Ends P) (n : Nat) {s : State} (hs : P s) :
    (Run.repeat f n s).Ends P := by
  induction n generalizing s with
  | zero => exact hs
  | succ n ih => exact (hf s hs).andThen (fun t ht => ih ht) fun _ h => h

end

/-! ## Invariants of the step -/

/-- The property is kept by everything a step is made of. -/
structure StepInvariant (P : State → Prop) : Prop where
  /-- It does not look at the model's own book-keeping. -/
  book     : ∀ {s : State} (hs : List HostOp) (ts : List Agent) (d : Nat), P s →
    P { s with host := hs, turns := ts, draws := d }
  host     : ∀ {s : State} (op : HostOp), P s → P (hostOp op s)
  body     : ∀ {s : State} (i : Instr), P s → P (bodyOf i s).reached
  complete : ∀ {s : State}, P s → P s.complete
  report   : ∀ {s : State} (e : ErrCode) (pos : Word), P s → P (s.report e pos)
  discard  : ∀ {s : State}, P s → P s.discardOutput
  table    : ∀ {s : State}, P s → P s.clearTable
  arena    : ∀ {s : State}, P s → P s.clearArena
  codebook : ∀ {s : State}, P s → P s.clearCodebook

section
variable {P : State → Prop} (h : StepInvariant P) {s t : State}
include h

theorem StepInvariant.draws (d : Nat) (hs : P s) : P { s with draws := d } := h.book s.host s.turns d hs

theorem StepInvariant.settle (w : Bool) {r : Run} (hr : P r.reached) : P (r.settle w) := by
  rcases r.settle_cases w with ⟨u, rfl, ht⟩ | ⟨e, pos, u, rfl, -, -, ht⟩ | ⟨e, pos, u, rfl, -, ht⟩ <;> rw [ht]
  · exact h.complete hr
  · exact h.report e pos (h.discard hr)
  · exact h.report e pos hr

/-- A cancellation resets part after part (`45_control.md` R306). -/
theorem StepInvariant.cancel (ws : WriteSet) (hs : P s) : P (s.cancel ws) := by
  have hite {c : Bool} {u v : State} (hu : P u) (hv : P v) : P (if c then u else v) := by
    split
    · exact hu
    · exact hv
  have htable := hite (c := ws.table) (h.table hs) hs
  have harena := hite (c := ws.arena) (h.arena htable) htable
  have hcodebook := hite (c := ws.codebook) (h.codebook harena) harena
  exact h.report .cancelled 0 (hite (c := ws.out) (h.discard hcodebook) hcodebook)

theorem StepInvariant.exec {i : Instr} (hs : P s) (ht : exec i s = .next t) : P t := by
  obtain ⟨d, rfl | rfl⟩ := exec_cases ht
  · exact h.settle _ (h.body i (h.draws d hs))
  · exact h.cancel _ (h.draws d hs)

theorem StepInvariant.coreStep (hs : P s) (ht : coreStep s = .next t) : P t := by
  rcases coreStep_ends ht with ⟨i, hi⟩ | ⟨d, rfl | rfl⟩
  · exact h.exec hs hi
  · exact h.report _ _ (h.draws d hs)
  · exact h.report _ _ (h.draws d hs)

theorem StepInvariant.hostStep (hs : P s) : P (hostStep s) := by
  rcases hostStep_cases s with ⟨-, he⟩ | ⟨op, rest, -, he⟩ <;> rw [he]
  · exact hs
  · exact h.host op (h.book rest s.turns s.draws hs)

/-- Every step keeps the property. -/
theorem StepInvariant.step (hs : P s) (ht : step s = .next t) : P t := by
  have hturn : P s.takeTurn := by
    obtain ⟨ts, hts⟩ := s.takeTurn_eq
    rw [hts]
    exact h.book s.host ts s.draws hs
  rcases step_cases ht with ⟨-, rfl⟩ | ⟨-, -, hcore⟩
  · exact h.hostStep hturn
  · exact h.coreStep hturn hcore

end

/-! ## The codec's own state -/

/-- `s` with nothing left but the codec's own state: the table, the arena, the codebook, BODY_OFF, the validity flags,
and IN_LEN, which bounds BODY_OFF. -/
def State.codec (s : State) : State :=
  { State.reset with
    ft := s.ft, arena := s.arena, cb := s.cb, bodyOff := s.bodyOff, inLen := s.inLen
    status := { Status.reset with
      treeValid := s.status.treeValid, cbValid := s.status.cbValid, hdrValid := s.status.hdrValid } }

/-- Everything a host operation can do to BUF and to the codec's own state: nothing, store one byte, move the input
region, or reset. -/
inductive State.HostChange (s t : State) : Prop where
  | none (hcodec : t.codec = s.codec) (hbuf : t.buf = s.buf) (hmem : t.memSize = s.memSize)
  | byte (a : Nat) (b : Byte) (ha : a < s.memSize) (h : t = s.writeBuf a b)
  | input (base len : Word) (h : t = { s.dropHeader with inBase := base, inLen := len })
  | reset (h : t = hardReset s)

theorem State.whileIdle_hostChange {s s' : State} (h : s.HostChange s') : s.HostChange (s.whileIdle s') := by
  rcases State.whileIdle_cases s s' with ⟨-, hw⟩ | ⟨-, hw⟩ <;> rw [hw]
  · exact .none rfl rfl rfl
  · exact h

theorem State.writeReg_hostChange (r : Reg) (v : Word) (s : State) : s.HostChange (s.writeReg r v) := by
  cases r
  case inBase => exact State.whileIdle_hostChange (.input v s.inLen rfl)
  case inLen => exact State.whileIdle_hostChange (.input s.inBase v rfl)
  case cmd | arg | outBase | outCap | outLen => exact State.whileIdle_hostChange (.none rfl rfl rfl)
  all_goals exact .none rfl rfl rfl

theorem hostOp_hostChange (op : HostOp) (s : State) : s.HostChange (hostOp op s) := by
  cases op with
  | regWrite off width v =>
    change s.HostChange (hostRegWrite off width v s)
    rw [hostRegWrite]
    split
    · exact .none rfl rfl rfl
    · exact State.writeReg_hostChange _ v s
  | regRead off width =>
    change s.HostChange (hostRegRead off width s)
    rcases hostRegRead_cases off width s with ⟨v, h⟩ | ⟨v, h⟩ <;> rw [h] <;> exact .none rfl rfl rfl
  | bufWrite a b =>
    change s.HostChange (hostBufWrite a b s)
    rcases hostBufWrite_cases a b s with h | ⟨-, h⟩ | ⟨-, ha, h⟩ <;> rw [h]
    · exact .none rfl rfl rfl
    · exact .none rfl rfl rfl
    · exact .byte a b ha rfl
  | bufRead a =>
    change s.HostChange (hostBufRead a s)
    rcases hostBufRead_cases a s with ⟨v, h⟩ | ⟨v, h⟩ <;> rw [h] <;> exact .none rfl rfl rfl
  | wait =>
    change s.HostChange (hostWait s)
    rw [hostWait]
    split <;> exact .none rfl rfl rfl
  | hardReset => exact .reset rfl

/-- The property is one of the codec's own state, and every way in which a command or the HOST writes that state keeps
it. -/
structure CodecInvariant (P : State → Prop) : Prop where
  congr     : ∀ {s t : State}, P s → t.codec = s.codec → P t
  input     : ∀ {s : State} (base len : Word), P s → P { s.dropHeader with inBase := base, inLen := len }
  hardReset : ∀ {s : State}, P s → P (hardReset s)
  softReset : ∀ {s : State}, P s → P s.softReset
  table     : ∀ {s : State}, P s → P s.clearTable
  arena     : ∀ {s : State}, P s → P s.clearArena
  codebook  : ∀ {s : State}, P s → P s.clearCodebook
  ftadd     : ∀ {s : State} (v : Byte), P s → P (ftaddBody v s).reached
  count     : ∀ {s : State}, P s → P { s.clearFlags with ft := FreqTable.ofBytes s.inputBytes }
  parsehdr  : ∀ {s : State}, P s → P (parsehdrPhase s).reached
  build     : ∀ {s : State}, P s → P { s.markTree with arena := s.ft.buildTree.1 }
  gencode   : ∀ {s : State}, P s → s.status.treeValid = true → P { s.markCodebook with cb := s.arena.codebook }

section
variable {P : State → Prop} (h : CodecInvariant P) {s : State}
include h

theorem CodecInvariant.outputStep {t : State} (hs : P s) (hstep : s.OutputStep t) : P t := by
  obtain ⟨m, n, w, rfl⟩ := hstep
  exact h.congr hs rfl

omit h in
theorem CodecInvariant.checked {c : Bool} {e : ErrCode} {r : Run} (hs : P s) (hr : c = true → P r.reached) :
    P (if c then r else .raised e 0 s).reached := by
  split
  · next hc => exact hr hc
  · exact hs

theorem CodecInvariant.buildPhase (hs : P s) : P (buildPhase s).reached := h.congr (h.build hs) rfl

theorem CodecInvariant.enterPhase (p : Phase) (hs : P s) : P (s.enterPhase p) := h.congr hs rfl

/-- The phases of COMPRESS: BUILD makes the tree that GENCODE needs. -/
theorem CodecInvariant.compressPhases (hs : P s) : P (compressPhases s.restartOutput).reached := by
  have hcount : P (countPhase (s.restartOutput.enterPhase .count)).reached := h.count (h.congr hs rfl)
  have hbuild := h.buildPhase (h.enterPhase .build hcount)
  have hgencode := h.gencode (h.enterPhase .gencode hbuild) rfl
  have hwrhdr := h.outputStep (h.enterPhase .wrhdr hgencode) (wrhdrPhase_outputStep _)
  have hencode : ∀ u, P u → P (encodePhase (u.enterPhase .encode)).reached := fun u hu =>
    h.outputStep (h.enterPhase .encode hu) (encodePhase_outputStep _)
  exact (Run.reached_andThen hwrhdr hencode :)

theorem CodecInvariant.decompressPhases (hs : P s) : P (decompressPhases s.restartOutput).reached :=
  Run.reached_andThen (h.parsehdr (h.congr hs rfl)) fun _ hu =>
  Run.reached_andThen (h.buildPhase (h.enterPhase .build hu)) fun _ hv =>
  h.outputStep (h.enterPhase .decode hv) (decodePhase_outputStep _)

theorem CodecInvariant.body (i : Instr) (hs : P s) : P (bodyOf i s).reached := by
  have hstart : P s.startOutput := h.congr hs rfl
  cases i
  case nop => exact hs
  case reset => exact h.softReset hs
  case ftclr => exact h.table hs
  case ftadd v => exact h.ftadd v hs
  case count => exact CodecInvariant.checked hs fun _ => h.count hs
  case parsehdr => exact CodecInvariant.checked hs fun _ => h.parsehdr hs
  case build => exact h.buildPhase hs
  case gencode => exact CodecInvariant.checked hs fun hvalid => h.gencode hs hvalid
  case wrhdr => exact CodecInvariant.checked hs fun _ => h.outputStep hstart (wrhdrPhase_outputStep _)
  case encode => exact CodecInvariant.checked hs fun _ => CodecInvariant.checked hs fun _ => h.outputStep hstart (encodePhase_outputStep _)
  case decode => exact CodecInvariant.checked hs fun _ => CodecInvariant.checked hs fun _ => h.outputStep hstart (decodePhase_outputStep _)
  case compress => exact CodecInvariant.checked hs fun _ => h.compressPhases hs
  case decompress => exact CodecInvariant.checked hs fun _ => h.decompressPhases hs

/-- Such a property is an invariant of the step. -/
theorem CodecInvariant.stepInvariant : StepInvariant P where
  book _ _ _ hs := h.congr hs rfl
  host op hs := by
    cases hostOp_hostChange op _ with
    | none hcodec _ _ => exact h.congr hs hcodec
    | byte a b _ ht => exact ht ▸ h.congr hs rfl
    | input base len ht => exact ht ▸ h.input base len hs
    | reset ht => exact ht ▸ h.hardReset hs
  body i hs := h.body i hs
  complete hs := h.congr hs rfl
  report _ _ hs := h.congr hs rfl
  discard hs := h.congr hs rfl
  table hs := h.table hs
  arena hs := h.arena hs
  codebook hs := h.codebook hs

end

end Sys2Proof.Machine
end

