-- ==== Sys2Proof/Proofs/OutputRegion.lean ====
section
/-! PROOFS. What a command writes of BUF (`20_memory.md` R93): bytes of the output region from OUT_START to OUT_LEN, and
nothing else; and what that means for BUF's own invariant (R80). -/

namespace Sys2Proof.Machine

/-! ## The output so far -/

/-- `s` with nothing left but BUF, the output region and OUT_START. -/
def State.output (s : State) : State :=
  { State.resetWith s.memSize with
    buf := s.buf, bufEpoch := s.bufEpoch, outBase := s.outBase, outCap := s.outCap, outLen := s.outLen
    work := { Work.idle with outStart := s.work.outStart } }

/-- `t` is a state of a run from `s` that has written nothing but the bytes from OUT_START to OUT_LEN. -/
structure State.Writing (s t : State) : Prop where
  fits      : s.outBase.toNat + s.outCap.toNat ≤ s.memSize
  memSize   : t.memSize = s.memSize
  outBase   : t.outBase = s.outBase
  outCap    : t.outCap = s.outCap
  outStart  : t.work.outStart = s.work.outStart
  start_le  : s.work.outStart.toNat ≤ t.outLen.toNat
  le_cap    : t.outLen.toNat ≤ s.outCap.toNat
  canonical : s.buf.wf → t.buf.wf
  entries   : ∀ c ∈ t.buf, c ∈ s.buf ∨ c.1 < s.memSize
  bytes     : ∀ a, (a < s.outBase.toNat + s.work.outStart.toNat ∨ s.outBase.toNat + t.outLen.toNat ≤ a) →
    t.readBuf a = s.readBuf a

section
variable {s t : State}

theorem State.Writing.congr (h : s.Writing t) {u : State} (hu : u.output = t.output) : s.Writing u := by
  have hmem : u.memSize = t.memSize := (congrArg State.memSize hu :)
  have hbuf : u.buf = t.buf := (congrArg State.buf hu :)
  have hepoch : u.bufEpoch = t.bufEpoch := (congrArg State.bufEpoch hu :)
  have hbase : u.outBase = t.outBase := (congrArg State.outBase hu :)
  have hcap : u.outCap = t.outCap := (congrArg State.outCap hu :)
  have hlen : u.outLen = t.outLen := (congrArg State.outLen hu :)
  have hstart : u.work.outStart = t.work.outStart := congrArg (fun v => v.work.outStart) hu
  constructor
  case fits => exact h.fits
  case memSize => exact hmem.trans h.memSize
  case outBase => exact hbase.trans h.outBase
  case outCap => exact hcap.trans h.outCap
  case outStart => exact hstart.trans h.outStart
  case start_le => exact hlen ▸ h.start_le
  case le_cap => exact hlen ▸ h.le_cap
  case canonical => exact hbuf ▸ h.canonical
  case entries => exact hbuf ▸ h.entries
  case bytes => exact fun a ha => (State.readBuf_congr hbuf hepoch a).trans (h.bytes a (hlen ▸ ha))

/-- An update of the state that leaves the output alone. -/
theorem State.Writing.update {g : State → State} (h : s.Writing t)
    (hg : ∀ u, (g u).output = u.output := by intros; rfl) : s.Writing (g t) := h.congr (hg t)

/-- A command begins to write at OUT_LEN. -/
theorem State.Writing.start (hfits : s.outBase.toNat + s.outCap.toNat ≤ s.memSize)
    (hstart : s.work.outStart = s.outLen) (hlen : s.outLen.toNat ≤ s.outCap.toNat) : s.Writing s where
  fits := hfits
  memSize := rfl
  outBase := rfl
  outCap := rfl
  outStart := rfl
  start_le := le_of_eq (congrArg BitVec.toNat hstart)
  le_cap := hlen
  canonical := id
  entries _ hc := .inl hc
  bytes _ _ := rfl

end

/-- The pseudocode writes nothing but the bytes from OUT_START to OUT_LEN, and raises only errors that discard
them. -/
def WritesOutput (body : State → Run) : Prop := ∀ ⦃s t : State⦄, s.Writing t → (body t).Ends s.Writing

theorem WritesOutput.andThen {f g : State → Run} (hf : WritesOutput f) (hg : WritesOutput g) :
    WritesOutput fun s => (f s).andThen g := fun _ _ h => Run.Ends.andThen (hf h) (fun _ hu => hg hu) fun _ hu => hu

/-- Pseudocode that begins with an update of the state. -/
theorem WritesOutput.after {body : State → Run} (h : WritesOutput body) {g : State → State}
    (hg : ∀ u, (g u).output = u.output := by intros; rfl) : WritesOutput fun s => body (g s) :=
  fun _ _ hs => h (hs.update hg)

/-- A phase of COMPRESS or DECOMPRESS, begun by naming it in PHASE. -/
theorem WritesOutput.inPhase {phase : State → Run} (h : WritesOutput phase) (p : Phase) :
    WritesOutput fun s => phase (s.enterPhase p) := h.after

/-- Pseudocode that ends well and leaves the output alone. -/
theorem WritesOutput.update {g : State → State} (hg : ∀ u, (g u).output = u.output := by intros; rfl) :
    WritesOutput fun s => .ok (g s) := fun _ _ h => h.update hg

/-- `out` stores the byte at OUT_LEN, which it moves past it. -/
theorem out_writesOutput (b : Byte) : WritesOutput (out b) := fun s t h => by
  by_cases hfull : t.outLen = t.outCap
  · rw [out_of_full b hfull]
    exact ⟨rfl, h⟩
  · rw [out_of_room b hfull]
    have hlt : t.outLen.toNat < s.outCap.toNat :=
      Nat.lt_of_le_of_ne h.le_cap fun he => hfull (BitVec.eq_of_toNat_eq (he.trans (h.outCap ▸ rfl)))
    have hlen : (t.outLen + 1).toNat = t.outLen.toNat + 1 :=
      BitVec.toNat_add_of_lt (show t.outLen.toNat + 1 < 2 ^ 32 by have := s.outCap.isLt; omega)
    have hbase := h.outBase
    have hstart := h.start_le
    have hfits := h.fits
    constructor
    case fits => exact hfits
    case memSize => exact h.memSize
    case outBase => exact hbase
    case outCap => exact h.outCap
    case outStart => exact h.outStart
    case start_le => exact hstart.trans (hlen ▸ Nat.le_succ _)
    case le_cap => exact hlen ▸ hlt
    case canonical => exact fun hwf => Memory.wf_set (h.canonical hwf) _ _
    case entries =>
      intro c hc
      rcases Memory.mem_set hc with rfl | hc
      · exact .inr (by rw [hbase]; omega)
      · exact h.entries c hc
    case bytes =>
      intro a ha
      replace ha : a < s.outBase.toNat + s.work.outStart.toNat ∨ s.outBase.toNat + (t.outLen.toNat + 1) ≤ a :=
        hlen ▸ ha
      refine (State.readBuf_writeBuf_ne t _ b ?_).trans (h.bytes a (by omega))
      rw [hbase]
      omega

theorem outAll_writesOutput (bs : List Byte) : WritesOutput (outAll bs) := by
  induction bs with
  | nil => exact WritesOutput.update (g := id)
  | cons b bs ih => exact (out_writesOutput b).andThen ih

/-! ## The output phases -/

theorem wrhdrPhase_writesOutput : WritesOutput wrhdrPhase := fun _ t h => outAll_writesOutput t.ft.headerBytes h

theorem packBit_writesOutput (b : Bool) : WritesOutput (packBit b) := fun s t h => by
  have hpacked : s.Writing (t.setPacker ((t.work.acc <<< 1) ||| BitVec.zeroExtend 8 (BitVec.ofBool b))
      (t.work.na + 1)) := h.update
  rw [packBit]
  split
  · exact ((out_writesOutput _).andThen (WritesOutput.update (g := State.setPacker 0 0))) hpacked
  · exact hpacked

theorem packBits_writesOutput (bs : List Bool) : WritesOutput (packBits bs) := by
  induction bs with
  | nil => exact WritesOutput.update (g := id)
  | cons b bs ih => exact (packBit_writesOutput b).andThen ih

theorem encodeByte_writesOutput (i : Nat) (b : Byte) : WritesOutput (encodeByte i b) := fun s t h => by
  rw [encodeByte]
  split
  · exact ⟨rfl, h⟩
  · exact packBits_writesOutput _ h

theorem encodeBytes_writesOutput (i : Nat) (bs : List Byte) : WritesOutput (encodeBytes i bs) := by
  induction bs generalizing i with
  | nil => exact WritesOutput.update (g := id)
  | cons b bs ih => exact (encodeByte_writesOutput i b).andThen (ih (i + 1))

theorem writeTrailer_writesOutput : WritesOutput writeTrailer := fun s t h => by
  rw [writeTrailer]
  split
  · exact h
  · exact Run.Ends.andThen (out_writesOutput _ h) (fun _ hu => out_writesOutput _ hu) fun _ hu => hu

theorem encodePhase_writesOutput : WritesOutput encodePhase := fun _ t h =>
  ((encodeBytes_writesOutput 0 t.inputBytes).andThen writeTrailer_writesOutput) (h.update (g := State.setPacker 0 0))

theorem emit_writesOutput (v : Byte) (p : Word) : WritesOutput (emit v p) := fun s t h => by
  rw [emit]
  split
  · exact ⟨rfl, h⟩
  · exact ((out_writesOutput v).andThen
      (WritesOutput.update (g := fun u => { u with work := { u.work with cnt := u.work.cnt + 1 } }))) h

theorem detectLeaf_writesOutput (p : Word) : WritesOutput (detectLeaf p) := fun s t h => by
  rw [detectLeaf]
  split
  · exact ((emit_writesOutput _ p).andThen (WritesOutput.update (g := fun u => u.setCursor u.arena.root))) h
  · exact h

theorem descend_writesOutput (b : Bool) (p : Word) : WritesOutput (descend b p) := fun s t h => by
  rw [descend]
  generalize (if b then t.cursor.right else t.cursor.left) = nxt
  split
  · exact ⟨rfl, h⟩
  · exact h.update

theorem decodeBit_writesOutput (r : Nat) : WritesOutput (decodeBit r) := fun _ _ h =>
  ((detectLeaf_writesOutput _).andThen ((descend_writesOutput _ _).andThen
    (WritesOutput.update (g := State.nextBit)))) h

theorem endDecode_writesOutput : WritesOutput endDecode := fun s t h => by
  rw [endDecode]
  split
  · refine Run.Ends.andThen (emit_writesOutput _ _ h) (fun u hu => ?_) fun _ hu => hu
    split
    · exact hu
    · exact ⟨rfl, hu⟩
  · exact ⟨rfl, h⟩

theorem decodePhase_writesOutput : WritesOutput decodePhase := fun s t h => by
  rw [decodePhase]
  split
  · split
    · exact h
    · exact ⟨rfl, h⟩
  · split
    · exact ⟨rfl, h⟩
    · split
      · exact ⟨rfl, h⟩
      · exact Run.Ends.andThen
          (Run.Ends.repeat (fun u hu => decodeBit_writesOutput _ hu) _ (h.update (g := State.startDecode)))
          (fun u hu => endDecode_writesOutput hu) fun _ hu => hu

/-! ## The table's own pseudocode -/

/-- `s` without the frequency table and what is cleared with it: BODY_OFF and the validity flags. -/
def State.offTable (s : State) : State :=
  { s with ft := FreqTable.empty, bodyOff := 0, status := s.status.invalidated }

/-- The pseudocode writes the table, BODY_OFF and the validity flags alone, and raises only errors that discard an
output. -/
def WritesTable (body : State → Run) : Prop := ∀ s : State, (body s).Ends fun t => t.offTable = s.offTable

theorem WritesTable.andThen {f g : State → Run} (hf : WritesTable f) (hg : WritesTable g) :
    WritesTable fun s => (f s).andThen g := fun s =>
  Run.Ends.andThen (hf s) (fun u hu => (hg u).mono fun _ ht => ht.trans hu) fun _ hu => hu

/-- Where only the table is written, the output is left alone. -/
theorem WritesTable.writesOutput {body : State → Run} (h : WritesTable body) : WritesOutput body := fun _ t hs =>
  (h t).mono fun _ hu => hs.congr (congrArg State.output hu :)

theorem ftaddBody_writesTable (v : Byte) : WritesTable (ftaddBody v) := fun s => by
  rw [ftaddBody]
  split
  · exact ⟨rfl, rfl⟩
  · split
    · exact ⟨rfl, rfl⟩
    · exact rfl

theorem countPhase_writesTable : WritesTable countPhase := fun _ => rfl

theorem parseRecord_writesTable (k : Nat) : WritesTable (parseRecord k) := fun s => by
  rw [parseRecord]
  split
  · exact ⟨rfl, rfl⟩
  · split
    · exact ⟨rfl, rfl⟩
    · exact rfl

theorem parseRecords_writesTable (n : Nat) : WritesTable (parseRecords n) := by
  induction n with
  | zero => exact fun _ => rfl
  | succ n ih => exact ih.andThen (parseRecord_writesTable n)

theorem parseLeaves_writesTable : WritesTable parseLeaves := fun s => by
  have hmark (off : Word) : WritesTable fun t => .ok (t.markHeader off) := fun _ => rfl
  rw [parseLeaves]
  split
  · exact ⟨rfl, rfl⟩
  · dsimp only
    split
    · exact ⟨rfl, rfl⟩
    · split
      · exact ⟨rfl, rfl⟩
      · exact (parseRecords_writesTable _).andThen (hmark _) s

theorem parsehdrPhase_writesTable : WritesTable parsehdrPhase := fun s => parseLeaves_writesTable s.clearTable

/-! ## The pipelines -/

theorem buildPhase_writesOutput : WritesOutput buildPhase :=
  WritesOutput.update (g := fun s => { s.markTree with
    arena := s.ft.buildTree.1, work := { s.work with q := s.ft.buildTree.2 } })

theorem gencodePhase_writesOutput : WritesOutput gencodePhase :=
  WritesOutput.update (g := fun s => { s.markCodebook with cb := s.arena.codebook })

theorem compressPhases_writesOutput : WritesOutput compressPhases :=
  (countPhase_writesTable.writesOutput.inPhase .count).andThen <|
  (buildPhase_writesOutput.inPhase .build).andThen <|
  (gencodePhase_writesOutput.inPhase .gencode).andThen <|
  (wrhdrPhase_writesOutput.inPhase .wrhdr).andThen <|
  encodePhase_writesOutput.inPhase .encode

theorem decompressPhases_writesOutput : WritesOutput decompressPhases :=
  (parsehdrPhase_writesTable.writesOutput.inPhase .parsehdr).andThen <|
  (buildPhase_writesOutput.inPhase .build).andThen <|
  decodePhase_writesOutput.inPhase .decode

/-! ## Every command -/

/-- `s` at the start of the output of command `i`. -/
def State.begun (i : Instr) (s : State) : State :=
  { s with outLen := outStartOf i s, work := { s.work with outStart := outStartOf i s } }

/-- Everything the pseudocode of a command can end as: a check that fails at once, which discards no output; a run
that leaves the output alone; or one that writes to it. -/
inductive State.BodyEnd (i : Instr) (s : State) : Run → Prop where
  | check (e : ErrCode) (he : e = .badRegion ∨ e = .sequence) : BodyEnd i s (.raised e 0 s)
  | quiet {r : Run} (hout : (writeSet i).out = false) (h : r.Ends fun t => t.output = s.output) : BodyEnd i s r
  | writes {r : Run} (hout : (writeSet i).out = true) (h : r.Ends (s.begun i).Writing) : BodyEnd i s r

section
variable {i : Instr} {s : State}

/-- A check before the rest of the pseudocode. -/
theorem State.BodyEnd.checked {c : Bool} {e : ErrCode} {r : Run} (he : e = .badRegion ∨ e = .sequence)
    (h : c = true → s.BodyEnd i r) : s.BodyEnd i (if c then r else .raised e 0 s) := by
  split
  · next hc => exact h hc
  · exact .check e he

theorem State.BodyEnd.of_writesTable {body : State → Run} (hout : (writeSet i).out = false) (h : WritesTable body) :
    s.BodyEnd i (body s) := .quiet hout ((h s).mono fun _ ht => (congrArg State.output ht :))

theorem State.BodyEnd.of_writesOutput {phase : State → Run} {u : State} (hout : (writeSet i).out = true)
    (h : WritesOutput phase) (hu : u.output = (s.begun i).output)
    (hfits : s.outBase.toNat + s.outCap.toNat ≤ s.memSize) (hlen : (outStartOf i s).toNat ≤ s.outCap.toNat) :
    s.BodyEnd i (phase u) := .writes hout (h ((State.Writing.start (s := s.begun i) hfits rfl hlen).congr hu))

/-- ENCODE's and DECODE's region check. -/
theorem State.outOk_of_checks (h : (s.inOk && s.outOk && s.disjoint) = true) :
    s.outBase.toNat + s.outCap.toNat ≤ s.memSize ∧ s.outLen.toNat ≤ s.outCap.toNat := by
  simp only [Bool.and_eq_true, State.outOk_iff] at h
  exact h.1.2

/-- COMPRESS's and DECOMPRESS's region check. -/
theorem State.outFits_of_checks (h : (s.inOk && s.outFits && s.disjoint) = true) :
    s.outBase.toNat + s.outCap.toNat ≤ s.memSize := by
  simp only [Bool.and_eq_true, State.outFits_iff] at h
  exact h.1.2

end

theorem bodyOf_end (i : Instr) (s : State) : s.BodyEnd i (bodyOf i s) := by
  cases i
  case nop | reset | ftclr | build => exact .quiet rfl rfl
  case ftadd v => exact .of_writesTable rfl (ftaddBody_writesTable v)
  case count => exact .checked (.inl rfl) fun _ => .of_writesTable rfl countPhase_writesTable
  case parsehdr => exact .checked (.inl rfl) fun _ => .of_writesTable rfl parsehdrPhase_writesTable
  case gencode => exact .checked (.inr rfl) fun _ => .quiet rfl rfl
  case wrhdr =>
    refine .checked (.inl rfl) fun hc => ?_
    obtain ⟨hfits, hlen⟩ := State.outOk_iff.mp hc
    exact .of_writesOutput rfl wrhdrPhase_writesOutput rfl hfits hlen
  case encode =>
    refine .checked (.inr rfl) fun _ => .checked (.inl rfl) fun hc => ?_
    obtain ⟨hfits, hlen⟩ := State.outOk_of_checks hc
    exact .of_writesOutput rfl encodePhase_writesOutput rfl hfits hlen
  case decode =>
    refine .checked (.inr rfl) fun _ => .checked (.inl rfl) fun hc => ?_
    obtain ⟨hfits, hlen⟩ := State.outOk_of_checks hc
    exact .of_writesOutput rfl decodePhase_writesOutput rfl hfits hlen
  case compress =>
    exact .checked (.inl rfl) fun hc =>
      .of_writesOutput rfl compressPhases_writesOutput rfl (State.outFits_of_checks hc) (Nat.zero_le _)
  case decompress =>
    exact .checked (.inl rfl) fun hc =>
      .of_writesOutput rfl decompressPhases_writesOutput rfl (State.outFits_of_checks hc) (Nat.zero_le _)

/-! ## The bytes a command changes -/

/-- `t` differs from `s` in no byte before OUT_START or past the output region, and after a success in none past
OUT_LEN. -/
structure State.StaysInRegion (s t : State) : Prop where
  region  : ∀ a, (a < s.outBase.toNat + s.work.outStart.toNat ∨ s.outBase.toNat + s.outCap.toNat ≤ a) →
    t.readBuf a = s.readBuf a
  success : t.status.err = false → ∀ a,
    (a < s.outBase.toNat + s.work.outStart.toNat ∨ s.outBase.toNat + t.outLen.toNat ≤ a) →
    t.readBuf a = s.readBuf a

section
variable {s t : State}

theorem State.StaysInRegion.of_same (hbuf : t.buf = s.buf) (hepoch : t.bufEpoch = s.bufEpoch) :
    s.StaysInRegion t where
  region a _ := State.readBuf_congr hbuf hepoch a
  success _ a _ := State.readBuf_congr hbuf hepoch a

theorem State.Writing.region (h : s.Writing t) (a : Nat)
    (ha : a < s.outBase.toNat + s.work.outStart.toNat ∨ s.outBase.toNat + s.outCap.toNat ≤ a) :
    t.readBuf a = s.readBuf a :=
  h.bytes a (ha.imp_right fun hge => (Nat.add_le_add_left h.le_cap _).trans hge)

/-- Discarding writes the region from OUT_START on. -/
theorem State.readBuf_discardOutput_outside {a : Nat}
    (ha : a < s.outBase.toNat + s.work.outStart.toNat ∨ s.outBase.toNat + s.outCap.toNat ≤ a) :
    s.discardOutput.readBuf a = s.readBuf a := by
  rw [State.readBuf_discardOutput, if_neg (by omega)]

theorem State.Writing.complete (h : s.Writing t) : s.StaysInRegion t.complete := ⟨h.region, fun _ => h.bytes⟩

theorem State.Writing.discarded (h : s.Writing t) (e : ErrCode) (pos : Word) :
    s.StaysInRegion (t.discardOutput.report e pos) where
  region a ha := by
    refine (State.readBuf_discardOutput_outside ?_).trans (h.region a ha)
    rw [h.outBase, h.outStart, h.outCap]
    exact ha
  success herr := Bool.noConfusion herr

/-- A cancellation resets the parts of the write set and then the output, if it is one of them (`45_control.md`
R306). -/
theorem State.clearWriteSet_output (ws : WriteSet) (s : State) :
    ∃ u : State, u.output = s.output ∧ s.clearWriteSet ws = if ws.out then u.discardOutput else u := by
  have hite (c : Bool) {u v : State} (hu : u.output = s.output) (hv : v.output = s.output) :
      (if c then u else v).output = s.output := by
    split
    · exact hu
    · exact hv
  have htable := hite ws.table (u := s.clearTable) rfl (v := s) rfl
  have harena := hite ws.arena (u := State.clearArena _) htable htable
  exact ⟨_, hite ws.codebook (u := State.clearCodebook _) harena harena, rfl⟩

theorem State.StaysInRegion.cancel (ws : WriteSet) (s : State) : s.StaysInRegion (s.cancel ws) where
  region a ha := by
    obtain ⟨u, hu, hclear⟩ := State.clearWriteSet_output ws s
    have hread : u.readBuf a = s.readBuf a :=
      State.readBuf_congr (congrArg State.buf hu :) (congrArg State.bufEpoch hu :) a
    have hbase : u.outBase = s.outBase := (congrArg State.outBase hu :)
    have hcap : u.outCap = s.outCap := (congrArg State.outCap hu :)
    have hstart : u.work.outStart = s.work.outStart := (congrArg (fun v => v.work.outStart) hu :)
    change (s.clearWriteSet ws).readBuf a = s.readBuf a
    rw [hclear]
    split
    · rw [State.readBuf_discardOutput_outside (by rw [hbase, hcap, hstart]; exact ha), hread]
    · exact hread
  success herr := Bool.noConfusion herr

/-- A command whose write set leaves the output out leaves BUF alone. -/
theorem State.buf_cancel {ws : WriteSet} (hout : ws.out = false) (s : State) : (s.cancel ws).buf = s.buf := by
  obtain ⟨u, hu, hclear⟩ := State.clearWriteSet_output ws s
  change (s.clearWriteSet ws).buf = s.buf
  rw [hclear, hout]
  exact (congrArg State.buf hu :)

theorem Run.buf_settle_false (r : Run) : (r.settle false).buf = r.reached.buf := by cases r <;> rfl

theorem Run.bufEpoch_settle_false (r : Run) : (r.settle false).bufEpoch = r.reached.bufEpoch := by
  cases r <;> rfl

end

/-- A check that fails at once changes nothing but the report. -/
theorem settle_check {e : ErrCode} (he : e = .badRegion ∨ e = .sequence) (w : Bool) (s : State) :
    (Run.raised e 0 s).settle w = s.report e 0 := by
  rcases he with rfl | rfl <;> rw [Run.settle_raised, ErrCode.discards, Bool.and_false, if_neg Bool.false_ne_true]

section
variable {i : Instr} {s : State} {r : Run}

theorem State.BodyEnd.staysInRegion (h : s.BodyEnd i r) :
    (s.begun i).StaysInRegion (r.settle (writeSet i).out) := by
  cases h with
  | check e he =>
    rw [settle_check he]
    exact .of_same rfl rfl
  | quiet hout h =>
    rw [hout]
    exact .of_same ((r.buf_settle_false).trans (congrArg State.buf h.reached :))
      ((r.bufEpoch_settle_false).trans (congrArg State.bufEpoch h.reached :))
  | writes hout h =>
    rw [hout]
    cases r with
    | ok u => exact h.complete
    | raised e pos u =>
      obtain ⟨he, hu⟩ := h
      rw [Run.settle_raised, he]
      exact hu.discarded e pos

theorem State.BodyEnd.buf_eq (h : s.BodyEnd i r) (hout : (writeSet i).out = false) :
    (r.settle (writeSet i).out).buf = s.buf := by
  cases h with
  | check e he => rw [settle_check he]; rfl
  | quiet _ h => rw [hout, r.buf_settle_false]; exact (congrArg State.buf h.reached :)
  | writes hout' _ => rw [hout] at hout'; cases hout'

end

/-- With no request pending a command changes no byte outside the output region, and none before its OUT_START
(`20_memory.md` R93). -/
theorem readBuf_exec_outside {i : Instr} {s t : State} (hreq : s.work.abortReq = false) (h : exec i s = .next t) {a : Nat}
    (ha : a < s.outBase.toNat + (outStartOf i s).toNat ∨ s.outBase.toNat + s.outCap.toNat ≤ a) :
    t.readBuf a = s.readBuf a := by
  rw [exec_of_no_request i hreq] at h
  injection h with h
  subst h
  exact (bodyOf_end i s).staysInRegion.region a ha

/-- Settles O20: the pseudocode writes from OUT_START to OUT_LEN, and the bytes that an error or a cancellation discards
are those from OUT_START on. -/
theorem outputStaysInItsRegion : Obligations.OutputStaysInItsRegion := by
  intro i s t hacc h
  obtain ⟨d, rfl | rfl⟩ := exec_cases h
  · have hend := bodyOf_end i { s with draws := d }
    have hstart : outStartOf i { s with draws := d } = outStartOf i s := by cases i <;> rfl
    obtain ⟨hregion, hsuccess⟩ := hend.staysInRegion
    rw [← hstart]
    exact ⟨hregion, hsuccess, hend.buf_eq⟩
  · obtain ⟨hregion, hsuccess⟩ := State.StaysInRegion.cancel (writeSet i) { s with draws := d }
    rw [← hacc.outStart]
    exact ⟨hregion, hsuccess, fun hout => State.buf_cancel hout { s with draws := d }⟩

/-! ## BUF's invariant -/

section
variable {s t : State}

/-- BUF's invariant is a fact about BUF and MEM_SIZE. -/
theorem State.BufWf.congr (h : s.BufWf) (hbuf : t.buf = s.buf) (hmem : t.memSize = s.memSize) : t.BufWf where
  canonical := hbuf ▸ h.canonical
  inRange := by rw [hbuf, hmem]; exact h.inRange
  sizeLow := hmem ▸ h.sizeLow
  sizeHigh := hmem ▸ h.sizeHigh

theorem State.BufWf.writeBuf (h : s.BufWf) {a : Nat} (b : Byte) (ha : a < s.memSize) : (s.writeBuf a b).BufWf where
  canonical := Memory.wf_set h.canonical a b
  inRange c hc := by
    rcases Memory.mem_set hc with rfl | hc
    · exact ha
    · exact h.inRange c hc
  sizeLow := h.sizeLow
  sizeHigh := h.sizeHigh

/-- Discarding writes no byte at or above MEM_SIZE. -/
theorem State.BufWf.discardOutput (h : s.BufWf) : s.discardOutput.BufWf where
  canonical := State.wf_discardOutput h.canonical
  inRange c hc := by
    rcases Memory.mem_fill hc with ⟨hlo, hhi⟩ | hc
    · change c.1 < s.memSize
      omega
    · exact h.inRange c hc
  sizeLow := h.sizeLow
  sizeHigh := h.sizeHigh

theorem State.Writing.bufWf (h : s.Writing t) (hs : s.BufWf) : t.BufWf where
  canonical := h.canonical hs.canonical
  inRange c hc := by
    rw [h.memSize]
    exact (h.entries c hc).elim (hs.inRange c) id
  sizeLow := h.memSize ▸ hs.sizeLow
  sizeHigh := h.memSize ▸ hs.sizeHigh

theorem State.BodyEnd.bufWf {i : Instr} {r : Run} (h : s.BodyEnd i r) (hs : s.BufWf) :
    r.reached.BufWf ∧ r.reached.memSize = s.memSize := by
  cases h with
  | check e he => exact ⟨hs, rfl⟩
  | quiet _ h =>
    have hmem : r.reached.memSize = s.memSize := (congrArg State.memSize h.reached :)
    exact ⟨hs.congr (congrArg State.buf h.reached :) hmem, hmem⟩
  | writes _ h => exact ⟨h.reached.bufWf (hs.congr (t := s.begun i) rfl rfl), h.reached.memSize⟩

theorem State.HostChange.bufWf (h : s.HostChange t) (hs : s.BufWf) : t.BufWf ∧ t.memSize = s.memSize := by
  cases h with
  | none _ hbuf hmem => exact ⟨hs.congr hbuf hmem, hmem⟩
  | byte a b ha h => exact h ▸ ⟨hs.writeBuf b ha, rfl⟩
  | input base len h => exact h ▸ ⟨hs.congr rfl rfl, rfl⟩
  | reset h => exact h ▸ ⟨⟨wf_hardReset s, fun c hc => absurd hc List.not_mem_nil, hs.sizeLow, hs.sizeHigh⟩, rfl⟩

end

/-- Every step keeps BUF's invariant, and MEM_SIZE. -/
theorem stepInvariant_bufWf (n : Nat) : StepInvariant fun s => s.BufWf ∧ s.memSize = n where
  book _ _ _ h := ⟨h.1.congr rfl rfl, h.2⟩
  host op h := ((hostOp_hostChange op _).bufWf h.1).imp_right fun hmem => hmem.trans h.2
  body i h := ((bodyOf_end i _).bufWf h.1).imp_right fun hmem => hmem.trans h.2
  complete h := ⟨h.1.congr rfl rfl, h.2⟩
  report _ _ h := ⟨h.1.congr rfl rfl, h.2⟩
  discard h := ⟨h.1.discardOutput, h.2⟩
  table h := ⟨h.1.congr rfl rfl, h.2⟩
  arena h := ⟨h.1.congr rfl rfl, h.2⟩
  codebook h := ⟨h.1.congr rfl rfl, h.2⟩

/-- Settles O56: the HOST stores below MEM_SIZE alone, and a command in an output region that its check found to lie
there. -/
theorem everyStepKeepsBufInRange : Obligations.EveryStepKeepsBufInRange := fun s _ hs h =>
  (stepInvariant_bufWf s.memSize).step ⟨hs, rfl⟩ h

end Sys2Proof.Machine
end

