-- ==== Sys2Proof/Proofs/Report.lean ====
section
/-! PROOFS. The completion bits, the error report and the busy-only state (`10_state.md` R35, R36, R38, R47, R56;
`60_exceptions.md` R331) fit together over every step. -/

namespace Sys2Proof.Machine

/-! ## The HOST -/

/-- `s` with nothing left but the completion bits, the error report and the busy-only state. -/
def State.reporting (s : State) : State :=
  { State.reset with
    status := { Status.reset with busy := s.status.busy, done := s.status.done, err := s.status.err }
    errCode := s.errCode, errPos := s.errPos, work := s.work }

theorem State.reportWf_reporting_iff (s : State) : s.reporting.ReportWf ↔ s.ReportWf :=
  ⟨fun ⟨busy, idle, notBoth, coded, reserved⟩ => ⟨busy, idle, notBoth, coded, reserved⟩,
    fun ⟨busy, idle, notBoth, coded, reserved⟩ => ⟨busy, idle, notBoth, coded, reserved⟩⟩

section
variable {s t : State}

theorem State.ReportWf.congr (h : s.ReportWf) (hst : t.reporting = s.reporting) : t.ReportWf := by
  rw [← State.reportWf_reporting_iff, hst, State.reportWf_reporting_iff]
  exact h

/-- A write that leaves the report alone is ignored while busy, and then sets HOSTERR alone. -/
theorem State.ReportWf.whileIdle (h : s.ReportWf) (hst : t.reporting = s.reporting) : (s.whileIdle t).ReportWf := by
  rcases State.whileIdle_cases s t with ⟨-, hw⟩ | ⟨-, hw⟩ <;> rw [hw]
  · exact h.congr rfl
  · exact h.congr hst

/-- Acceptance (`10_state.md` R36) clears the report. -/
theorem State.reportWf_accept (w : Word) (s : State) : (s.accept w).ReportWf where
  busy _ := ⟨rfl, rfl, rfl, rfl⟩
  idle hb := Bool.noConfusion hb
  notBoth hboth := Bool.noConfusion hboth.1
  coded herr := Bool.noConfusion herr
  reserved := (by decide : (0 : BitVec 8) ≤ 0x0E)

/-- A write to CTRL requests a cancellation while busy alone (`45_control.md` R306). -/
theorem State.ReportWf.writeCtrl (h : s.ReportWf) (v : Word) : (s.writeCtrl v).ReportWf where
  busy := h.busy
  idle hb := by
    have hidle := h.idle hb
    change { s.work with abortReq := s.work.abortReq || (s.status.busy && v.getLsbD 1) } = Work.idle
    rw [show s.status.busy = false from hb, hidle]
    rfl
  notBoth := h.notBoth
  coded := h.coded
  reserved := h.reserved

/-- A write to STATUS clears bits alone (`10_state.md` R35). -/
theorem State.ReportWf.writeStatus (h : s.ReportWf) (v : Word) :
    State.ReportWf { s with status := s.status.writeOneToClear v } where
  busy hb := by
    obtain ⟨hdone, herr, hcode, hpos⟩ := h.busy hb
    exact ⟨by simp [Status.writeOneToClear, hdone], by simp [Status.writeOneToClear, herr], hcode, hpos⟩
  idle := h.idle
  notBoth hboth := h.notBoth ⟨(Bool.and_eq_true_iff.mp hboth.1).1, (Bool.and_eq_true_iff.mp hboth.2).1⟩
  coded herr := h.coded (Bool.and_eq_true_iff.mp herr).1
  reserved := h.reserved

theorem State.ReportWf.writeReg (h : s.ReportWf) (r : Reg) (v : Word) : (s.writeReg r v).ReportWf := by
  cases r
  case ctrl => exact h.writeCtrl v
  case status => exact h.writeStatus v
  case cmd =>
    change (s.whileIdle (s.accept v)).ReportWf
    rcases State.whileIdle_cases s (s.accept v) with ⟨-, hw⟩ | ⟨-, hw⟩ <;> rw [hw]
    · exact h.congr rfl
    · exact s.reportWf_accept v
  case arg | inBase | inLen | outBase | outCap | outLen => exact h.whileIdle rfl
  all_goals exact h.congr rfl

/-- The machine after hardware reset reports nothing. -/
theorem State.reportWf_resetWith (n : Nat) : (State.resetWith n).ReportWf where
  busy hb := Bool.noConfusion hb
  idle _ := rfl
  notBoth hboth := Bool.noConfusion hboth.1
  coded herr := Bool.noConfusion herr
  reserved := (by decide : (0 : BitVec 8) ≤ 0x0E)

theorem State.ReportWf.hostOp (h : s.ReportWf) (op : HostOp) : (hostOp op s).ReportWf := by
  cases op with
  | regWrite off width v =>
    change (hostRegWrite off width v s).ReportWf
    rw [hostRegWrite]
    split
    · exact h
    · exact h.writeReg _ v
  | regRead off width =>
    change (hostRegRead off width s).ReportWf
    rcases hostRegRead_cases off width s with ⟨v, hr⟩ | ⟨v, hr⟩ <;> rw [hr] <;> exact h.congr rfl
  | bufWrite a b =>
    change (hostBufWrite a b s).ReportWf
    rcases hostBufWrite_cases a b s with hw | ⟨-, hw⟩ | ⟨-, -, hw⟩ <;> rw [hw] <;> exact h.congr rfl
  | bufRead a =>
    change (hostBufRead a s).ReportWf
    rcases hostBufRead_cases a s with ⟨v, hr⟩ | ⟨v, hr⟩ <;> rw [hr] <;> exact h.congr rfl
  | wait =>
    change (hostWait s).ReportWf
    rw [hostWait]
    split <;> exact h.congr rfl
  | hardReset => exact (State.reportWf_resetWith s.memSize).congr rfl

theorem State.ReportWf.hostStep (h : s.ReportWf) : (hostStep s).ReportWf := by
  rcases hostStep_cases s with ⟨-, hs⟩ | ⟨op, rest, -, hs⟩ <;> rw [hs]
  · exact h
  · exact State.ReportWf.hostOp (s := { s with host := rest }) (h.congr rfl) op

end

/-! ## The CORE -/

/-- `t` reports a success, or an error by its code. -/
def State.Reports (t : State) : Prop := t.status.done = true ∨ t.errCode ≠ 0

theorem ErrCode.code_ne_zero {e : ErrCode} (h : e ≠ .none) : e.code ≠ 0 := fun hz => h (e.code_eq_zero_iff.mp hz)

theorem Run.reports_settle {P : State → Prop} {r : Run} (h : r.Ends P) (w : Bool) : (r.settle w).Reports := by
  cases r with
  | ok s => exact .inl rfl
  | raised e pos s =>
    obtain ⟨he, -⟩ := h
    exact .inr (ErrCode.code_ne_zero (by rintro rfl; cases he))

theorem State.BodyEnd.reports {i : Instr} {s : State} {r : Run} (h : s.BodyEnd i r) (w : Bool) :
    (r.settle w).Reports := by
  cases h with
  | check e he => exact .inr (ErrCode.code_ne_zero (by rcases he with rfl | rfl <;> decide))
  | quiet _ h => exact Run.reports_settle h w
  | writes _ h => exact Run.reports_settle h w

theorem coreStep_reports {s t : State} (h : coreStep s = .next t) : t.Reports := by
  rcases coreStep_ends h with ⟨i, hi⟩ | ⟨d, rfl | rfl⟩
  · obtain ⟨d, rfl | rfl⟩ := exec_cases hi
    · exact (bodyOf_end i _).reports _
    · exact .inr (ErrCode.code_ne_zero (e := .cancelled) (by decide))
  · exact .inr (ErrCode.code_ne_zero (e := .badCommand) (by decide))
  · exact .inr (ErrCode.code_ne_zero (e := .cancelled) (by decide))

section
variable {s t : State} (h : s.CompletesTo t)
include h

theorem State.CompletesTo.work : t.work = Work.idle := by
  obtain ⟨u, -, rfl | ⟨e, pos, rfl⟩⟩ := h <;> rfl

/-- The report is a code of the table (`60_exceptions.md` R331), if what it replaces was. -/
theorem State.CompletesTo.errCode_le (hs : s.errCode ≤ 0x0E) : t.errCode ≤ 0x0E := by
  obtain ⟨u, hframe, rfl | ⟨e, pos, rfl⟩⟩ := h
  · have hcode : u.errCode = s.errCode := (congrArg State.errCode hframe :)
    exact hcode ▸ hs
  · exact e.code_le

/-- A completion after which the report is a code with ERR. -/
theorem State.CompletesTo.reportWf (hs : s.ReportWf) (hbusy : s.status.busy = true) (ht : t.Reports) : t.ReportWf := by
  obtain ⟨hdone, herr, -, -⟩ := hs.busy hbusy
  have hone := h.done hdone herr
  constructor
  case busy => exact fun hb => absurd (h.busy.symm.trans hb) Bool.false_ne_true
  case idle => exact fun _ => h.work
  case notBoth =>
    rintro ⟨hd, he⟩
    rw [hd, he] at hone
    cases hone
  case coded =>
    intro he
    refine ht.resolve_left fun hd => ?_
    rw [hd, he] at hone
    cases hone
  case reserved => exact h.errCode_le hs.reserved

end

/-- Settles O57: acceptance clears the report and starts the busy-only state, and the CORE's step, which runs only while
BUSY = 1, ends in one completion that reports a success or a code. -/
theorem everyStepKeepsTheReport : Obligations.EveryStepKeepsTheReport := by
  intro s t hs h
  obtain ⟨ts, hturn⟩ := s.takeTurn_eq
  have hs' : s.takeTurn.ReportWf := hturn ▸ hs.congr rfl
  rcases step_cases h with ⟨-, rfl⟩ | ⟨-, hbusy, hcore⟩
  · exact hs'.hostStep
  · have hbusy' : s.takeTurn.status.busy = true := by rw [hturn]; exact hbusy
    obtain ⟨u, hu, hend⟩ := coreStep_completesTo s.takeTurn
    obtain rfl : u = t := by
      rw [hu] at hcore
      injection hcore
    exact hend.reportWf hs' hbusy' (coreStep_reports hcore)

end Sys2Proof.Machine
end

