-- ==== Sys2Proof/Proofs/CodecInvariants.lean ====
section
/-! PROOFS. The invariants of the codec's own state: what the validity flags promise (`10_state.md` R42, R54) and the
arena's shape (R44, R46); and the machine after hardware reset, which meets every invariant. -/

namespace Sys2Proof.Machine

/-! ## PARSEHDR -/

theorem parseRecord_ok {k : Nat} {s t : State} (h : parseRecord k s = .ok t) :
    t = { s with ft := t.ft } ∧ t.ft.leafCnt = s.ft.leafCnt + 1 := by
  rw [parseRecord] at h
  split at h
  · cases h
  · split at h
    · cases h
    · obtain rfl := Run.ok.inj h
      exact ⟨rfl, rfl⟩

theorem parseRecords_ok {n : Nat} {s t : State} (h : parseRecords n s = .ok t) :
    t = { s with ft := t.ft } ∧ t.ft.leafCnt = s.ft.leafCnt + BitVec.ofNat 9 n := by
  induction n generalizing t with
  | zero =>
    obtain rfl := Run.ok.inj h
    exact ⟨rfl, (BitVec.add_zero _).symm⟩
  | succ n ih =>
    obtain ⟨u, hu, hrec⟩ := Run.andThen_eq_ok.mp h
    obtain ⟨husame, hucnt⟩ := ih hu
    obtain ⟨htsame, htcnt⟩ := parseRecord_ok hrec
    refine ⟨htsame.trans (husame ▸ rfl), ?_⟩
    rw [htcnt, hucnt, BitVec.add_assoc, BitVec.ofNat_add]
    rfl

theorem parseRecord_raised {k : Nat} {s t : State} {e : ErrCode} {pos : Word}
    (h : parseRecord k s = .raised e pos t) : t = { s with ft := FreqTable.empty } := by
  rw [parseRecord] at h
  split at h
  · injection h with _ _ h
    exact h.symm
  · split at h
    · injection h with _ _ h
      exact h.symm
    · cases h

theorem parseRecords_raised {n : Nat} {s t : State} {e : ErrCode} {pos : Word}
    (h : parseRecords n s = .raised e pos t) : t = { s with ft := FreqTable.empty } := by
  induction n with
  | zero => cases h
  | succ n ih =>
    rcases Run.andThen_eq_raised.mp h with h | ⟨u, hu, h⟩
    · exact ih h
    · exact (parseRecord_raised h).trans ((parseRecords_ok hu).1 ▸ rfl)

/-- Everything PARSEHDR's checks and records can end as (`42_header.md` R213 to R215): an error with an empty table, or
a table of as many entries as the header has records, all of them in the input. -/
theorem parseLeaves_cases (s : State) :
    (∃ e pos, parseLeaves s = .raised e pos { s with ft := FreqTable.empty }) ∨
      ∃ n ft, parseLeaves s = .ok (State.markHeader (BitVec.ofNat 32 (4 + 5 * n)) { s with ft := ft }) ∧
        ft.leafCnt = s.ft.leafCnt + BitVec.ofNat 9 n ∧ n ≤ 256 ∧ 4 + 5 * n ≤ s.inLen.toNat := by
  by_cases hlen : s.inLen.toNat < 4
  · exact .inl ⟨_, _, parseLeaves_of_noCount hlen⟩
  by_cases hn : 256 < (s.input32 0).toNat
  · exact .inl ⟨_, _, parseLeaves_of_badCount (Nat.not_lt.mp hlen) hn⟩
  by_cases hroom : s.inLen.toNat < 4 + 5 * (s.input32 0).toNat
  · exact .inl ⟨_, _, parseLeaves_of_truncated (Nat.not_lt.mp hlen) (Nat.not_lt.mp hn) hroom⟩
  · have hleaves := parseLeaves_of_room (Nat.not_lt.mp hn) (Nat.not_lt.mp hroom)
    cases hrun : parseRecords (s.input32 0).toNat s with
    | ok t =>
      obtain ⟨hsame, hcnt⟩ := parseRecords_ok hrun
      rw [hrun, Run.ok_andThen, hsame] at hleaves
      exact .inr ⟨_, t.ft, hleaves, hcnt, Nat.not_lt.mp hn, Nat.not_lt.mp hroom⟩
    | raised e pos t =>
      rw [hrun, Run.raised_andThen, parseRecords_raised hrun] at hleaves
      exact .inl ⟨e, pos, hleaves⟩

/-! ## The validity flags -/

theorem State.flagsWf_codec_iff (s : State) : s.codec.FlagsWf ↔ s.FlagsWf :=
  ⟨fun ⟨tree, codebook, header, noHeader⟩ => ⟨tree, codebook, header, noHeader⟩,
    fun ⟨tree, codebook, header, noHeader⟩ => ⟨tree, codebook, header, noHeader⟩⟩

section
variable {s t : State}

theorem State.FlagsWf.congr (h : s.FlagsWf) (hst : t.codec = s.codec) : t.FlagsWf := by
  rw [← State.flagsWf_codec_iff, hst, State.flagsWf_codec_iff]
  exact h

/-- With every flag 0 and no BODY_OFF nothing is promised. -/
theorem State.flagsWf_of_clear (hflags : s.status = s.status.invalidated) (hoff : s.bodyOff = 0) : s.FlagsWf where
  tree hv := by rw [hflags] at hv; cases hv
  codebook hv := by rw [hflags] at hv; cases hv
  header hv := by rw [hflags] at hv; cases hv
  noHeader _ := hoff

theorem State.flagsWf_parsehdrPhase (s : State) : (parsehdrPhase s).reached.FlagsWf := by
  rw [parsehdrPhase]
  rcases parseLeaves_cases s.clearTable with ⟨e, pos, h⟩ | ⟨n, ft, h, hcnt, hn, hlen⟩ <;> rw [h]
  · exact State.flagsWf_of_clear rfl rfl
  · have hoff : (BitVec.ofNat 32 (4 + 5 * n)).toNat = 4 + 5 * n := by
      rw [BitVec.toNat_ofNat]
      omega
    have hleaf : ft.leafCnt.toNat = n := by
      rw [hcnt]
      change (0#9 + BitVec.ofNat 9 n).toNat = n
      rw [BitVec.zero_add, BitVec.toNat_ofNat]
      omega
    constructor
    case tree => exact fun hv => Bool.noConfusion hv
    case codebook => exact fun hv => Bool.noConfusion hv
    case header => exact fun _ => ⟨hoff.trans (congrArg (4 + 5 * ·) hleaf.symm), hoff.le.trans hlen⟩
    case noHeader => exact fun hv => Bool.noConfusion hv

end

theorem codecInvariant_flagsWf : CodecInvariant State.FlagsWf where
  congr hs hst := hs.congr hst
  input _ _ hs := ⟨hs.tree, hs.codebook, fun hv => Bool.noConfusion hv, fun _ => rfl⟩
  hardReset _ := State.flagsWf_of_clear rfl rfl
  softReset _ := State.flagsWf_of_clear rfl rfl
  table _ := State.flagsWf_of_clear rfl rfl
  arena hs := ⟨fun hv => Bool.noConfusion hv, fun hv => Bool.noConfusion hv, hs.header, hs.noHeader⟩
  codebook hs := ⟨hs.tree, fun hv => Bool.noConfusion hv, hs.header, hs.noHeader⟩
  ftadd v hs := by
    rw [ftaddBody]
    split
    · exact hs
    · split
      · exact hs
      · exact State.flagsWf_of_clear rfl rfl
  count _ := State.flagsWf_of_clear rfl rfl
  parsehdr _ := State.flagsWf_parsehdrPhase _
  build hs := ⟨fun _ => rfl, fun hv => Bool.noConfusion hv, hs.header, hs.noHeader⟩
  gencode hs hvalid := ⟨hs.tree, fun _ => ⟨hvalid, rfl⟩, hs.header, hs.noHeader⟩

/-- Settles O58: whoever changes the table, the arena, the codebook or the input region clears the flags that speak of
it, and BUILD, GENCODE and PARSEHDR set a flag with what it promises. -/
theorem everyStepKeepsTheFlags : Obligations.EveryStepKeepsTheFlags := fun _ _ hs h =>
  codecInvariant_flagsWf.stepInvariant.step hs h

/-! ## The arena's shape -/

theorem Arena.fieldsOk_of_leaf {a : Arena} {n : Node} (hkind : n.kind = .leaf) (hl : n.left = Config.null)
    (hr : n.right = Config.null) : a.FieldsOk n := by
  rw [Arena.FieldsOk, hkind]
  exact ⟨hl, hr⟩

theorem Arena.fieldsOk_empty (a : Arena) : a.FieldsOk Node.empty := rfl

/-- An arena without a node has the shape. -/
theorem Arena.shape_empty : Arena.empty.Shape where
  fields i := by
    rw [Arena.nodeAt_empty]
    exact Arena.fieldsOk_empty _
  nonEmpty i := by
    rw [Arena.nodeAt_empty]
    exact iff_of_false (Nat.not_lt_zero _) (not_not.mpr rfl)
  unaryRoot i hi := by
    rw [Arena.nodeAt_empty] at hi
    cases hi
  root := .inr ⟨rfl, rfl⟩

section
variable {t : FreqTable} {b : Builder} {i : NodeIdx}

/-- A node of the forest is a leaf, or made by the merger. -/
theorem Builder.Forest.node_cases (h : b.Forest t) (i : NodeIdx) :
    (i.toNat < b.next ∧ b.arena.nodeAt i = t.leafAt i.toNat) ∨ (i.toNat < b.next ∧ b.arena.IsMerged i) ∨
      (b.next ≤ i.toNat ∧ b.arena.nodeAt i = Node.empty) := by
  by_cases hi : i.toNat < b.next
  · by_cases hn : i.toNat < t.leafCnt.toNat
    · exact .inl ⟨hi, h.leaf i hn⟩
    · exact .inr (.inl ⟨hi, h.internal i (Nat.not_lt.mp hn) hi⟩)
  · exact .inr (.inr ⟨Nat.not_lt.mp hi, h.empty i (Nat.not_lt.mp hi)⟩)

/-- A forest with one root is an arena with the shape. -/
theorem Builder.Forest.shape (h : b.Forest t) {root : NodeIdx} (hroot : root.toNat < b.next) (hnext : b.next < 512) :
    Arena.Shape { b.arena with root := root, nodeCnt := BitVec.ofNat 10 b.next } := by
  have hcnt : (BitVec.ofNat 10 b.next).toNat = b.next := by rw [BitVec.toNat_ofNat]; omega
  have hnode (i : NodeIdx) : Arena.IsNode { b.arena with root := root, nodeCnt := BitVec.ofNat 10 b.next } i ↔
      i.toNat < b.next := by
    rw [Arena.IsNode, hcnt]
  constructor
  case fields =>
    intro i
    rw [Arena.nodeAt_with]
    rcases h.node_cases i with ⟨-, he⟩ | ⟨hi, hm⟩ | ⟨-, he⟩
    · rw [he]
      exact Arena.fieldsOk_of_leaf rfl rfl rfl
    · rw [Arena.FieldsOk, hm.kind]
      exact ⟨hm.value, (hnode _).mpr (hm.left.trans hi), (hnode _).mpr (hm.right.trans hi), hm.ne, hm.freq⟩
    · rw [he]
      exact Arena.fieldsOk_empty _
  case nonEmpty =>
    intro i
    rw [Arena.nodeAt_with, hnode]
    rcases h.node_cases i with ⟨hi, he⟩ | ⟨hi, hm⟩ | ⟨hi, he⟩
    · exact iff_of_true hi (by rw [he]; exact NodeKind.noConfusion)
    · exact iff_of_true hi (by rw [hm.kind]; decide)
    · exact iff_of_false (Nat.not_lt.mpr hi) (by rw [he]; decide)
  case unaryRoot =>
    intro i hi
    rw [Arena.nodeAt_with] at hi
    rcases h.node_cases i with ⟨-, he⟩ | ⟨-, hm⟩ | ⟨-, he⟩
    · rw [he] at hi; cases hi
    · rw [hm.kind] at hi; cases hi
    · rw [he] at hi; cases hi
  case root => exact .inl ((hnode root).mpr hroot)

theorem FreqTable.buildTree_zero (h : t.leafCnt.toNat = 0) : t.buildTree.1 = Arena.empty := by
  simp only [FreqTable.buildTree, h]

/-- The nodes of a one-leaf tree (`40_frequency_tree.md` R165). -/
theorem FreqTable.nodeAt_buildTree_one (h : t.leafCnt.toNat = 1) (i : NodeIdx) : t.buildTree.1.nodeAt i =
    if i = 0 then t.leafAt 0 else if i = 1 then Node.mkUnary 0 (t.leafAt 0).freq else Node.empty := by
  have hi0 : i = 0 ↔ i.toNat = 0 := ⟨fun he => he ▸ rfl, fun he => BitVec.eq_of_toNat_eq he⟩
  have hi1 : i = 1 ↔ i.toNat = 1 := ⟨fun he => he ▸ rfl, fun he => BitVec.eq_of_toNat_eq he⟩
  rw [FreqTable.buildTree_one h, Arena.nodeAt_with, Arena.nodeAt_setNode, Arena.nodeAt_setNode, Arena.nodeAt_empty]
  simp only [hi0, hi1]
  by_cases h1 : i.toNat = 1
  · simp [h1]
  · by_cases h0 : i.toNat = 0 <;> simp [h0, h1]

theorem FreqTable.shape_buildTree_one (h : t.leafCnt.toNat = 1) : t.buildTree.1.Shape := by
  have hnode := FreqTable.nodeAt_buildTree_one h
  have hroot : t.buildTree.1.root = 1 := by rw [FreqTable.buildTree_one h]
  have hcnt : t.buildTree.1.nodeCnt = 2 := by rw [FreqTable.buildTree_one h]
  have hleaf : t.buildTree.1.nodeAt 0 = t.leafAt 0 := hnode 0
  have hunary : t.buildTree.1.nodeAt 1 = Node.mkUnary 0 (t.leafAt 0).freq := hnode 1
  have hempty {i : NodeIdx} (h0 : i ≠ 0) (h1 : i ≠ 1) : t.buildTree.1.nodeAt i = Node.empty := by
    rw [hnode, if_neg h0, if_neg h1]
  constructor
  case fields =>
    intro i
    by_cases h0 : i = 0
    · rw [h0, hleaf]
      exact Arena.fieldsOk_of_leaf rfl rfl rfl
    by_cases h1 : i = 1
    · rw [h1, hunary]
      change (0 : Byte) = 0 ∧ (t.buildTree.1.nodeAt 0).kind = .leaf ∧ Config.null = Config.null ∧
        (t.leafAt 0).freq = (t.buildTree.1.nodeAt 0).freq
      rw [hleaf]
      exact ⟨rfl, rfl, rfl, rfl⟩
    · rw [hempty h0 h1]
      exact Arena.fieldsOk_empty _
  case nonEmpty =>
    intro i
    rw [Arena.IsNode, hcnt]
    by_cases h0 : i = 0
    · rw [h0, hleaf]
      exact iff_of_true (by decide) NodeKind.noConfusion
    by_cases h1 : i = 1
    · rw [h1, hunary]
      exact iff_of_true (by decide) NodeKind.noConfusion
    · rw [hempty h0 h1]
      refine iff_of_false (fun hlt => ?_) (by decide)
      have hlt : i.toNat < 2 := hlt
      interval_cases hi : i.toNat
      · exact h0 (BitVec.eq_of_toNat_eq hi)
      · exact h1 (BitVec.eq_of_toNat_eq hi)
  case unaryRoot =>
    intro i hi
    by_cases h0 : i = 0
    · rw [h0, hleaf] at hi; cases hi
    by_cases h1 : i = 1
    · exact ⟨h1.trans hroot.symm, hcnt⟩
    · rw [hempty h0 h1] at hi; cases hi
  case root => exact .inl (by rw [Arena.IsNode, hroot, hcnt]; decide)

theorem FreqTable.Wf.shape_buildTree (h : t.Wf) : t.buildTree.1.Shape := by
  match hn : t.leafCnt.toNat with
  | 0 => exact FreqTable.buildTree_zero hn ▸ Arena.shape_empty
  | 1 => exact FreqTable.shape_buildTree_one hn
  | n + 2 =>
    obtain ⟨b, root, hforest, hq, htree⟩ := h.buildTree_forest (by omega)
    have hle := h.leafCnt_le
    have hcount := hforest.count
    rw [hq, List.length_singleton] at hcount
    rw [htree]
    exact hforest.shape (hforest.queued root (by simp [hq])) (by omega)

/-- A leaf has the frequency of its value (`10_state.md` R44). -/
theorem FreqTable.Wf.leafFreq_buildTree (h : t.Wf) (hi : (t.buildTree.1.nodeAt i).kind = .leaf) :
    (t.buildTree.1.nodeAt i).freq = (t.freqOf (t.buildTree.1.nodeAt i).value).zeroExtend 40 := by
  match hn : t.leafCnt.toNat with
  | 0 =>
    rw [FreqTable.buildTree_zero hn, Arena.nodeAt_empty] at hi
    cases hi
  | 1 =>
    rw [FreqTable.nodeAt_buildTree_one hn] at hi ⊢
    split at hi
    · next h0 => rw [if_pos h0]; rfl
    · split at hi <;> cases hi
  | n + 2 =>
    obtain ⟨b, root, hforest, -, htree⟩ := h.buildTree_forest (by omega)
    rw [htree, Arena.nodeAt_with] at hi ⊢
    rcases hforest.node_cases i with ⟨-, he⟩ | ⟨-, hm⟩ | ⟨-, he⟩
    · rw [he]; rfl
    · rw [hm.kind] at hi; cases hi
    · rw [he] at hi; cases hi

end

section
variable {s t : State}

theorem State.arenaWf_codec_iff (s : State) : s.codec.ArenaWf ↔ s.ArenaWf :=
  ⟨fun ⟨shape, leafFreq⟩ => ⟨shape, leafFreq⟩, fun ⟨shape, leafFreq⟩ => ⟨shape, leafFreq⟩⟩

theorem State.ArenaWf.congr (h : s.ArenaWf) (hst : t.codec = s.codec) : t.ArenaWf := by
  rw [← State.arenaWf_codec_iff, hst, State.arenaWf_codec_iff]
  exact h

/-- Without a tree for the current table its leaves are bound to no frequency. -/
theorem State.arenaWf_of_noTree (hshape : s.arena.Shape) (htree : s.status.treeValid = false) : s.ArenaWf :=
  ⟨hshape, fun hv => absurd (htree.symm.trans hv) Bool.false_ne_true⟩

theorem State.ArenaWf.parsehdrPhase (h : s.ArenaWf) : (parsehdrPhase s).reached.ArenaWf := by
  rw [Machine.parsehdrPhase]
  rcases parseLeaves_cases s.clearTable with ⟨e, pos, hr⟩ | ⟨n, ft, hr, -, -, -⟩ <;> rw [hr]
  · exact State.arenaWf_of_noTree h.shape rfl
  · exact State.arenaWf_of_noTree h.shape rfl

theorem State.ArenaWf.ftaddBody (h : s.ArenaWf) (v : Byte) : (ftaddBody v s).reached.ArenaWf := by
  rw [Machine.ftaddBody]
  split
  · exact h
  · split
    · exact h
    · exact State.arenaWf_of_noTree h.shape rfl

end

theorem codecInvariant_arenaWf : CodecInvariant fun s => s.ft.Wf ∧ s.ArenaWf where
  congr {s t} hs hst := by
    have hft : t.ft = s.ft := (congrArg State.ft hst :)
    exact ⟨hft ▸ hs.1, hs.2.congr hst⟩
  input _ _ hs := ⟨hs.1, hs.2.shape, hs.2.leafFreq⟩
  hardReset _ := ⟨FreqTable.wf_empty, State.arenaWf_of_noTree Arena.shape_empty rfl⟩
  softReset _ := ⟨FreqTable.wf_empty, State.arenaWf_of_noTree Arena.shape_empty rfl⟩
  table hs := ⟨FreqTable.wf_empty, State.arenaWf_of_noTree hs.2.shape rfl⟩
  arena hs := ⟨hs.1, State.arenaWf_of_noTree Arena.shape_empty rfl⟩
  codebook hs := ⟨hs.1, hs.2.shape, hs.2.leafFreq⟩
  ftadd v hs := ⟨ftaddBody_keepsTable v _ hs.1, hs.2.ftaddBody v⟩
  count hs := ⟨countPhase_keepsTable _ hs.1, State.arenaWf_of_noTree hs.2.shape rfl⟩
  parsehdr hs := ⟨parsehdrPhase_keepsTable _ hs.1, hs.2.parsehdrPhase⟩
  build hs := ⟨hs.1, hs.1.shape_buildTree, fun _ _ hi => hs.1.leafFreq_buildTree hi⟩
  gencode hs _ := ⟨hs.1, hs.2.shape, hs.2.leafFreq⟩

/-- Settles O59: only BUILD makes nodes, a forest with one root, and TREE_VALID is 0 once the table has changed. -/
theorem everyStepKeepsTheArenaShape : Obligations.EveryStepKeepsTheArenaShape := fun _ _ ht ha h =>
  (codecInvariant_arenaWf.stepInvariant.step ⟨ht, ha⟩ h).2

/-- Settles O60: hardware reset leaves no byte listed, no table, no node, no flag and no report. -/
theorem resetMeetsTheInvariants : Obligations.ResetMeetsTheInvariants := fun n hlow hhigh =>
  ⟨FreqTable.wf_empty, ⟨List.Pairwise.nil, fun _ hc => absurd hc List.not_mem_nil, hlow, hhigh⟩,
    State.reportWf_resetWith n, State.flagsWf_of_clear rfl rfl, State.arenaWf_of_noTree Arena.shape_empty rfl⟩

end Sys2Proof.Machine
end

