-- ==== Sys2Proof/Proofs/CommandFrames.lean ====
section
/-! PROOFS. What each command leaves alone (`10_state.md` R59), what a cancellation resets (`45_control.md` R302, R306),
and the check that comes before every other (`70_reset_and_hazards.md` R376). -/

namespace Sys2Proof.Machine

/-! ## Fields that pseudocode leaves alone -/

/-- The pseudocode leaves `f` of the state as it is, however it ends. -/
def Preserves {α : Type} (f : State → α) (body : State → Run) : Prop := ∀ s, f (body s).reached = f s

section
variable {α : Type} {f : State → α} {body : State → Run}

theorem Preserves.andThen {g : State → Run} (hb : Preserves f body) (hg : Preserves f g) :
    Preserves f fun s => (body s).andThen g := fun s =>
  Run.reached_andThen (P := fun u => f u = f s) (hb s) fun u hu => (hg u).trans hu

theorem Preserves.checked (h : Preserves f body) (c : State → Bool) (e : ErrCode) :
    Preserves f fun s => if c s then body s else .raised e 0 s := fun s => by
  dsimp only
  split
  · exact h s
  · rfl

/-- Pseudocode that begins with an update of the state. -/
theorem Preserves.after (h : Preserves f body) {g : State → State} (hg : ∀ s, f (g s) = f s := by intros; rfl) :
    Preserves f fun s => body (g s) := fun s => (h (g s)).trans (hg s)

/-- ENCODE's and DECODE's shape: a SEQUENCE check, then a region check, then the phase. -/
theorem Preserves.sequenced (h : Preserves f body) (c d : State → Bool)
    (hg : ∀ s : State, f s.startOutput = f s := by intros; rfl) :
    Preserves f fun s =>
      if c s then if d s then body s.startOutput else .raised .badRegion 0 s
      else .raised .sequence 0 s :=
  ((h.after hg).checked d .badRegion).checked c .sequence

theorem Preserves.of_outputStep (h : ∀ s : State, s.OutputStep (body s).reached)
    (hf : ∀ (s : State) m n w, f { s with buf := m, outLen := n, work := w } = f s := by intros; rfl) :
    Preserves f body := fun s => by
  obtain ⟨m, n, w, hstep⟩ := h s
  rw [hstep, hf]

theorem Preserves.of_writesTable (h : WritesTable body) (hf : ∀ s : State, f s.offTable = f s := by intros; rfl) :
    Preserves f body := fun s => by rw [← hf, (h s).reached, hf]

end

/-- `s` with everything that the pseudocode of command `i` may write put to its reset value (`10_state.md` R59): what is
left is what the command leaves alone. -/
def State.beyond (i : Instr) (s : State) : State :=
  match i with
  | .nop => s
  | .reset =>
    { s with
      ft := FreqTable.empty, arena := Arena.empty, cb := Codebook.empty, bodyOff := 0
      status := { s.status.invalidated with hostErr := false }, work := Work.idle }
  | .ftclr | .ftadd _ | .count | .parsehdr => s.offTable
  | .build =>
    { s with
      arena := Arena.empty, status := { s.status with treeValid := false, cbValid := false }, work := Work.idle }
  | .gencode => s.clearCodebook
  | .wrhdr | .encode | .decode => { s with buf := [], outLen := 0, work := Work.idle }
  | .compress =>
    { s.offTable with arena := Arena.empty, cb := Codebook.empty, buf := [], outLen := 0, work := Work.idle }
  | .decompress => { s.offTable with arena := Arena.empty, buf := [], outLen := 0, work := Work.idle }

theorem compressPhases_preserves : Preserves (State.beyond .compress) compressPhases :=
  (Preserves.of_writesTable countPhase_writesTable).after.andThen <|
  (Preserves.after (body := buildPhase) (fun _ => rfl)).andThen <|
  (Preserves.after (body := gencodePhase) (fun _ => rfl)).andThen <|
  (Preserves.of_outputStep wrhdrPhase_outputStep).after.andThen <|
  (Preserves.of_outputStep encodePhase_outputStep).after

theorem decompressPhases_preserves : Preserves (State.beyond .decompress) decompressPhases :=
  (Preserves.of_writesTable parsehdrPhase_writesTable).after.andThen <|
  (Preserves.after (body := buildPhase) (fun _ => rfl)).andThen <|
  (Preserves.of_outputStep decodePhase_outputStep).after

/-- The pseudocode of a command leaves everything else alone. -/
theorem bodyOf_preserves (i : Instr) : Preserves (State.beyond i) (bodyOf i) := by
  cases i
  case nop | reset | ftclr | build => exact fun _ => rfl
  case ftadd v => exact .of_writesTable (ftaddBody_writesTable v)
  case count => exact (Preserves.of_writesTable countPhase_writesTable).checked _ _
  case parsehdr => exact (Preserves.of_writesTable parsehdrPhase_writesTable).checked _ _
  case gencode => exact Preserves.checked (body := gencodePhase) (fun _ => rfl) _ _
  case wrhdr => exact ((Preserves.of_outputStep wrhdrPhase_outputStep).after (g := State.startOutput)).checked _ _
  case encode => exact (Preserves.of_outputStep encodePhase_outputStep).sequenced _ _
  case decode => exact (Preserves.of_outputStep decodePhase_outputStep).sequenced _ _
  case compress => exact (compressPhases_preserves.after (g := State.restartOutput)).checked _ _
  case decompress => exact (decompressPhases_preserves.after (g := State.restartOutput)).checked _ _

section
variable {i : Instr} {s t : State} (h : t.beyond i = s.beyond i)
include h

/-- HOSTERR is RESET's alone to clear (`45_control.md` R301). -/
theorem State.hostErr_of_beyond (hi : i ≠ .reset) : t.status.hostErr = s.status.hostErr := by
  cases i
  case reset => exact absurd rfl hi
  all_goals exact (congrArg (fun u => u.status.hostErr) h :)

theorem State.outLen_of_beyond (hi : i ∉ [.wrhdr, .encode, .decode, .compress, .decompress]) :
    t.outLen = s.outLen := by
  cases i
  case wrhdr | encode | decode | compress | decompress => exact absurd hi (by decide)
  all_goals exact (congrArg State.outLen h :)

theorem State.ft_of_beyond (hi : i ∈ [.nop, .build, .gencode, .wrhdr, .encode, .decode]) : t.ft = s.ft := by
  cases i
  case nop | build | gencode | wrhdr | encode | decode => exact (congrArg State.ft h :)
  all_goals simp at hi

theorem State.arena_of_beyond (hi : i ∉ [.reset, .build, .compress, .decompress]) : t.arena = s.arena := by
  cases i
  case reset | build | compress | decompress => exact absurd hi (by decide)
  all_goals exact (congrArg State.arena h :)

theorem State.cb_of_beyond (hi : i ∉ [.reset, .gencode, .compress]) : t.cb = s.cb := by
  cases i
  case reset | gencode | compress => exact absurd hi (by decide)
  all_goals exact (congrArg State.cb h :)

end

/-! ## Completion and cancellation -/

@[simp] theorem Run.settle_arena (w : Bool) (r : Run) : (r.settle w).arena = r.reached.arena := by
  rcases r.settle_cases w with ⟨s, rfl, h⟩ | ⟨e, pos, s, rfl, -, -, h⟩ | ⟨e, pos, s, rfl, -, h⟩ <;> rw [h] <;> rfl

@[simp] theorem Run.settle_cb (w : Bool) (r : Run) : (r.settle w).cb = r.reached.cb := by
  rcases r.settle_cases w with ⟨s, rfl, h⟩ | ⟨e, pos, s, rfl, -, -, h⟩ | ⟨e, pos, s, rfl, -, h⟩ <;> rw [h] <;> rfl

@[simp] theorem Run.settle_hostErr (w : Bool) (r : Run) :
    (r.settle w).status.hostErr = r.reached.status.hostErr := by
  rcases r.settle_cases w with ⟨s, rfl, h⟩ | ⟨e, pos, s, rfl, -, -, h⟩ | ⟨e, pos, s, rfl, -, h⟩ <;> rw [h] <;> rfl

theorem Run.outLen_settle_false (r : Run) : (r.settle false).outLen = r.reached.outLen := by cases r <;> rfl

/-- The codec's state after a cancellation, part by part (`45_control.md` R306). -/
structure State.CancelledFrom (ws : WriteSet) (s t : State) : Prop where
  ft        : t.ft = if ws.table then FreqTable.empty else s.ft
  arena     : t.arena = if ws.arena then Arena.empty else s.arena
  cb        : t.cb = if ws.codebook then Codebook.empty else s.cb
  outLen    : t.outLen = if ws.out then 0 else s.outLen
  bodyOff   : t.bodyOff = if ws.table then 0 else s.bodyOff
  treeValid : t.status.treeValid = (s.status.treeValid && !ws.table && !ws.arena)
  cbValid   : t.status.cbValid = (s.status.cbValid && !ws.table && !ws.arena && !ws.codebook)
  hdrValid  : t.status.hdrValid = (s.status.hdrValid && !ws.table)
  hostErr   : t.status.hostErr = s.status.hostErr
  done      : t.status.done = s.status.done

theorem State.cancelledFrom_cancel (ws : WriteSet) (s : State) : s.CancelledFrom ws (s.cancel ws) := by
  obtain ⟨_ | _, _ | _, _ | _, _ | _⟩ := ws <;> constructor <;> simp [State.cancel, State.clearWriteSet]

/-- The registers that no command writes are the frame's, without the report. -/
theorem State.CompletesTo.registers {s t : State} (h : s.CompletesTo t) :
    { t.frame with status := Status.reset, errCode := 0, errPos := 0 } =
      { s.frame with status := Status.reset, errCode := 0, errPos := 0 } := by
  obtain ⟨u, hframe, rfl | ⟨e, pos, rfl⟩⟩ := h <;>
    exact congrArg (fun v : State => { v with status := Status.reset, errCode := 0, errPos := 0 }) hframe

/-- A command that is not to write the output ends without a change of OUT_LEN. -/
theorem Run.settle_outLen {i : Instr} (hi : i ∉ [.wrhdr, .encode, .decode, .compress, .decompress]) (r : Run) :
    (r.settle (writeSet i).out).outLen = r.reached.outLen := by
  cases i
  case wrhdr | encode | decode | compress | decompress => exact absurd hi (by decide)
  all_goals exact r.outLen_settle_false

/-- Settles O19: neither the pseudocode of a command, nor its completion, nor its cancellation writes anything but what
`State.beyond` names. -/
theorem commandsKeepWhatTheyDoNotWrite : Obligations.CommandsKeepWhatTheyDoNotWrite := by
  intro i s t h
  refine ⟨?registers, ?rest⟩
  case registers =>
    have hregs := (exec_completesTo h).registers
    exact ⟨(congrArg State.memSize hregs :), (congrArg State.ie hregs :), (congrArg State.cmd hregs :),
      (congrArg State.arg hregs :), (congrArg State.inBase hregs :), (congrArg State.inLen hregs :),
      (congrArg State.outBase hregs :), (congrArg State.outCap hregs :), (congrArg State.tblSel hregs :),
      (congrArg State.nodeSel hregs :), (congrArg State.host hregs :), (congrArg State.turns hregs :),
      (congrArg State.hostData hregs :), (congrArg State.bufEpoch hregs :)⟩
  case rest =>
    obtain ⟨d, rfl | rfl⟩ := exec_cases h
    · have hbeyond := bodyOf_preserves i { s with draws := d }
      refine ⟨fun hi => ?_, fun hi => ?_, fun hi => ?_, fun hi => ?_, fun hi => ?_⟩
      · exact (Run.settle_hostErr _ _).trans (State.hostErr_of_beyond hbeyond hi :)
      · exact (Run.settle_outLen hi _).trans (State.outLen_of_beyond hbeyond hi :)
      · exact (Run.settle_ft _ _).trans (State.ft_of_beyond hbeyond hi :)
      · exact (Run.settle_arena _ _).trans (State.arena_of_beyond hbeyond hi :)
      · exact (Run.settle_cb _ _).trans (State.cb_of_beyond hbeyond hi :)
    · have hcancel := State.cancelledFrom_cancel (writeSet i) { s with draws := d }
      refine ⟨fun _ => hcancel.hostErr, fun hi => ?_, fun hi => ?_, fun hi => ?_, fun hi => ?_⟩
      · refine hcancel.outLen.trans (if_neg ?_)
        cases i <;> simp [writeSet] at hi ⊢
      · refine hcancel.ft.trans (if_neg ?_)
        cases i <;> simp [writeSet] at hi ⊢
      · refine hcancel.arena.trans (if_neg ?_)
        cases i <;> simp [writeSet] at hi ⊢
      · refine hcancel.cb.trans (if_neg ?_)
        cases i <;> simp [writeSet] at hi ⊢

/-- The write sets of `45_control.md` R302, command by command. -/
theorem writeSet_eq {i : Instr} (hnop : i ≠ .nop) (hreset : i ≠ .reset) : writeSet i =
    { table := decide (i ∉ [.build, .gencode, .wrhdr, .encode, .decode])
      arena := decide (i ∈ [.build, .compress, .decompress])
      codebook := decide (i ∈ [.gencode, .compress])
      out := decide (i ∈ [.wrhdr, .encode, .decode, .compress, .decompress]) } := by
  cases i
  case nop => exact absurd rfl hnop
  case reset => exact absurd rfl hreset
  case ftadd v => simp [writeSet]
  all_goals rfl

/-! ## The SEQUENCE check -/

/-- A check that fails at once raises its error, and nothing but the report changes. -/
theorem exec_of_check {i : Instr} {s : State} {e : ErrCode} (hreq : s.work.abortReq = false)
    (he : e = .badRegion ∨ e = .sequence) (hbody : bodyOf i s = .raised e 0 s) :
    exec i s = .next (s.report e 0) := by
  rw [exec_of_no_request i hreq, hbody, settle_check he]

/-- Settles O25: the flag of the prerequisite is looked at before anything else. -/
theorem missingPrerequisiteRaisesSequence : Obligations.MissingPrerequisiteRaisesSequence := by
  intro s hreq fails
  have hfails : ∀ i, bodyOf i s = .raised .sequence 0 s → fails i := fun i hbody =>
    ⟨Work.idle, Work.gone_idle, exec_of_check hreq (.inr rfl) hbody⟩
  refine ⟨fun htree => hfails _ ?_, fun hcb => hfails _ ?_, fun h => hfails _ ?_⟩
  · rw [bodyOf, gencodeBody, htree, if_neg Bool.false_ne_true]
  · rw [bodyOf, encodeBody, hcb, if_neg Bool.false_ne_true]
  · have hboth : (s.status.treeValid && s.status.hdrValid) = false := Bool.and_eq_false_iff.mpr h
    rw [bodyOf, decodeBody, hboth, if_neg Bool.false_ne_true]

end Sys2Proof.Machine
end

