-- ==== Sys2Proof/Proofs/BusyOnlyState.lean ====
section
/-! PROOFS. The busy-only state (`10_state.md` R55, R56): a command reads none of it but what it has written itself, and
OUT_START and the request of its own acceptance, nor does it read BUSY and DONE; so a command with a request pending that
is not cancelled ends as it would without one (`45_control.md` R306). -/

namespace Sys2Proof.Machine

/-! ## Two runs that differ in the busy-only state -/

section
variable {β : Type} (f : Word → β) (w : Work)

/-- What a run may see of OUT_START. -/
def Work.start : β := f w.outStart

/-- The packer's part of the busy-only state. -/
def Work.packer : Byte × BitVec 4 × β := (w.acc, w.na, f w.outStart)

/-- The decoder's part of the busy-only state. -/
def Work.walker : NodeIdx × BitVec 40 × BitVec 35 × β := (w.cur, w.cnt, w.kbit, f w.outStart)

variable {f} {w} {w' : Work}

theorem Work.packer_eq_iff :
    w.packer f = w'.packer f ↔ w.acc = w'.acc ∧ w.na = w'.na ∧ f w.outStart = f w'.outStart := by simp [Work.packer]

theorem Work.walker_eq_iff : w.walker f = w'.walker f ↔
    w.cur = w'.cur ∧ w.cnt = w'.cnt ∧ w.kbit = w'.kbit ∧ f w.outStart = f w'.outStart := by
  simp [Work.walker]

end

/-- The two states differ in BUSY, DONE and the busy-only state alone, and not in the part `v` of that. -/
def State.Alike {α : Type} (v : Work → α) (s s' : State) : Prop :=
  ∃ w b d, s' = { s with work := w, status := { s.status with busy := b, done := d } } ∧ v w = v s.work

/-- The two runs end alike, in such states. -/
inductive Run.Alike {α : Type} (v : Work → α) : Run → Run → Prop where
  | ok {s s' : State} (h : s.Alike v s') : Run.Alike v (.ok s) (.ok s')
  | raised (e : ErrCode) (pos : Word) {s s' : State} (h : s.Alike v s') :
    Run.Alike v (.raised e pos s) (.raised e pos s')

/-- The pseudocode reads no busy-only state but the part `v`, nor BUSY and DONE, and leaves no other part in `v`. -/
def ReadsWork {α : Type} (v : Work → α) (body : State → Run) : Prop :=
  ∀ ⦃s s' : State⦄, s.Alike v s' → (body s).Alike v (body s')

section
variable {α : Type} {v : Work → α}

theorem State.Alike.mono {α' : Type} {v' : Work → α'} {s s' : State} (h : s.Alike v s')
    (hv : ∀ w w', v w = v w' → v' w = v' w') : s.Alike v' s' := by
  obtain ⟨w, b, d, rfl, hw⟩ := h
  exact ⟨w, b, d, rfl, hv _ _ hw⟩

theorem Run.Alike.mono {α' : Type} {v' : Work → α'} {r r' : Run} (h : r.Alike v r')
    (hv : ∀ w w', v w = v w' → v' w = v' w') : r.Alike v' r' := by
  cases h with
  | ok h => exact .ok (h.mono hv)
  | raised e pos h => exact .raised e pos (h.mono hv)

theorem Run.Alike.andThen {r r' : Run} {f f' : State → Run} (hr : r.Alike v r')
    (hf : ∀ s s', s.Alike v s' → (f s).Alike v (f' s')) : (r.andThen f).Alike v (r'.andThen f') := by
  cases hr with
  | ok h => exact hf _ _ h
  | raised e pos h => exact .raised e pos h

theorem ReadsWork.andThen {f g : State → Run} (hf : ReadsWork v f) (hg : ReadsWork v g) :
    ReadsWork v fun s => (f s).andThen g := fun _ _ h => (hf h).andThen fun _ _ hu => hg hu

theorem ReadsWork.repeat {f : State → Run} (hf : ReadsWork v f) (n : Nat) : ReadsWork v (Run.repeat f n) := by
  induction n with
  | zero => exact fun _ _ h => .ok h
  | succ n ih => exact hf.andThen ih

theorem out_readsWork (b : Byte) : ReadsWork v (out b) := by
  rintro s _ ⟨w, b, d, rfl, hw⟩
  exact rel_ite Iff.rfl (fun _ => .raised _ _ ⟨w, b, d, rfl, hw⟩) fun _ => .ok ⟨w, b, d, rfl, hw⟩

theorem outAll_readsWork (bs : List Byte) : ReadsWork v (outAll bs) := by
  induction bs with
  | nil => exact fun _ _ h => .ok h
  | cons b bs ih => exact (out_readsWork b).andThen ih

end

/-- Success completion discards the busy-only state, and sets BUSY and DONE (`60_exceptions.md` R335). -/
theorem State.Alike.complete {α : Type} {v : Work → α} {s s' : State} (h : s.Alike v s') :
    s.complete = s'.complete := by
  obtain ⟨w, b, d, rfl, -⟩ := h
  rfl

/-- Completion discards the busy-only state, OUT_START excepted where it says which bytes to discard; an error leaves
DONE as it was (`60_exceptions.md` R336). -/
theorem Run.Alike.settle {r r' : Run} (h : r.Alike (Work.start id) r') (b : Bool)
    (hdone : r.reached.status.done = r'.reached.status.done) : r.settle b = r'.settle b := by
  cases h with
  | ok h => exact h.complete
  | raised e pos h =>
    obtain ⟨w, _, d, rfl, hw⟩ := h
    have hstart : w.outStart = _ := hw
    obtain rfl : _ = d := hdone
    simp only [Run.settle_raised, State.discardOutput, hstart]
    split <;> rfl

/-! ## The encoder -/

section
variable {β : Type} {f : Word → β}

theorem packBit_readsWork (b : Bool) : ReadsWork (Work.packer f) (packBit b) := by
  rintro s _ ⟨w, y, d, rfl, hw⟩
  obtain ⟨hacc, hna, hstart⟩ := Work.packer_eq_iff.mp hw
  have hpacked : State.Alike (Work.packer f)
      (s.setPacker ((s.work.acc <<< 1) ||| BitVec.zeroExtend 8 (BitVec.ofBool b)) (s.work.na + 1))
      (State.setPacker ((w.acc <<< 1) ||| BitVec.zeroExtend 8 (BitVec.ofBool b)) (w.na + 1)
        { s with work := w, status := { s.status with busy := y, done := d } }) :=
    ⟨_, y, d, rfl, by simp [Work.packer, State.setPacker, hacc, hna, hstart]⟩
  refine rel_ite (by simp [State.setPacker, hna]) (fun _ => ?_) fun _ => .ok hpacked
  simp only [State.setPacker_work, hacc] at hpacked ⊢
  refine (out_readsWork _ hpacked).andThen ?_
  rintro u _ ⟨w', y, d, rfl, hw'⟩
  obtain ⟨-, -, hstart'⟩ := Work.packer_eq_iff.mp hw'
  exact .ok ⟨_, y, d, rfl, by simp [Work.packer, State.setPacker, hstart']⟩

theorem packBits_readsWork (bs : List Bool) : ReadsWork (Work.packer f) (packBits bs) := by
  induction bs with
  | nil => exact fun _ _ h => .ok h
  | cons b bs ih => exact (packBit_readsWork b).andThen ih

theorem encodeByte_readsWork (i : Nat) (b : Byte) : ReadsWork (Work.packer f) (encodeByte i b) := by
  rintro s _ ⟨w, y, d, rfl, hw⟩
  exact rel_ite Iff.rfl (fun _ => .raised _ _ ⟨w, y, d, rfl, hw⟩) fun _ => packBits_readsWork _ ⟨w, y, d, rfl, hw⟩

theorem encodeBytes_readsWork (i : Nat) (bs : List Byte) : ReadsWork (Work.packer f) (encodeBytes i bs) := by
  induction bs generalizing i with
  | nil => exact fun _ _ h => .ok h
  | cons b bs ih => exact (encodeByte_readsWork i b).andThen (ih (i + 1))

theorem writeTrailer_readsWork : ReadsWork (Work.packer f) writeTrailer := by
  rintro s _ ⟨w, y, d, rfl, hw⟩
  obtain ⟨-, hna, -⟩ := Work.packer_eq_iff.mp hw
  refine rel_ite Iff.rfl (fun _ => .ok ⟨w, y, d, rfl, hw⟩) fun _ => ?_
  dsimp only
  rw [hna]
  refine (out_readsWork _ ⟨w, y, d, rfl, hw⟩).andThen ?_
  rintro u _ ⟨w', y, d, rfl, hw'⟩
  obtain ⟨hacc', hna', -⟩ := Work.packer_eq_iff.mp hw'
  simp only [hacc', hna']
  exact out_readsWork _ ⟨w', y, d, rfl, hw'⟩

/-- ENCODE empties the packer before it reads it (`43_encoder.md` R241). -/
theorem encodePhase_readsWork : ReadsWork (Work.start f) encodePhase := by
  rintro s _ ⟨w, y, d, rfl, hw⟩
  have hstart : State.Alike (Work.packer f) (s.setPacker 0 0)
      (State.setPacker 0 0 { s with work := w, status := { s.status with busy := y, done := d } }) :=
    ⟨_, y, d, rfl, by simpa [Work.packer, Work.start, State.setPacker] using hw⟩
  have hrun := (encodeBytes_readsWork 0 s.inputBytes hstart).andThen fun _ _ hu => writeTrailer_readsWork hu
  exact hrun.mono fun _ _ h => (Work.packer_eq_iff.mp h).2.2

/-! ## The decoder -/

theorem State.Alike.cursor {s s' : State} (h : s.Alike (Work.walker f) s') : s'.cursor = s.cursor := by
  obtain ⟨w, y, d, rfl, hw⟩ := h
  rw [State.cursor, State.cursor, (Work.walker_eq_iff.mp hw).1]

theorem emit_readsWork (v : Byte) (p : Word) : ReadsWork (Work.walker f) (emit v p) := by
  rintro s _ ⟨w, y, d, rfl, hw⟩
  obtain ⟨-, hcnt, -, -⟩ := Work.walker_eq_iff.mp hw
  refine rel_ite (by rw [hcnt]) (fun _ => .raised _ _ ⟨w, y, d, rfl, hw⟩) fun _ => ?_
  refine (out_readsWork v ⟨w, y, d, rfl, hw⟩).andThen ?_
  rintro u _ ⟨w', y, d, rfl, hw'⟩
  obtain ⟨hcur', hcnt', hkbit', hstart'⟩ := Work.walker_eq_iff.mp hw'
  exact .ok ⟨_, y, d, rfl, by simp [Work.walker, hcur', hcnt', hkbit', hstart']⟩

theorem detectLeaf_readsWork (p : Word) : ReadsWork (Work.walker f) (detectLeaf p) := fun s s' h => by
  rw [detectLeaf, detectLeaf, h.cursor]
  refine rel_ite Iff.rfl (fun _ => (emit_readsWork _ p h).andThen ?_) fun _ => .ok h
  rintro u _ ⟨w', y, d, rfl, hw'⟩
  obtain ⟨-, hcnt', hkbit', hstart'⟩ := Work.walker_eq_iff.mp hw'
  exact .ok ⟨_, y, d, rfl, by simp [Work.walker, State.setCursor, hcnt', hkbit', hstart']⟩

theorem descend_readsWork (b : Bool) (p : Word) : ReadsWork (Work.walker f) (descend b p) := fun s s' h => by
  rw [descend, descend, h.cursor]
  refine rel_ite Iff.rfl (fun _ => .raised _ _ h) fun _ => ?_
  obtain ⟨w, y, d, rfl, hw⟩ := h
  obtain ⟨-, hcnt, hkbit, hstart⟩ := Work.walker_eq_iff.mp hw
  exact .ok ⟨_, y, d, rfl, by simp [Work.walker, State.setCursor, hcnt, hkbit, hstart]⟩

theorem decodeBit_readsWork (r : Nat) : ReadsWork (Work.walker f) (decodeBit r) := fun s s' h => by
  have hbit : s'.bitAt r s'.work.kbit.toNat = s.bitAt r s.work.kbit.toNat := by
    obtain ⟨w, y, d, rfl, hw⟩ := h
    obtain ⟨-, -, hkbit, -⟩ := Work.walker_eq_iff.mp hw
    simp only [hkbit]
    rfl
  rw [decodeBit, decodeBit, hbit]
  refine (detectLeaf_readsWork _ h).andThen fun _ _ hu => (descend_readsWork _ _ hu).andThen ?_
  rintro u _ ⟨w', y, d, rfl, hw'⟩
  obtain ⟨hcur', hcnt', hkbit', hstart'⟩ := Work.walker_eq_iff.mp hw'
  exact .ok ⟨_, y, d, rfl, by simp [Work.walker, State.nextBit, hcur', hcnt', hkbit', hstart']⟩

theorem endDecode_readsWork : ReadsWork (Work.walker f) endDecode := fun s s' h => by
  have hlen : s'.inLen = s.inLen := by obtain ⟨w, y, d, rfl, -⟩ := h; rfl
  rw [endDecode, endDecode, h.cursor, hlen]
  refine rel_ite Iff.rfl (fun _ => (emit_readsWork _ _ h).andThen ?_) fun _ => .raised _ _ h
  rintro u _ ⟨w', y, d, rfl, hw'⟩
  obtain ⟨-, hcnt', -, -⟩ := Work.walker_eq_iff.mp hw'
  exact rel_ite (by rw [hcnt']) (fun _ => .ok ⟨w', y, d, rfl, hw'⟩) fun _ => .raised _ _ ⟨w', y, d, rfl, hw'⟩

/-- DECODE sets its cursor and its counters before it reads them (`44_decoder.md` R271). -/
theorem decodePhase_readsWork : ReadsWork (Work.start f) decodePhase := fun s s' h => by
  have hstart : s.startDecode.Alike (Work.walker f) s'.startDecode := by
    obtain ⟨w, y, d, rfl, hw⟩ := h
    exact ⟨_, y, d, rfl, by simpa [Work.walker, Work.start, State.startDecode] using hw⟩
  have hloop : ∀ n, ((Run.repeat (decodeBit s.bodyBytes) n s.startDecode).andThen endDecode).Alike (Work.start f)
      ((Run.repeat (decodeBit s.bodyBytes) n s'.startDecode).andThen endDecode) := fun n =>
    ((((decodeBit_readsWork _).repeat n) hstart).andThen fun _ _ hu => endDecode_readsWork hu).mono fun _ _ h =>
      (Work.walker_eq_iff.mp h).2.2.2
  have hsame := h
  obtain ⟨w, y, d, rfl, hw⟩ := h
  refine rel_ite Iff.rfl (fun _ => ?_) fun _ => ?_
  · exact rel_ite Iff.rfl (fun _ => .ok hsame) fun _ => .raised _ _ hsame
  · refine rel_ite Iff.rfl (fun _ => .raised _ _ hsame) fun _ => ?_
    exact rel_ite Iff.rfl (fun _ => .raised _ _ hsame) fun _ => hloop _

/-! ## The other pseudocode -/

theorem ftaddBody_readsWork (v : Byte) : ReadsWork (Work.start f) (ftaddBody v) := by
  rintro s _ ⟨w, y, d, rfl, hw⟩
  refine rel_ite Iff.rfl (fun _ => .raised _ _ ⟨w, y, d, rfl, hw⟩) fun _ => ?_
  exact rel_ite Iff.rfl (fun _ => .raised _ _ ⟨w, y, d, rfl, hw⟩) fun _ => .ok ⟨w, y, d, rfl, hw⟩

theorem parseRecord_readsWork (k : Nat) : ReadsWork (Work.start f) (parseRecord k) := by
  rintro s _ ⟨w, y, d, rfl, hw⟩
  refine rel_ite Iff.rfl (fun _ => .raised _ _ ⟨w, y, d, rfl, hw⟩) fun _ => ?_
  exact rel_ite Iff.rfl (fun _ => .raised _ _ ⟨w, y, d, rfl, hw⟩) fun _ => .ok ⟨w, y, d, rfl, hw⟩

theorem parseRecords_readsWork (n : Nat) : ReadsWork (Work.start f) (parseRecords n) := by
  induction n with
  | zero => exact fun _ _ h => .ok h
  | succ n ih => exact ih.andThen (parseRecord_readsWork n)

theorem parsehdrPhase_readsWork : ReadsWork (Work.start f) parsehdrPhase := by
  rintro s _ ⟨w, y, d, rfl, hw⟩
  refine rel_ite Iff.rfl (fun _ => .raised _ _ ⟨w, y, d, rfl, hw⟩) fun _ => ?_
  refine rel_ite Iff.rfl (fun _ => .raised _ _ ⟨w, y, d, rfl, hw⟩) fun _ => ?_
  refine rel_ite Iff.rfl (fun _ => .raised _ _ ⟨w, y, d, rfl, hw⟩) fun _ => ?_
  have hclear : s.clearTable.Alike (Work.start f)
      (State.clearTable { s with work := w, status := { s.status with busy := y, done := d } }) := ⟨w, y, d, rfl, hw⟩
  refine (parseRecords_readsWork _ hclear).andThen ?_
  rintro u _ ⟨w', y, d, rfl, hw'⟩
  exact .ok ⟨w', y, d, rfl, hw'⟩

theorem countPhase_readsWork : ReadsWork (Work.start f) countPhase := by
  rintro s _ ⟨w, y, d, rfl, hw⟩
  exact .ok ⟨w, y, d, rfl, hw⟩

theorem buildPhase_readsWork : ReadsWork (Work.start f) buildPhase := by
  rintro s _ ⟨w, y, d, rfl, hw⟩
  exact .ok ⟨_, y, d, rfl, hw⟩

theorem gencodePhase_readsWork : ReadsWork (Work.start f) gencodePhase := by
  rintro s _ ⟨w, y, d, rfl, hw⟩
  exact .ok ⟨w, y, d, rfl, hw⟩

theorem wrhdrPhase_readsWork : ReadsWork (Work.start f) wrhdrPhase := by
  rintro s _ ⟨w, y, d, rfl, hw⟩
  exact outAll_readsWork _ ⟨w, y, d, rfl, hw⟩

/-- Naming the phase in PHASE. -/
theorem State.Alike.enterPhase {s s' : State} (h : s.Alike (Work.start f) s') (p p' : Phase) :
    (s.enterPhase p).Alike (Work.start f) (s'.enterPhase p') := by
  obtain ⟨w, y, d, rfl, hw⟩ := h
  exact ⟨_, y, d, rfl, hw⟩

theorem ReadsWork.inPhase {phase : State → Run} (h : ReadsWork (Work.start f) phase) (p : Phase) :
    ReadsWork (Work.start f) fun s => phase (s.enterPhase p) := fun _ _ hs => h (hs.enterPhase p p)

theorem compressPhases_readsWork : ReadsWork (Work.start f) compressPhases :=
  (countPhase_readsWork.inPhase .count).andThen <|
  (buildPhase_readsWork.inPhase .build).andThen <|
  (gencodePhase_readsWork.inPhase .gencode).andThen <|
  (wrhdrPhase_readsWork.inPhase .wrhdr).andThen <|
  encodePhase_readsWork.inPhase .encode

theorem decompressPhases_readsWork : ReadsWork (Work.start f) decompressPhases :=
  (parsehdrPhase_readsWork.inPhase .parsehdr).andThen <|
  (buildPhase_readsWork.inPhase .build).andThen <|
  decodePhase_readsWork.inPhase .decode

/-! ## Every command -/

/-- A check that does not look at the busy-only state. -/
theorem Run.Alike.checked {c : Bool} {e : ErrCode} {r r' : Run} {s s' : State} (h : s.Alike (Work.start f) s')
    (hr : r.Alike (Work.start f) r') :
    (if c then r else .raised e 0 s).Alike (Work.start f) (if c then r' else .raised e 0 s') :=
  rel_ite Iff.rfl (fun _ => hr) fun _ => .raised e 0 h

/-- The pseudocode of a command reads no busy-only state but OUT_START. -/
theorem bodyOf_readsWork (i : Instr) : ReadsWork (Work.start f) (bodyOf i) := fun s s' h => by
  have hstart : s.startOutput.Alike (Work.start f) s'.startOutput := by
    obtain ⟨w, y, d, rfl, -⟩ := h
    exact ⟨_, y, d, rfl, rfl⟩
  have hrestart : s.restartOutput.Alike (Work.start f) s'.restartOutput := by
    obtain ⟨w, y, d, rfl, -⟩ := h
    exact ⟨_, y, d, rfl, rfl⟩
  have hsame := h
  obtain ⟨w, y, d, rfl, hw⟩ := h
  cases i
  case nop | ftclr => exact .ok ⟨w, y, d, rfl, hw⟩
  case reset => exact .ok ⟨_, y, d, rfl, hw⟩
  case ftadd v => exact ftaddBody_readsWork v hsame
  case count => exact .checked hsame (countPhase_readsWork hsame)
  case parsehdr => exact .checked hsame (parsehdrPhase_readsWork hsame)
  case build => exact buildPhase_readsWork hsame
  case gencode => exact .checked hsame (gencodePhase_readsWork hsame)
  case wrhdr => exact .checked hsame (wrhdrPhase_readsWork hstart)
  case encode => exact .checked hsame (.checked hsame (encodePhase_readsWork hstart))
  case decode => exact .checked hsame (.checked hsame (decodePhase_readsWork hstart))
  case compress => exact .checked hsame (compressPhases_readsWork hrestart)
  case decompress => exact .checked hsame (decompressPhases_readsWork hrestart)

end

/-- The pseudocode of a command writes neither DONE nor ERR: completion does. -/
theorem bodyOf_done_err (i : Instr) (s : State) :
    (bodyOf i s).reached.status.done = s.status.done ∧ (bodyOf i s).reached.status.err = s.status.err := by
  have h := bodyOf_preserves i s
  cases i <;> exact ⟨(congrArg (fun u => u.status.done) h :), (congrArg (fun u => u.status.err) h :)⟩

/-- Two states that differ in the busy-only state alone, OUT_START excepted, complete a command alike. -/
theorem settle_bodyOf_setWork (i : Instr) (s : State) {w : Work} (hw : w.outStart = s.work.outStart) (b : Bool) :
    (bodyOf i s).settle b = (bodyOf i { s with work := w }).settle b := by
  have h : s.Alike (Work.start id) { s with work := w } := ⟨w, _, _, rfl, hw⟩
  refine (bodyOf_readsWork i h).settle b ?_
  rw [(bodyOf_done_err i _).1, (bodyOf_done_err i _).1]

/-- A cancellation looks at none of the busy-only state but OUT_START. -/
theorem State.cancel_setWork (ws : WriteSet) (s : State) {w : Work} (hw : w.outStart = s.work.outStart) :
    s.cancel ws = State.cancel ws { s with work := w } := by
  obtain ⟨_ | _, _ | _, _ | _, _ | _⟩ := ws <;>
    simp [State.cancel, State.clearWriteSet, State.discardOutput, State.report, State.clearTable, State.clearFlags,
      State.clearArena, State.clearCodebook, hw]

/-- Settles O22: whichever of its two outcomes a command takes, it is the same. -/
theorem leftoverBusyStateDoesNotMatter : Obligations.LeftoverBusyStateDoesNotMatter := by
  intro i s w hreq hstart
  by_cases hnop : i = .nop
  · subst hnop
    rfl
  by_cases hreset : i = .reset
  · subst hreset
    rfl
  rw [exec_eq_runCommand hnop hreset, exec_eq_runCommand hnop hreset]
  refine congrArg Host.Outcome.next (Eq.symm ?_)
  refine rel_ite (by rw [hreq]) (fun _ => ?_) fun _ => settle_bodyOf_setWork i s hstart _
  exact rel_ite Iff.rfl (fun _ => State.cancel_setWork _ { s with draws := s.draws + 1 } hstart)
    fun _ => settle_bodyOf_setWork i { s with draws := s.draws + 1 } hstart _

/-- Settles O23: with a request pending the command is cancelled or runs its pseudocode, which does not look at the
request. -/
theorem cancellationHasTwoOutcomes : Obligations.CancellationHasTwoOutcomes := by
  intro i s hreq hnop hreset table arena codebook output
  have hws := writeSet_eq hnop hreset
  refine ⟨_, exec_eq_runCommand hnop hreset s, ?_⟩
  rcases runCommand_of_request (writeSet i) (bodyOf i) hreq with h | h <;> rw [h]
  · left
    rw [exec_of_no_request i rfl]
    exact congrArg Host.Outcome.next (settle_bodyOf_setWork i { s with draws := s.draws + 1 }
      (w := { s.work with abortReq := false }) rfl _).symm
  · right
    have hcancel := State.cancelledFrom_cancel (writeSet i) { s with draws := s.draws + 1 }
    have hstay := State.StaysInRegion.cancel (writeSet i) { s with draws := s.draws + 1 }
    have hbuf := State.buf_cancel (ws := writeSet i) (s := { s with draws := s.draws + 1 })
    rw [hws] at hcancel hstay hbuf ⊢
    exact ⟨rfl, rfl, rfl, rfl, hcancel.done, Work.gone_idle, hcancel.ft, hcancel.arena, hcancel.cb, hcancel.outLen,
      hcancel.bodyOff, hcancel.treeValid, hcancel.cbValid, hcancel.hdrValid, fun hout => hbuf hout, hstay.region⟩

end Sys2Proof.Machine
end

