-- ==== Sys2Proof/Proofs/TreeOrder.lean ====
section
/-! PROOFS. The order the tree builder works in (`40_frequency_tree.md` R160 to R165, R168): the node comparator, the
minimum it takes from the queue, and the pairs of the table the tree depends on. -/

namespace Sys2Proof.Machine

/-! ## The node comparator -/

section
variable {a : Arena} {i j k : NodeIdx}

theorem Arena.less_iff : a.less i j = true ↔ (a.nodeAt i).freq.toNat < (a.nodeAt j).freq.toNat ∨
    ((a.nodeAt i).freq = (a.nodeAt j).freq ∧ i.toNat < j.toNat) := by
  simp [Arena.less, BitVec.lt_def]

theorem Arena.less_total (a : Arena) (i j : NodeIdx) : i = j ∨ a.less i j = true ∨ a.less j i = true := by
  simp only [Arena.less_iff, ← BitVec.toNat_inj]
  omega

theorem Arena.less_asymm : ¬ (a.less i j = true ∧ a.less j i = true) := by
  simp only [Arena.less_iff, ← BitVec.toNat_inj]
  omega

theorem Arena.less_trans (hij : a.less i j = true) (hjk : a.less j k = true) : a.less i k = true := by
  simp only [Arena.less_iff, ← BitVec.toNat_inj] at *
  omega

end

/-! ## The minimum -/

theorem Arena.smallest_less (a : Arena) {m j : NodeIdx} {q : List NodeIdx} (hj : j ∈ m :: q)
    (hne : j ≠ a.smallest m q) : a.less (a.smallest m q) j = true := by
  induction q generalizing m j with
  | nil => exact absurd (List.mem_singleton.mp hj) hne
  | cons i q ih =>
    rw [Arena.smallest] at hne ⊢
    set m' := if a.less i m then i else m with hm'
    by_cases hmem : j ∈ m' :: q
    · exact ih hmem hne
    · -- `j` is the one of `m` and `i` that is passed over, so `m'` precedes it
      have hless : a.less m' j = true := by
        have htotal := a.less_total i m
        grind
      by_cases hmin : m' = a.smallest m' q
      · exact hmin ▸ hless
      · exact Arena.less_trans (ih List.mem_cons_self hmin) hless

/-- Q.extractMin() takes the one node that precedes all others out of the queue (`40_frequency_tree.md` R162). -/
theorem Arena.extractMin_least (a : Arena) {q : List NodeIdx} (hq : q ≠ []) :
    ∃ m rest, a.extractMin q = some (m, rest) ∧ q.Perm (m :: rest) ∧ ∀ j ∈ q, j ≠ m → a.less m j = true := by
  obtain ⟨i, q', rfl⟩ := List.exists_cons_of_ne_nil hq
  exact ⟨_, _, rfl, List.perm_cons_erase (a.smallest_mem i q'), fun j hj hne => a.smallest_less hj hne⟩

/-- The rest of a queue without repetition. -/
theorem mem_rest_iff_of_perm {q rest : List NodeIdx} {m : NodeIdx} (h : q.Perm (m :: rest)) (hq : q.Nodup)
    (j : NodeIdx) : j ∈ rest ↔ j ∈ q ∧ j ≠ m := by
  have hm := (List.nodup_cons.mp (h.nodup_iff.mp hq)).1
  rw [h.mem_iff, List.mem_cons]
  grind

/-- Settles O30. -/
theorem extractMinTakesTheSmallestKey : Obligations.ExtractMinTakesTheSmallestKey := by
  refine ⟨fun a i j k => ⟨Arena.less_iff, a.less_total i j, Arena.less_asymm, Arena.less_trans⟩, fun a q hq hnodup => ?_⟩
  obtain ⟨m, rest, hextract, hperm, hleast⟩ := a.extractMin_least hq
  exact ⟨m, rest, hextract, hperm.mem_iff.mpr List.mem_cons_self, hleast, mem_rest_iff_of_perm hperm hnodup⟩

/-! ## The merger -/

/-- Settles O31: the second extraction takes the minimum of what the first has left. -/
theorem mergeJoinsTheTwoSmallest : Obligations.MergeJoinsTheTwoSmallest := by
  intro b hnodup htwo hnext
  obtain ⟨l, q₁, hl, hpl, hleast⟩ := b.arena.extractMin_least (List.ne_nil_of_length_pos (l := b.q) (by omega))
  have hlen := hpl.length_eq
  rw [List.length_cons] at hlen
  obtain ⟨r, q₂, hr, hpr, hnext_least⟩ :=
    b.arena.extractMin_least (List.ne_nil_of_length_pos (l := q₁) (by omega))
  have hq₁ := mem_rest_iff_of_perm hpl hnodup
  have hq₂ := mem_rest_iff_of_perm hpr (List.nodup_cons.mp (hpl.nodup_iff.mp hnodup)).2
  obtain ⟨hrq, hrl⟩ := (hq₁ r).mp (hpr.mem_iff.mpr List.mem_cons_self)
  have hstep : b.mergeOnce = { arena := b.merge l r, q := BitVec.ofNat 9 b.next :: q₂, next := b.next + 1 } := by
    simp [Builder.mergeOnce, hl, hr]
  refine ⟨l, r, hpl.mem_iff.mpr List.mem_cons_self, hrq, hrl.symm, hleast r hrq hrl,
    fun j hj hjl hjr => hnext_least j ((hq₁ j).mpr ⟨hj, hjl⟩) hjr, ?_⟩
  rw [hstep]
  refine ⟨rfl, Builder.nodeAt_merge_next hnext l r, fun i hi => Builder.nodeAt_merge_ne l r fun he => hi ?_, fun j => ?_⟩
  · exact BitVec.eq_of_toNat_eq (he.trans (Builder.toNat_next hnext).symm)
  · rw [List.mem_cons, hq₂, hq₁, and_assoc]

/-! ## BUILD -/

/-- Settles O32. -/
theorem buildOfEmptyAndSingleLeafTables : Obligations.BuildOfEmptyAndSingleLeafTables := by
  intro s hreq
  refine ⟨_, exec_build_tree hreq, Work.gone_idle, rfl, fun hzero => ?_, fun hone => ?_⟩
  · rw [FreqTable.buildTree_zero (by rw [hzero]; rfl)]
    exact ⟨rfl, rfl, Arena.nodeAt_empty⟩
  · have hcnt : s.ft.leafCnt.toNat = 1 := by rw [hone]; rfl
    have hnode := FreqTable.nodeAt_buildTree_one hcnt
    refine ⟨?_, ?_, ?_, ?_, fun i hi => ?_⟩
    · rw [FreqTable.buildTree_one hcnt]
    · rw [FreqTable.buildTree_one hcnt]
    · rw [hnode]
      rfl
    · rw [hnode, hnode]
      rfl
    · rw [hnode]
      grind

section
variable {t t' : FreqTable}

theorem FreqTable.placeLeaves_congr {n : Nat} (h : ∀ k, k < n → t.leafAt k = t'.leafAt k) (a : Arena) :
    t.placeLeaves n a = t'.placeLeaves n a := by
  induction n with
  | zero => rfl
  | succ n ih =>
    rw [FreqTable.placeLeaves, FreqTable.placeLeaves, ih fun k hk => h k (Nat.lt_succ_of_lt hk), h n n.lt_succ_self]

/-- The tree depends on the leaves alone (`40_frequency_tree.md` R168). -/
theorem FreqTable.buildTree_congr (hcnt : t.leafCnt = t'.leafCnt)
    (h : ∀ k, k < t.leafCnt.toNat → t.leafAt k = t'.leafAt k) : t.buildTree = t'.buildTree := by
  rw [hcnt] at h
  unfold FreqTable.buildTree
  rw [hcnt]
  cases hn : t'.leafCnt.toNat with
  | zero => rfl
  | succ n =>
    rw [hn] at h
    cases n with
    | zero => simp only [h 0 Nat.one_pos]
    | succ n => simp only [FreqTable.startBuild, FreqTable.placeLeaves_congr h]

end

/-- Settles O34: BUILD reads a leaf's value and frequency, in table order, and nothing else. -/
theorem buildDependsOnlyOnThePairs : Obligations.BuildDependsOnlyOnThePairs := by
  intro s s' t t' hreq hreq' hcnt hpairs ht ht'
  rw [exec_build_tree hreq] at ht
  rw [exec_build_tree hreq'] at ht'
  injection ht with ht
  injection ht' with ht'
  subst ht ht'
  have htree := FreqTable.buildTree_congr hcnt fun k hk => by
    obtain ⟨horder, hfreq⟩ := hpairs k hk
    rw [FreqTable.leafAt, FreqTable.leafAt, hfreq, horder]
  exact congrArg Prod.fst htree

end Sys2Proof.Machine
end

