-- ==== Sys2Proof/Proofs/HeaderRead.lean ====
section
/-! PROOFS. PARSEHDR of a header that passes every check (`42_header.md` R213): the table its records make. -/

namespace Sys2Proof.Machine

/-- Above the present values ORDER is 0, past the end of the file too (`10_state.md` R41). -/
theorem FreqTable.Wf.orderAt_of_le {t : FreqTable} (h : t.Wf) {k : Nat} (hk : t.leafCnt.toNat ≤ k) :
    t.orderAt k = 0 := by
  by_cases hlt : k < 256
  · exact h.unused k hk hlt
  · rw [FreqTable.orderAt, Vector.getElem?_eq_none (by omega), Option.getD_none]

/-- TOTAL is the sum of the records' frequencies. -/
theorem State.GoodRecords.total {s : State} {n : Nat} (h : s.GoodRecords n) :
    (s.recordTable n).total.toNat = ((List.range n).map fun k => (s.recordFreq k).toNat).sum := by
  rw [← h.wf_recordTable.sum_listed, h.toNat_leafCnt]
  refine congrArg List.sum (List.map_congr_left fun k hk => ?_)
  obtain ⟨horder, hfreq⟩ := h.record k (List.mem_range.mp hk)
  rw [horder, hfreq]

/-- Settles O40. -/
theorem parsehdrReadsTheHeader : Obligations.ParsehdrReadsTheHeader := by
  intro s hreq hin n val freq _ hroom hnonzero hdistinct
  have hlt := s.inLen.isLt
  have hfreq : ∀ k, s.recordFreq k = freq k := s.recordFreq_eq
  have hgood : s.GoodRecords n := ⟨fun k hk => hfreq k ▸ hnonzero k hk, hdistinct⟩
  refine ⟨_, hgood.exec_parsehdr hreq hin hroom, Work.gone_idle, rfl, ?_, hgood.toNat_leafCnt, fun k hk => ?_,
    fun k hk => hgood.wf_recordTable.orderAt_of_le (hgood.toNat_leafCnt.le.trans hk),
    fun v hv => (hgood.freqOf_eq_zero_iff v).mpr hv, ?_⟩
  · exact (BitVec.toNat_ofNat _ _).trans (Nat.mod_eq_of_lt (by omega))
  · rw [← hfreq k]
    exact hgood.record k hk
  · simpa only [hfreq] using hgood.total

end Sys2Proof.Machine
end

