-- ==== Sys2Proof/Proofs/OutputErrors.lean ====
section
/-! PROOFS. The errors that discard a command's output (`60_exceptions.md` R336): the overflow of the output region
(`20_memory.md` R87) and ENCODE's NO_CODE (`43_encoder.md` R242, R246); and the errors COMPRESS cannot end in
(`45_control.md` R303). -/

namespace Sys2Proof.Machine

/-! ## Rejection -/

/-- `t` is the end of a command from `s` with an error that discards its output, with nothing else changed
(`60_exceptions.md` R336). -/
def State.Rejects (e : ErrCode) (pos : Word) (s t : State) : Prop :=
  t.work.Gone ∧ t = { s with
    buf := t.buf, outLen := 0, draws := s.draws + 1, errCode := e.code, errPos := pos, status := s.status.failed
    work := t.work }

section
variable {s t u : State} {e : ErrCode} {pos : Word}

/-- An error after some output. -/
theorem State.OutputStep.rejects (h : s.OutputStep u) (he : e.discards = true) :
    State.Rejects e pos s ((Run.raised e pos u).settle true) := by
  obtain ⟨m, n, w, rfl⟩ := h
  rw [Run.settle_raised, he]
  exact ⟨Work.gone_idle, rfl⟩

/-- Output that does not fit. -/
theorem rejects_outAll {bs : List Byte} (hle : s.outLen.toNat ≤ s.outCap.toNat)
    (h : s.outCap.toNat < s.outLen.toNat + bs.length) :
    State.Rejects .outOverflow s.outCap s ((outAll bs s).settle true) := by
  obtain ⟨m, hrun, -, -⟩ := outAll_of_overflow bs s hle h
  have hstep := outAll_outputStep bs s
  rw [hrun] at hstep ⊢
  exact hstep.rejects rfl

/-- A command that outputs and then completes can only fail for want of room. -/
theorem err_settle_outAll (bs : List Byte) (hle : s.outLen.toNat ≤ s.outCap.toNat) (herr : s.status.err = false) :
    ((outAll bs s).settle true).status.err = false ∨ ((outAll bs s).settle true).errCode = 0x0A := by
  by_cases hfits : s.outLen.toNat + bs.length ≤ s.outCap.toNat
  · obtain ⟨m, hrun, -, -⟩ := outAll_of_fits bs s hfits
    rw [hrun]
    exact .inl herr
  · obtain ⟨-, hreject⟩ := rejects_outAll (bs := bs) hle (by omega)
    rw [hreject]
    exact .inr rfl

/-- Output that ends well fits. -/
theorem outAll_fits {bs : List Byte} (hle : s.outLen.toNat ≤ s.outCap.toNat) (h : outAll bs s = .ok t) :
    s.outLen.toNat + bs.length ≤ s.outCap.toNat := by
  by_contra hover
  obtain ⟨m, hrun, -, -⟩ := outAll_of_overflow bs s hle (by omega)
  rw [hrun] at h
  cases h

/-- Output into a region disjoint from the input leaves the input alone. -/
theorem inputBytes_of_outAll {bs : List Byte} (hdis : s.disjoint = true) (hle : s.outLen.toNat ≤ s.outCap.toNat)
    (h : outAll bs s = .ok t) : t.inputBytes = s.inputBytes := by
  have hfits := outAll_fits hle h
  obtain ⟨m, hrun, -, hget⟩ := outAll_of_fits bs s hfits
  obtain rfl := Run.ok.inj (hrun.symm.trans h)
  refine List.map_congr_left fun i hi => ?_
  have hout := State.input_outside_output hdis (List.mem_range.mp hi)
  change State.readBuf _ (s.inBase.toNat + i) = s.readBuf (s.inBase.toNat + i)
  rw [State.readBuf, hget, if_neg (by omega)]
  rfl

end

theorem State.OutputStep.status_eq {s t : State} (h : s.OutputStep t) : t.status = s.status := by
  obtain ⟨_, _, _, rfl⟩ := h
  rfl

/-! ## ENCODE -/

theorem encodeBytes_append (i : Nat) (bs cs : List Byte) (s : State) :
    encodeBytes i (bs ++ cs) s = (encodeBytes i bs s).andThen (encodeBytes (i + bs.length) cs) := by
  induction bs generalizing i s with
  | nil => rfl
  | cons b bs ih =>
    rw [List.cons_append, encodeBytes, encodeBytes, Run.andThen_assoc, List.length_cons, Nat.add_comm bs.length,
      ← Nat.add_assoc]
    exact congrArg _ (funext (ih (i + 1)))

theorem encodeBytes_of_uncoded (i : Nat) {b : Byte} (bs : List Byte) {s : State} (h : s.cb.lenOf b = 0) :
    encodeBytes i (b :: bs) s = .raised .noCode (BitVec.ofNat 32 i) s := by
  rw [encodeBytes, encodeByte, if_pos h, Run.raised_andThen]

/-- ENCODE outputs the full bytes of the codes of the first input bytes, if each of them has a code, and then goes on
(`43_encoder.md` R241). -/
theorem settle_encodePhase_append {w : Bool} {s : State} {bs cs : List Byte} (hin : s.inputBytes = bs ++ cs)
    (hcoded : ∀ b ∈ bs, s.cb.lenOf b ≠ 0) : ∃ a n, (encodePhase s).settle w =
      ((outAll (fullBytes (s.cb.bitString bs)) s).andThen fun t =>
        (encodeBytes bs.length cs (t.setPacker a n)).andThen writeTrailer).settle w := by
  refine ⟨packedByte (leftover (s.cb.bitString bs)), BitVec.ofNat 4 ((s.cb.bitString bs).length % 8), ?_⟩
  rw [encodePhase, hin, encodeBytes_append, Run.andThen_assoc, encodeBytes_of_coded (s := s.setPacker 0 0) 0 hcoded,
    State.setPacker_cb, settle_packBits, Nat.zero_add]

section
variable {s : State} {bs cs : List Byte}

/-- A byte with no code ends ENCODE, if the bytes before it fit (`43_encoder.md` R242). -/
theorem rejects_encodePhase_of_uncoded {b : Byte} (hin : s.inputBytes = bs ++ b :: cs)
    (hcoded : ∀ b ∈ bs, s.cb.lenOf b ≠ 0) (hb : s.cb.lenOf b = 0)
    (hfit : s.outLen.toNat + (s.cb.bitString bs).length / 8 ≤ s.outCap.toNat) :
    State.Rejects .noCode (BitVec.ofNat 32 bs.length) s ((encodePhase s).settle true) := by
  obtain ⟨a, n, hphase⟩ := settle_encodePhase_append (w := true) hin hcoded
  obtain ⟨m, hrun, -, -⟩ := outAll_of_fits (fullBytes (s.cb.bitString bs)) s (by rwa [length_fullBytes])
  rw [hphase, hrun, Run.ok_andThen, encodeBytes_of_uncoded _ _ (by exact hb), Run.raised_andThen]
  exact State.OutputStep.rejects ⟨m, _, _, rfl⟩ rfl

/-- Codes of the first input bytes that do not fit end ENCODE, whatever follows them (`43_encoder.md` R241). -/
theorem rejects_encodePhase_of_overflow (hin : s.inputBytes = bs ++ cs) (hcoded : ∀ b ∈ bs, s.cb.lenOf b ≠ 0)
    (hle : s.outLen.toNat ≤ s.outCap.toNat)
    (hover : s.outCap.toNat < s.outLen.toNat + (s.cb.bitString bs).length / 8) :
    State.Rejects .outOverflow s.outCap s ((encodePhase s).settle true) := by
  obtain ⟨a, n, hphase⟩ := settle_encodePhase_append (w := true) hin hcoded
  obtain ⟨m, hrun, -, -⟩ := outAll_of_overflow (fullBytes (s.cb.bitString bs)) s hle (by rwa [length_fullBytes])
  rw [hphase, hrun, Run.raised_andThen]
  exact State.OutputStep.rejects ⟨m, _, _, rfl⟩ rfl

end

/-- A region check of ENCODE's and DECODE's kind that is passed (`20_memory.md` R89). -/
theorem State.checks_of {s : State} (hin : s.inBase.toNat + s.inLen.toNat ≤ s.memSize)
    (hout : s.outBase.toNat + s.outCap.toNat ≤ s.memSize)
    (hdis : s.inLen = 0 ∨ s.outCap = 0 ∨ s.inBase.toNat + s.inLen.toNat ≤ s.outBase.toNat ∨
      s.outBase.toNat + s.outCap.toNat ≤ s.inBase.toNat) (hlen : s.outLen.toNat ≤ s.outCap.toNat) :
    (s.inOk && s.outOk && s.disjoint) = true := by
  simp only [Bool.and_eq_true, State.inOk_iff, State.outOk_iff, State.disjoint_iff]
  exact ⟨⟨hin, hout, hlen⟩, hdis⟩

/-- ENCODE that passes its checks (`43_encoder.md` R241). -/
theorem exec_encode_of_checks {s : State} (hreq : s.work.abortReq = false) (hvalid : s.status.cbValid = true)
    (hchecks : (s.inOk && s.outOk && s.disjoint) = true) :
    exec .encode s = .next ((encodePhase s.startOutput).settle true) := by
  rw [exec_encode hreq, encodeBody, if_pos hvalid, if_pos hchecks]

/-- The input up to a byte, and the rest. -/
theorem State.inputBytes_eq_append (s : State) {i : Nat} (hi : i ≤ s.inLen.toNat) :
    s.inputBytes = s.inputs i ++ (List.range (s.inLen.toNat - i)).map fun j => s.input (i + j) := by
  obtain ⟨k, hk⟩ := Nat.exists_eq_add_of_le hi
  simp [State.inputBytes, State.inputs, hk, List.range_add, Function.comp_def]

theorem State.forall_mem_inputs {s : State} {i : Nat} {P : Byte → Prop} (h : ∀ j, j < i → P (s.input j)) :
    ∀ b ∈ s.inputs i, P b := by
  intro b hb
  obtain ⟨j, hj, rfl⟩ := List.mem_map.mp hb
  exact h j (List.mem_range.mp hj)

/-- Settles O44: the bytes before the first one with no code are output, and then its lookup fails. -/
theorem encodeRejectsTheFirstUncodedByte : Obligations.EncodeRejectsTheFirstUncodedByte := by
  intro s i hreq hvalid hin hout hdis hi hnone hcoded hfit
  have hexec := exec_encode_of_checks hreq hvalid (State.checks_of hin hout (.inr hdis) (by omega))
  have hsplit := s.startOutput.inputBytes_eq_append (i := i) hi.le
  obtain ⟨k, hk⟩ := Nat.exists_eq_succ_of_ne_zero (show s.inLen.toNat - i ≠ 0 by omega)
  rw [State.startOutput_inLen, hk, List.range_succ_eq_map, List.map_cons] at hsplit
  obtain ⟨hgone, hreject⟩ := rejects_encodePhase_of_uncoded (s := s.startOutput) hsplit
    (State.forall_mem_inputs hcoded) hnone hfit
  rw [State.length_inputs] at hreject
  exact ⟨_, hexec, hgone, hreject, fun a ha => readBuf_exec_outside hreq hexec ha⟩

/-! ## COMPRESS -/

/-- COMPRESS's output phases complete as the output of the container's bytes does, with room for them or without. -/
theorem settle_outputPhases {s : State} {bits : List Bool} (hdis : s.disjoint = true)
    (hle : s.outLen.toNat ≤ s.outCap.toNat) (hcoded : ∀ b ∈ s.inputBytes, s.cb.lenOf b ≠ 0)
    (hbits : s.cb.bitString s.inputBytes = bits) :
    ((wrhdrPhase s).andThen fun t => encodePhase (t.enterPhase .encode)).settle true =
      (outAll (s.ft.headerBytes ++ s.ft.encodedBytes bits) s).settle true := by
  rw [outAll_append, wrhdrPhase]
  refine Run.settle_andThen_congr fun t ht => ?_
  have hstep := outAll_outputStep s.ft.headerBytes s
  rw [ht, Run.reached_ok] at hstep
  have hinputs : (t.enterPhase .encode).inputBytes = s.inputBytes := by
    change t.inputBytes = s.inputBytes
    exact inputBytes_of_outAll hdis hle ht
  have hcb : (t.enterPhase .encode).cb = s.cb := hstep.cb_eq
  have hft : (t.enterPhase .encode).ft = s.ft := hstep.ft_eq
  rw [settle_encodePhase (by rwa [hinputs, hcb]), hinputs, hcb, hft, hbits]
  have hphase : t.Alike (Work.start id) (t.enterPhase .encode) := ⟨_, _, _, rfl, rfl⟩
  refine ((outAll_readsWork _ hphase).settle true ?_).symm
  rw [(outAll_outputStep _ t).status_eq, (outAll_outputStep _ (t.enterPhase .encode)).status_eq]
  rfl

/-- COMPRESS that passes its region check completes as the output of the container's bytes does, with the table, the
tree and the codebook of the input in place (`45_control.md` R303). -/
theorem exec_compress_outAll {s : State} {t : FreqTable} {bits : List Bool} (hreq : s.work.abortReq = false)
    (hchecks : (s.inOk && s.outFits && s.disjoint) = true) (ht : FreqTable.ofBytes s.inputBytes = t)
    (hbits : t.codebook.bitString s.inputBytes = bits) :
    ∃ w, exec .compress s = .next ((outAll (t.headerBytes ++ t.encodedBytes bits) { s with
        outLen := 0, ft := t, bodyOff := 0, arena := t.buildTree.1, cb := t.codebook
        status := { s.status with treeValid := true, cbValid := true, hdrValid := false }, work := w }).settle true) ∧
      (t.headerBytes ++ t.encodedBytes bits).length = t.containerLen bits := by
  have hlen : s.inputBytes.length < 2 ^ 32 := s.length_inputBytes ▸ s.inLen.isLt
  have hpresent : ∀ v ∈ s.inputBytes, t.freqOf v ≠ 0 := ht ▸ FreqTable.freqOf_ofBytes_ne_zero hlen
  have hwf : t.Wf := ht ▸ FreqTable.wf_ofBytes _ hlen
  obtain ⟨w, hphases⟩ := compressPhases_eq ht
  refine ⟨w, ?_, ?_⟩
  · rw [exec_compress hreq, compressBody, if_pos hchecks, hphases]
    refine congrArg _ (settle_outputPhases ?_ (Nat.zero_le _)
      (fun b hb => (hwf.lenOf_ne_zero_iff b).mpr (hpresent b hb)) hbits)
    exact (Bool.and_eq_true_iff.mp hchecks).2
  · rw [List.length_append, FreqTable.length_headerBytes, ← hbits, hwf.containerLen_eq hpresent]

/-! ## The obligations -/

/-- Settles O39: WRHDR and COMPRESS complete as the output of their bytes does, and ENCODE as that of its input's codes,
up to the first byte with no code. -/
theorem outputOverflowDiscardsTheOutput : Obligations.OutputOverflowDiscardsTheOutput := by
  intro s hreq hout overflows regions bits ft
  refine ⟨fun _ hle hover => ⟨_, exec_wrhdr hreq, ?_⟩, fun hvalid ⟨hin, hdis⟩ hle htable hcoded hover => ?_,
    fun hvalid ⟨hin, hdis⟩ hle i hi hcoded hover => ?_, fun ⟨hin, hdis⟩ hover => ?_⟩
  · rw [wrhdrBody, if_pos (State.outOk_iff.mpr ⟨hout, hle⟩)]
    exact rejects_outAll (s := s.startOutput) hle (by rwa [FreqTable.length_headerBytes])
  · refine ⟨_, exec_encode_of_checks hreq hvalid (State.checks_of hin hout hdis hle), ?_⟩
    rw [settle_encodePhase (s := s.startOutput) hcoded]
    refine rejects_outAll (s := s.startOutput) hle ?_
    rw [FreqTable.length_encodedBytes, if_neg (by exact htable), ← Nat.add_assoc]
    exact hover
  · exact ⟨_, exec_encode_of_checks hreq hvalid (State.checks_of hin hout hdis hle),
      rejects_encodePhase_of_overflow (s := s.startOutput) (s.startOutput.inputBytes_eq_append hi)
        (State.forall_mem_inputs hcoded) hle hover⟩
  · have hchecks : (s.inOk && s.outFits && s.disjoint) = true := by
      simp only [Bool.and_eq_true, State.inOk_iff, State.outFits_iff, State.disjoint_iff]
      exact ⟨⟨hin, hout⟩, hdis⟩
    obtain ⟨w, hexec, hlength⟩ := exec_compress_outAll hreq hchecks (t := ft) rfl rfl
    refine ⟨_, hexec, rejects_outAll (Nat.zero_le _) ?_⟩
    rw [hlength]
    exact hover.trans_eq (Nat.zero_add _).symm

/-- Settles O51: every byte of the input has a code, so COMPRESS that passes its region check completes as the output of
the container's bytes does. -/
theorem compressFailsOnlyWithBadRegionOrOverflow : Obligations.CompressFailsOnlyWithBadRegionOrOverflow := by
  intro s t hreq herr h
  by_cases hchecks : (s.inOk && s.outFits && s.disjoint) = true
  · obtain ⟨w, hexec, -⟩ := exec_compress_outAll hreq hchecks rfl rfl
    injection hexec.symm.trans h with ht
    subst ht
    refine Or.imp_right .inr (err_settle_outAll _ ?_ ?_)
    · exact Nat.zero_le _
    · exact herr
  · have hbody : bodyOf .compress s = .raised .badRegion 0 s := if_neg hchecks
    injection (exec_of_check hreq (.inl rfl) hbody).symm.trans h with ht
    subst ht
    exact .inr (.inl rfl)

end Sys2Proof.Machine
end

