-- ==== Sys2Proof/Proofs/DecodeErrors.lean ====
section
/-! PROOFS. DECODE's output and the errors it ends in (`44_decoder.md` R271 to R278): each symbol is emitted when the next
bit is read, or at the end of the body, and there its check fails. -/

namespace Sys2Proof.Machine

/-! ## Walking the body -/

section
variable {s t : State}

/-- The walk over the codes of a message that fits outputs the message, as soon as a bit follows (`44_decoder.md`
R275). -/
theorem readBits_after_codes {msg : List Byte} {code : Byte → List Bool} {ps qs : List (Bool × Nat)} (hqs : qs ≠ [])
    (hcode : ∀ v ∈ msg, s.arena.IsCode (code v) v) (hps : ps.map Prod.fst = msg.flatMap code)
    (hcur : s.work.cur = s.arena.root) (hcnt : s.work.cnt.toNat + msg.length ≤ s.ft.total.toNat)
    (hout : outAll msg s = .ok t) : ∃ w, readBits (ps ++ qs) s = readBits qs { t with work := w } ∧
      w.cur = t.arena.root ∧ w.cnt.toNat = s.work.cnt.toNat + msg.length := by
  induction msg generalizing s t ps with
  | nil =>
    obtain rfl := List.map_eq_nil_iff.mp hps
    obtain rfl := Run.ok.inj hout
    exact ⟨s.work, rfl, hcur, rfl⟩
  | cons v msg ih =>
    obtain ⟨hv, hcode⟩ := List.forall_mem_cons.mp hcode
    obtain ⟨s₁, hv₁, hout⟩ := Run.andThen_eq_ok.mp hout
    obtain ⟨ps₁, ps₂, rfl, hps₁, hps₂⟩ := List.map_eq_append_iff.mp (hps.trans List.flatMap_cons)
    have hend : s.arena.EndsAt s.work.cur (ps₁.map Prod.fst) v := by
      rw [hcur, hps₁]
      exact hv.endsAt
    obtain ⟨w, hpath, hkind, hvalue, hw⟩ := readBits_of_path hend
    obtain ⟨harena, hft⟩ : s₁.arena = s.arena ∧ s₁.ft = s.ft := by
      rw [(eq_of_out_ok hv₁).2]
      exact ⟨rfl, rfl⟩
    rw [List.length_cons, ← hw] at hcnt
    have hless : w.cnt ≠ s.ft.total := fun he => by
      rw [he] at hcnt
      omega
    have hone : (w.cnt + 1).toNat = w.cnt.toNat + 1 :=
      BitVec.toNat_add_of_lt (show w.cnt.toNat + 1 < 2 ^ 40 by have := s.ft.total.isLt; omega)
    have hmore : ps₂ ++ qs ≠ [] := List.append_ne_nil_of_right_ne_nil ps₂ hqs
    rw [← harena] at hv hcode
    rw [← hft] at hcnt
    obtain ⟨w', hrest, hcur', hcnt'⟩ := ih
      (s := { s₁ with work := { w with cur := s₁.arena.root, cnt := w.cnt + 1 } }) hcode hps₂ rfl
      (show (w.cnt + 1).toNat + msg.length ≤ s₁.ft.total.toNat by omega) (outAll_setWork hout _)
    refine ⟨w', ?_, hcur', ?_⟩
    · rw [List.append_assoc, readBits_append, hpath, Run.ok_andThen,
        readBits_of_leaf hkind hvalue hless hv₁ hmore hv.root_ne_leaf]
      exact hrest
    · rw [hcnt', List.length_cons, ← hw]
      change (w.cnt + 1).toNat + msg.length = _
      omega

/-- The bits of a path over no leaf and no missing child lead the cursor to its end, and nothing outside the busy-only
state changes (`44_decoder.md` R274). -/
theorem readBits_of_unfinished {bps : List (Bool × Nat)} (h : ∀ k, k ≤ bps.length →
      (s.arena.nodeAt (s.arena.follow s.work.cur ((bps.map Prod.fst).take k))).kind ≠ .leaf ∧
      s.arena.follow s.work.cur ((bps.map Prod.fst).take k) ≠ Config.null) :
    ∃ w, readBits bps s = .ok { s with work := w } ∧ (State.cursor { s with work := w }).kind ≠ .leaf := by
  induction bps generalizing s with
  | nil => exact ⟨s.work, rfl, (h 0 le_rfl).1⟩
  | cons bp bps ih =>
    have hcur : s.cursor.kind ≠ .leaf := (h 0 (Nat.zero_le _)).1
    have hchild : s.arena.child s.work.cur bp.1 ≠ Config.null := (h 1 (Nat.succ_le_succ (Nat.zero_le _))).2
    rw [readBits, readBit_of_edge hcur hchild, Run.ok_andThen]
    exact ih (s := (s.setCursor (s.arena.child s.work.cur bp.1)).nextBit) fun k hk => h (k + 1) (Nat.succ_le_succ hk)

/-! ## The emission checks -/

/-- The input offset a failing emission reports: that of the next bit's byte, or IN_LEN at the end of the body
(`44_decoder.md` R271, R277). -/
def State.offsetOf (s : State) : List (Bool × Nat) → Nat
  | [] => s.inLen.toNat
  | bp :: _ => bp.2

/-- A symbol whose emission fails ends DECODE, whatever bits follow. -/
theorem readBits_of_emit_raised {u : State} {e : ErrCode} {pos : Word} (qs : List (Bool × Nat))
    (hkind : s.cursor.kind = .leaf)
    (hemit : emit s.cursor.value (BitVec.ofNat 32 (s.offsetOf qs)) s = .raised e pos u) :
    (readBits qs s).andThen endDecode = .raised e pos u := by
  cases qs with
  | nil =>
    rw [State.offsetOf, BitVec.ofNat_toNat, BitVec.setWidth_eq] at hemit
    rw [readBits, Run.ok_andThen, endDecode, if_pos hkind, hemit, Run.raised_andThen]
  | cons bp qs =>
    rw [State.offsetOf] at hemit
    rw [readBits, readBit, detectLeaf, if_pos hkind, hemit]
    rfl

theorem emit_of_total {v : Byte} (p : Word) (h : s.work.cnt = s.ft.total) :
    emit v p s = .raised .lengthMismatch p s := if_pos h

theorem emit_of_full {v : Byte} (p : Word) (hcnt : s.work.cnt ≠ s.ft.total) (hfull : s.outLen = s.outCap) :
    emit v p s = .raised .outOverflow s.outCap s := by
  rw [emit, if_neg hcnt, out_of_full v hfull, Run.raised_andThen]

/-- Too few symbols at the end of the body (`44_decoder.md` R277). -/
theorem endDecode_of_few {w : Work} (hkind : (State.cursor { s with work := w }).kind = .leaf)
    (hcnt : w.cnt ≠ s.ft.total) (hmore : w.cnt + 1 ≠ s.ft.total) (hroom : s.outLen ≠ s.outCap) :
    ∃ u, endDecode { s with work := w } = .raised .lengthMismatch s.inLen u ∧ s.OutputStep u := by
  rw [endDecode, if_pos hkind, emit_of_out hcnt (out_of_room _ hroom), Run.ok_andThen,
    if_neg (by exact hmore)]
  exact ⟨_, rfl, _, _, _, rfl⟩

end

/-! ## The body from the start -/

section
variable {s : State} {msg : List Byte} {code : Byte → List Bool} {ps qs : List (Bool × Nat)}

/-- The codes of a message that fits, with bits after them, from the start of the body. -/
theorem readBits_startDecode (hqs : qs ≠ []) (hcode : ∀ v ∈ msg, s.arena.IsCode (code v) v)
    (hps : ps.map Prod.fst = msg.flatMap code) (htotal : msg.length ≤ s.ft.total.toNat)
    (hroom : s.outLen.toNat + msg.length ≤ s.outCap.toNat) :
    ∃ m w, readBits (ps ++ qs) s.startDecode =
        readBits qs { s with buf := m, outLen := s.outLen + BitVec.ofNat 32 msg.length, work := w } ∧
      w.cur = s.arena.root ∧ w.cnt.toNat = msg.length := by
  obtain ⟨m, hout, -, -⟩ := outAll_of_fits msg s.startDecode hroom
  obtain ⟨w, hrun, hcur, hcnt⟩ := readBits_after_codes (s := s.startDecode) hqs hcode hps rfl
    ((Nat.zero_add _).le.trans htotal) hout
  exact ⟨m, w, hrun, hcur, hcnt.trans (Nat.zero_add _)⟩

variable {v : Byte}

/-- The codes of a message and of one symbol more: the message is output, and the cursor is on the symbol's leaf. -/
theorem readBits_startDecode_concat (hcode : ∀ u ∈ msg ++ [v], s.arena.IsCode (code u) u)
    (hps : ps.map Prod.fst = (msg ++ [v]).flatMap code) (htotal : msg.length ≤ s.ft.total.toNat)
    (hroom : s.outLen.toNat + msg.length ≤ s.outCap.toNat) :
    ∃ m w, readBits ps s.startDecode =
        .ok { s with buf := m, outLen := s.outLen + BitVec.ofNat 32 msg.length, work := w } ∧
      (s.arena.nodeAt w.cur).kind = .leaf ∧ (s.arena.nodeAt w.cur).value = v ∧ w.cnt.toNat = msg.length := by
  obtain ⟨hmsg, hv⟩ := List.forall_mem_append.mp hcode
  have hv := hv v (List.mem_singleton_self v)
  rw [List.flatMap_append, List.flatMap_singleton] at hps
  obtain ⟨ps, qs, rfl, hps, hqs⟩ := List.map_eq_append_iff.mp hps
  have hne : qs ≠ [] := fun hnil => hv.nonempty (by rw [← hqs, hnil, List.map_nil])
  obtain ⟨m, w, hrun, hcur, hcnt⟩ := readBits_startDecode hne hmsg hps htotal hroom
  have hend : s.arena.EndsAt w.cur (qs.map Prod.fst) v := by
    rw [hcur, hqs]
    exact hv.endsAt
  obtain ⟨w', hpath, hkind, hvalue, hcnt'⟩ := readBits_of_path
    (s := { s with buf := m, outLen := s.outLen + BitVec.ofNat 32 msg.length, work := w }) hend
  exact ⟨m, w', hrun.trans hpath, hkind, hvalue, by rw [hcnt']; exact hcnt⟩

/-- A symbol past TOTAL raises LENGTH_MISMATCH (`44_decoder.md` R276). -/
theorem decode_mismatch_of_extra (hcode : ∀ u ∈ msg ++ [v], s.arena.IsCode (code u) u)
    (hps : ps.map Prod.fst = (msg ++ [v]).flatMap code) (htotal : msg.length = s.ft.total.toNat)
    (hroom : s.outLen.toNat + msg.length ≤ s.outCap.toNat) :
    ∃ u, (readBits (ps ++ qs) s.startDecode).andThen endDecode =
      .raised .lengthMismatch (BitVec.ofNat 32 (s.offsetOf qs)) u ∧ s.OutputStep u := by
  obtain ⟨m, w, hrun, hkind, -, hcnt⟩ := readBits_startDecode_concat hcode hps htotal.le hroom
  rw [readBits_append, hrun, Run.andThen_assoc, Run.ok_andThen]
  exact ⟨_, readBits_of_emit_raised qs hkind (emit_of_total _ (BitVec.eq_of_toNat_eq (hcnt.trans htotal))),
    m, _, w, rfl⟩

/-- A symbol within TOTAL that does not fit raises OUT_OVERFLOW (`44_decoder.md` R276). -/
theorem decode_overflow_of_extra (hcode : ∀ u ∈ msg ++ [v], s.arena.IsCode (code u) u)
    (hps : ps.map Prod.fst = (msg ++ [v]).flatMap code) (htotal : msg.length < s.ft.total.toNat)
    (hfull : s.outLen.toNat + msg.length = s.outCap.toNat) :
    ∃ u, (readBits (ps ++ qs) s.startDecode).andThen endDecode = .raised .outOverflow s.outCap u ∧
      s.OutputStep u := by
  obtain ⟨m, w, hrun, hkind, -, hcnt⟩ := readBits_startDecode_concat hcode hps htotal.le hfull.le
  have hless : w.cnt ≠ s.ft.total := fun he => by
    rw [he] at hcnt
    omega
  have hcap : s.outLen + BitVec.ofNat 32 msg.length = s.outCap := BitVec.eq_of_toNat_eq (by
    have hlt := s.outCap.isLt
    rw [BitVec.toNat_add, BitVec.toNat_ofNat]
    omega)
  rw [readBits_append, hrun, Run.andThen_assoc, Run.ok_andThen]
  exact ⟨_, readBits_of_emit_raised qs hkind (emit_of_full _ hless hcap), m, _, w, rfl⟩

/-- Fewer symbols than TOTAL at the end of the body raise LENGTH_MISMATCH(IN_LEN) (`44_decoder.md` R277). -/
theorem decode_mismatch_of_few (hcode : ∀ u ∈ msg ++ [v], s.arena.IsCode (code u) u)
    (hps : ps.map Prod.fst = (msg ++ [v]).flatMap code) (htotal : msg.length + 1 < s.ft.total.toNat)
    (hroom : s.outLen.toNat + (msg.length + 1) ≤ s.outCap.toNat) :
    ∃ u, (readBits ps s.startDecode).andThen endDecode = .raised .lengthMismatch s.inLen u ∧ s.OutputStep u := by
  obtain ⟨m, w, hrun, hkind, hvalue, hcnt⟩ := readBits_startDecode_concat hcode hps (by omega) (by omega)
  have hlt := s.ft.total.isLt
  have hless : w.cnt ≠ s.ft.total := fun he => by
    rw [he] at hcnt
    omega
  have hmore : w.cnt + 1 ≠ s.ft.total := fun he => by
    have hone : (w.cnt + 1).toNat = w.cnt.toNat + 1 :=
      BitVec.toNat_add_of_lt (show w.cnt.toNat + 1 < 2 ^ 40 by omega)
    rw [he] at hone
    omega
  have hnotFull : s.outLen + BitVec.ofNat 32 msg.length ≠ s.outCap := fun he => by
    have hcap := s.outCap.isLt
    have hsum := congrArg BitVec.toNat he
    rw [BitVec.toNat_add, BitVec.toNat_ofNat] at hsum
    omega
  obtain ⟨u, hend, hstep⟩ := endDecode_of_few
    (s := { s with buf := m, outLen := s.outLen + BitVec.ofNat 32 msg.length }) hkind hless hmore hnotFull
  rw [hrun, Run.ok_andThen]
  exact ⟨u, hend, State.OutputStep.trans ⟨m, _, s.work, rfl⟩ hstep⟩

/-- An unfinished code at the end of the body raises INVALID_TREE_WALK(IN_LEN) (`44_decoder.md` R277). -/
theorem decode_walk_of_unfinished (hqs : qs ≠ []) (hcode : ∀ v ∈ msg, s.arena.IsCode (code v) v)
    (hps : ps.map Prod.fst = msg.flatMap code) (htotal : msg.length ≤ s.ft.total.toNat)
    (hroom : s.outLen.toNat + msg.length ≤ s.outCap.toNat)
    (hpath : ∀ k, k ≤ qs.length →
      (s.arena.nodeAt (s.arena.follow s.arena.root ((qs.map Prod.fst).take k))).kind ≠ .leaf ∧
      s.arena.follow s.arena.root ((qs.map Prod.fst).take k) ≠ Config.null) :
    ∃ u, (readBits (ps ++ qs) s.startDecode).andThen endDecode = .raised .invalidTreeWalk s.inLen u ∧
      s.OutputStep u := by
  obtain ⟨m, w, hrun, hcur, -⟩ := readBits_startDecode hqs hcode hps htotal hroom
  rw [← hcur] at hpath
  obtain ⟨w', hrest, hkind⟩ := readBits_of_unfinished
    (s := { s with buf := m, outLen := s.outLen + BitVec.ofNat 32 msg.length, work := w }) hpath
  rw [hrun, hrest, Run.ok_andThen, endDecode, if_neg (by exact hkind)]
  exact ⟨_, rfl, m, _, w', rfl⟩

/-- A bit that leads to no node raises INVALID_TREE_WALK with the offset of its byte (`44_decoder.md` R274). -/
theorem decode_walk_of_null {bp : Bool × Nat} (hcode : ∀ v ∈ msg, s.arena.IsCode (code v) v)
    (hps : ps.map Prod.fst = msg.flatMap code) (htotal : msg.length ≤ s.ft.total.toNat)
    (hroom : s.outLen.toNat + msg.length ≤ s.outCap.toNat)
    (hroot : (s.arena.nodeAt s.arena.root).kind ≠ .leaf) (hnull : s.arena.child s.arena.root bp.1 = Config.null) :
    ∃ u, (readBits (ps ++ bp :: qs) s.startDecode).andThen endDecode =
      .raised .invalidTreeWalk (BitVec.ofNat 32 bp.2) u ∧ s.OutputStep u := by
  obtain ⟨m, w, hrun, hcur, -⟩ := readBits_startDecode (List.cons_ne_nil bp qs) hcode hps htotal hroom
  rw [← hcur] at hroot hnull
  rw [hrun, readBits, readBit, detectLeaf, if_neg (by exact hroot), Run.ok_andThen, descend_of_null _ (by exact hnull)]
  exact ⟨_, rfl, m, _, w, rfl⟩

end

/-! ## The whole body -/

/-- The placed bits, cut where the bits are, and the offset at which the second part begins. -/
theorem State.placedBits_eq_append {s : State} {as bs : List Bool} (h : s.bodyBits = as ++ bs) :
    ∃ ps qs, s.placedBits = ps ++ qs ∧ ps.map Prod.fst = as ∧ qs.map Prod.fst = bs ∧
      s.offsetOf qs = if as.length < s.bodyBits.length then (s.bitAt s.bodyBytes as.length).2 else s.inLen.toNat := by
  obtain ⟨ps, qs, hsplit, rfl, rfl⟩ := List.map_eq_append_iff.mp (s.map_fst_placedBits.trans h)
  refine ⟨ps, qs, hsplit, rfl, rfl, ?_⟩
  rw [← s.map_fst_placedBits, hsplit, List.length_map, List.length_map, List.length_append]
  cases qs with
  | nil =>
    rw [if_neg (by simp)]
    rfl
  | cons bp qs =>
    rw [if_pos (by simp)]
    have hget : s.placedBits[ps.length]? = some bp := by rw [hsplit]; simp
    obtain ⟨hlt, hbp⟩ := List.getElem?_eq_some_iff.mp hget
    rw [← hbp]
    simp [State.offsetOf, State.placedBits]

section
variable {s : State} (hreq : s.work.abortReq = false) (htree : s.status.treeValid = true)
  (hhdr : s.status.hdrValid = true) (hchecks : (s.inOk && s.outOk && s.disjoint) = true)
include hreq htree hhdr hchecks

/-- DECODE that passes its checks (`44_decoder.md` R271). -/
theorem exec_decode_of_checks : exec .decode s = .next ((decodePhase s.startOutput).settle true) := by
  rw [exec_decode hreq, decodeBody, htree, hhdr, Bool.and_self, if_pos rfl, if_pos hchecks]

/-- An error of DECODE's phase discards the output (`60_exceptions.md` R336). -/
theorem exec_decode_rejects {e : ErrCode} {pos : Word} (he : e.discards = true)
    (h : ∃ u, decodePhase s.startOutput = .raised e pos u ∧ s.startOutput.OutputStep u) :
    ∃ t, exec .decode s = .next t ∧ State.Rejects e pos s t := by
  obtain ⟨u, hphase, hstep⟩ := h
  exact ⟨_, by rw [exec_decode_of_checks hreq htree hhdr hchecks, hphase], hstep.rejects he⟩

end

/-- DECODE's phase, once it has come to the body (`44_decoder.md` R271). -/
theorem decodePhase_startOutput {s : State} (hchecks : (s.inOk && s.outOk && s.disjoint) = true)
    (hleaf : s.ft.leafCnt ≠ 0) (hr : s.bodyOff.toNat + 2 ≤ s.inLen.toNat) (hmark : s.marker ≤ 8) :
    decodePhase s.startOutput =
      (readBits s.startOutput.placedBits s.startOutput.startDecode).andThen endDecode := by
  have hlen := (State.outOk_of_checks hchecks).2
  have hdis := (Bool.and_eq_true_iff.mp hchecks).2
  have hbytes : 2 ≤ s.bodyBytes := by
    rw [State.bodyBytes]
    omega
  exact decodePhase_eq_readBits (s := s.startOutput) hleaf hbytes hmark hdis hlen

/-! ## The obligations -/

/-- Settles O45. -/
theorem decodeChecksTheTrailer : Obligations.DecodeChecksTheTrailer := by
  intro s hreq htree hhdr hin hout hlen hdis hoff rejects
  have hchecks := State.checks_of hin hout hdis hlen
  have hexec := exec_decode_of_checks hreq htree hhdr hchecks
  have hrejects : ∀ (e : ErrCode) (pos : Nat), e.discards = true →
      decodePhase s.startOutput = .raised e (BitVec.ofNat 32 pos) s.startOutput → rejects e.code pos :=
    fun e pos he h => exec_decode_rejects hreq htree hhdr hchecks he ⟨_, h, .refl _⟩
  have hword : ∀ w : Word, BitVec.ofNat 32 w.toNat = w := fun w => by rw [BitVec.ofNat_toNat, BitVec.setWidth_eq]
  have hbytes : s.startOutput.bodyBytes = s.inLen.toNat - s.bodyOff.toNat := rfl
  refine ⟨fun hleaf hend => ⟨Work.idle, Work.gone_idle, ?_⟩, fun hleaf hne => hrejects .badTrailer _ rfl ?_,
    fun hleaf hshort => hrejects .truncatedBody _ rfl ?_, fun hleaf hr hmark => hrejects .badTrailer _ rfl ?_,
    fun hleaf hr hmark hroot => ?_⟩
  · rw [hexec, decodePhase_of_empty (s := s.startOutput) hleaf (by rw [hbytes, hend, Nat.sub_self])]
    rfl
  · have hmore : s.bodyOff.toNat ≠ s.inLen.toNat := fun he => hne (BitVec.eq_of_toNat_eq he)
    rw [hword, decodePhase, if_pos (by exact hleaf), if_neg (by omega)]
    rfl
  · rw [hword, decodePhase, if_neg (by exact hleaf), if_pos (by omega)]
    rfl
  · rw [decodePhase_of_badMarker (s := s.startOutput) hleaf (by omega) hmark]
    congr 1
    have hlt := s.inLen.isLt
    have htwo : (2 : Word).toNat = 2 := rfl
    exact BitVec.eq_of_toNat_eq (by
      rw [State.startOutput_inLen, BitVec.toNat_sub_of_le (by rw [BitVec.le_def]; omega), BitVec.toNat_ofNat]
      omega)
  · have hmarker : s.marker = 0 := congrArg BitVec.toNat hmark
    have hnone : s.startOutput.placedBits = [] := by
      have hmarker' : s.startOutput.marker = 0 := hmarker
      rw [State.placedBits, hmarker', hbytes, ← hr, Nat.add_sub_cancel_left]
      rfl
    refine exec_decode_rejects hreq htree hhdr hchecks (e := .invalidTreeWalk) rfl ⟨s.startOutput.startDecode, ?_, ?_⟩
    · rw [hword, decodePhase_startOutput hchecks hleaf hr.le (by omega), hnone, readBits, Run.ok_andThen, endDecode,
        if_neg (by exact hroot)]
      rfl
    · exact .work _ _

/-- Settles O46: the walk over the codes of the message, and the end checks, are the output of the message. -/
theorem decodeFollowsTheTree : Obligations.DecodeFollowsTheTree := by
  intro s msg code hreq htree hhdr hin hout hdis hleaf hr hmark hne hcode hbits htotal hroom
  have hchecks := State.checks_of hin hout hdis (by omega)
  have hbytes : 2 ≤ s.bodyBytes := by
    rw [State.bodyBytes]
    omega
  obtain ⟨m, hrun, hread⟩ := outAll_readBuf msg s.startOutput hroom
  obtain ⟨w, hphase⟩ := decodePhase_of_codes (s := s.startOutput) hleaf hbytes hmark
    (Bool.and_eq_true_iff.mp hchecks).2 (show s.outLen.toNat ≤ s.outCap.toNat by omega) hne hcode hbits htotal hrun
  have hlen : (s.outLen + BitVec.ofNat 32 msg.length).toNat = s.outLen.toNat + msg.length := by
    have hcap := s.outCap.isLt
    rw [BitVec.toNat_add, BitVec.toNat_ofNat]
    omega
  refine ⟨_, exec_decode_of_checks hreq htree hhdr hchecks, ?_⟩
  rw [hphase]
  refine ⟨Work.gone_idle, rfl, hlen, fun i hi => (hread _).trans ?_, fun a ha => (hread a).trans ?_⟩
  · have hrel : s.outBase.toNat + s.outLen.toNat + i - (s.outBase.toNat + s.outLen.toNat) = i :=
      Nat.add_sub_cancel_left ..
    rw [State.startOutput_outBase, State.startOutput_outLen, if_pos (by omega), hrel]
  · change a < s.outBase.toNat + s.outLen.toNat ∨
      s.outBase.toNat + (s.outLen + BitVec.ofNat 32 msg.length).toNat ≤ a at ha
    rw [State.startOutput_outBase, State.startOutput_outLen, if_neg (by omega)]
    rfl

/-- The first symbols of a message, the last of them apart. -/
theorem take_succ_eq_concat {msg : List Byte} {n : Nat} (h : n < msg.length) :
    ∃ v, msg.take (n + 1) = msg.take n ++ [v] := ⟨msg[n], by rw [List.take_append_getElem]⟩

/-- Settles O47: the symbol whose emission fails is the one after those that are counted and fit. -/
theorem decodeChecksTheCountAndTheEnd : Obligations.DecodeChecksTheCountAndTheEnd := by
  intro s msg code rest hreq htree hhdr hin hout hdis hleaf hr hmark hcode hbits hlen rejects total next
  have hchecks := State.checks_of hin hout hdis hlen
  have hrejects : ∀ (e : ErrCode) (pos : Nat), e.discards = true →
      (∃ u, (readBits s.startOutput.placedBits s.startOutput.startDecode).andThen endDecode =
        .raised e (BitVec.ofNat 32 pos) u ∧ s.startOutput.OutputStep u) → rejects e.code pos := fun e pos he h =>
    exec_decode_rejects hreq htree hhdr hchecks he (by rwa [decodePhase_startOutput hchecks hleaf hr hmark])
  have hword : ∀ w : Word, BitVec.ofNat 32 w.toNat = w := fun w => by rw [BitVec.ofNat_toNat, BitVec.setWidth_eq]
  -- the first `n` symbols and one more, and what follows
  have hcut : ∀ n, n < msg.length → ∃ v ps qs, s.startOutput.placedBits = ps ++ qs ∧
      ps.map Prod.fst = (msg.take n ++ [v]).flatMap code ∧ (∀ u ∈ msg.take n ++ [v], s.arena.IsCode (code u) u) ∧
      s.offsetOf qs = if ((msg.take (n + 1)).flatMap code).length < s.bodyBits.length
        then (s.bitAt s.bodyBytes ((msg.take (n + 1)).flatMap code).length).2 else s.inLen.toNat := fun n hn => by
    obtain ⟨v, hv⟩ := take_succ_eq_concat hn
    have hsplit : s.bodyBits = (msg.take (n + 1)).flatMap code ++ ((msg.drop (n + 1)).flatMap code ++ rest) := by
      rw [hbits, ← List.append_assoc, ← List.flatMap_append, List.take_append_drop]
    obtain ⟨ps, qs, hplaced, hps, -, hoffset⟩ := State.placedBits_eq_append hsplit
    exact ⟨v, ps, qs, hplaced, hv ▸ hps, fun u hu => hcode u (List.mem_of_mem_take (hv ▸ hu)), hoffset⟩
  refine ⟨fun hne hrest hfew hroom => hrejects .lengthMismatch _ rfl ?_,
    fun hextra hroom => hrejects .lengthMismatch _ rfl ?_, fun hover htotal => hrejects .outOverflow _ rfl ?_,
    fun hrest htotal hroom hpath => hrejects .invalidTreeWalk _ rfl ?_⟩
  · obtain ⟨msg, v, rfl⟩ := (List.eq_nil_or_concat' msg).resolve_left hne
    rw [List.length_append, List.length_singleton] at hfew hroom
    rw [hrest, List.append_nil] at hbits
    rw [hword]
    exact decode_mismatch_of_few (s := s.startOutput) hcode
      (s.startOutput.map_fst_placedBits.trans hbits) hfew hroom
  · obtain ⟨v, ps, qs, hplaced, hps, hcodes, hoffset⟩ := hcut total hextra
    have htake : (msg.take total).length = total := List.length_take_of_le hextra.le
    rw [hplaced, ← hoffset]
    exact decode_mismatch_of_extra (s := s.startOutput) hcodes hps htake (by rw [htake]; exact hroom)
  · have hn : s.outCap.toNat - s.outLen.toNat < msg.length := by omega
    obtain ⟨v, ps, qs, hplaced, hps, hcodes, -⟩ := hcut _ hn
    have htake := List.length_take_of_le hn.le
    rw [hplaced, hword]
    refine decode_overflow_of_extra (s := s.startOutput) hcodes hps ?_ ?_
    · rw [htake]
      change _ < s.ft.total.toNat
      omega
    · rw [htake]
      change s.outLen.toNat + _ = s.outCap.toNat
      omega
  · obtain ⟨ps, qs, hplaced, hps, rfl, -⟩ := State.placedBits_eq_append (s := s.startOutput) hbits
    rw [hplaced, hword]
    exact decode_walk_of_unfinished (s := s.startOutput) (by rintro rfl; exact hrest rfl) hcode hps htotal hroom
      (by rwa [List.length_map] at hpath)

/-- The code of the only leaf (`40_frequency_tree.md` R165). -/
theorem FreqTable.isCode_of_one {t : FreqTable} (h : t.leafCnt.toNat = 1) :
    t.buildTree.1.IsCode [false] (t.orderAt 0) := by
  have hroot : t.buildTree.1.nodeAt t.buildTree.1.root = Node.mkUnary 0 (t.leafAt 0).freq := by
    rw [FreqTable.nodeAt_buildTree_one h, FreqTable.buildTree_one h]
    rfl
  have hleaf : t.buildTree.1.nodeAt (t.buildTree.1.follow t.buildTree.1.root [false]) = t.leafAt 0 := by
    rw [Arena.follow, List.foldl_cons, List.foldl_nil, Arena.child, hroot]
    exact FreqTable.nodeAt_buildTree_one h 0
  refine ⟨List.cons_ne_nil _ _, by rw [hleaf]; rfl, by rw [hleaf]; rfl, fun k hk => ?_⟩
  obtain rfl : k = 0 := by simpa using hk
  rw [List.take_zero, Arena.follow, List.foldl_nil, hroot]
  exact NodeKind.noConfusion

/-- The bits up to the first 1 bit, and the rest. -/
theorem eq_zeros_append {bits : List Bool} {k : Nat} (hk : k < bits.length) (hone : bits.getD k false = true)
    (hzeros : ∀ j, j < k → bits.getD j false = false) :
    bits = List.replicate k false ++ true :: bits.drop (k + 1) := by
  have htake : bits.take k = List.replicate k false := by
    refine List.eq_replicate_iff.mpr ⟨List.length_take_of_le hk.le, fun b hb => ?_⟩
    obtain ⟨j, hj, rfl⟩ := List.mem_iff_getElem.mp hb
    rw [List.length_take_of_le hk.le] at hj
    rw [List.getElem_take, ← hzeros j hj, List.getD_eq_getElem]
  rw [List.getD_eq_getElem _ _ hk] at hone
  rw [← htake, ← hone, ← List.drop_eq_getElem_cons hk, List.take_append_drop]

/-- Settles O48: each 0 bit is the code of the only leaf, and the UNARY root has no right child. -/
theorem oneBitAtTheUnaryRootIsRejected : Obligations.OneBitAtTheUnaryRootIsRejected := by
  intro s k hreq htree hhdr hleaf harena hin hout hdis hr hmark hk hone hzeros htotal hroom
  have hchecks := State.checks_of hin hout hdis (by omega)
  have hcnt : s.ft.leafCnt.toNat = 1 := by rw [hleaf]; rfl
  have hne : s.ft.leafCnt ≠ 0 := by rw [hleaf]; decide
  have hcode := harena ▸ FreqTable.isCode_of_one hcnt
  have hnull : s.arena.child s.arena.root true = Config.null := by
    rw [harena, Arena.child, FreqTable.nodeAt_buildTree_one hcnt, FreqTable.buildTree_one hcnt]
    rfl
  obtain ⟨ps, qs, hplaced, hps, hqs, hoffset⟩ :=
    State.placedBits_eq_append (s := s.startOutput) (eq_zeros_append hk hone hzeros)
  obtain ⟨⟨b, p⟩, qs, rfl, rfl, -⟩ := List.map_eq_cons_iff.mp hqs
  have hzero : ps.map Prod.fst = (List.replicate k (s.ft.orderAt 0)).flatMap fun _ => [false] := by
    rw [hps, ← List.map_eq_flatMap (f := fun _ => false), List.map_replicate]
  rw [List.length_replicate, if_pos (by exact hk)] at hoffset
  have hp : p = (s.bitAt s.bodyBytes k).2 := hoffset
  have hcodes : ∀ v ∈ List.replicate k (s.ft.orderAt 0), s.arena.IsCode [false] v := fun v hv =>
    List.eq_of_mem_replicate hv ▸ hcode
  have hlength : (List.replicate k (s.ft.orderAt 0)).length = k := List.length_replicate
  refine exec_decode_rejects hreq htree hhdr hchecks (e := .invalidTreeWalk) rfl ?_
  rw [decodePhase_startOutput hchecks hne hr hmark, hplaced, ← hp]
  exact decode_walk_of_null (s := s.startOutput) hcodes hzero (by rwa [hlength]) (by rwa [hlength])
    hcode.root_ne_leaf hnull

end Sys2Proof.Machine
end

