-- ==== Sys2Proof/Proofs/PipelineSequences.lean ====
section
/-! PROOFS. The pipelines and their commands in sequence (`45_control.md` R303 to R305): each command begins in the state
the one before left, which differs from the state its phase of the pipeline begins in by BUSY, DONE and the busy-only state
alone. -/

namespace Sys2Proof.Machine

/-! ## A command that succeeds -/

/-- A command that ends with ERR clear has run its pseudocode to the end, and ERR was clear before. -/
theorem exec_ok {i : Instr} {s t : State} (hreq : s.work.abortReq = false) (h : exec i s = .next t)
    (herr : t.status.err = false) : (∃ u, bodyOf i s = .ok u ∧ t = u.complete) ∧ s.status.err = false := by
  have hbefore := (bodyOf_done_err i s).2
  rw [exec_of_no_request i hreq] at h
  injection h with h
  cases hbody : bodyOf i s with
  | ok u =>
    rw [hbody] at h hbefore
    subst h
    exact ⟨⟨u, rfl, rfl⟩, hbefore.symm.trans herr⟩
  | raised e pos u =>
    rw [hbody] at h
    subst h
    cases herr

/-- A command that ends with ERR set that was clear before has raised an error. -/
theorem exec_raised {i : Instr} {s t : State} (hreq : s.work.abortReq = false) (h : exec i s = .next t)
    (hclear : s.status.err = false) (herr : t.status.err = true) :
    ∃ e pos u, bodyOf i s = .raised e pos u ∧ t = (Run.raised e pos u).settle (writeSet i).out := by
  have hbefore := (bodyOf_done_err i s).2
  rw [exec_of_no_request i hreq] at h
  injection h with h
  cases hbody : bodyOf i s with
  | ok u =>
    rw [hbody] at h hbefore
    subst h
    have herr : u.status.err = true := herr
    rw [show u.status.err = false from hbefore.trans hclear] at herr
    cases herr
  | raised e pos u =>
    rw [hbody] at h
    exact ⟨e, pos, u, rfl, h.symm⟩

theorem abortReq_of_exec {i : Instr} {s t : State} (h : exec i s = .next t) : t.work.abortReq = false := by
  rw [(exec_completesTo h).work]
  rfl

/-- A check before a run that ends well. -/
theorem checked_eq_ok {c : Bool} {r : Run} {e : ErrCode} {s u : State}
    (h : (if c then r else .raised e 0 s) = .ok u) : c = true ∧ r = .ok u := by
  cases c with
  | true => exact ⟨rfl, h⟩
  | false => cases h

/-- No command moves a region (`10_state.md` R59). -/
theorem checks_of_exec {i : Instr} {s t : State} (h : exec i s = .next t) :
    (t.inOk && t.outFits && t.disjoint) = (s.inOk && s.outFits && s.disjoint) :=
  (congrArg (fun u : State => u.inOk && u.outFits && u.disjoint) (exec_completesTo h).registers :)

theorem outFits_of_outOk {s : State} (h : (s.inOk && s.outOk && s.disjoint) = true) :
    (s.inOk && s.outFits && s.disjoint) = true := by
  simp only [State.outOk, Bool.and_eq_true] at h ⊢
  exact ⟨⟨h.1.1, h.1.2.1⟩, h.2⟩

/-! ## Two states that pseudocode cannot tell apart -/

/-- The two states differ in BUSY, DONE and the busy-only state alone. -/
def State.Same (s s' : State) : Prop := s.Alike (Work.start fun _ => ()) s'

section
variable {s s' u : State} {body : State → Run}

/-- A phase that ends well, in either state. -/
theorem State.Same.run (h : s.Same s') (hp : ReadsWork (Work.start fun _ => ()) body) (hrun : body s = .ok u) :
    ∃ u', body s' = .ok u' ∧ u.Same u' := by
  have hboth := hp h
  rw [hrun] at hboth
  generalize body s' = r' at hboth
  cases hboth with
  | ok hu => exact ⟨_, rfl, hu⟩

/-- A phase that raises an error, in either state. -/
theorem Run.Alike.of_raised {α : Type} {v : Work → α} {r' : Run} {e : ErrCode} {pos : Word}
    (h : (Run.raised e pos u).Alike v r') : ∃ u', r' = .raised e pos u' ∧ u.Alike v u' := by
  cases h with
  | raised _ _ hu => exact ⟨_, rfl, hu⟩

/-- The next command begins where the last one completed, and the next phase where the last one ended. -/
theorem State.Same.next (h : s.Same s') (p : Phase) : s.complete.Same (s'.enterPhase p) := by
  obtain ⟨w, b, d, rfl, -⟩ := h
  exact ⟨_, b, d, rfl, rfl⟩

theorem State.Same.startOutput (h : s.Same s') : s.startOutput.Same s' := by
  obtain ⟨w, b, d, rfl, -⟩ := h
  exact ⟨_, b, d, rfl, rfl⟩

end

/-! ## Success -/

/-- COMPRESS is its commands in sequence, when each succeeds (`45_control.md` R303). -/
theorem exec_compress_of_sequence {s t₁ t₂ t₃ t₄ t₅ : State} (hreq : s.work.abortReq = false)
    (h₁ : exec .count { s with outLen := 0 } = .next t₁) (h₂ : exec .build t₁ = .next t₂)
    (h₃ : exec .gencode t₂ = .next t₃) (h₄ : exec .wrhdr t₃ = .next t₄) (h₅ : exec .encode t₄ = .next t₅)
    (herr : t₅.status.err = false) : exec .compress s = .next t₅ := by
  have hchecks : (s.inOk && s.outFits && s.disjoint) = (t₄.inOk && t₄.outFits && t₄.disjoint) := by
    rw [checks_of_exec h₄, checks_of_exec h₃, checks_of_exec h₂, checks_of_exec h₁]
    rfl
  obtain ⟨⟨u₅, hbody₅, rfl⟩, herr₄⟩ := exec_ok (abortReq_of_exec h₄) h₅ herr
  obtain ⟨⟨u₄, hbody₄, rfl⟩, herr₃⟩ := exec_ok (abortReq_of_exec h₃) h₄ herr₄
  obtain ⟨⟨u₃, hbody₃, rfl⟩, herr₂⟩ := exec_ok (abortReq_of_exec h₂) h₃ herr₃
  obtain ⟨⟨u₂, hbody₂, rfl⟩, herr₁⟩ := exec_ok (abortReq_of_exec h₁) h₂ herr₂
  obtain ⟨⟨u₁, hbody₁, rfl⟩, -⟩ := exec_ok (s := { s with outLen := 0 }) hreq h₁ herr₁
  have hstart : State.Same { s with outLen := 0 } (s.restartOutput.enterPhase .count) := ⟨_, _, _, rfl, rfl⟩
  obtain ⟨v₁, hrun₁, hsame₁⟩ := hstart.run countPhase_readsWork (checked_eq_ok hbody₁).2
  obtain ⟨v₂, hrun₂, hsame₂⟩ := (hsame₁.next .build).run buildPhase_readsWork hbody₂
  obtain ⟨v₃, hrun₃, hsame₃⟩ := (hsame₂.next .gencode).run gencodePhase_readsWork (checked_eq_ok hbody₃).2
  obtain ⟨v₄, hrun₄, hsame₄⟩ := (hsame₃.next .wrhdr).startOutput.run wrhdrPhase_readsWork (checked_eq_ok hbody₄).2
  obtain ⟨hregions, hencode⟩ := checked_eq_ok (checked_eq_ok hbody₅).2
  obtain ⟨v₅, hrun₅, hsame₅⟩ := (hsame₄.next .encode).startOutput.run encodePhase_readsWork hencode
  rw [exec_compress hreq, compressBody, hchecks, if_pos (outFits_of_outOk hregions), compressPhases, hrun₁,
    Run.ok_andThen, hrun₂, Run.ok_andThen, hrun₃, Run.ok_andThen, hrun₄, Run.ok_andThen, hrun₅, Run.settle_ok,
    hsame₅.complete]

/-- DECOMPRESS is its commands in sequence, when each succeeds (`45_control.md` R304). -/
theorem exec_decompress_of_sequence {s t₁ t₂ t₃ : State} (hreq : s.work.abortReq = false)
    (h₁ : exec .parsehdr { s with outLen := 0 } = .next t₁) (h₂ : exec .build t₁ = .next t₂)
    (h₃ : exec .decode t₂ = .next t₃) (herr : t₃.status.err = false) : exec .decompress s = .next t₃ := by
  have hchecks : (s.inOk && s.outFits && s.disjoint) = (t₂.inOk && t₂.outFits && t₂.disjoint) := by
    rw [checks_of_exec h₂, checks_of_exec h₁]
    rfl
  obtain ⟨⟨u₃, hbody₃, rfl⟩, herr₂⟩ := exec_ok (abortReq_of_exec h₂) h₃ herr
  obtain ⟨⟨u₂, hbody₂, rfl⟩, herr₁⟩ := exec_ok (abortReq_of_exec h₁) h₂ herr₂
  obtain ⟨⟨u₁, hbody₁, rfl⟩, -⟩ := exec_ok (s := { s with outLen := 0 }) hreq h₁ herr₁
  have hstart : State.Same { s with outLen := 0 } (s.restartOutput.enterPhase .parsehdr) := ⟨_, _, _, rfl, rfl⟩
  obtain ⟨v₁, hrun₁, hsame₁⟩ := hstart.run parsehdrPhase_readsWork (checked_eq_ok hbody₁).2
  obtain ⟨v₂, hrun₂, hsame₂⟩ := (hsame₁.next .build).run buildPhase_readsWork hbody₂
  obtain ⟨hregions, hdecode⟩ := checked_eq_ok (checked_eq_ok hbody₃).2
  obtain ⟨v₃, hrun₃, hsame₃⟩ := (hsame₂.next .decode).startOutput.run decodePhase_readsWork hdecode
  rw [exec_decompress hreq, decompressBody, hchecks, if_pos (outFits_of_outOk hregions), decompressPhases, hrun₁,
    Run.ok_andThen, hrun₂, Run.ok_andThen, hrun₃, Run.settle_ok, hsame₃.complete]

/-! ## Errors inside DECOMPRESS -/

/-- Where a phase of DECOMPRESS raises an error, DECOMPRESS does, with DONE as it was. -/
theorem exec_decompress_raised {s u : State} {e : ErrCode} {pos : Word} (hreq : s.work.abortReq = false)
    (hchecks : (s.inOk && s.outFits && s.disjoint) = true) (he : e.discards = true)
    (hrun : decompressPhases s.restartOutput = .raised e pos u) :
    exec .decompress s = .next (u.discardOutput.report e pos) ∧ u.status.done = s.status.done := by
  have hbody : bodyOf .decompress s = .raised e pos u := by
    rw [bodyOf, decompressBody, if_pos hchecks, hrun]
  have hdone := (bodyOf_done_err .decompress s).1
  rw [hbody] at hdone
  refine ⟨?_, hdone⟩
  rw [exec_of_no_request _ hreq, hbody, Run.settle_raised, he]
  rfl

/-- PARSEHDR's error in DECOMPRESS (`45_control.md` R305). -/
theorem exec_decompress_of_parsehdr_raised {s t₁ : State} (hreq : s.work.abortReq = false)
    (hclear : s.status.err = false) (hchecks : (s.inOk && s.outFits && s.disjoint) = true)
    (h₁ : exec .parsehdr { s with outLen := 0 } = .next t₁) (herr : t₁.status.err = true) :
    ∃ t, exec .decompress s = .next t ∧
      t.work.Gone ∧ t = { t₁ with buf := t.buf, outLen := 0, draws := s.draws + 1, work := t.work } := by
  obtain ⟨e, pos, u, hbody, rfl⟩ := exec_raised (s := { s with outLen := 0 }) hreq h₁ hclear herr
  have hdone := (bodyOf_done_err .parsehdr { s with outLen := 0 }).1
  have hin : State.inOk { s with outLen := 0 } = true := by
    simp only [Bool.and_eq_true] at hchecks
    exact hchecks.1.1
  have hends := parsehdrPhase_writesTable { s with outLen := 0 }
  rw [hbody] at hdone
  rw [bodyOf, parsehdrBody, if_pos hin] at hbody
  rw [hbody] at hends
  obtain ⟨he, hframe⟩ := hends
  have hdraws : u.draws = s.draws := (congrArg State.draws hframe :)
  have hstart : State.Same { s with outLen := 0 } (s.restartOutput.enterPhase .parsehdr) := ⟨_, _, _, rfl, rfl⟩
  have hboth := parsehdrPhase_readsWork hstart
  rw [hbody] at hboth
  obtain ⟨u', hrun, w, b, d, rfl, -⟩ := hboth.of_raised
  obtain ⟨hexec, hdone'⟩ := exec_decompress_raised hreq hchecks he
    (by rw [decompressPhases, hrun, Run.raised_andThen])
  obtain rfl : d = u.status.done := hdone'.trans hdone.symm
  exact ⟨_, hexec, Work.gone_idle, by simp [State.discardOutput, State.report, writeSet, Run.settle_raised, hdraws]⟩

/-- PARSEHDR that succeeds sets HDR_VALID and writes the table's part of the state alone (`42_header.md` R213). -/
theorem parsehdrPhase_ok {s u : State} (h : parsehdrPhase s = .ok u) :
    ∃ off ft, u = State.markHeader off { s.clearTable with ft := ft } := by
  rcases parseLeaves_cases s.clearTable with ⟨e, pos, hrun⟩ | ⟨n, ft, hrun, -⟩
  · cases hrun.symm.trans h
  · exact ⟨_, ft, (Run.ok.inj (hrun.symm.trans h)).symm⟩

/-- DECODE's error in DECOMPRESS (`45_control.md` R305): DECODE begins at OUT_LEN = 0, where DECOMPRESS's phase does, so the
same output is discarded. -/
theorem exec_decompress_of_decode_raised {s t₁ t₂ t₃ : State} (hreq : s.work.abortReq = false)
    (hchecks : (s.inOk && s.outFits && s.disjoint) = true)
    (h₁ : exec .parsehdr { s with outLen := 0 } = .next t₁) (herr₁ : t₁.status.err = false)
    (h₂ : exec .build t₁ = .next t₂) (h₃ : exec .decode t₂ = .next t₃) (herr₃ : t₃.status.err = true) :
    ∃ t, exec .decompress s = .next t ∧
      t.work.Gone ∧ t = { t₃ with
        outLen := 0, status := { t₃.status with done := s.status.done }, work := t.work } := by
  have hchecks₂ : (t₂.inOk && t₂.outFits && t₂.disjoint) = true := by
    rw [checks_of_exec h₂, checks_of_exec h₁]
    exact hchecks
  obtain ⟨⟨u₁, hbody₁, rfl⟩, -⟩ := exec_ok (s := { s with outLen := 0 }) hreq h₁ herr₁
  have hparse := (checked_eq_ok hbody₁).2
  have hstart : State.Same { s with outLen := 0 } (s.restartOutput.enterPhase .parsehdr) := ⟨_, _, _, rfl, rfl⟩
  obtain ⟨v₁, hrun₁, hsame₁⟩ := hstart.run parsehdrPhase_readsWork hparse
  have hframe := parsehdrPhase_writesTable (s.restartOutput.enterPhase .parsehdr)
  rw [hrun₁] at hframe
  have hwork : v₁.work = (s.restartOutput.enterPhase .parsehdr).work := (congrArg State.work hframe :)
  obtain ⟨v₂, hrun₂⟩ : ∃ v₂, buildPhase (v₁.enterPhase .build) = .ok v₂ := ⟨_, rfl⟩
  obtain ⟨off, ft, rfl⟩ := parsehdrPhase_ok hparse
  obtain ⟨w, b, d, rfl, -⟩ := hsame₁
  obtain rfl : w = _ := hwork
  have ht₂ := (Host.Outcome.next.inj ((exec_build_tree rfl).symm.trans h₂)).symm
  have hv₂ := Run.ok.inj hrun₂
  have hlen : t₂.outLen.toNat ≤ t₂.outCap.toNat := by rw [ht₂]; exact Nat.zero_le _
  have hvalid : (t₂.status.treeValid && t₂.status.hdrValid) = true := by rw [ht₂]; rfl
  have hregions : (t₂.inOk && t₂.outOk && t₂.disjoint) = true := by
    simpa only [State.outOk, decide_eq_true hlen, Bool.and_true] using hchecks₂
  obtain ⟨e, pos, u₃, hbody₃, rfl⟩ := exec_raised (abortReq_of_exec h₂) h₃ (by rw [ht₂]; exact herr₁) herr₃
  rw [bodyOf, decodeBody, if_pos hvalid, if_pos hregions] at hbody₃
  obtain ⟨hfits, hle⟩ := State.outOk_of_checks hregions
  have hends := decodePhase_writesOutput (State.Writing.start (s := t₂.startOutput) hfits rfl hle)
  have hboth := decodePhase_readsWork (f := id) (s := t₂.startOutput) (s' := v₂.enterPhase .decode)
    (by rw [ht₂, ← hv₂]; exact ⟨_, _, _, rfl, rfl⟩)
  rw [hbody₃] at hends hboth
  obtain ⟨v₃, hrun₃, hsame₃⟩ := hboth.of_raised
  obtain ⟨hexec, hdone⟩ := exec_decompress_raised (e := e) (pos := pos) (u := v₃) hreq hchecks hends.1 (by
    rw [decompressPhases, hrun₁, Run.ok_andThen, hrun₂, Run.ok_andThen, hrun₃])
  obtain ⟨w₃, b₃, d₃, rfl, hw₃⟩ := hsame₃
  have hstart₃ : w₃.outStart = u₃.work.outStart := hw₃
  obtain rfl : d₃ = s.status.done := hdone
  refine ⟨_, hexec, Work.gone_idle, ?_⟩
  rw [Run.settle_raised, hends.1]
  simp [State.discardOutput, State.report, writeSet, hstart₃]

/-- Settles O52: each command of the sequence and its phase of the pipeline are one pseudocode, run from states it cannot
tell apart. -/
theorem pipelinesEqualTheirCommands : Obligations.PipelinesEqualTheirCommands := by
  refine ⟨fun s t₁ t₂ t₃ t₄ t₅ hreq h₁ h₂ h₃ h₄ h₅ herr => exec_compress_of_sequence hreq h₁ h₂ h₃ h₄ h₅ herr,
    fun s t₁ t₂ t₃ hreq h₁ h₂ h₃ herr => exec_decompress_of_sequence hreq h₁ h₂ h₃ herr,
    fun s t₁ hreq hclear hin hout hdis h₁ => ?_⟩
  have hchecks : (s.inOk && s.outFits && s.disjoint) = true := by
    simp only [Bool.and_eq_true, State.inOk_iff, State.outFits_iff, State.disjoint_iff]
    exact ⟨⟨hin, hout⟩, hdis⟩
  have hframe : ∀ {t : State}, exec .decompress s = .next t → ∀ a,
      (a < s.outBase.toNat ∨ s.outBase.toNat + s.outCap.toNat ≤ a) → t.readBuf a = s.readBuf a :=
    fun h a ha => readBuf_exec_outside hreq h ha
  refine ⟨fun herr => ?_, fun herr t₂ t₃ h₂ h₃ herr₃ => ?_⟩
  · obtain ⟨t, hexec, hgone, ht⟩ := exec_decompress_of_parsehdr_raised hreq hclear hchecks h₁ herr
    exact ⟨t, hexec, hgone, ht, hframe hexec⟩
  · obtain ⟨t, hexec, hgone, ht⟩ := exec_decompress_of_decode_raised hreq hchecks h₁ herr h₂ h₃ herr₃
    exact ⟨t, hexec, hgone, ht, hframe hexec⟩

end Sys2Proof.Machine
end

