-- ==== Sys2Proof/Proofs/TwoAgents.lean ====
section
/-! PROOFS. The two agents (`00_scope.md` R22): which of them moves, what a host operation leaves alone in the busy window
(`70_reset_and_hazards.md` R380, R381), and the window's end (R385). -/

namespace Sys2Proof.Machine

/-! ## Which agent moves -/

theorem State.mover_eq_core_iff (s : State) : s.mover = .core ↔
    s.status.busy = true ∧ ¬ (s.turns.head? = some .host ∧ s.host ≠ []) := by
  rw [State.mover]
  cases s.status.busy with
  | false => simp
  | true =>
    rcases s.turns with _ | ⟨_ | _, ts⟩
    · simp
    · cases s.host <;> simp
    · simp

theorem State.takeTurn_of_busy {s : State} (h : s.status.busy = true) :
    s.takeTurn = { s with turns := s.turns.tail } := if_pos h

theorem step_of_core {s : State} (h : s.mover = .core) : step s = coreStep { s with turns := s.turns.tail } := by
  rw [step, h, State.takeTurn_of_busy (s.mover_eq_core_iff.mp h).1]

/-- The HOST moves while the block is idle, and when `turns` names it. -/
theorem step_of_host {s : State} (h : s.mover = .host) : step s = .next (hostStep s.takeTurn) := by rw [step, h]

theorem step_of_idle {s : State} (h : s.status.busy = false) : step s = .next (hostStep s) := by
  rw [step_of_host (by rw [State.mover, h]; rfl), State.takeTurn, h, if_neg Bool.false_ne_true]

/-- In the busy window the HOST's operation uses up its turn. -/
theorem step_of_host_turn {s : State} {op : HostOp} {rest : List HostOp} {ts : List Agent} (h : s.status.busy = true)
    (hhost : s.host = op :: rest) (hturns : s.turns = .host :: ts) :
    step s = .next (hostOp op { s with host := rest, turns := ts }) := by
  have hmover : s.mover = .host := by simp only [State.mover, h, hhost, hturns, if_true]
  rw [step_of_host hmover, State.takeTurn_of_busy h, hostStep]
  simp only [hhost, hturns, List.tail_cons]

/-- Settles O4. -/
theorem stepRunsTheDecodedCommand : Obligations.StepRunsTheDecodedCommand := by
  refine ⟨fun s i hmover hdecode => ?_, State.mover_eq_core_iff, fun s i => ?_⟩
  · rw [step_of_core hmover]
    exact coreStep_of_ok hdecode
  · have hword : BitVec.ofNat 32 ((encode i).toNat % 2 ^ 32) = encode i := by
      rw [Nat.mod_eq_of_lt (encode i).isLt, BitVec.ofNat_toNat, BitVec.setWidth_eq]
    rw [State.withFetchWord, hword, step_of_core (State.mover_eq_core_iff _ |>.mpr ⟨rfl, by simp [State.present]⟩)]
    exact coreStep_of_ok (decode_encode i)

/-- Settles O5. -/
theorem hostMovesOneOperationAStep : Obligations.HostMovesOneOperationAStep := by
  refine ⟨fun s op rest hidle hhost => ?_, fun s op rest ts => step_of_host_turn, fun s hidle hhost => ?_⟩
  · rw [step_of_idle hidle, hostStep, hhost]
  · rw [step_of_idle hidle, hostStep, hhost]

/-! ## The busy window -/

/-- `s` without what a host operation may write in the busy window (`70_reset_and_hazards.md` R380, R381): CTRL, the
acknowledged bits, HOSTERR, the selectors, the request, and what the model keeps for the HOST. -/
def State.shielded (s : State) : State :=
  { s with
    ie := false, status := { s.status with done := false, err := false, hostErr := false }, tblSel := 0, nodeSel := 0
    work := Work.idle, host := [], hostData := 0, draws := 0 }

section
variable {s : State} (hbusy : s.status.busy = true)
include hbusy

theorem State.whileIdle_of_busy (s' : State) : s.whileIdle s' = s.markHostErr := if_pos hbusy

theorem State.shielded_writeReg (r : Reg) (v : Word) : (s.writeReg r v).shielded = s.shielded := by
  cases r
  case cmd | arg | inBase | inLen | outBase | outCap | outLen =>
    rw [State.writeReg, State.whileIdle_of_busy hbusy]
    rfl
  all_goals rfl

/-- No host operation but hardware reset writes anything else in the busy window. -/
theorem State.shielded_hostOp {op : HostOp} (hop : op ≠ .hardReset) : (hostOp op s).shielded = s.shielded := by
  cases op with
  | regWrite off width v =>
    change (hostRegWrite off width v s).shielded = s.shielded
    rw [hostRegWrite]
    split
    · rfl
    · exact State.shielded_writeReg hbusy _ v
  | regRead off width =>
    change (hostRegRead off width s).shielded = s.shielded
    rcases hostRegRead_cases off width s with ⟨v, h⟩ | ⟨v, h⟩ <;> rw [h] <;> rfl
  | bufWrite a b =>
    change (hostBufWrite a b s).shielded = s.shielded
    rw [hostBufWrite, State.whileIdle_of_busy hbusy]
    rfl
  | bufRead a =>
    change (hostBufRead a s).shielded = s.shielded
    rcases hostBufRead_cases a s with ⟨v, h⟩ | ⟨v, h⟩ <;> rw [h] <;> rfl
  | wait =>
    change (hostWait s).shielded = s.shielded
    rw [hostWait]
    split <;> rfl
  | hardReset => exact absurd rfl hop

end

/-- Settles O15. -/
theorem busyWindowKeepsTheInputs : Obligations.BusyWindowKeepsTheInputs := by
  refine ⟨fun s a b hbusy _ => State.whileIdle_of_busy hbusy _, fun s op hbusy hop => ?_⟩
  have h := State.shielded_hostOp hbusy hop
  exact ⟨(congrArg (fun u => u.status.busy) h :).trans hbusy, (congrArg State.memSize h :), (congrArg State.buf h :),
    (congrArg State.bufEpoch h :), (congrArg State.cmd h :), (congrArg State.arg h :), (congrArg State.inBase h :),
    (congrArg State.inLen h :), (congrArg State.outBase h :), (congrArg State.outCap h :), (congrArg State.outLen h :),
    (congrArg State.ft h :), (congrArg State.bodyOff h :), (congrArg State.arena h :), (congrArg State.cb h :),
    (congrArg (fun u => u.status.treeValid) h :), (congrArg (fun u => u.status.cbValid) h :),
    (congrArg (fun u => u.status.hdrValid) h :)⟩

/-! ## The end of the busy window -/

theorem step_next (s : State) : ∃ t, step s = .next t := by
  rw [step]
  split
  · exact ⟨_, rfl⟩
  · obtain ⟨t, ht, -⟩ := coreStep_completesTo s.takeTurn
    exact ⟨t, ht⟩

/-- A step of the busy window ends it, or it is the HOST's and one turn fewer is left. -/
theorem step_of_busy {s : State} (hbusy : s.status.busy = true) :
    ∃ t, step s = .next t ∧ (t.status.busy = false ∨ (t.status.busy = true ∧ s.turns = .host :: t.turns)) := by
  by_cases hcore : s.mover = .core
  · obtain ⟨t, ht, hend⟩ := coreStep_completesTo { s with turns := s.turns.tail }
    exact ⟨t, (step_of_core hcore).trans ht, .inl hend.busy⟩
  · rw [State.mover_eq_core_iff] at hcore
    obtain ⟨hturn, hpending⟩ := not_not.mp fun h => hcore ⟨hbusy, h⟩
    obtain ⟨ts, hturns⟩ := List.head?_eq_some_iff.mp hturn
    obtain ⟨op, rest, hhost⟩ := List.exists_cons_of_ne_nil hpending
    refine ⟨_, step_of_host_turn hbusy hhost hturns, ?_⟩
    by_cases hop : op = .hardReset
    · subst hop
      exact .inl rfl
    · have h := State.shielded_hostOp (s := { s with host := rest, turns := ts }) hbusy hop
      have hts : (hostOp op { s with host := rest, turns := ts }).turns = ts := (congrArg State.turns h :)
      exact .inr ⟨(congrArg (fun u => u.status.busy) h :).trans hbusy, hturns.trans (by rw [hts])⟩

theorem run_succ {s t : State} (h : step s = .next t) (k : Nat) :
    Host.Core.run Sys2Proof.core (k + 1) s = Host.Core.run Sys2Proof.core k t := by
  have hstep : Sys2Proof.core.step s = .next t := h
  simp only [Host.Core.run, hstep]

/-- Settles O6: every step of the busy window that does not end it uses up a turn. -/
theorem acceptedCommandCompletes : Obligations.AcceptedCommandCompletes := by
  refine ⟨step_next, fun s hbusy => ?_⟩
  induction hturns : s.turns generalizing s with
  | nil =>
    obtain ⟨t, ht, hidle | ⟨-, hmore⟩⟩ := step_of_busy hbusy
    · exact ⟨1, le_rfl, t, run_succ ht 0, hidle⟩
    · cases hturns.symm.trans hmore
  | cons a ts ih =>
    obtain ⟨t, ht, hidle | ⟨hstill, hmore⟩⟩ := step_of_busy hbusy
    · exact ⟨1, Nat.succ_le_succ (Nat.zero_le _), t, run_succ ht 0, hidle⟩
    · obtain ⟨-, hts⟩ := List.cons.inj (hturns.symm.trans hmore)
      obtain ⟨k, hk, u, hrun, hidle⟩ := ih t hstill hts.symm
      exact ⟨k + 1, Nat.succ_le_succ hk, u, (run_succ ht k).trans hrun, hidle⟩

end Sys2Proof.Machine
end

