-- ==== Sys2Proof/Proofs/HostAccesses.lean ====
section
/-! PROOFS. The HOST's accesses (`10_state.md` R32 to R54; `20_memory.md` R85, R92; `70_reset_and_hazards.md` R370, R380,
R381): each register's write and read, by its offset. -/

namespace Sys2Proof.Machine

/-! ## Registers by their offsets -/

/-- A register is found at its own offset only. -/
theorem offset_of_regAt {off : BitVec 12} {r : Reg} (h : regAt off = some r) : r.offset = off := by
  rw [regAt] at h
  split at h
  case h_37 => cases h
  all_goals
    next he =>
      obtain rfl := Option.some.inj h
      exact BitVec.eq_of_toNat_eq he.symm

section
variable {s : State}

/-! ## Writes -/

theorem State.whileIdle_of_idle (h : s.status.busy = false) (s' : State) : s.whileIdle s' = s' := by
  rw [State.whileIdle, h, if_neg Bool.false_ne_true]

/-- The registers whose writes wait for an idle block (`70_reset_and_hazards.md` R380). -/
def guardedRegs : List Reg := [.cmd, .arg, .inBase, .inLen, .outBase, .outCap, .outLen]

theorem State.writeReg_of_busy (h : s.status.busy = true) {r : Reg} (hr : r ∈ guardedRegs) (v : Word) :
    s.writeReg r v = s.markHostErr := by
  simp only [guardedRegs, List.mem_cons, List.not_mem_nil, or_false] at hr
  rcases hr with rfl | rfl | rfl | rfl | rfl | rfl | rfl <;> exact State.whileIdle_of_busy h _

/-- The registers a write reaches (`10_state.md` R32). -/
def writableRegs : List Reg :=
  [.ctrl, .status, .cmd, .arg, .inBase, .inLen, .outBase, .outCap, .outLen, .tblSel, .nodeSel]

theorem State.writeReg_readOnly {r : Reg} (hr : r ∉ writableRegs) (v : Word) : s.writeReg r v = s := by
  cases r
  case ctrl | status | cmd | arg | inBase | inLen | outBase | outCap | outLen | tblSel | nodeSel =>
    exact absurd hr (by decide)
  all_goals rfl

/-- Settles O8. -/
theorem busyWritesAreIgnoredOrTakeEffect : Obligations.BusyWritesAreIgnoredOrTakeEffect := by
  refine ⟨fun s off v hbusy hoff => ?_, fun s a b hbusy _ => State.whileIdle_of_busy hbusy _, fun s v hbusy => ?_,
    fun s v _ => hostOp_regWrite_offset .status v s,
    fun s v _ => ⟨hostOp_regWrite_offset .tblSel v s, hostOp_regWrite_offset .nodeSel v s⟩, fun s off v hoff => ?_⟩
  · obtain ⟨r, hr, rfl⟩ : ∃ r ∈ guardedRegs, r.offset = off := List.mem_map.mp hoff
    exact (hostOp_regWrite_offset r v s).trans (State.writeReg_of_busy hbusy hr v)
  · refine (hostOp_regWrite_offset .ctrl v s).trans ?_
    rw [State.writeReg, State.writeCtrl, hbusy, Bool.true_and]
  · change hostRegWrite off 32 v s = s
    rw [hostRegWrite, accessed, if_pos rfl]
    cases hreg : regAt off with
    | none => rfl
    | some r =>
      obtain rfl := offset_of_regAt hreg
      exact State.writeReg_readOnly (fun hr => hoff (List.mem_map_of_mem (f := Reg.offset) hr)) v

/-! ## Acceptance -/

theorem encode_injective {i j : Instr} (h : encode i = encode j) : i = j :=
  Except.ok.inj ((decode_encode i).symm.trans ((congrArg decode h).trans (decode_encode j)))

theorem startsAtZero_iff (w : Word) : startsAtZero w = true ↔ w = 0x0B ∨ w = 0x0C := by simp [startsAtZero]

/-- The two pipelines' words are those that start their output at 0 (`45_control.md` R303, R304). -/
theorem State.outStart_accept_encode (s : State) (i : Instr) : (s.accept (encode i)).work.outStart = outStartOf i s := by
  change (if startsAtZero (encode i) then 0 else s.outLen) = _
  by_cases hcomp : i = .compress
  · subst hcomp
    rfl
  by_cases hdecomp : i = .decompress
  · subst hdecomp
    rfl
  · have hword : ¬ startsAtZero (encode i) = true := fun h => ((startsAtZero_iff _).mp h).elim
      (fun he => hcomp (encode_injective he)) fun he => hdecomp (encode_injective he)
    rw [if_neg hword]
    cases i
    case compress => exact absurd rfl hcomp
    case decompress => exact absurd rfl hdecomp
    all_goals rfl

theorem hostOp_cmd_of_idle (h : s.status.busy = false) (w : Word) : hostOp (.regWrite 0x00C 32 w) s = s.accept w :=
  (hostOp_regWrite_offset .cmd w s).trans (State.writeReg_cmd_of_idle w h)

/-! ## Reads -/

/-- A read of a register: a draw for the listed ones while busy, and else the stored value
(`70_reset_and_hazards.md` R381). -/
theorem hostOp_regRead_offset (r : Reg) (s : State) : hostOp (.regRead r.offset 32) s =
    if s.status.busy && r.anyWhileBusy then s.returnDraw (Config.freeWord s.draws) else s.returnData (s.regValue r) := by
  simp only [hostOp, hostRegRead, accessed_offset]

theorem hostOp_regRead_stored {r : Reg} (h : s.status.busy = false ∨ r.anyWhileBusy = false) :
    hostOp (.regRead r.offset 32) s = s.returnData (s.regValue r) := by
  rw [hostOp_regRead_offset, Bool.and_eq_false_iff.mpr h, if_neg Bool.false_ne_true]

/-- Settles O7. -/
theorem writeToCmdIsAcceptance : Obligations.WriteToCmdIsAcceptance := by
  refine ⟨fun s w hidle => ?_, fun s i hidle => ?_, fun s w hidle hhost => ?_, fun s w hbusy => ?_, fun s => ?_,
    fun _ => rfl⟩
  · refine ⟨(s.accept w).work, ⟨rfl, rfl⟩, ?_, hostOp_cmd_of_idle hidle w⟩
    simp only [State.accept, startsAtZero_iff]
  · rw [hostOp_cmd_of_idle hidle]
    exact ⟨rfl, rfl, s.outStart_accept_encode i⟩
  · rw [hostOp_cmd_of_idle hidle]
    have hcore : (s.accept w).mover = .core :=
      (State.mover_eq_core_iff _).mpr ⟨rfl, fun hpending => hpending.2 hhost⟩
    exact ⟨_, step_of_core hcore⟩
  · exact (hostOp_regWrite_offset .cmd w s).trans (State.writeReg_of_busy hbusy List.mem_cons_self w)
  · exact congrArg State.hostData (hostOp_regRead_stored (r := .cmd) (.inr rfl))

/-- Settles O12: such an access reaches no register. -/
theorem reservedSpaceReadsZeroAndIgnoresWrites : Obligations.ReservedSpaceReadsZeroAndIgnoresWrites := by
  intro s off width v h
  have hnone := accessed_eq_none h
  refine ⟨?_, ?_⟩
  · change hostRegRead off width s = _
    rw [hostRegRead, hnone]
    rfl
  · change hostRegWrite off width v s = s
    rw [hostRegWrite, hnone]

/-! ### STATUS -/

/-- Each STATUS bit stands at its place (`10_state.md` R35). -/
theorem Status.getLsbD_word (f : Status) (n : Nat) : f.word.getLsbD n =
    [f.busy, f.done, f.err, f.hostErr, f.treeValid, f.cbValid, f.hdrValid].getD n false := by
  by_cases hn : n < 7
  · have hpush : ∀ {w : Nat} (x : BitVec w) (b : Bool) (i : Nat),
        (x ++ BitVec.ofBool b).getLsbD i = if i = 0 then b else x.getLsbD (i - 1) := BitVec.getLsbD_concat
    simp only [Status.word, BitVec.getLsbD_setWidth, hpush]
    interval_cases n <;> simp
  · rw [List.getD_eq_default _ _ (by simpa using hn)]
    simp only [Status.word, BitVec.getLsbD_setWidth]
    rw [BitVec.getLsbD_of_ge _ _ (by omega), Bool.and_false]

/-- Settles O10. -/
theorem readsShowStatusAndHaveNoSideEffect : Obligations.ReadsShowStatusAndHaveNoSideEffect := by
  refine ⟨fun s => ?_, fun s off width => ?_⟩
  · have hword : (hostOp (.regRead 0x008 32) s).hostData = s.status.word :=
      congrArg State.hostData (hostOp_regRead_stored (r := .status) (.inr rfl))
    simp only [hword, Status.getLsbD_word]
    exact ⟨rfl, rfl, rfl, rfl, rfl, rfl, rfl, fun n hn => List.getD_eq_default _ _ hn⟩
  · rcases hostRegRead_cases off width s with ⟨v, h⟩ | ⟨v, h⟩
    · exact ⟨v, s.draws, h⟩
    · exact ⟨v, s.draws + 1, h⟩

/-! ### The idle block -/

/-- A frequency's two halves (`10_state.md` R40, R43). -/
theorem toNat_lowWord (f : Freq40) : (f.extractLsb' 0 32).toNat = f.toNat % 2 ^ 32 := by simp

theorem toNat_highWord (f : Freq40) : ((f.extractLsb' 32 8).zeroExtend 32).toNat = f.toNat / 2 ^ 32 := by
  have hlt := f.isLt
  rw [BitVec.toNat_setWidth, BitVec.extractLsb'_toNat, Nat.shiftRight_eq_div_pow]
  omega

/-- A shorter value reads as itself, the bits above it 0. -/
theorem toNat_zeroExtend_word {w : Nat} (hw : w ≤ 32) (x : BitVec w) : (x.zeroExtend 32).toNat = x.toNat :=
  BitVec.toNat_setWidth_of_le hw

theorem zeroExtend_ofBool_word (b : Bool) : (BitVec.ofBool b).zeroExtend 32 = if b then (1 : Word) else 0 := by
  cases b <;> rfl

theorem hostData_regRead_of_idle (h : s.status.busy = false) (r : Reg) :
    (hostOp (.regRead r.offset 32) s).hostData = s.regValue r :=
  congrArg State.hostData (hostOp_regRead_stored (.inl h))

/-- Settles O9. -/
theorem idleWritesTakeEffect : Obligations.IdleWritesTakeEffect := by
  refine ⟨fun s v hidle => ?writes, fun s hidle => ?reads⟩
  case writes =>
    have hguarded : ∀ (r : Reg) (t : State), s.writeReg r v = s.whileIdle t →
        hostOp (.regWrite r.offset 32 v) s = t := fun r t h => by
      rw [hostOp_regWrite_offset, h, State.whileIdle_of_idle hidle]
    refine ⟨hguarded .arg _ rfl, hguarded .inBase _ rfl, hguarded .inLen _ rfl, hguarded .outBase _ rfl,
      hguarded .outCap _ rfl, hguarded .outLen _ rfl, ?_, hostOp_regWrite_offset .status v s,
      hostOp_regWrite_offset .tblSel v s, hostOp_regWrite_offset .nodeSel v s⟩
    refine (hostOp_regWrite_offset .ctrl v s).trans ?_
    rw [State.writeReg, State.writeCtrl, hidle, Bool.false_and, Bool.or_false]
  case reads =>
    intro rd
    have hrd := hostData_regRead_of_idle hidle
    have hnat : ∀ (r : Reg) {w : Nat} (x : BitVec w), w ≤ 32 → s.regValue r = x.zeroExtend 32 →
        (rd r.offset).toNat = x.toNat := fun r w x hw hx =>
      (congrArg BitVec.toNat ((hrd r).trans hx)).trans (toNat_zeroExtend_word hw x)
    exact ⟨hrd .id, (hrd .ctrl).trans (zeroExtend_ofBool_word _), hrd .arg, hnat .errCode _ (by decide) rfl,
      hrd .errPos, hrd .inBase, hrd .inLen, hrd .outBase, hrd .outCap, hrd .outLen,
      hnat .leafCnt _ (by decide) rfl, (congrArg BitVec.toNat (hrd .totalLo)).trans (toNat_lowWord _),
      (congrArg BitVec.toNat (hrd .totalHi)).trans (toNat_highWord _), hrd .bodyOff, hnat .root _ (by decide) rfl,
      hnat .nodeCnt _ (by decide) rfl, hnat .maxLen _ (by decide) rfl, hnat .tblSel _ (by decide) rfl,
      hnat .nodeSel _ (by decide) rfl⟩

/-- The word NODE_INFO reads as (`10_state.md` R52). -/
theorem toNat_nodeInfo (v : Byte) (k : BitVec 2) :
    ((v ++ (0 : BitVec 6) ++ k).zeroExtend 32).toNat = 256 * v.toNat + k.toNat := by
  have hk := k.isLt
  rw [toNat_zeroExtend_word (by decide), BitVec.toNat_append, BitVec.toNat_append,
    ← Nat.shiftLeft_add_eq_or_of_lt hk, ← Nat.shiftLeft_add_eq_or_of_lt (by decide), Nat.shiftLeft_eq, Nat.shiftLeft_eq]
  simp
  omega

/-- The word NODE_LINK reads as (`10_state.md` R52). -/
theorem toNat_nodeLink (r l : NodeIdx) :
    ((r.zeroExtend 32 <<< 16) ||| l.zeroExtend 32 : Word).toNat = 65536 * r.toNat + l.toNat := by
  have hr := r.isLt
  have hl := l.isLt
  rw [BitVec.toNat_or, BitVec.toNat_shiftLeft, toNat_zeroExtend_word (by decide), toNat_zeroExtend_word (by decide),
    Nat.mod_eq_of_lt (by rw [Nat.shiftLeft_eq]; omega), ← Nat.shiftLeft_add_eq_or_of_lt (by omega), Nat.shiftLeft_eq]
  omega

/-- The k-th word of a code holds its bits from 32k on (`10_state.md` R51). -/
theorem getLsbD_codeWord (bits : CodeBits) {k j : Nat} (hk : k < 8) (hj : j < 32) :
    ((bits.zeroExtend 256).extractLsb' (32 * k) 32).getLsbD j = bits.getLsbD (32 * k + j) := by
  have hin : 32 * k + j < 256 := by omega
  simp only [BitVec.getLsbD_extractLsb', BitVec.getLsbD_setWidth, hj, hin, decide_true, Bool.true_and]

/-- Settles O11. -/
theorem readPortsShowTheSelectedEntry : Obligations.ReadPortsShowTheSelectedEntry := by
  intro s hidle rd
  have hrd := hostData_regRead_of_idle hidle
  have hnat : ∀ (r : Reg) {n : Nat}, (s.regValue r).toNat = n → (rd r.offset).toNat = n := fun r n hn =>
    (congrArg BitVec.toNat (hrd r)).trans hn
  refine ⟨hrd .tblFreq, hnat .tblOrder (toNat_zeroExtend_word (by decide) _),
    hnat .tblClen (toNat_zeroExtend_word (by decide) _), fun k hk j hj => ?code, fun _ => ?node, fun hnull => ?null⟩
  case code =>
    refine (congrArg (BitVec.getLsbD · j) ((congrArg rd ?_).trans (hrd (.tblCode ⟨k, hk⟩)))).trans
      (getLsbD_codeWord _ hk hj)
    rfl
  case node =>
    exact ⟨hnat .nodeInfo (toNat_nodeInfo _ _), hnat .nodeLink (toNat_nodeLink _ _), hnat .nodeFreqLo (toNat_lowWord _),
      hnat .nodeFreqHi (toNat_highWord _)⟩
  case null =>
    have hport : s.portNode = Node.empty := by
      rw [State.portNode, hnull]
      exact s.arena.nodeAt_null
    have hread : ∀ (r : Reg) (v : Word), s.regValue r = v → rd r.offset = v := fun r v h => (hrd r).trans h
    refine ⟨hread .nodeInfo _ ?_, hread .nodeLink _ ?_, hread .nodeFreqLo _ ?_, hread .nodeFreqHi _ ?_⟩ <;>
      simp only [State.regValue, hport] <;> rfl

/-! ### The busy block -/

/-- The registers a busy read draws a value for (`70_reset_and_hazards.md` R381). -/
def drawnRegs : List Reg :=
  [.outLen, .leafCnt, .totalLo, .totalHi, .bodyOff, .root, .nodeCnt, .maxLen, .tblFreq, .tblOrder, .tblClen,
    .tblCode 0, .tblCode 1, .tblCode 2, .tblCode 3, .tblCode 4, .tblCode 5, .tblCode 6, .tblCode 7, .nodeInfo,
    .nodeLink, .nodeFreqLo, .nodeFreqHi]

theorem anyWhileBusy_of_mem_drawnRegs : ∀ {r : Reg}, r ∈ drawnRegs → r.anyWhileBusy = true := by decide

/-- The output region from OUT_START on (`20_memory.md` R93). -/
theorem State.inOutput_iff (a : Nat) : s.inOutput a = true ↔
    s.outBase.toNat + s.work.outStart.toNat ≤ a ∧ a < s.outBase.toNat + s.outCap.toNat := by
  simp [State.inOutput]

/-- Settles O14. -/
theorem busyReadsReturnDrawsOrStoredValues : Obligations.BusyReadsReturnDrawsOrStoredValues := by
  refine ⟨fun s off hbusy hoff => ?drawn, fun s _ => ?stored, fun s a hbusy ha hlo hhi => ?inside,
    fun s a hbusy ha hout => ?outside⟩
  case drawn =>
    obtain ⟨r, hr, rfl⟩ : ∃ r ∈ drawnRegs, r.offset = off := List.mem_map.mp hoff
    rw [hostOp_regRead_offset, hbusy, anyWhileBusy_of_mem_drawnRegs hr, Bool.and_self, if_pos rfl]
    rfl
  case stored =>
    intro rd
    have hrd : ∀ (r : Reg) (v : Word), r.anyWhileBusy = false → s.regValue r = v → rd r.offset = s.returnData v :=
      fun r v hr hv => (hostOp_regRead_stored (.inr hr)).trans (congrArg s.returnData hv)
    exact ⟨hrd .id _ rfl rfl, hrd .ctrl _ rfl (zeroExtend_ofBool_word _), hrd .status _ rfl rfl, hrd .cmd _ rfl rfl,
      hrd .arg _ rfl rfl, hrd .errPos _ rfl rfl, hrd .errCode _ rfl rfl, hrd .inBase _ rfl rfl, hrd .inLen _ rfl rfl,
      hrd .outBase _ rfl rfl, hrd .outCap _ rfl rfl, hrd .tblSel _ rfl rfl, hrd .nodeSel _ rfl rfl⟩
  case inside =>
    change hostBufRead a s = _
    rw [hostBufRead, if_pos ha, hbusy, (State.inOutput_iff a).mpr ⟨hlo, hhi⟩, Bool.and_self, if_pos rfl]
    rfl
  case outside =>
    have hnot : s.inOutput a = false := Bool.eq_false_iff.mpr fun h => by
      obtain ⟨hlo, hhi⟩ := (State.inOutput_iff a).mp h
      omega
    change hostBufRead a s = _
    rw [hostBufRead, if_pos ha, hnot, Bool.and_false, if_neg Bool.false_ne_true]
    rfl

/-! ## Hardware reset -/

/-- Settles O17. -/
theorem hardwareResetValues : Obligations.HardwareResetValues := by
  intro s t
  exact ⟨rfl, fun _ => rfl, rfl, rfl, rfl, rfl, rfl, rfl, rfl, rfl, rfl, rfl, rfl, rfl, FreqTable.freqOf_empty,
    FreqTable.orderAt_empty, rfl, rfl, rfl, Arena.nodeAt_empty, rfl, rfl,
    fun v => ⟨Codebook.lenOf_empty v, Codebook.bitsOf_empty v⟩, rfl, rfl, rfl, rfl, rfl, rfl⟩

end

end Sys2Proof.Machine
end
